-- ==== Sys2Proof/Word.lean ====
section
/-! DEFINITION. The widths of spec/00_scope.md R8: bytes, 16-bit words, the host's 32- and 64-bit values. -/

namespace Sys2Proof

/-- `u8` (R8): a CPU register, a memory cell, an operand byte. -/
abbrev Byte := BitVec 8

/-- `u16` (R8): a CPU address, the program counter. -/
abbrev Word := BitVec 16

/-- `u32` (R8). -/
abbrev U32 := BitVec 32

/-- `u64`: the host's counters (10_state.md R34). -/
abbrev U64 := BitVec 64

/-- `f32`, held as the 32 bits of its IEEE 754 single-precision form (62_apu.md R531). -/
abbrev F32 := BitVec 32

end Sys2Proof
end

