-- ==== Sys2Proof/Config.lean ====
section
/-! DEFINITION. The implementation parameters of spec/00_scope.md R6, the open parameters of
spec/92_eei_decisions.md, and the free values (opaque constants: nothing can be proved of their values). -/

namespace Sys2Proof.Config

/-- STACK_PAGE (R6, 10_state.md R23). -/
def stackPage : Word := 0x0100#16

/-- NMI_VECTOR (R6). -/
def nmiVector : Word := 0xFFFA#16

/-- RESET_VECTOR (R6). -/
def resetVector : Word := 0xFFFC#16

/-- IRQ_VECTOR (R6), shared by BRK. -/
def irqVector : Word := 0xFFFE#16

/-- INTERRUPT_CYCLES (R6, 60_exceptions.md R303). -/
def interruptCycles : Nat := 7

/-- RESET_SP (R6). -/
def resetSp : Byte := 0xFD#8

/-- RESET_P (R6): I and U set. -/
def resetP : Byte := 0x24#8

/-- RESET_A, RESET_X, RESET_Y (R6, 70_reset_and_hazards.md R701, D2). DESIGN CHOICE, unsafe: entry 3. -/
def resetAxy : Byte := 0x00#8

/-- The default of UNOFFICIAL_LEN (R6, 45_flags_nop.md R248, D1), the parameter `Params.unofficialLens`. DESIGN CHOICE,
unsafe: entry 17. -/
def unofficialLen : Nat := 1

/-- UNOFFICIAL_CYCLES (R6). -/
def unofficialCycles : Nat := 2

/-- What an unlisted cell of a canonical memory reads as: a convention of the representation, entry 5. -/
def unlistedByte : Byte := 0x00#8

/-- DMA_CYCLES (R6, 20_memory.md R72, R73). -/
def dmaCycles : BitVec 16 := 513#16

/-- PPU_DOTS_PER_CPU_CYCLE (R6). -/
def ppuDotsPerCpuCycle : Nat := 3

/-- DOTS_PER_LINE (R6). -/
def dotsPerLine : Nat := 341

/-- The last scanline, the pre-render line (61_ppu.md R403). -/
def preRenderLine : Nat := 261

/-- DOTS in a whole frame, 341 * 262 (61_ppu.md R403). -/
def dotsPerFrame : Nat := 89342

/-- NMI_DELAY_DOTS (R6, 61_ppu.md R441). -/
def nmiDelayDots : Byte := 15#8

/-- VBL_CLEAR_DOT (R6, 61_ppu.md R443, D12). -/
def vblClearDot : Nat := 1

/-- FRAME_COUNTER_PERIOD (R6, 62_apu.md R503, D26). -/
def frameCounterPeriod : BitVec 16 := 7457#16

/-- SAMPLE_RATE (R6, 62_apu.md R530). -/
def sampleRate : U32 := 44100#32

/-- CPU_FREQ (R6, 62_apu.md R530). -/
def cpuFreq : U32 := 1789773#32

/-- AUDIO_RING_PAIRS (R6, 62_apu.md R532). -/
def audioRingPairs : Nat := 8192

/-- A12_FILTER_DOTS (R6, 63_cartridge_mappers.md R595). -/
def a12FilterDots : Nat := 16

/-- The mapper numbers of 63_cartridge_mappers.md R560. -/
def supportedMappers : List Nat := [0, 1, 2, 3, 4, 7, 9, 10, 11, 34, 66, 71, 79, 206]

/-- POWER_ON_RAM: the bytes of each memory after `load_rom`, from address 0 on; a byte past the end of a list is
`unlistedByte` (R6, 70_reset_and_hazards.md R705, D29). -/
structure PowerOnRam where
  ram : List Byte
  prgRam : List Byte
  chrRam : List Byte
  oam : List Byte
  nametableRam : List Byte
  paletteRam : List Byte
  deriving DecidableEq, Repr

/-- The open parameters of the machine (R6; 92_eei_decisions.md, "Open parameters in one place"); MASTER_PALETTE, which has
no default, is the free value below. -/
structure Params where
  /-- UNOFFICIAL_LEN, per opcode: the lengths of the unofficial opcode bytes listed; one not listed has `unofficialLen`
  (45_flags_nop.md R248, D1). -/
  unofficialLens : List (Byte × Nat)
  /-- POWER_ON_RAM (70_reset_and_hazards.md R705, D29). -/
  powerOnRam : PowerOnRam
  /-- APU_IRQ_ROUTED (60_exceptions.md R312, D9). -/
  apuIrqRouted : Bool
  /-- LOWPASS_ALPHA (62_apu.md R531, D28). -/
  lowpassAlpha : F32
  /-- RESET_CYCLES (70_reset_and_hazards.md R703, D4). -/
  resetCycles : Nat
  deriving DecidableEq, Repr

/-- UNOFFICIAL_LEN of one opcode byte. -/
def Params.unofficialLenOf (p : Params) (op : Byte) : Nat := (p.unofficialLens.lookup op).getD unofficialLen

/-- The default of POWER_ON_RAM: every byte 0 (R6). DESIGN CHOICE, unsafe: entry 5. -/
def PowerOnRam.zero : PowerOnRam where
  ram := []
  prgRam := []
  chrRam := []
  oam := []
  nametableRam := []
  paletteRam := []

/-- The defaults of R6: one byte; every byte 0; not routed; 0.6 rounded to single precision (0x3F19999A); 0.
DESIGN CHOICE, unsafe: entries 5, 8, 12, 17, 18. -/
def defaults : Params where
  unofficialLens := []
  powerOnRam := .zero
  apuIrqRouted := false
  lowpassAlpha := 0x3F19999A#32
  resetCycles := 0

/-- MASTER_PALETTE (61_ppu.md R464): 64 colours whose values the spec does not have. FREE VALUE, safe: entry 10. -/
opaque masterPalette : BitVec 6 → U32

/-- The byte a switched PRG bank reads as when the PRG ROM is smaller than one bank, so that
63_cartridge_mappers.md R557 reduces modulo 0: a function of the ROM size, the bank size, the bank
number and the offset. FREE VALUE, safe: entry 14. -/
opaque undersizedPrgByte : Nat → Nat → Int → Nat → Byte

end Sys2Proof.Config
end

