-- ==== Sys2Proof/Machine/Bits.lean ====
section
/-! DEFINITION. Slicing, concatenation and sign extension (spec/00_scope.md R7, R8). -/

namespace Sys2Proof.Machine

/-- `hi8(w) = w[15:8]` (R7). -/
def hi8 (w : Word) : Byte := w.extractLsb' 8 8

/-- `lo8(w) = w[7:0]` (R7). -/
def lo8 (w : Word) : Byte := w.extractLsb' 0 8

/-- `(h, l)` concatenated, h * 256 + l (R7). -/
def mkWord (h l : Byte) : Word := h ++ l

/-- A byte as a 16-bit value with high byte 0x00 (30_encoding.md R115). -/
def zext16 (b : Byte) : Word := b.zeroExtend 16

/-- `sext_8` as a 16-bit two's-complement value, for addition modulo 65536 (R8, 30_encoding.md R124). -/
def sext16 (b : Byte) : Word := b.signExtend 16

/-- Bit `i` of a byte, `v[i]` (R7). -/
def bitOf (v : Byte) (i : Nat) : Bool := v.getLsbD i

/-- `1 if b else 0`, as a byte. -/
def bit8 (b : Bool) : Byte := if b then 1#8 else 0#8

/-- `reverse_bits_8` (61_ppu.md R427). -/
def reverseBits8 (v : Byte) : Byte := v.reverse

end Sys2Proof.Machine
end

