-- ==== Sys2Proof/Syntax.lean ====
section
/-! DEFINITION. The instructions of spec/30_encoding.md R125 and R127: one constructor per mnemonic of
spec/opcode_table.json; the rows of one mnemonic are the forms of its operand. -/

namespace Sys2Proof

/-- The addressing modes that compute an address (R115-R120, R122, R123), with their operand bytes. -/
inductive Addr where
  /-- zero-page (R115) -/
  | zp (z : Byte)
  /-- zero-page,X (R116) -/
  | zpx (z : Byte)
  /-- zero-page,Y (R117) -/
  | zpy (z : Byte)
  /-- absolute (R118) -/
  | abs (a : Word)
  /-- absolute,X (R119) -/
  | abx (a : Word)
  /-- absolute,Y (R120) -/
  | aby (a : Word)
  /-- (indirect,X) (R122) -/
  | izx (z : Byte)
  /-- (indirect),Y (R123) -/
  | izy (z : Byte)
  deriving DecidableEq, Repr

/-- The operand of a reading instruction: an immediate byte (R114) or a byte of memory. -/
inductive Source where
  | imm (v : Byte)
  | mem (m : Addr)
  deriving DecidableEq, Repr

/-- The operand of a shift or rotate: the accumulator (R113) or a byte of memory. -/
inductive ShiftOperand where
  | acc
  | mem (m : Addr)
  deriving DecidableEq, Repr

/-- The target of JMP: absolute (R118) or through a pointer (R121). -/
inductive JumpTarget where
  | abs (a : Word)
  | ind (p : Word)
  deriving DecidableEq, Repr

/-- The 56 official mnemonics and NOP* (the 105 unofficial opcode bytes, R127, R248). -/
inductive Instr where
  | lda (src : Source)
  | ldx (src : Source)
  | ldy (src : Source)
  | sta (dst : Addr)
  | stx (dst : Addr)
  | sty (dst : Addr)
  | tax
  | tay
  | txa
  | tya
  | tsx
  | txs
  | pha
  | php
  | pla
  | plp
  | adc (src : Source)
  | sbc (src : Source)
  | cmp (src : Source)
  | cpx (src : Source)
  | cpy (src : Source)
  | inc (dst : Addr)
  | inx
  | iny
  | dec (dst : Addr)
  | dex
  | dey
  | and (src : Source)
  | ora (src : Source)
  | eor (src : Source)
  | bit (src : Addr)
  | asl (opd : ShiftOperand)
  | lsr (opd : ShiftOperand)
  | rol (opd : ShiftOperand)
  | ror (opd : ShiftOperand)
  | jmp (target : JumpTarget)
  | jsr (target : Word)
  | rts
  | rti
  | brk
  | bcc (off : Byte)
  | bcs (off : Byte)
  | beq (off : Byte)
  | bne (off : Byte)
  | bmi (off : Byte)
  | bpl (off : Byte)
  | bvc (off : Byte)
  | bvs (off : Byte)
  | clc
  | sec
  | cli
  | sei
  | cld
  | sed
  | clv
  | nop
  /-- An unofficial opcode byte (R127): one byte, no operand. -/
  | nopStar (op : Byte)
  deriving DecidableEq, Repr

end Sys2Proof
end

