-- ==== Sys2Proof/WellFormed.lean ====
section
/-! DEFINITION. Which instruction terms an encoding exists for: the operand forms of each mnemonic
(spec/30_encoding.md R125) and the list of unofficial opcode bytes (R127). -/

namespace Sys2Proof

/-- The unofficial opcode bytes, as R127 lists them. -/
def unofficialOpcodes : List Nat :=
  [0x02, 0x03, 0x04, 0x07, 0x0B, 0x0C, 0x0F, 0x12, 0x13, 0x14, 0x17, 0x1A, 0x1B, 0x1C, 0x1F, 0x22, 0x23, 0x27, 0x2B, 0x2F]
  ++ [0x32, 0x33, 0x34, 0x37, 0x3A, 0x3B, 0x3C, 0x3F, 0x42, 0x43, 0x44, 0x47, 0x4B, 0x4F, 0x52, 0x53, 0x54, 0x57, 0x5A, 0x5B]
  ++ [0x5C, 0x5F, 0x62, 0x63, 0x64, 0x67, 0x6B, 0x6F, 0x72, 0x73, 0x74, 0x77, 0x7A, 0x7B, 0x7C, 0x7F, 0x80, 0x82, 0x83, 0x87]
  ++ [0x89, 0x8B, 0x8F, 0x92, 0x93, 0x97, 0x9B, 0x9C, 0x9E, 0x9F, 0xA3, 0xA7, 0xAB, 0xAF, 0xB2, 0xB3, 0xB7, 0xBB, 0xBF, 0xC2]
  ++ [0xC3, 0xC7, 0xCB, 0xCF, 0xD2, 0xD3, 0xD4, 0xD7, 0xDA, 0xDB, 0xDC, 0xDF, 0xE2, 0xE3, 0xE7, 0xEB, 0xEF, 0xF2, 0xF3, 0xF4]
  ++ [0xF7, 0xFA, 0xFB, 0xFC, 0xFF]

/-- zp, zpx, abs, abx: the memory forms of INC, DEC and the shifts. -/
def Addr.isRmw : Addr → Bool
  | .zp _ | .zpx _ | .abs _ | .abx _ => true
  | .zpy _ | .aby _ | .izx _ | .izy _ => false

/-- Every mode but zpy: the memory forms of the accumulator instructions and of STA. -/
def Addr.isAccumulator : Addr → Bool
  | .zpy _ => false
  | .zp _ | .zpx _ | .abs _ | .abx _ | .aby _ | .izx _ | .izy _ => true

/-- zp and abs: the memory forms of BIT, CPX, CPY. -/
def Addr.isPlain : Addr → Bool
  | .zp _ | .abs _ => true
  | .zpx _ | .zpy _ | .abx _ | .aby _ | .izx _ | .izy _ => false

/-- zp, zpy, abs: the forms of STX. -/
def Addr.isStx : Addr → Bool
  | .zp _ | .zpy _ | .abs _ => true
  | .zpx _ | .abx _ | .aby _ | .izx _ | .izy _ => false

/-- zp, zpx, abs: the forms of STY. -/
def Addr.isSty : Addr → Bool
  | .zp _ | .zpx _ | .abs _ => true
  | .zpy _ | .abx _ | .aby _ | .izx _ | .izy _ => false

/-- STX's memory forms and aby: the memory forms of LDX. -/
def Addr.isLdx : Addr → Bool
  | .zp _ | .zpy _ | .abs _ | .aby _ => true
  | .zpx _ | .abx _ | .izx _ | .izy _ => false

/-- An immediate, or a memory form that `ok` admits. -/
def Source.wf (ok : Addr → Bool) : Source → Bool
  | .imm _ => true
  | .mem m => ok m

/-- The accumulator, or one of the four memory forms. -/
def ShiftOperand.wf : ShiftOperand → Bool
  | .acc => true
  | .mem m => m.isRmw

/-- The operand form is one that R125 gives the mnemonic, and NOP* carries a byte of R127. -/
def Instr.wf : Instr → Bool
  | .lda src | .adc src | .sbc src | .cmp src | .and src | .ora src | .eor src => src.wf Addr.isAccumulator
  | .ldx src => src.wf Addr.isLdx
  | .ldy src => src.wf Addr.isRmw
  | .cpx src | .cpy src => src.wf Addr.isPlain
  | .sta dst => dst.isAccumulator
  | .stx dst => dst.isStx
  | .sty dst => dst.isSty
  | .bit src => src.isPlain
  | .inc dst | .dec dst => dst.isRmw
  | .asl opd | .lsr opd | .rol opd | .ror opd => opd.wf
  | .nopStar op => unofficialOpcodes.contains op.toNat
  | .tax | .tay | .txa | .tya | .tsx | .txs | .pha | .php | .pla | .plp => true
  | .inx | .iny | .dex | .dey | .jmp _ | .jsr _ | .rts | .rti | .brk => true
  | .bcc _ | .bcs _ | .beq _ | .bne _ | .bmi _ | .bpl _ | .bvc _ | .bvs _ => true
  | .clc | .sec | .cli | .sei | .cld | .sed | .clv | .nop => true

end Sys2Proof
end

