-- ==== Sys2Proof/Decode.lean ====
section
/-! DEFINITION. The decoder (spec/30_encoding.md R110, R111, R125, R127), total on any bytes, and the encoder
written from the same tables. -/

namespace Sys2Proof

open Sys2Proof.Machine

/-- The instruction of an opcode byte with operand bytes `lo`, `hi` (R125; every other byte is NOP*, R127).
The opcode byte alone selects the row (R111); a row without operand bytes ignores them. -/
def decodeRow (op lo hi : Byte) : Instr :=
  let w := mkWord hi lo
  match op.toNat with
  | 0x00 => .brk
  | 0x01 => .ora (.mem (.izx lo))
  | 0x05 => .ora (.mem (.zp lo))
  | 0x06 => .asl (.mem (.zp lo))
  | 0x08 => .php
  | 0x09 => .ora (.imm lo)
  | 0x0A => .asl .acc
  | 0x0D => .ora (.mem (.abs w))
  | 0x0E => .asl (.mem (.abs w))
  | 0x10 => .bpl lo
  | 0x11 => .ora (.mem (.izy lo))
  | 0x15 => .ora (.mem (.zpx lo))
  | 0x16 => .asl (.mem (.zpx lo))
  | 0x18 => .clc
  | 0x19 => .ora (.mem (.aby w))
  | 0x1D => .ora (.mem (.abx w))
  | 0x1E => .asl (.mem (.abx w))
  | 0x20 => .jsr w
  | 0x21 => .and (.mem (.izx lo))
  | 0x24 => .bit (.zp lo)
  | 0x25 => .and (.mem (.zp lo))
  | 0x26 => .rol (.mem (.zp lo))
  | 0x28 => .plp
  | 0x29 => .and (.imm lo)
  | 0x2A => .rol .acc
  | 0x2C => .bit (.abs w)
  | 0x2D => .and (.mem (.abs w))
  | 0x2E => .rol (.mem (.abs w))
  | 0x30 => .bmi lo
  | 0x31 => .and (.mem (.izy lo))
  | 0x35 => .and (.mem (.zpx lo))
  | 0x36 => .rol (.mem (.zpx lo))
  | 0x38 => .sec
  | 0x39 => .and (.mem (.aby w))
  | 0x3D => .and (.mem (.abx w))
  | 0x3E => .rol (.mem (.abx w))
  | 0x40 => .rti
  | 0x41 => .eor (.mem (.izx lo))
  | 0x45 => .eor (.mem (.zp lo))
  | 0x46 => .lsr (.mem (.zp lo))
  | 0x48 => .pha
  | 0x49 => .eor (.imm lo)
  | 0x4A => .lsr .acc
  | 0x4C => .jmp (.abs w)
  | 0x4D => .eor (.mem (.abs w))
  | 0x4E => .lsr (.mem (.abs w))
  | 0x50 => .bvc lo
  | 0x51 => .eor (.mem (.izy lo))
  | 0x55 => .eor (.mem (.zpx lo))
  | 0x56 => .lsr (.mem (.zpx lo))
  | 0x58 => .cli
  | 0x59 => .eor (.mem (.aby w))
  | 0x5D => .eor (.mem (.abx w))
  | 0x5E => .lsr (.mem (.abx w))
  | 0x60 => .rts
  | 0x61 => .adc (.mem (.izx lo))
  | 0x65 => .adc (.mem (.zp lo))
  | 0x66 => .ror (.mem (.zp lo))
  | 0x68 => .pla
  | 0x69 => .adc (.imm lo)
  | 0x6A => .ror .acc
  | 0x6C => .jmp (.ind w)
  | 0x6D => .adc (.mem (.abs w))
  | 0x6E => .ror (.mem (.abs w))
  | 0x70 => .bvs lo
  | 0x71 => .adc (.mem (.izy lo))
  | 0x75 => .adc (.mem (.zpx lo))
  | 0x76 => .ror (.mem (.zpx lo))
  | 0x78 => .sei
  | 0x79 => .adc (.mem (.aby w))
  | 0x7D => .adc (.mem (.abx w))
  | 0x7E => .ror (.mem (.abx w))
  | 0x81 => .sta (.izx lo)
  | 0x84 => .sty (.zp lo)
  | 0x85 => .sta (.zp lo)
  | 0x86 => .stx (.zp lo)
  | 0x88 => .dey
  | 0x8A => .txa
  | 0x8C => .sty (.abs w)
  | 0x8D => .sta (.abs w)
  | 0x8E => .stx (.abs w)
  | 0x90 => .bcc lo
  | 0x91 => .sta (.izy lo)
  | 0x94 => .sty (.zpx lo)
  | 0x95 => .sta (.zpx lo)
  | 0x96 => .stx (.zpy lo)
  | 0x98 => .tya
  | 0x99 => .sta (.aby w)
  | 0x9A => .txs
  | 0x9D => .sta (.abx w)
  | 0xA0 => .ldy (.imm lo)
  | 0xA1 => .lda (.mem (.izx lo))
  | 0xA2 => .ldx (.imm lo)
  | 0xA4 => .ldy (.mem (.zp lo))
  | 0xA5 => .lda (.mem (.zp lo))
  | 0xA6 => .ldx (.mem (.zp lo))
  | 0xA8 => .tay
  | 0xA9 => .lda (.imm lo)
  | 0xAA => .tax
  | 0xAC => .ldy (.mem (.abs w))
  | 0xAD => .lda (.mem (.abs w))
  | 0xAE => .ldx (.mem (.abs w))
  | 0xB0 => .bcs lo
  | 0xB1 => .lda (.mem (.izy lo))
  | 0xB4 => .ldy (.mem (.zpx lo))
  | 0xB5 => .lda (.mem (.zpx lo))
  | 0xB6 => .ldx (.mem (.zpy lo))
  | 0xB8 => .clv
  | 0xB9 => .lda (.mem (.aby w))
  | 0xBA => .tsx
  | 0xBC => .ldy (.mem (.abx w))
  | 0xBD => .lda (.mem (.abx w))
  | 0xBE => .ldx (.mem (.aby w))
  | 0xC0 => .cpy (.imm lo)
  | 0xC1 => .cmp (.mem (.izx lo))
  | 0xC4 => .cpy (.mem (.zp lo))
  | 0xC5 => .cmp (.mem (.zp lo))
  | 0xC6 => .dec (.zp lo)
  | 0xC8 => .iny
  | 0xC9 => .cmp (.imm lo)
  | 0xCA => .dex
  | 0xCC => .cpy (.mem (.abs w))
  | 0xCD => .cmp (.mem (.abs w))
  | 0xCE => .dec (.abs w)
  | 0xD0 => .bne lo
  | 0xD1 => .cmp (.mem (.izy lo))
  | 0xD5 => .cmp (.mem (.zpx lo))
  | 0xD6 => .dec (.zpx lo)
  | 0xD8 => .cld
  | 0xD9 => .cmp (.mem (.aby w))
  | 0xDD => .cmp (.mem (.abx w))
  | 0xDE => .dec (.abx w)
  | 0xE0 => .cpx (.imm lo)
  | 0xE1 => .sbc (.mem (.izx lo))
  | 0xE4 => .cpx (.mem (.zp lo))
  | 0xE5 => .sbc (.mem (.zp lo))
  | 0xE6 => .inc (.zp lo)
  | 0xE8 => .inx
  | 0xE9 => .sbc (.imm lo)
  | 0xEA => .nop
  | 0xEC => .cpx (.mem (.abs w))
  | 0xED => .sbc (.mem (.abs w))
  | 0xEE => .inc (.abs w)
  | 0xF0 => .beq lo
  | 0xF1 => .sbc (.mem (.izy lo))
  | 0xF5 => .sbc (.mem (.zpx lo))
  | 0xF6 => .inc (.zpx lo)
  | 0xF8 => .sed
  | 0xF9 => .sbc (.mem (.aby w))
  | 0xFD => .sbc (.mem (.abx w))
  | 0xFE => .inc (.abx w)
  | _ => .nopStar op

/-- The length in bytes of an addressing mode's form, opcode included (R110). -/
def Addr.length : Addr → Nat
  | .zp _ | .zpx _ | .zpy _ | .izx _ | .izy _ => 2
  | .abs _ | .abx _ | .aby _ => 3

/-- The length of a reading instruction's form (R110). -/
def Source.length : Source → Nat
  | .imm _ => 2
  | .mem m => m.length

/-- The length of a shift's form (R110). -/
def ShiftOperand.length : ShiftOperand → Nat
  | .acc => 1
  | .mem m => m.length

/-- The length of an instruction in bytes (R110, R111). -/
def Instr.length : Instr → Nat
  | .lda src | .ldx src | .ldy src | .adc src | .sbc src | .cmp src | .cpx src | .cpy src => src.length
  | .and src | .ora src | .eor src => src.length
  | .sta m | .stx m | .sty m | .inc m | .dec m | .bit m => m.length
  | .asl opd | .lsr opd | .rol opd | .ror opd => opd.length
  | .jmp _ | .jsr _ => 3
  | .bcc _ | .bcs _ | .beq _ | .bne _ | .bmi _ | .bpl _ | .bvc _ | .bvs _ => 2
  | .tax | .tay | .txa | .tya | .tsx | .txs | .pha | .php | .pla | .plp => 1
  | .inx | .iny | .dex | .dey | .rts | .rti | .brk => 1
  | .clc | .sec | .cli | .sei | .cld | .sed | .clv | .nop => 1
  | .nopStar _ => Config.unofficialLen

/-- How many operand bytes follow an opcode byte (R111). -/
def operandCount (op : Byte) : Nat := (decodeRow op 0#8 0#8).length - 1

/-- How many bytes of an unofficial opcode are skipped after its own under parameters `p`: none at the default of
UNOFFICIAL_LEN; none after an official opcode (45_flags_nop.md R248, D1). -/
def Instr.skipped (p : Config.Params) : Instr → Nat
  | .nopStar op => p.unofficialLenOf op - Config.unofficialLen
  | _ => 0

/-- Why bytes are no instruction: there are none, or fewer than the opcode byte asks for. No byte value is rejected (R129). -/
inductive DecodeError where
  | empty
  | truncated (op : Byte)
  deriving DecidableEq, Repr

/-- Decode the instruction at the head of a byte list, and the bytes after it, at the default of UNOFFICIAL_LEN. -/
def decode : List Byte → Except DecodeError (Instr × List Byte)
  | [] => .error .empty
  | op :: rest =>
    if rest.length < operandCount op then .error (.truncated op)
    else .ok (decodeRow op (rest.getD 0 0#8) (rest.getD 1 0#8), rest.drop (operandCount op))

/-- `decode` under parameters `p`: the bytes that an unofficial opcode skips must be there, and are dropped (entry 17). -/
def decodeWith (p : Config.Params) (bs : List Byte) : Except DecodeError (Instr × List Byte) :=
  match decode bs with
  | .error e => .error e
  | .ok (i, rest) =>
    if rest.length < i.skipped p then .error (.truncated (bs.headD 0#8)) else .ok (i, rest.drop (i.skipped p))

/-- A form with a one-byte operand (F2). -/
def form8 (op d : Byte) : List Byte := [op, d]

/-- A form with a two-byte operand, low byte first (F3, 20_memory.md R80). -/
def form16 (op : Byte) (w : Word) : List Byte := [op, lo8 w, hi8 w]

/-- The memory forms of the eight-form instructions (ADC, AND, CMP, EOR, LDA, ORA, SBC) and of STA. -/
def encodeAccumulator (zp zpx abs abx aby izx izy : Byte) : Addr → List Byte
  | .zp z => form8 zp z
  | .zpx z => form8 zpx z
  | .zpy _ => []
  | .abs w => form16 abs w
  | .abx w => form16 abx w
  | .aby w => form16 aby w
  | .izx z => form8 izx z
  | .izy z => form8 izy z

/-- The forms zp, zpx, abs, abx. -/
def encodeRmw (zp zpx abs abx : Byte) : Addr → List Byte
  | .zp z => form8 zp z
  | .zpx z => form8 zpx z
  | .abs w => form16 abs w
  | .abx w => form16 abx w
  | .zpy _ | .aby _ | .izx _ | .izy _ => []

/-- The forms zp, zpy, abs, aby of LDX (STX has the first three). -/
def encodeY (zp zpy abs : Byte) (aby : Option Byte) : Addr → List Byte
  | .zp z => form8 zp z
  | .zpy z => form8 zpy z
  | .abs w => form16 abs w
  | .aby w => match aby with
    | some op => form16 op w
    | none => []
  | .zpx _ | .abx _ | .izx _ | .izy _ => []

/-- The forms zp and abs. -/
def encodePlain (zp abs : Byte) : Addr → List Byte
  | .zp z => form8 zp z
  | .abs w => form16 abs w
  | .zpx _ | .zpy _ | .abx _ | .aby _ | .izx _ | .izy _ => []

/-- An immediate form beside memory forms. -/
def encodeSource (imm : Byte) (mem : Addr → List Byte) : Source → List Byte
  | .imm v => form8 imm v
  | .mem m => mem m

/-- An accumulator form beside memory forms. -/
def encodeShift (acc : Byte) (mem : Addr → List Byte) : ShiftOperand → List Byte
  | .acc => [acc]
  | .mem m => mem m

/-- The bytes of a well-formed instruction, from the table by mnemonic of R125; no bytes for a form that has no row. -/
def encode : Instr → List Byte
  | .adc s => encodeSource 0x69 (encodeAccumulator 0x65 0x75 0x6D 0x7D 0x79 0x61 0x71) s
  | .and s => encodeSource 0x29 (encodeAccumulator 0x25 0x35 0x2D 0x3D 0x39 0x21 0x31) s
  | .asl o => encodeShift 0x0A (encodeRmw 0x06 0x16 0x0E 0x1E) o
  | .bcc d => form8 0x90 d
  | .bcs d => form8 0xB0 d
  | .beq d => form8 0xF0 d
  | .bit m => encodePlain 0x24 0x2C m
  | .bmi d => form8 0x30 d
  | .bne d => form8 0xD0 d
  | .bpl d => form8 0x10 d
  | .brk => [0x00]
  | .bvc d => form8 0x50 d
  | .bvs d => form8 0x70 d
  | .clc => [0x18]
  | .cld => [0xD8]
  | .cli => [0x58]
  | .clv => [0xB8]
  | .cmp s => encodeSource 0xC9 (encodeAccumulator 0xC5 0xD5 0xCD 0xDD 0xD9 0xC1 0xD1) s
  | .cpx s => encodeSource 0xE0 (encodePlain 0xE4 0xEC) s
  | .cpy s => encodeSource 0xC0 (encodePlain 0xC4 0xCC) s
  | .dec m => encodeRmw 0xC6 0xD6 0xCE 0xDE m
  | .dex => [0xCA]
  | .dey => [0x88]
  | .eor s => encodeSource 0x49 (encodeAccumulator 0x45 0x55 0x4D 0x5D 0x59 0x41 0x51) s
  | .inc m => encodeRmw 0xE6 0xF6 0xEE 0xFE m
  | .inx => [0xE8]
  | .iny => [0xC8]
  | .jmp (.abs w) => form16 0x4C w
  | .jmp (.ind w) => form16 0x6C w
  | .jsr w => form16 0x20 w
  | .lda s => encodeSource 0xA9 (encodeAccumulator 0xA5 0xB5 0xAD 0xBD 0xB9 0xA1 0xB1) s
  | .ldx s => encodeSource 0xA2 (encodeY 0xA6 0xB6 0xAE (some 0xBE)) s
  | .ldy s => encodeSource 0xA0 (encodeRmw 0xA4 0xB4 0xAC 0xBC) s
  | .lsr o => encodeShift 0x4A (encodeRmw 0x46 0x56 0x4E 0x5E) o
  | .nop => [0xEA]
  | .ora s => encodeSource 0x09 (encodeAccumulator 0x05 0x15 0x0D 0x1D 0x19 0x01 0x11) s
  | .pha => [0x48]
  | .php => [0x08]
  | .pla => [0x68]
  | .plp => [0x28]
  | .rol o => encodeShift 0x2A (encodeRmw 0x26 0x36 0x2E 0x3E) o
  | .ror o => encodeShift 0x6A (encodeRmw 0x66 0x76 0x6E 0x7E) o
  | .rti => [0x40]
  | .rts => [0x60]
  | .sbc s => encodeSource 0xE9 (encodeAccumulator 0xE5 0xF5 0xED 0xFD 0xF9 0xE1 0xF1) s
  | .sec => [0x38]
  | .sed => [0xF8]
  | .sei => [0x78]
  | .sta m => encodeAccumulator 0x85 0x95 0x8D 0x9D 0x99 0x81 0x91 m
  | .stx m => encodeY 0x86 0x96 0x8E none m
  | .sty (.zp z) => form8 0x84 z
  | .sty (.zpx z) => form8 0x94 z
  | .sty (.abs w) => form16 0x8C w
  | .sty (.zpy _) | .sty (.abx _) | .sty (.aby _) | .sty (.izx _) | .sty (.izy _) => []
  | .tax => [0xAA]
  | .tay => [0xA8]
  | .tsx => [0xBA]
  | .txa => [0x8A]
  | .txs => [0x9A]
  | .tya => [0x98]
  | .nopStar op => [op]

/-- The bytes of an instruction word whose bit 0 is the least significant bit of its first byte; every bit from `nbits` up is 0. -/
def tableWordBytes (nbits w : Nat) : List Byte :=
  let v := w % 2 ^ nbits
  [BitVec.ofNat 8 v, BitVec.ofNat 8 (v / 256), BitVec.ofNat 8 (v / 65536)]

/-- The instruction this decoder reads from a word numbered as spec/opcode_table.json numbers it. -/
def decodeTableWord (nbits w : Nat) : Option Instr :=
  match decode (tableWordBytes nbits w) with
  | .ok (i, _) => some i
  | .error _ => none

end Sys2Proof
end

