-- ==== Sys2Proof/Machine/Float32.lean ====
section
/-! DEFINITION. IEEE 754 single precision, round to nearest even, on the 32 bits of a value: the arithmetic that
spec/62_apu.md R526, R530 and R531 ask for. An operation on a NaN, inf - inf, 0 * inf, 0 / 0 and inf / inf give the
quiet NaN 0x7FC00000 (PRESUMED, unsafe: entry 12; no run from reset reaches one). -/

namespace Sys2Proof.Machine

/-- The quiet NaN. -/
def f32NaN : F32 := 0x7FC00000#32

/-- The sign bit. -/
def f32Sign (a : F32) : Bool := a.getLsbD 31

/-- The exponent field. -/
def f32Exp (a : F32) : Nat := (a.toNat / 2 ^ 23) % 256

/-- The fraction field. -/
def f32Frac (a : F32) : Nat := a.toNat % 2 ^ 23

/-- A NaN: exponent field 255, fraction not 0. -/
def f32IsNaN (a : F32) : Bool := f32Exp a == 255 && f32Frac a != 0

/-- An infinity. -/
def f32IsInf (a : F32) : Bool := f32Exp a == 255 && f32Frac a == 0

/-- The significand of a finite value, which is `f32Mant a * 2 ^ (f32Scale a - 150)`. -/
def f32Mant (a : F32) : Nat := if f32Exp a = 0 then f32Frac a else f32Frac a + 2 ^ 23

/-- The scale of a finite value, see `f32Mant`. -/
def f32Scale (a : F32) : Nat := if f32Exp a = 0 then 1 else f32Exp a

/-- A sign and 31 bits below it. -/
def f32Pack (neg : Bool) (bits : Nat) : F32 :=
  BitVec.ofNat 32 (bits + if neg then 2 ^ 31 else 0)

/-- Round `n * 2 ^ (k - 600)` to the nearest single, ties to even. The value is first scaled up by 2 ^ 64, so that
bits are always dropped: as many as leave 24, or as many as reach the smallest exponent, whichever is more. -/
def f32Round (neg : Bool) (n k : Nat) : F32 :=
  if n = 0 then f32Pack neg 0
  else
    let m := n * 2 ^ 64
    let drop := max (Nat.log2 m + 1 - 24) (515 - k)
    let q := m / 2 ^ drop
    let rem := m % 2 ^ drop
    let half := 2 ^ (drop - 1)
    let q' := if rem > half || (rem == half && q % 2 == 1) then q + 1 else q
    f32Pack neg (min ((k + drop - 515) * 2 ^ 23 + q') (255 * 2 ^ 23))

/-- A natural number, rounded. -/
def f32OfNat (n : Nat) : F32 := f32Round false n 600

/-- Change the sign. -/
def f32Neg (a : F32) : F32 := a ^^^ 0x80000000#32

/-- Sum. An exact zero sum of values of different signs is +0. -/
def f32Add (a b : F32) : F32 :=
  if f32IsNaN a || f32IsNaN b then f32NaN
  else if f32IsInf a then (if f32IsInf b && f32Sign a != f32Sign b then f32NaN else a)
  else if f32IsInf b then b
  else
    let k := min (f32Scale a) (f32Scale b)
    let x := f32Mant a * 2 ^ (f32Scale a - k)
    let y := f32Mant b * 2 ^ (f32Scale b - k)
    if f32Sign a == f32Sign b then f32Round (f32Sign a) (x + y) (k + 450)
    else if x > y then f32Round (f32Sign a) (x - y) (k + 450)
    else if y > x then f32Round (f32Sign b) (y - x) (k + 450)
    else f32Pack false 0

/-- Difference. -/
def f32Sub (a b : F32) : F32 := f32Add a (f32Neg b)

/-- Product. -/
def f32Mul (a b : F32) : F32 :=
  let neg := f32Sign a != f32Sign b
  if f32IsNaN a || f32IsNaN b then f32NaN
  else if f32IsInf a || f32IsInf b then
    (if (f32Mant a == 0 && !f32IsInf a) || (f32Mant b == 0 && !f32IsInf b) then f32NaN else f32Pack neg (255 * 2 ^ 23))
  else f32Round neg (f32Mant a * f32Mant b) (f32Scale a + f32Scale b + 300)

/-- Quotient. The quotient is taken to 64 more bits than the operands have, and one more bit says whether a
remainder was left. -/
def f32Div (a b : F32) : F32 :=
  let neg := f32Sign a != f32Sign b
  if f32IsNaN a || f32IsNaN b then f32NaN
  else if f32IsInf a then (if f32IsInf b then f32NaN else f32Pack neg (255 * 2 ^ 23))
  else if f32IsInf b then f32Pack neg 0
  else if f32Mant b = 0 then (if f32Mant a = 0 then f32NaN else f32Pack neg (255 * 2 ^ 23))
  else
    let n := f32Mant a * 2 ^ 64
    let q := n / f32Mant b
    let sticky := if n % f32Mant b = 0 then 0 else 1
    f32Round neg (2 * q + sticky) (f32Scale a + 535 - f32Scale b)

end Sys2Proof.Machine
end

