-- ==== Sys2Proof/Machine/State.lean ====
section
/-! DEFINITION. The state of the machine, field by field as spec/ lists it (10_state.md R20-R39, 61_ppu.md R400,
62_apu.md R500, 63_cartridge_mappers.md R550-R592), as plain data; and the state right after reset. -/

namespace Sys2Proof.Machine

/-- Bytes by address: strictly rising addresses, no entry equal to `Config.unlistedByte`, which every
unlisted address reads as (Machine/Memory.lean, entry 5). -/
abbrev Memory := List Host.Cell

/-- The CPU's registers and interrupt latches (10_state.md R20-R31). -/
structure Cpu where
  /-- accumulator (R20) -/
  a : Byte
  /-- index register X (R21) -/
  x : Byte
  /-- index register Y (R22) -/
  y : Byte
  /-- stack pointer: the next free slot of page 0x01 (R23) -/
  sp : Byte
  /-- status: bits C Z I D B U V N from 0 to 7 (R26) -/
  p : Byte
  /-- program counter (R24, R25) -/
  pc : Word
  /-- the NMI latch (R29) -/
  nmiPending : Bool
  /-- the IRQ latch (R30) -/
  irqPending : Bool
  deriving DecidableEq, Repr

/-- One controller port: the host's button bitmask and the shift register (10_state.md R33, 20_memory.md R74-R78). -/
structure Port where
  state : U32
  shift : Byte
  deriving DecidableEq, Repr

/-- BusState (10_state.md R33). -/
structure Bus where
  /-- the 2048 bytes of internal RAM (20_memory.md R62) -/
  ram : Memory
  port0 : Port
  port1 : Port
  /-- `controller_strobe` -/
  strobe : Bool
  /-- `pending_dma_cycles` (20_memory.md R72) -/
  pendingDma : BitVec 16
  deriving DecidableEq, Repr

/-- The frame loop's state (10_state.md R34), and three values the model keeps here (entry 2). -/
structure Loop where
  cycleCount : U64
  frameCount : U64
  /-- `nmi_delay_armed` (60_exceptions.md R333) -/
  nmiDelayArmed : Bool
  /-- MODEL's own: the count the last CPU step returned (00_scope.md R13) -/
  stepCycles : Nat
  /-- MODEL's own: the first argument of the `run_frame` call in progress (60_exceptions.md R330, R335) -/
  input1 : U32
  /-- MODEL's own: its second argument -/
  input2 : U32
  deriving DecidableEq, Repr

/-- One secondary sprite slot, `sec[i]` with its two pattern shifters (61_ppu.md R400, R427, R461). -/
structure SpriteSlot where
  y : Byte
  tile : Byte
  attr : Byte
  /-- also the slot's down-counter while the line is drawn -/
  x : Byte
  /-- `spr_lo[i]` -/
  lo : Byte
  /-- `spr_hi[i]` -/
  hi : Byte
  deriving DecidableEq, Repr

/-- A picture as rows of pixels: row number, then column number and the 6-bit colour index last drawn there;
a pixel not listed has not been drawn since `load_rom` (entry 10). -/
abbrev Framebuffer := List (Nat × List (Nat × BitVec 6))

/-- PpuState (61_ppu.md R400). -/
structure Ppu where
  ctrl : Byte
  mask : Byte
  status : Byte
  oamAddr : Byte
  /-- current VRAM address, 15 bits used -/
  v : Word
  /-- temporary VRAM address, 15 bits used -/
  t : Word
  /-- fine X, the PPU's `x` -/
  fineX : BitVec 3
  /-- write toggle: false = the next write is the first -/
  w : Bool
  dataBuffer : Byte
  /-- 0..261 -/
  scanline : Nat
  /-- 0..340 -/
  cycle : Nat
  frame : U64
  oddFrame : Bool
  nmiOccurred : Bool
  nmiOutput : Bool
  nmiLatched : Bool
  nmiDelay : Byte
  nmiTriggered : Bool
  nmiTriggeredDelayed : Bool
  vblSuppress : Bool
  suppressNmi : Bool
  frameComplete : Bool
  bgPatternLo : Word
  bgPatternHi : Word
  bgAttrLo : Word
  bgAttrHi : Word
  nextTileId : Byte
  nextTileAttr : Byte
  nextTileLo : Byte
  nextTileHi : Byte
  oam : Memory
  slots : Vector SpriteSlot 8
  /-- 0..8 -/
  spriteCount : Nat
  /-- the slot holding OAM sprite 0; none is the spec's -1 -/
  spriteZeroIndex : Option Nat
  spriteZeroHitPossible : Bool
  spriteZeroRendering : Bool
  nametableRam : Memory
  paletteRam : Memory
  framebuffer : Framebuffer
  /-- frame cycle of the last PPUMASK write -/
  maskWriteCycle : Nat
  maskPrev : Byte
  deriving DecidableEq, Repr

/-- Volume and envelope of a pulse or the noise channel (62_apu.md R500, R510, R514, R520). -/
structure Envelope where
  /-- length halt, also envelope loop -/
  halt : Bool
  constant : Bool
  vol : BitVec 4
  start : Bool
  div : BitVec 4
  decay : BitVec 4
  deriving DecidableEq, Repr

/-- A pulse channel (62_apu.md R500, R510-R512, R521, R522). -/
structure Pulse where
  enabled : Bool
  duty : BitVec 2
  env : Envelope
  sweepEnabled : Bool
  sweepPeriod : BitVec 3
  sweepNegate : Bool
  sweepShift : BitVec 3
  sweepReload : Bool
  sweepDiv : BitVec 3
  period : Word
  timer : Word
  seq : BitVec 3
  length : Byte
  deriving DecidableEq, Repr

/-- The triangle channel (62_apu.md R500, R513, R523). -/
structure Triangle where
  enabled : Bool
  /-- also length halt -/
  control : Bool
  /-- `linear_reload_value` -/
  reloadValue : BitVec 7
  linear : BitVec 7
  /-- `linear_reload` -/
  reload : Bool
  period : Word
  timer : Word
  seq : BitVec 5
  length : Byte
  deriving DecidableEq, Repr

/-- The noise channel (62_apu.md R500, R514, R524). -/
structure Noise where
  enabled : Bool
  env : Envelope
  mode : Bool
  period : Word
  timer : Word
  /-- the LFSR, 15 bits used -/
  shift : Word
  length : Byte
  deriving DecidableEq, Repr

/-- The DMC stub (62_apu.md R500, R515). -/
structure Dmc where
  enabled : Bool
  outputLevel : BitVec 7
  reg10 : Byte
  reg12 : Byte
  reg13 : Byte
  deriving DecidableEq, Repr

/-- ApuState (62_apu.md R500). -/
structure Apu where
  pulse0 : Pulse
  pulse1 : Pulse
  tri : Triangle
  noise : Noise
  dmc : Dmc
  fiveStep : Bool
  irqInhibit : Bool
  frameIrq : Bool
  fcCycles : BitVec 16
  fcStep : Byte
  cycle : U64
  outAcc : U32
  avgSum : F32
  avgCount : U32
  filterState : F32
  /-- left and right samples, oldest first, at most `Config.audioRingPairs` -/
  ring : List (F32 × F32)
  deriving DecidableEq, Repr

/-- Nametable mirroring (63_cartridge_mappers.md R551, 61_ppu.md R406). -/
inductive MirrorMode where
  | horizontal
  | vertical
  | singleScreen0
  | singleScreen1
  | fourScreen
  deriving DecidableEq, Repr

/-- MMC1's registers (63_cartridge_mappers.md R562). -/
structure Mmc1 where
  shift : Byte
  /-- 0..4 -/
  count : Nat
  control : Byte
  chr0 : Byte
  chr1 : Byte
  prgr : Byte
  deriving DecidableEq, Repr

/-- A CHR latch of MMC2 and MMC4, 0xFD or 0xFE (63_cartridge_mappers.md R575). -/
inductive ChrLatch where
  | fd
  | fe
  deriving DecidableEq, Repr

/-- The registers of MMC2 and of MMC4 (63_cartridge_mappers.md R575). -/
structure Mmc24 where
  prgBank : Byte
  chrFd0 : Byte
  chrFe0 : Byte
  chrFd1 : Byte
  chrFe1 : Byte
  latch0 : ChrLatch
  latch1 : ChrLatch
  mirror : Bool
  deriving DecidableEq, Repr

/-- MMC3's registers, scanline counter and A12 filter (63_cartridge_mappers.md R590). -/
structure Mmc3 where
  sel : BitVec 3
  prgMode : Bool
  chrMode : Bool
  r : Vector Byte 8
  irqLatch : Byte
  irqCounter : Byte
  irqEnabled : Bool
  irqFlag : Bool
  irqReload : Bool
  lastA12 : Bool
  /-- a frame cycle -/
  lastA12Cycle : Nat
  /-- a frame cycle, recorded and never consulted (R597) -/
  irqPendingAtCycle : Nat
  mirror : Bool
  deriving DecidableEq, Repr

/-- MapperState: one case for each supported mapper number (63_cartridge_mappers.md R560). -/
inductive Mapper where
  /-- 0 (R561) -/
  | nrom
  /-- 1 (R562, R563) -/
  | mmc1 (m : Mmc1)
  /-- 2 (R570) -/
  | uxrom (bank : Byte)
  /-- 3 (R571) -/
  | cnrom (chrBank : Byte)
  /-- 4 (R590-R597) -/
  | mmc3 (m : Mmc3)
  /-- 7 (R572) -/
  | axrom (bank : Byte) (nt : Bool)
  /-- 9 (R575-R577) -/
  | mmc2 (m : Mmc24)
  /-- 10 (R575-R577) -/
  | mmc4 (m : Mmc24)
  /-- 11 (R580) -/
  | colorDreams (prgBank chrBank : Byte)
  /-- 34 (R581) -/
  | m34 (prgBank chr0 chr1 : Byte)
  /-- 66 (R582) -/
  | gnrom (prgBank chrBank : Byte)
  /-- 71 (R583) -/
  | camerica (bank : Byte)
  /-- 79 (R584) -/
  | nina (prgBank chrBank : Byte)
  /-- 206 (R585) -/
  | dxrom (sel : BitVec 3) (r : Vector Byte 8)
  deriving DecidableEq, Repr

/-- The cartridge (63_cartridge_mappers.md R551). -/
structure Cartridge where
  prgRom : Memory
  /-- length of the PRG ROM in bytes, a multiple of 16384 -/
  prgSize : Nat
  /-- CHR ROM, or CHR RAM when `hasChrRam` -/
  chr : Memory
  /-- its length in bytes, a multiple of 8192 -/
  chrSize : Nat
  /-- 8192 bytes at 0x6000-0x7FFF (R556) -/
  prgRam : Memory
  crc32 : U32
  mapperNumber : Byte
  hasBattery : Bool
  hasTrainer : Bool
  hasChrRam : Bool
  initialMirror : MirrorMode
  mapper : Mapper
  deriving DecidableEq, Repr

/-- Everything the spec gives the machine: CPU, bus, PPU, APU, cartridge, loop (10_state.md R20-R38). -/
structure State where
  cpu : Cpu
  bus : Bus
  ppu : Ppu
  apu : Apu
  cart : Cartridge
  loop : Loop
  deriving DecidableEq, Repr

/-- Why the machine stops with a fault: never. "The CPU cannot fail" (00_scope.md R12, R13): no constructor,
so no step can answer one. -/
inductive Fault where
  deriving DecidableEq, Repr

/-- Why the model answers no state. -/
inductive Refusal where
  /-- An arm of `exec` that has no meaning yet; no arm raises it. Safe. -/
  | notModelled (mnemonic : String)
  /-- A host operation before the first successful `load_rom` (70_reset_and_hazards.md R706); raised by
  Machine/HostOps.lean only, never by a step. Safe. -/
  | noCartridge
  deriving DecidableEq, Repr

/-- CPU registers after reset (10_state.md R39) but for `pc`, the word at the reset vector. -/
def Cpu.atReset (pc : Word) : Cpu where
  a := Config.resetAxy
  x := Config.resetAxy
  y := Config.resetAxy
  sp := Config.resetSp
  p := Config.resetP
  pc := pc
  nmiPending := false
  irqPending := false

/-- A controller port after reset (10_state.md R39). -/
def Port.atReset : Port where
  state := 0#32
  shift := 0#8

/-- BusState after `load_rom` (10_state.md R39). -/
def Bus.atLoad : Bus where
  ram := []
  port0 := .atReset
  port1 := .atReset
  strobe := false
  pendingDma := 0#16

/-- An empty sprite slot. -/
def SpriteSlot.zero : SpriteSlot where
  y := 0#8
  tile := 0#8
  attr := 0#8
  x := 0#8
  lo := 0#8
  hi := 0#8

/-- PpuState after `load_rom` (61_ppu.md R401). -/
def Ppu.atLoad : Ppu where
  ctrl := 0#8
  mask := 0#8
  status := 0#8
  oamAddr := 0#8
  v := 0#16
  t := 0#16
  fineX := 0#3
  w := false
  dataBuffer := 0#8
  scanline := 0
  cycle := 0
  frame := 0#64
  oddFrame := false
  nmiOccurred := false
  nmiOutput := false
  nmiLatched := false
  nmiDelay := 0#8
  nmiTriggered := false
  nmiTriggeredDelayed := false
  vblSuppress := false
  suppressNmi := false
  frameComplete := false
  bgPatternLo := 0#16
  bgPatternHi := 0#16
  bgAttrLo := 0#16
  bgAttrHi := 0#16
  nextTileId := 0#8
  nextTileAttr := 0#8
  nextTileLo := 0#8
  nextTileHi := 0#8
  oam := []
  slots := Vector.replicate 8 .zero
  spriteCount := 0
  spriteZeroIndex := none
  spriteZeroHitPossible := false
  spriteZeroRendering := false
  nametableRam := []
  paletteRam := []
  framebuffer := []
  maskWriteCycle := 0
  maskPrev := 0#8

/-- An envelope after reset (62_apu.md R501). -/
def Envelope.atReset : Envelope where
  halt := false
  constant := false
  vol := 0#4
  start := false
  div := 0#4
  decay := 0#4

/-- A pulse channel after reset (62_apu.md R501). -/
def Pulse.atReset : Pulse where
  enabled := false
  duty := 0#2
  env := .atReset
  sweepEnabled := false
  sweepPeriod := 0#3
  sweepNegate := false
  sweepShift := 0#3
  sweepReload := false
  sweepDiv := 0#3
  period := 0#16
  timer := 0#16
  seq := 0#3
  length := 0#8

/-- The triangle channel after reset (62_apu.md R501). -/
def Triangle.atReset : Triangle where
  enabled := false
  control := false
  reloadValue := 0#7
  linear := 0#7
  reload := false
  period := 0#16
  timer := 0#16
  seq := 0#5
  length := 0#8

/-- The noise channel after reset: `shift` is 1 (62_apu.md R501). -/
def Noise.atReset : Noise where
  enabled := false
  env := .atReset
  mode := false
  period := 0#16
  timer := 0#16
  shift := 1#16
  length := 0#8

/-- The DMC after reset (62_apu.md R501). -/
def Dmc.atReset : Dmc where
  enabled := false
  outputLevel := 0#7
  reg10 := 0#8
  reg12 := 0#8
  reg13 := 0#8

/-- ApuState after reset (62_apu.md R501). -/
def Apu.atReset : Apu where
  pulse0 := .atReset
  pulse1 := .atReset
  tri := .atReset
  noise := .atReset
  dmc := .atReset
  fiveStep := false
  irqInhibit := false
  frameIrq := false
  fcCycles := 0#16
  fcStep := 0#8
  cycle := 0#64
  outAcc := 0#32
  avgSum := 0#32
  avgCount := 0#32
  filterState := 0#32
  ring := []

/-- The loop after `load_rom` (10_state.md R39), with no input pressed (entry 2). -/
def Loop.atLoad : Loop where
  cycleCount := 0#64
  frameCount := 0#64
  nmiDelayArmed := false
  stepCycles := 0
  input1 := 0#32
  input2 := 0#32

/-- The cartridge State.reset stands on: mapper 0 with 32 KiB of zero PRG ROM and 8 KiB of CHR RAM, no
program (DESIGN CHOICE, unsafe: entry 6). Its CRC is that of 32768 zero bytes (R554). -/
def Cartridge.blank : Cartridge where
  prgRom := []
  prgSize := 32768
  chr := []
  chrSize := 8192
  prgRam := []
  crc32 := 0x011FFCA6#32
  mapperNumber := 0#8
  hasBattery := false
  hasTrainer := false
  hasChrRam := true
  initialMirror := .horizontal
  mapper := .nrom

/-- The machine right after `load_rom` of the blank cartridge and its reset (70_reset_and_hazards.md R700, R704):
the two bytes at 0xFFFC and 0xFFFD are 0, so `pc` is 0x0000. -/
def State.reset : State where
  cpu := .atReset 0#16
  bus := .atLoad
  ppu := .atLoad
  apu := .atReset
  cart := .blank
  loop := .atLoad

end Sys2Proof.Machine
end

