-- ==== Sys2Proof/Machine/Apu.lean ====
section
/-! DEFINITION. The APU (spec/62_apu.md R500-R532): registers, units, frame sequencer, mixer and sample output. -/

namespace Sys2Proof.Machine

/-! ## Tables -/

/-- LENGTH_TABLE (R527). -/
def lengthTable (i : Nat) : Byte :=
  BitVec.ofNat 8 (([10, 254, 20, 2, 40, 4, 80, 6, 160, 8, 60, 10, 14, 12, 26, 14]
    ++ [12, 16, 24, 18, 48, 20, 96, 22, 192, 24, 72, 26, 16, 28, 32, 30]).getD i 0)

/-- NOISE_PERIOD (R527). -/
def noisePeriod (i : Nat) : Word :=
  BitVec.ofNat 16 ([4, 8, 16, 32, 64, 96, 128, 160, 202, 254, 380, 508, 762, 1016, 2034, 4068].getD i 0)

/-- DUTY[duty][seq] (R521). -/
def dutyBit (duty : BitVec 2) (seq : BitVec 3) : Bool :=
  let row := match duty.toNat with
    | 0 => [false, true, false, false, false, false, false, false]
    | 1 => [false, true, true, false, false, false, false, false]
    | 2 => [false, true, true, true, true, false, false, false]
    | _ => [true, false, false, true, true, true, true, true]
  row.getD seq.toNat false

/-- TRI[seq] (R523). -/
def triangleLevel (seq : BitVec 5) : Nat :=
  if seq.toNat < 16 then 15 - seq.toNat else seq.toNat - 16

/-! ## Units -/

/-- `clock_envelope` (R520). -/
def Envelope.clock (e : Envelope) : Envelope :=
  if e.start then { e with start := false, decay := 15#4, div := e.vol }
  else if e.div ≠ 0#4 then { e with div := e.div - 1#4 }
  else if e.decay ≠ 0#4 then { e with div := e.vol, decay := e.decay - 1#4 }
  else if e.halt then { e with div := e.vol, decay := 15#4 }
  else { e with div := e.vol }

/-- `volume` (R520). -/
def Envelope.volume (e : Envelope) : Nat := if e.constant then e.vol.toNat else e.decay.toNat

/-- A length counter clocked by `half()` (R525). -/
def clockLength (halt : Bool) (length : Byte) : Byte :=
  if !halt && length != 0#8 then length - 1#8 else length

/-- `clock_pulse_timer` (R521). -/
def Pulse.clockTimer (p : Pulse) : Pulse :=
  if p.timer = 0#16 then { p with timer := p.period, seq := p.seq + 1#3 } else { p with timer := p.timer - 1#16 }

/-- `pulse_out` (R521). -/
def Pulse.output (p : Pulse) : Nat :=
  if p.length = 0#8 ∨ p.period.toNat < 8 ∨ 0x7FF < p.period.toNat ∨ dutyBit p.duty p.seq = false then 0 else p.env.volume

/-- The sweep's target period (R522): pulse 1 (`first`) negates by one's complement, pulse 2 by two's complement. -/
def Pulse.sweepTarget (first : Bool) (p : Pulse) : Int :=
  let period : Int := p.period.toNat
  let delta : Int := (p.period >>> p.sweepShift.toNat).toNat
  if p.sweepNegate then period - delta - (if first then 1 else 0) else period + delta

/-- `clock_sweep` (R522). -/
def Pulse.clockSweep (first : Bool) (p : Pulse) : Pulse :=
  let target := p.sweepTarget first
  let p1 :=
    if p.sweepDiv = 0#3 ∧ p.sweepEnabled ∧ p.sweepShift ≠ 0#3 ∧ 8 ≤ p.period.toNat ∧ 0 ≤ target ∧ target ≤ 0x7FF then
      { p with period := BitVec.ofNat 16 target.toNat }
    else p
  if p.sweepDiv = 0#3 ∨ p.sweepReload then { p1 with sweepDiv := p.sweepPeriod, sweepReload := false }
  else { p1 with sweepDiv := p.sweepDiv - 1#3 }

/-- `clock_triangle_timer` (R523). -/
def Triangle.clockTimer (t : Triangle) : Triangle :=
  if t.timer = 0#16 then
    { t with
      timer := t.period
      seq := if t.length ≠ 0#8 ∧ t.linear ≠ 0#7 then t.seq + 1#5 else t.seq }
  else { t with timer := t.timer - 1#16 }

/-- `clock_linear` (R523). -/
def Triangle.clockLinear (t : Triangle) : Triangle :=
  { t with
    linear := if t.reload then t.reloadValue else if t.linear ≠ 0#7 then t.linear - 1#7 else t.linear
    reload := t.reload && t.control }

/-- `tri_out` (R523). -/
def Triangle.output (t : Triangle) : Nat :=
  if t.length = 0#8 ∨ t.period.toNat < 2 then 0 else triangleLevel t.seq

/-- `clock_noise_timer` (R524). -/
def Noise.clockTimer (n : Noise) : Noise :=
  if n.timer = 0#16 then
    let fb := n.shift.getLsbD 0 ^^ (if n.mode then n.shift.getLsbD 6 else n.shift.getLsbD 1)
    { n with timer := n.period, shift := n.shift >>> 1 ||| (if fb then 0x4000#16 else 0#16) }
  else { n with timer := n.timer - 1#16 }

/-- `noise_out` (R524). -/
def Noise.output (n : Noise) : Nat :=
  if n.length = 0#8 ∨ n.shift.getLsbD 0 = true then 0 else n.env.volume

/-- `quarter()` (R503). -/
def Apu.quarter (s : Apu) : Apu :=
  { s with
    pulse0 := { s.pulse0 with env := s.pulse0.env.clock }
    pulse1 := { s.pulse1 with env := s.pulse1.env.clock }
    noise := { s.noise with env := s.noise.env.clock }
    tri := s.tri.clockLinear }

/-- `half()`: the length counters, then the sweeps (R503, R525). -/
def Apu.half (s : Apu) : Apu :=
  { s with
    pulse0 := Pulse.clockSweep true { s.pulse0 with length := clockLength s.pulse0.env.halt s.pulse0.length }
    pulse1 := Pulse.clockSweep false { s.pulse1 with length := clockLength s.pulse1.env.halt s.pulse1.length }
    tri := { s.tri with length := clockLength s.tri.control s.tri.length }
    noise := { s.noise with length := clockLength s.noise.env.halt s.noise.length } }

/-- `frame_sequencer_step()` (R503, D40). -/
def Apu.sequencerStep (s : Apu) : Apu :=
  let s1 := { s with fcStep := s.fcStep + 1#8 }
  match s1.fiveStep, s1.fcStep.toNat with
  | _, 1 => s1.quarter
  | _, 2 => s1.quarter.half
  | _, 3 => s1.quarter
  | false, 4 =>
    let s2 := s1.quarter.half
    { s2 with fcStep := 0#8, frameIrq := s2.frameIrq || !s2.irqInhibit }
  | true, 5 =>
    let s2 := s1.quarter.half
    { s2 with fcStep := 0#8 }
  | _, _ => s1

/-! ## Registers -/

/-- 0x4000 and 0x4004 (R510). -/
def Pulse.writeControl (p : Pulse) (v : Byte) : Pulse :=
  { p with
    duty := v.extractLsb' 6 2
    env := { p.env with halt := bitOf v 5, constant := bitOf v 4, vol := v.extractLsb' 0 4 } }

/-- 0x4001 and 0x4005 (R511). -/
def Pulse.writeSweep (p : Pulse) (v : Byte) : Pulse :=
  { p with
    sweepEnabled := bitOf v 7
    sweepPeriod := v.extractLsb' 4 3
    sweepNegate := bitOf v 3
    sweepShift := v.extractLsb' 0 3
    sweepReload := true }

/-- The low eight bits of a timer period (R512, R513). -/
def periodLow (period : Word) (v : Byte) : Word := period &&& 0x0700#16 ||| zext16 v

/-- The high three bits of a timer period (R512, R513). -/
def periodHigh (period : Word) (v : Byte) : Word := period &&& 0x00FF#16 ||| zext16 (v &&& 0x07#8) <<< 8

/-- A length load: dropped while the channel is disabled (R512-R514). -/
def loadLength (enabled : Bool) (length v : Byte) : Byte :=
  if enabled then lengthTable (v >>> 3).toNat else length

/-- 0x4003 and 0x4007 (R512). -/
def Pulse.writeHigh (p : Pulse) (v : Byte) : Pulse :=
  { p with
    period := periodHigh p.period v
    length := loadLength p.enabled p.length v
    seq := 0#3
    env := { p.env with start := true } }

/-- Registers 0 to 3 of a pulse channel (R510-R512). -/
def Pulse.write (p : Pulse) (reg : Nat) (v : Byte) : Pulse :=
  match reg with
  | 0 => p.writeControl v
  | 1 => p.writeSweep v
  | 2 => { p with period := periodLow p.period v }
  | _ => p.writeHigh v

/-- Registers 0x4008 to 0x400B (R513). -/
def Triangle.write (t : Triangle) (reg : Nat) (v : Byte) : Triangle :=
  match reg with
  | 0 => { t with control := bitOf v 7, reloadValue := v.extractLsb' 0 7 }
  | 1 => t
  | 2 => { t with period := periodLow t.period v }
  | _ => { t with period := periodHigh t.period v, length := loadLength t.enabled t.length v, reload := true }

/-- Registers 0x400C to 0x400F (R514). -/
def Noise.write (n : Noise) (reg : Nat) (v : Byte) : Noise :=
  match reg with
  | 0 => { n with env := { n.env with halt := bitOf v 5, constant := bitOf v 4, vol := v.extractLsb' 0 4 } }
  | 1 => n
  | 2 => { n with mode := bitOf v 7, period := noisePeriod (v.extractLsb' 0 4).toNat }
  | _ => { n with length := loadLength n.enabled n.length v, env := { n.env with start := true } }

/-- Registers 0x4010 to 0x4013 (R515, D27). -/
def Dmc.write (d : Dmc) (reg : Nat) (v : Byte) : Dmc :=
  match reg with
  | 0 => { d with reg10 := v }
  | 1 => { d with outputLevel := v.extractLsb' 0 7 }
  | 2 => { d with reg12 := v }
  | _ => { d with reg13 := v }

/-- 0x4015 written: channel enables; a disabled channel's length becomes 0 (R518). -/
def Apu.writeEnable (s : Apu) (v : Byte) : Apu :=
  { s with
    pulse0 := { s.pulse0 with enabled := bitOf v 0, length := if bitOf v 0 then s.pulse0.length else 0#8 }
    pulse1 := { s.pulse1 with enabled := bitOf v 1, length := if bitOf v 1 then s.pulse1.length else 0#8 }
    tri := { s.tri with enabled := bitOf v 2, length := if bitOf v 2 then s.tri.length else 0#8 }
    noise := { s.noise with enabled := bitOf v 3, length := if bitOf v 3 then s.noise.length else 0#8 }
    dmc := { s.dmc with enabled := bitOf v 4 } }

/-- 0x4017 written (R519, D40). -/
def Apu.writeFrameCounter (s : Apu) (v : Byte) : Apu :=
  let s1 := { s with
    fiveStep := bitOf v 7
    irqInhibit := bitOf v 6
    frameIrq := s.frameIrq && !bitOf v 6
    fcCycles := 0#16
    fcStep := 0#8 }
  if bitOf v 7 then s1.quarter.half else s1

/-- `apu.write(addr, v)`, `addr` in 0x4000-0x4013, 0x4015, 0x4017 (R510-R519). -/
def Apu.write (s : Apu) (addr : Nat) (v : Byte) : Apu :=
  if addr < 0x4004 then { s with pulse0 := s.pulse0.write (addr - 0x4000) v }
  else if addr < 0x4008 then { s with pulse1 := s.pulse1.write (addr - 0x4004) v }
  else if addr < 0x400C then { s with tri := s.tri.write (addr - 0x4008) v }
  else if addr < 0x4010 then { s with noise := s.noise.write (addr - 0x400C) v }
  else if addr < 0x4014 then { s with dmc := s.dmc.write (addr - 0x4010) v }
  else if addr = 0x4015 then s.writeEnable v
  else if addr = 0x4017 then s.writeFrameCounter v
  else s

/-- `apu.read_status()`: lengths not 0, and the frame IRQ flag, which the read clears (R517). -/
def Apu.readStatus (s : Apu) : Byte × Apu :=
  let r :=
    (if s.pulse0.length ≠ 0#8 then 0x01#8 else 0#8)
      ||| (if s.pulse1.length ≠ 0#8 then 0x02#8 else 0#8)
      ||| (if s.tri.length ≠ 0#8 then 0x04#8 else 0#8)
      ||| (if s.noise.length ≠ 0#8 then 0x08#8 else 0#8)
      ||| (if s.frameIrq then 0x40#8 else 0#8)
  (r, { s with frameIrq := false })

/-! ## Mixer and output -/

/-- The mixer's four coefficients 0.00752, 0.00851, 0.00494, 0.00335, rounded to single precision (R526). -/
def mixPulse : F32 := 0x3BF66A55#32

/-- 0.00851 (R526). -/
def mixTriangle : F32 := 0x3C0B6D87#32

/-- 0.00494 (R526). -/
def mixNoise : F32 := 0x3BA1DFB9#32

/-- 0.00335 (R526). -/
def mixDmc : F32 := 0x3B5B8BAC#32

/-- `mix()`: the four products, summed from the left (R526, R531). -/
def Apu.mix (s : Apu) : F32 :=
  f32Add
    (f32Add
      (f32Add (f32Mul mixPulse (f32OfNat (s.pulse0.output + s.pulse1.output)))
        (f32Mul mixTriangle (f32OfNat s.tri.output)))
      (f32Mul mixNoise (f32OfNat s.noise.output)))
    (f32Mul mixDmc (f32OfNat s.dmc.outputLevel.toNat))

/-- `y + alpha * (x - y)` (R531). -/
def lowpass (alpha y x : F32) : F32 := f32Add y (f32Mul alpha (f32Sub x y))

/-- A pair put into the ring, dropped when the ring is full (R532, D42). -/
def pushPair (ring : List (F32 × F32)) (y : F32) : List (F32 × F32) :=
  if ring.length < Config.audioRingPairs then ring ++ [(y, y)] else ring

/-- A filtered sample put out (R531, R532). -/
def Apu.putSample (s : Apu) (y : F32) : Apu := { s with filterState := y, ring := pushPair s.ring y }

/-- The average of the cycles since the last sample, `m` the last of them (R530). -/
def Apu.average (s : Apu) (m : F32) : F32 := f32Div (f32Add s.avgSum m) (f32OfNat (s.avgCount + 1#32).toNat)

/-- `emit_sample_if_due(m)` (R530). -/
def Apu.emitSample (alpha : F32) (s : Apu) (m : F32) : Apu :=
  if Config.cpuFreq ≤ s.outAcc + Config.sampleRate then
    Apu.putSample
      { s with outAcc := s.outAcc + Config.sampleRate - Config.cpuFreq, avgSum := 0#32, avgCount := 0#32 }
      (lowpass alpha s.filterState (s.average m))
  else
    { s with
      outAcc := s.outAcc + Config.sampleRate
      avgSum := f32Add s.avgSum m
      avgCount := s.avgCount + 1#32 }

/-- The timers of one APU cycle: the triangle's always, the others on even cycles (R502, D41). -/
def Apu.clockTimers (s : Apu) : Apu :=
  let s1 := { s with tri := s.tri.clockTimer }
  if s1.cycle.toNat % 2 = 0 then
    { s1 with pulse0 := s1.pulse0.clockTimer, pulse1 := s1.pulse1.clockTimer, noise := s1.noise.clockTimer }
  else s1

/-- The frame counter of one APU cycle (R502, R503). -/
def Apu.clockFrameCounter (s : Apu) : Apu :=
  if s.fcCycles + 1#16 = Config.frameCounterPeriod then Apu.sequencerStep { s with fcCycles := 0#16 }
  else { s with fcCycles := s.fcCycles + 1#16 }

/-- `apu.step()`: one CPU cycle, its five parts in the order of D41, to which R502 leaves it: frame counter, triangle,
pulse and noise, mixer, rate conversion (DEDUCED: entry 16). -/
def Apu.step (alpha : F32) (s : Apu) : Apu :=
  let s1 := (Apu.clockFrameCounter { s with cycle := s.cycle + 1#64 }).clockTimers
  s1.emitSample alpha s1.mix

/-- `apu.reset()` (R501). -/
def Apu.reset : Apu := .atReset

/-- The floats at the head of a ring, left before right. -/
def ringFloats (pairs : List (F32 × F32)) : List F32 := pairs.flatMap fun p => [p.1, p.2]

/-- `drain_audio(out)` with room for `room` floats: whole pairs, oldest first (R532). -/
def Apu.drain (s : Apu) (room : Nat) : List F32 × Apu :=
  (ringFloats (s.ring.take (room / 2)), { s with ring := s.ring.drop (room / 2) })

end Sys2Proof.Machine
end

