-- ==== Sys2Proof/Machine/Flags.lean ====
section
/-! DEFINITION. The status register and every flag computation (spec/10_state.md R26-R28, 00_scope.md R11,
42_arithmetic.md R180-R184, 43_logic_shift.md R203-R207). -/

namespace Sys2Proof.Machine

/-- The flags of `p`, by name (R26). -/
inductive Flag where
  | C
  | Z
  | I
  | D
  | B
  | U
  | V
  | N
  deriving DecidableEq, Repr

/-- The bit a flag occupies (R26). -/
def Flag.index : Flag → Nat
  | .C => 0
  | .Z => 1
  | .I => 2
  | .D => 3
  | .B => 4
  | .U => 5
  | .V => 6
  | .N => 7

/-- A flag of a status byte. -/
def getFlag (p : Byte) (f : Flag) : Bool := p.getLsbD f.index

/-- A status byte with one flag set or cleared. -/
def putFlag (p : Byte) (f : Flag) (b : Bool) : Byte :=
  let mask := 1#8 <<< f.index
  p &&& ~~~mask ||| (if b then mask else 0#8)

/-- A flag of the CPU. -/
def Cpu.flag (c : Cpu) (f : Flag) : Bool := getFlag c.p f

/-- The CPU with one flag set or cleared. -/
def Cpu.withFlag (c : Cpu) (f : Flag) (b : Bool) : Cpu := { c with p := putFlag c.p f b }

/-- `setZN(v)` (00_scope.md R11). -/
def Cpu.setZN (c : Cpu) (v : Byte) : Cpu := (c.withFlag .Z (v == 0#8)).withFlag .N (bitOf v 7)

/-- `pushed_p(b)`: the status byte as it is pushed (00_scope.md R11). -/
def pushedP (p : Byte) (b : Bool) : Byte := p &&& 0xCF#8 ||| 0x20#8 ||| (if b then 0x10#8 else 0#8)

/-- `p` after a status byte `v` is pulled: B kept, U forced (41_transfer_stack.md R169, 44_control_flow.md R223). -/
def pulledP (p v : Byte) : Byte := v &&& 0xCF#8 ||| p &&& 0x10#8 ||| 0x20#8

/-- The unbounded sum of R180: `a + m + C`, 0 to 511. -/
def sumWithCarry (a m : Byte) (c : Bool) : Nat := a.toNat + m.toNat + c.toNat

/-- The overflow formula `~(a ^ m) & (a ^ r) & 0x80` (R180). -/
def overflowed (a m r : Byte) : Bool := ~~~(a ^^^ m) &&& (a ^^^ r) &&& 0x80#8 != 0#8

/-- ADC: `a`, C, V, Z and N from `a + m + C`; D is not read (R180). -/
def Cpu.addWithCarry (c : Cpu) (m : Byte) : Cpu :=
  let s := sumWithCarry c.a m (c.flag .C)
  let r := BitVec.ofNat 8 s
  Cpu.setZN ((Cpu.withFlag { c with a := r } .C (decide (255 < s))).withFlag .V (overflowed c.a m r)) r

/-- SBC: ADC of the operand's complement (R181, 90_conflicts.md C4). -/
def Cpu.subWithBorrow (c : Cpu) (m : Byte) : Cpu := c.addWithCarry (m ^^^ 0xFF#8)

/-- CMP, CPX, CPY of a register's value `r` with `m`: C, Z, N; no register is written (R182-R184). -/
def Cpu.compare (c : Cpu) (r m : Byte) : Cpu := (c.withFlag .C (decide (m ≤ r))).setZN (r - m)

/-- BIT: Z from `a & m`, N and V copied from `m` (R203). -/
def Cpu.testBits (c : Cpu) (m : Byte) : Cpu :=
  ((c.withFlag .Z (c.a &&& m == 0#8)).withFlag .N (bitOf m 7)).withFlag .V (bitOf m 6)

/-- `op(v, c)` of ASL: the result and the carry out (R204). -/
def shiftAsl (v : Byte) (_c : Bool) : Byte × Bool := (v <<< 1, bitOf v 7)

/-- `op(v, c)` of LSR (R205). -/
def shiftLsr (v : Byte) (_c : Bool) : Byte × Bool := (v >>> 1, bitOf v 0)

/-- `op(v, c)` of ROL (R206). -/
def shiftRol (v : Byte) (c : Bool) : Byte × Bool := (v <<< 1 ||| bit8 c, bitOf v 7)

/-- `op(v, c)` of ROR (R207). -/
def shiftRor (v : Byte) (c : Bool) : Byte × Bool := (v >>> 1 ||| bit8 c <<< 7, bitOf v 0)

/-- The flags a shift leaves: C from the bit shifted out, Z and N from the result (43_logic_shift.md, common frame). -/
def Cpu.shiftFlags (c : Cpu) (r : Byte × Bool) : Cpu := (c.withFlag .C r.2).setZN r.1

end Sys2Proof.Machine
end

