-- ==== Sys2Proof/Machine/Memory.lean ====
section
/-! DEFINITION. Memories as canonical lists of cells: reading, writing, the canonical form, and the picture
kept the same way. What an unlisted address reads as is `Config.unlistedByte` (entry 5). -/

namespace Sys2Proof.Machine

/-- The value listed for key `k`, or `d`. -/
def cellGet {α : Type} (d : α) : List (Nat × α) → Nat → α
  | [], _ => d
  | c :: m, k => if c.1 = k then c.2 else cellGet d m k

/-- The list without key `k`. -/
def cellErase {α : Type} (m : List (Nat × α)) (k : Nat) : List (Nat × α) :=
  m.filter fun c => c.1 != k

/-- A cell put before the first larger key. -/
def cellInsert {α : Type} (k : Nat) (v : α) : List (Nat × α) → List (Nat × α)
  | [] => [(k, v)]
  | c :: m => if k < c.1 then (k, v) :: c :: m else c :: cellInsert k v m

/-- Store `v` at key `k`; storing the value an unlisted key reads as removes the cell. -/
def cellSet {α : Type} [DecidableEq α] (d : α) (m : List (Nat × α)) (k : Nat) (v : α) : List (Nat × α) :=
  if v = d then cellErase m k else cellInsert k v (cellErase m k)

/-- The canonical form: keys strictly rising, no cell that says what an unlisted key reads as. -/
abbrev cellsWf {α : Type} (d : α) (m : List (Nat × α)) : Prop :=
  m.Pairwise (fun c c' => c.1 < c'.1) ∧ ∀ c ∈ m, c.2 ≠ d

/-- One byte of a memory. -/
def Memory.read (m : Memory) (k : Nat) : Byte := cellGet Config.unlistedByte m k

/-- One byte of a memory stored. -/
def Memory.write (m : Memory) (k : Nat) (v : Byte) : Memory := cellSet Config.unlistedByte m k v

/-- A memory is in canonical form. -/
abbrev Memory.wf (m : Memory) : Prop := cellsWf Config.unlistedByte m

/-- Every listed address is below `n`. -/
abbrev Memory.below (n : Nat) (m : Memory) : Prop := ∀ c ∈ m, c.1 < n

/-- The memory whose first bytes are `bs`, numbered from `k`. -/
def memoryFrom (k : Nat) : List Byte → Memory
  | [] => []
  | b :: bs => if b = Config.unlistedByte then memoryFrom (k + 1) bs else (k, b) :: memoryFrom (k + 1) bs

/-- The 6-bit colour index a pixel was last drawn with, none if it has not been drawn (entry 10). -/
def pixelGet (f : Framebuffer) (py px : Nat) : Option (BitVec 6) :=
  (cellGet [] f py).lookup px

/-- Draw a pixel: row `py`, column `px` (61_ppu.md R463). -/
def pixelSet (f : Framebuffer) (py px : Nat) (c : BitVec 6) : Framebuffer :=
  let row := cellGet [] f py
  cellSet [] f py (cellInsert px c (cellErase row px))

end Sys2Proof.Machine
end

