-- ==== Sys2Proof/Machine/Cartridge.lean ====
section
/-! DEFINITION. The cartridge and its fourteen mappers (spec/63_cartridge_mappers.md R550-R597): what the CPU and
the PPU read and write there, mirroring, the MMC3 A12 filter and counter, and the power-on values. No mapper reads
the frame cycle that R550 passes to `ppu_read` and `irq_pending`, so those two operations do not take it. -/

namespace Sys2Proof.Machine

/-- A bank number of R557: counted from the start, or the k-th from the end (the spec's -k). -/
inductive Bank where
  | at (n : Nat)
  | fromEnd (k : Nat)
  deriving DecidableEq, Repr

/-- A bank number reduced into `n` available banks (R557); `n` must not be 0. -/
def Bank.index (n : Nat) : Bank → Nat
  | .at b => b % n
  | .fromEnd k => (n * k + n - k) % n

/-- The bank number as R557 writes it. -/
def Bank.toInt : Bank → Int
  | .at b => b
  | .fromEnd k => -k

/-- Where in the PRG ROM a CPU address lies: bank size, bank, offset (R557). -/
structure PrgSlot where
  size : Nat
  bank : Bank
  off : Nat
  deriving DecidableEq, Repr

/-- The slot of a switched 32 KiB bank. -/
def slot32 (bank addr : Nat) : PrgSlot := ⟨32768, .at bank, addr - 0x8000⟩

/-- A switched 16 KiB bank at 0x8000 and the last one at 0xC000 (R570, R576, R583, MMC1 mode 3 of R563). -/
def slot16Last (bank addr : Nat) : PrgSlot :=
  if addr < 0xC000 then ⟨16384, .at bank, addr - 0x8000⟩ else ⟨16384, .fromEnd 1, addr - 0xC000⟩

/-- Four 8 KiB slots at 0x8000, 0xA000, 0xC000, 0xE000. -/
def slot8 (b0 b1 b2 b3 : Bank) (addr : Nat) : PrgSlot :=
  if addr < 0xA000 then ⟨8192, b0, addr - 0x8000⟩
  else if addr < 0xC000 then ⟨8192, b1, addr - 0xA000⟩
  else if addr < 0xE000 then ⟨8192, b2, addr - 0xC000⟩
  else ⟨8192, b3, addr - 0xE000⟩

/-- MMC1's PRG modes (R563). -/
def Mmc1.prgSlot (m : Mmc1) (addr : Nat) : PrgSlot :=
  let b := (m.prgr &&& 0x0F#8).toNat
  match (m.control.toNat / 4) % 4 with
  | 2 => if addr < 0xC000 then ⟨16384, .at 0, addr - 0x8000⟩ else ⟨16384, .at b, addr - 0xC000⟩
  | 3 => slot16Last b addr
  | _ => slot32 (b / 2) addr

/-- The PRG slot of a CPU address from 0x8000 on (R561, R563, R570-R572, R576, R580-R585, R592). -/
def Cartridge.prgSlot (c : Cartridge) (addr : Nat) : PrgSlot :=
  match c.mapper with
  | .nrom => ⟨c.prgSize, .at 0, (addr - 0x8000) % c.prgSize⟩
  | .mmc1 m => m.prgSlot addr
  | .uxrom bank => slot16Last bank.toNat addr
  | .cnrom _ => ⟨c.prgSize, .at 0, (addr - 0x8000) % c.prgSize⟩
  | .mmc3 m =>
    if m.prgMode then slot8 (.fromEnd 2) (.at m.r[7].toNat) (.at m.r[6].toNat) (.fromEnd 1) addr
    else slot8 (.at m.r[6].toNat) (.at m.r[7].toNat) (.fromEnd 2) (.fromEnd 1) addr
  | .axrom bank _ => slot32 bank.toNat addr
  | .mmc2 m => slot8 (.at m.prgBank.toNat) (.fromEnd 3) (.fromEnd 2) (.fromEnd 1) addr
  | .mmc4 m => slot16Last m.prgBank.toNat addr
  | .colorDreams prgBank _ => slot32 prgBank.toNat addr
  | .m34 prgBank _ _ => slot32 prgBank.toNat addr
  | .gnrom prgBank _ => slot32 prgBank.toNat addr
  | .camerica bank => slot16Last bank.toNat addr
  | .nina prgBank _ => slot32 prgBank.toNat addr
  | .dxrom _ r => slot8 (.at r[6].toNat) (.at r[7].toNat) (.fromEnd 2) (.fromEnd 1) addr

/-- The PRG ROM offset of a slot, none when the ROM is smaller than one bank (R557, entry 14). -/
def Cartridge.prgOffset (c : Cartridge) (p : PrgSlot) : Option Nat :=
  if c.prgSize / p.size = 0 then none
  else some (p.bank.index (c.prgSize / p.size) * p.size + p.off)

/-- A PRG ROM byte; a free value when the ROM is smaller than one bank (R557, entry 14). -/
def Cartridge.prgByte (c : Cartridge) (p : PrgSlot) : Byte :=
  match c.prgOffset p with
  | some k => c.prgRom.read k
  | none => Config.undersizedPrgByte c.prgSize p.size p.bank.toInt p.off

/-- `cpu_read`: a CPU read of 0x4020-0xFFFF; nothing readable below 0x6000 (R550, R556, 20_memory.md R65). -/
def Cartridge.cpuRead (c : Cartridge) (addr : Nat) : Byte :=
  if addr < 0x6000 then 0#8
  else if addr < 0x8000 then c.prgRam.read (addr - 0x6000)
  else c.prgByte (c.prgSlot addr)

/-- MMC1's serial port, written from 0x8000 on (R562). -/
def Mmc1.write (m : Mmc1) (addr : Nat) (v : Byte) : Mmc1 :=
  if bitOf v 7 then { m with shift := 0#8, count := 0, control := m.control ||| 0x0C#8 }
  else
    let shift := m.shift ||| (bit8 (bitOf v 0) <<< m.count)
    if m.count + 1 = 5 then
      let done := { m with shift := 0#8, count := 0 }
      match (addr / 8192) % 4 with
      | 0 => { done with control := shift }
      | 1 => { done with chr0 := shift }
      | 2 => { done with chr1 := shift }
      | _ => { done with prgr := shift }
    else { m with shift := shift, count := m.count + 1 }

/-- MMC3's registers, selected by `addr & 0xE001` (R591). -/
def Mmc3.write (m : Mmc3) (addr : Nat) (v : Byte) : Mmc3 :=
  match (addr / 8192) % 4, addr % 2 with
  | 0, 0 => { m with sel := v.truncate 3, prgMode := bitOf v 6, chrMode := bitOf v 7 }
  | 0, _ => { m with r := m.r.setIfInBounds m.sel.toNat v }
  | 1, 0 => { m with mirror := bitOf v 0 }
  | 1, _ => m
  | 2, 0 => { m with irqLatch := v }
  | 2, _ => { m with irqReload := true, irqCounter := 0#8 }
  | _, 0 => { m with irqEnabled := false, irqFlag := false }
  | _, _ => { m with irqEnabled := true }

/-- The registers of MMC2 and MMC4, selected by `addr & 0xF000` (R575). -/
def Mmc24.write (m : Mmc24) (addr : Nat) (v : Byte) : Mmc24 :=
  match addr / 4096 with
  | 0xA => { m with prgBank := v &&& 0x0F#8 }
  | 0xB => { m with chrFd0 := v &&& 0x1F#8 }
  | 0xC => { m with chrFe0 := v &&& 0x1F#8 }
  | 0xD => { m with chrFd1 := v &&& 0x1F#8 }
  | 0xE => { m with chrFe1 := v &&& 0x1F#8 }
  | 0xF => { m with mirror := bitOf v 0 }
  | _ => m

/-- A register write from 0x8000 on (R561, R562, R570-R572, R575, R580-R585, R591). -/
def Mapper.writeHigh (m : Mapper) (hasChrRam : Bool) (addr : Nat) (v : Byte) : Mapper :=
  match m with
  | .nrom => .nrom
  | .mmc1 r => .mmc1 (r.write addr v)
  | .uxrom _ => .uxrom v
  | .cnrom _ => .cnrom v
  | .mmc3 r => .mmc3 (r.write addr v)
  | .axrom _ _ => .axrom (v &&& 0x07#8) (bitOf v 4)
  | .mmc2 r => .mmc2 (r.write addr v)
  | .mmc4 r => .mmc4 (r.write addr v)
  | .colorDreams _ _ => .colorDreams (v &&& 0x03#8) (v >>> 4 &&& 0x0F#8)
  | .m34 prgBank chr0 chr1 => if hasChrRam then .m34 v chr0 chr1 else .m34 prgBank chr0 chr1
  | .gnrom _ _ => .gnrom (v >>> 4 &&& 0x03#8) (v &&& 0x03#8)
  | .camerica bank => if addr < 0xC000 then .camerica bank else .camerica (v &&& 0x0F#8)
  | .nina prgBank chrBank => .nina prgBank chrBank
  | .dxrom sel r =>
    if addr < 0xA000 then
      (if addr % 2 = 0 then .dxrom (v.truncate 3) r else .dxrom sel (r.setIfInBounds sel.toNat v))
    else .dxrom sel r

/-- NINA-001's three registers inside the PRG RAM window (R581); no other mapper has registers there. -/
def Mapper.writeRamWindow (m : Mapper) (hasChrRam : Bool) (addr : Nat) (v : Byte) : Mapper :=
  match m with
  | .m34 prgBank chr0 chr1 =>
    if hasChrRam then .m34 prgBank chr0 chr1
    else if addr = 0x7FFD then .m34 (v &&& 0x01#8) chr0 chr1
    else if addr = 0x7FFE then .m34 prgBank (v &&& 0x0F#8) chr1
    else if addr = 0x7FFF then .m34 prgBank chr0 (v &&& 0x0F#8)
    else .m34 prgBank chr0 chr1
  | other => other

/-- NINA-03/06's register at 0x4100-0x5FFF with address bit 8 set (R584); no other mapper has registers below 0x6000. -/
def Mapper.writeLow (m : Mapper) (addr : Nat) (v : Byte) : Mapper :=
  match m with
  | .nina prgBank chrBank =>
    if 0x4100 ≤ addr ∧ (addr / 256) % 2 = 1 then .nina (v >>> 3 &&& 0x01#8) (v &&& 0x07#8)
    else .nina prgBank chrBank
  | other => other

/-- `cpu_write`: a CPU write of 0x4020-0xFFFF (R550, R556; the ROM itself never changes, 20_memory.md R66). -/
def Cartridge.cpuWrite (c : Cartridge) (addr : Nat) (v : Byte) : Cartridge :=
  if addr < 0x6000 then { c with mapper := c.mapper.writeLow addr v }
  else if addr < 0x8000 then
    { c with prgRam := c.prgRam.write (addr - 0x6000) v, mapper := c.mapper.writeRamWindow c.hasChrRam addr v }
  else { c with mapper := c.mapper.writeHigh c.hasChrRam addr v }

/-- `chrb`: the CHR offset of a bank (R557). -/
def chrOffset (chrSize size bank off : Nat) : Nat := (bank % (chrSize / size)) * size + off

/-- The eight 1 KiB CHR banks of MMC3's `chr_mode` false, which are DxROM's too (R585, R592). -/
def chrSlots (r : Vector Byte 8) : Nat → Byte
  | 0 => r[0] &&& 0xFE#8
  | 1 => r[0] ||| 0x01#8
  | 2 => r[1] &&& 0xFE#8
  | 3 => r[1] ||| 0x01#8
  | 4 => r[2]
  | 5 => r[3]
  | 6 => r[4]
  | _ => r[5]

/-- The CHR bank a latch of MMC2 or MMC4 selects (R577). -/
def Mmc24.chrBank (m : Mmc24) (addr : Nat) : Byte :=
  if addr < 0x1000 then (match m.latch0 with | .fd => m.chrFd0 | .fe => m.chrFe0)
  else (match m.latch1 with | .fd => m.chrFd1 | .fe => m.chrFe1)

/-- Where in `chr` a PPU address below 0x2000 lies (R550, R557, R563, R571, R577, R580-R582, R584, R585, R592). -/
def Cartridge.chrIndex (c : Cartridge) (addr : Nat) : Nat :=
  match c.mapper with
  | .nrom => addr % c.chrSize
  | .uxrom _ => addr % c.chrSize
  | .axrom _ _ => addr % c.chrSize
  | .camerica _ => addr % c.chrSize
  | .cnrom chrBank => chrOffset c.chrSize 8192 chrBank.toNat addr
  | .colorDreams _ chrBank => chrOffset c.chrSize 8192 chrBank.toNat addr
  | .gnrom _ chrBank => chrOffset c.chrSize 8192 chrBank.toNat addr
  | .nina _ chrBank => chrOffset c.chrSize 8192 chrBank.toNat addr
  | .mmc1 m =>
    if bitOf m.control 4 then
      (if addr < 0x1000 then chrOffset c.chrSize 4096 m.chr0.toNat addr
       else chrOffset c.chrSize 4096 m.chr1.toNat (addr - 0x1000))
    else chrOffset c.chrSize 8192 (m.chr0.toNat / 2) addr
  | .m34 _ chr0 chr1 =>
    if c.hasChrRam then addr % c.chrSize
    else if addr < 0x1000 then chrOffset c.chrSize 4096 chr0.toNat addr
    else chrOffset c.chrSize 4096 chr1.toNat (addr - 0x1000)
  | .mmc2 m => chrOffset c.chrSize 4096 (m.chrBank addr).toNat (addr % 4096)
  | .mmc4 m => chrOffset c.chrSize 4096 (m.chrBank addr).toNat (addr % 4096)
  | .mmc3 m =>
    let k := addr / 1024
    chrOffset c.chrSize 1024 (chrSlots m.r (if m.chrMode then (k + 4) % 8 else k)).toNat (addr % 1024)
  | .dxrom _ r => chrOffset c.chrSize 1024 (chrSlots r (addr / 1024)).toNat (addr % 1024)

/-- MMC2's latches after a PPU read (R577). -/
def Mmc24.latchMmc2 (m : Mmc24) (addr : Nat) : Mmc24 :=
  if addr = 0x0FD8 then { m with latch0 := .fd }
  else if addr = 0x0FE8 then { m with latch0 := .fe }
  else if 0x1FD8 ≤ addr ∧ addr ≤ 0x1FDF then { m with latch1 := .fd }
  else if 0x1FE8 ≤ addr ∧ addr ≤ 0x1FEF then { m with latch1 := .fe }
  else m

/-- MMC4's latches after a PPU read (R577). -/
def Mmc24.latchMmc4 (m : Mmc24) (addr : Nat) : Mmc24 :=
  if 0x0FD8 ≤ addr ∧ addr ≤ 0x0FDF then { m with latch0 := .fd }
  else if 0x0FE8 ≤ addr ∧ addr ≤ 0x0FEF then { m with latch0 := .fe }
  else if 0x1FD8 ≤ addr ∧ addr ≤ 0x1FDF then { m with latch1 := .fd }
  else if 0x1FE8 ≤ addr ∧ addr ≤ 0x1FEF then { m with latch1 := .fe }
  else m

/-- The mapper after a PPU read of `addr` below 0x2000 (R577). -/
def Mapper.afterChrRead (m : Mapper) (addr : Nat) : Mapper :=
  match m with
  | .mmc2 r => .mmc2 (r.latchMmc2 addr)
  | .mmc4 r => .mmc4 (r.latchMmc4 addr)
  | other => other

/-- `ppu_read`: the byte by the latches as they were, then the latches move (R550, R577). -/
def Cartridge.chrRead (c : Cartridge) (addr : Nat) : Byte × Cartridge :=
  (c.chr.read (c.chrIndex addr), { c with mapper := c.mapper.afterChrRead addr })

/-- `ppu_write`: effective for CHR RAM only, through the same banks as a read (R550, R557; DEDUCED, unsafe: entry 21). -/
def Cartridge.chrWrite (c : Cartridge) (addr : Nat) (v : Byte) : Cartridge :=
  if c.hasChrRam then { c with chr := c.chr.write (c.chrIndex addr) v } else c

/-- `mirror_mode` (R550, R563, R572, R575, R591). -/
def Cartridge.mirrorMode (c : Cartridge) : MirrorMode :=
  match c.mapper with
  | .mmc1 m =>
    match m.control.toNat % 4 with
    | 0 => .singleScreen0
    | 1 => .singleScreen1
    | 2 => .vertical
    | _ => .horizontal
  | .axrom _ nt => if nt then .singleScreen1 else .singleScreen0
  | .mmc2 m => if m.mirror then .horizontal else .vertical
  | .mmc4 m => if m.mirror then .horizontal else .vertical
  | .mmc3 m =>
    match c.initialMirror with
    | .fourScreen => .fourScreen
    | _ => if m.mirror then .horizontal else .vertical
  | _ => c.initialMirror

/-- MMC3's counter clocked at frame cycle `fc` (R596). -/
def Mmc3.clockCounter (m : Mmc3) (fc : Nat) : Mmc3 :=
  let m' :=
    if m.irqCounter = 0#8 ∨ m.irqReload then { m with irqCounter := m.irqLatch, irqReload := false }
    else { m with irqCounter := m.irqCounter - 1#8 }
  if m'.irqCounter = 0#8 ∧ m'.irqEnabled then { m' with irqFlag := true, irqPendingAtCycle := fc } else m'

/-- How long A12 was low when it rises at frame cycle `fc`, wrapping at the end of the frame (R595). -/
def cyclesLow (fc since : Nat) : Nat := if since ≤ fc then fc - since else fc + Config.dotsPerFrame - since

/-- MMC3's A12 filter: `addr` is on the PPU bus at frame cycle `fc` (R595). -/
def Mmc3.addressBus (m : Mmc3) (addr : Word) (fc : Nat) : Mmc3 :=
  let a12 := addr.getLsbD 12
  let m1 := if m.lastA12 && !a12 then { m with lastA12Cycle := fc } else m
  let m2 :=
    if !m.lastA12 && a12 && decide (Config.a12FilterDots ≤ cyclesLow fc m.lastA12Cycle) then m1.clockCounter fc else m1
  { m2 with lastA12 := a12 }

/-- `notify_ppu_address_bus`: only MMC3 listens (R550, R595). -/
def Cartridge.notifyAddressBus (c : Cartridge) (addr : Word) (fc : Nat) : Cartridge :=
  match c.mapper with
  | .mmc3 m => { c with mapper := .mmc3 (m.addressBus addr fc) }
  | _ => c

/-- `notify_ppu_addr_change`: the new address is a bus access (R595); the old one is not used. -/
def Cartridge.notifyAddrChange (c : Cartridge) (new : Word) (fc : Nat) : Cartridge :=
  c.notifyAddressBus (new &&& 0x3FFF#16) fc

/-- `notify_frame_start`: the cycle reference restarts, the line keeps its level (R595). -/
def Cartridge.notifyFrameStart (c : Cartridge) : Cartridge :=
  match c.mapper with
  | .mmc3 m => { c with mapper := .mmc3 { m with lastA12Cycle := 0 } }
  | _ => c

/-- `irq_pending`: only MMC3's flag (R550, R596, R597). -/
def Cartridge.irqPending (c : Cartridge) : Bool :=
  match c.mapper with
  | .mmc3 m => m.irqFlag
  | _ => false

/-- `irq_clear` (R550, R596). -/
def Cartridge.irqClear (c : Cartridge) : Cartridge :=
  match c.mapper with
  | .mmc3 m => { c with mapper := .mmc3 { m with irqFlag := false } }
  | _ => c

/-- MMC1 at power-on (R562). -/
def mmc1PowerOn : Mmc1 where
  shift := 0#8
  count := 0
  control := 0x0C#8
  chr0 := 0#8
  chr1 := 0#8
  prgr := 0#8

/-- MMC2 and MMC4 at power-on (R575, D47). -/
def mmc24PowerOn : Mmc24 where
  prgBank := 0#8
  chrFd0 := 0#8
  chrFe0 := 0#8
  chrFd1 := 0#8
  chrFe1 := 0#8
  latch0 := .fe
  latch1 := .fe
  mirror := false

/-- MMC3 at power-on (R590). -/
def mmc3PowerOn : Mmc3 where
  sel := 0#3
  prgMode := false
  chrMode := false
  r := Vector.replicate 8 0#8
  irqLatch := 0#8
  irqCounter := 0#8
  irqEnabled := false
  irqFlag := false
  irqReload := false
  lastA12 := false
  lastA12Cycle := 0
  irqPendingAtCycle := 0
  mirror := false

/-- AxROM at power-on: the last 32 KiB bank (R572). -/
def axromPowerOn (prgSize : Nat) : Mapper := .axrom (BitVec.ofNat 8 (prgSize / 32768) - 1#8) false

/-- The mapper number of a mapper state (63_cartridge_mappers.md R560). -/
def Mapper.number : Mapper → Nat
  | .nrom => 0
  | .mmc1 _ => 1
  | .uxrom _ => 2
  | .cnrom _ => 3
  | .mmc3 _ => 4
  | .axrom _ _ => 7
  | .mmc2 _ => 9
  | .mmc4 _ => 10
  | .colorDreams _ _ => 11
  | .m34 _ _ _ => 34
  | .gnrom _ _ => 66
  | .camerica _ => 71
  | .nina _ _ => 79
  | .dxrom _ _ => 206

/-- The mapper factory (R555, R560), with every register at its power-on value; none for an unknown number. -/
def mapperOf (number prgSize : Nat) : Option Mapper :=
  match number with
  | 0 => some .nrom
  | 1 => some (.mmc1 mmc1PowerOn)
  | 2 => some (.uxrom 0#8)
  | 3 => some (.cnrom 0#8)
  | 4 => some (.mmc3 mmc3PowerOn)
  | 7 => some (axromPowerOn prgSize)
  | 9 => some (.mmc2 mmc24PowerOn)
  | 10 => some (.mmc4 mmc24PowerOn)
  | 11 => some (.colorDreams 0#8 0#8)
  | 34 => some (.m34 0#8 0#8 0#8)
  | 66 => some (.gnrom 0#8 0#8)
  | 71 => some (.camerica 0#8)
  | 79 => some (.nina 0#8 0#8)
  | 206 => some (.dxrom 0#3 (Vector.replicate 8 0#8))
  | _ => none

/-- `mapper.reset`: every register at its power-on value, the memories kept (R552). -/
def Cartridge.mapperReset (c : Cartridge) : Cartridge :=
  { c with
    mapper := match c.mapper with
      | .nrom => .nrom
      | .mmc1 _ => .mmc1 mmc1PowerOn
      | .uxrom _ => .uxrom 0#8
      | .cnrom _ => .cnrom 0#8
      | .mmc3 _ => .mmc3 mmc3PowerOn
      | .axrom _ _ => axromPowerOn c.prgSize
      | .mmc2 _ => .mmc2 mmc24PowerOn
      | .mmc4 _ => .mmc4 mmc24PowerOn
      | .colorDreams _ _ => .colorDreams 0#8 0#8
      | .m34 _ _ _ => .m34 0#8 0#8 0#8
      | .gnrom _ _ => .gnrom 0#8 0#8
      | .camerica _ => .camerica 0#8
      | .nina _ _ => .nina 0#8 0#8
      | .dxrom _ _ => .dxrom 0#3 (Vector.replicate 8 0#8) }

end Sys2Proof.Machine
end

