-- ==== Sys2Proof/Machine/Ppu.lean ====
section
/-! DEFINITION. The PPU (spec/61_ppu.md R400-R464): its address space, its eight registers, one dot of its grid,
VBlank and NMI, and the pixel pipeline. Everything the PPU can touch is itself and the cartridge. -/

namespace Sys2Proof.Machine

/-- The PPU and the cartridge it is wired to: all that a PPU operation reads or changes (R402, R405). -/
structure Video where
  ppu : Ppu
  cart : Cartridge
  deriving DecidableEq, Repr

/-- `frame_cycle()` (R404). -/
def Ppu.frameCycle (p : Ppu) : Nat := p.scanline * Config.dotsPerLine + p.cycle

/-- "Rendering enabled" under a mask (R421). -/
def renderingOn (mask : Byte) : Bool := mask &&& 0x18#8 != 0#8

/-! ## The PPU address space -/

/-- `nt_index`: nametable mirroring (R406, D22). -/
def ntIndex (mode : MirrorMode) (addr : Nat) : Nat :=
  let a := addr % 0x1000
  match mode with
  | .horizontal => (a / 0x800) * 0x400 + a % 0x400
  | .vertical => a % 0x800
  | .singleScreen0 => a % 0x400
  | .singleScreen1 => 0x400 + a % 0x400
  | .fourScreen => a

/-- `pal_index`: 0x10, 0x14, 0x18, 0x1C mirror 0x00, 0x04, 0x08, 0x0C (R407). -/
def palIndex (addr : Nat) : Nat :=
  let i := addr % 0x20
  if 0x10 ≤ i ∧ i % 4 = 0 then i - 0x10 else i

/-- `ppu_read` (R405). -/
def Video.busRead (s : Video) (addr : Word) : Byte × Video :=
  let a := addr.toNat % 0x4000
  if a < 0x2000 then
    let r := s.cart.chrRead a
    (r.1, { s with cart := r.2 })
  else if a < 0x3F00 then (s.ppu.nametableRam.read (ntIndex s.cart.mirrorMode a), s)
  else (s.ppu.paletteRam.read (palIndex a), s)

/-- `ppu_write` (R405). -/
def Video.busWrite (s : Video) (addr : Word) (v : Byte) : Video :=
  let a := addr.toNat % 0x4000
  if a < 0x2000 then { s with cart := s.cart.chrWrite a v }
  else if a < 0x3F00 then
    { s with ppu := { s.ppu with nametableRam := s.ppu.nametableRam.write (ntIndex s.cart.mirrorMode a) v } }
  else { s with ppu := { s.ppu with paletteRam := s.ppu.paletteRam.write (palIndex a) v } }

/-- `fetch`: the mapper sees the address, then the byte is read (R408). -/
def Video.fetch (s : Video) (addr : Word) : Byte × Video :=
  Video.busRead { s with cart := s.cart.notifyAddressBus addr s.ppu.frameCycle } addr

/-! ## Registers -/

/-- PPUCTRL (R410, R444). -/
def Ppu.writeCtrl (p : Ppu) (v : Byte) : Ppu :=
  let on := bitOf v 7
  let p1 := { p with
    ctrl := v
    t := p.t &&& 0x73FF#16 ||| (zext16 (v &&& 0x03#8) <<< 10)
    nmiOutput := on
    nmiTriggeredDelayed := p.nmiTriggeredDelayed || (!p.nmiOutput && on && p.nmiOccurred) }
  if p.nmiOutput && !on && p.scanline == 241 && (p.cycle == 1 || p.cycle == 2) then
    { p1 with nmiLatched := false, nmiDelay := 0#8 }
  else p1

/-- PPUMASK (R411). -/
def Ppu.writeMask (p : Ppu) (v : Byte) : Ppu :=
  { p with maskPrev := p.mask, maskWriteCycle := p.frameCycle, mask := v }

/-- PPUSTATUS (R412, R445): flags and the low bits of the buffer; VBlank, `nmi_occurred` and `w` clear; a read in the
first three dots of line 241 suppresses. -/
def Ppu.readStatus (p : Ppu) : Byte × Ppu :=
  let r := p.status &&& 0xE0#8 ||| p.dataBuffer &&& 0x1F#8
  let p1 :=
    if p.scanline == 241 && p.cycle == 0 then { p with vblSuppress := true, suppressNmi := true }
    else if p.scanline == 241 && (p.cycle == 1 || p.cycle == 2) then
      { p with suppressNmi := true, nmiLatched := false, nmiDelay := 0#8 }
    else p
  (r, { p1 with status := p.status &&& 0x7F#8, nmiOccurred := false, w := false })

/-- `oam_write` (R402). -/
def Ppu.oamWrite (p : Ppu) (k : Nat) (v : Byte) : Ppu := { p with oam := p.oam.write k v }

/-- OAMDATA written (R414). -/
def Ppu.writeOamData (p : Ppu) (v : Byte) : Ppu :=
  { p.oamWrite p.oamAddr.toNat v with oamAddr := p.oamAddr + 1#8 }

/-- PPUSCROLL (R415). -/
def Ppu.writeScroll (p : Ppu) (v : Byte) : Ppu :=
  if p.w then
    { p with
      t := p.t &&& 0x0C1F#16 ||| (zext16 (v &&& 0x07#8) <<< 12) ||| (zext16 (v &&& 0xF8#8) <<< 2)
      w := false }
  else { p with t := p.t &&& 0x7FE0#16 ||| zext16 (v >>> 3), fineX := v.truncate 3, w := true }

/-- PPUADDR (R416): the second write copies `t` into `v` and tells the mapper. -/
def Video.writeAddr (s : Video) (v : Byte) : Video :=
  if s.ppu.w then
    let t := s.ppu.t &&& 0x7F00#16 ||| zext16 v
    { ppu := { s.ppu with t := t, v := t, w := false }
      cart := s.cart.notifyAddrChange t s.ppu.frameCycle }
  else
    { s with ppu := { s.ppu with t := s.ppu.t &&& 0x00FF#16 ||| (zext16 (v &&& 0x3F#8) <<< 8), w := true } }

/-- After a PPUDATA access: `v` moves by 1 or 32 and the mapper is told (R417, R418). -/
def Video.advanceAddr (s : Video) : Video :=
  let v := (s.ppu.v + if bitOf s.ppu.ctrl 2 then 32#16 else 1#16) &&& 0x7FFF#16
  { ppu := { s.ppu with v := v }, cart := s.cart.notifyAddrChange v s.ppu.frameCycle }

/-- PPUDATA read (R417, D37). -/
def Video.readData (s : Video) : Byte × Video :=
  let addr := s.ppu.v &&& 0x3FFF#16
  if 0x3F00#16 ≤ addr then
    let r := s.busRead addr
    let b := r.2.busRead (addr - 0x1000#16)
    (r.1, Video.advanceAddr { b.2 with ppu := { b.2.ppu with dataBuffer := b.1 } })
  else
    let b := s.busRead addr
    (s.ppu.dataBuffer, Video.advanceAddr { b.2 with ppu := { b.2.ppu with dataBuffer := b.1 } })

/-- PPUDATA write (R418). -/
def Video.writeData (s : Video) (v : Byte) : Video :=
  (s.busWrite (s.ppu.v &&& 0x3FFF#16) v).advanceAddr

/-- `cpu_read(reg)` (R412, R414, R417; write-only registers read 0, R419). -/
def Video.regRead (s : Video) (reg : Nat) : Byte × Video :=
  match reg with
  | 2 =>
    let r := s.ppu.readStatus
    (r.1, { s with ppu := r.2 })
  | 4 => (s.ppu.oam.read s.ppu.oamAddr.toNat, s)
  | 7 => s.readData
  | _ => (0#8, s)

/-- `cpu_write(reg, v)` (R410, R411, R413-R416, R418; register 2 ignores writes, R419). -/
def Video.regWrite (s : Video) (reg : Nat) (v : Byte) : Video :=
  match reg with
  | 0 => { s with ppu := s.ppu.writeCtrl v }
  | 1 => { s with ppu := s.ppu.writeMask v }
  | 3 => { s with ppu := { s.ppu with oamAddr := v } }
  | 4 => { s with ppu := s.ppu.writeOamData v }
  | 5 => { s with ppu := s.ppu.writeScroll v }
  | 6 => s.writeAddr v
  | 7 => s.writeData v
  | _ => s

/-! ## Background -/

/-- `increment_coarse_x` (R423). -/
def incCoarseX (v : Word) : Word :=
  if v &&& 0x001F#16 = 31#16 then (v &&& ~~~0x001F#16) ^^^ 0x0400#16 else v + 1#16

/-- `increment_fine_y` (R424). -/
def incFineY (v : Word) : Word :=
  if v &&& 0x7000#16 ≠ 0x7000#16 then v + 0x1000#16
  else
    let u := v &&& ~~~0x7000#16
    let y := u >>> 5 &&& 0x1F#16
    let u1 := if y = 29#16 then u ^^^ 0x0800#16 else u
    let y1 := if y = 29#16 ∨ y = 31#16 then 0#16 else y + 1#16
    u1 &&& ~~~0x03E0#16 ||| y1 <<< 5

/-- The horizontal bits of `t` copied into `v` (R425). -/
def copyHorizontal (v t : Word) : Word := v &&& ~~~0x041F#16 ||| t &&& 0x041F#16

/-- The vertical bits of `t` copied into `v` (R431). -/
def copyVertical (v t : Word) : Word := v &&& ~~~0x7BE0#16 ||| t &&& 0x7BE0#16

/-- `shift_background` (R432). -/
def Ppu.shiftBackground (p : Ppu) : Ppu :=
  if bitOf p.mask 3 then
    { p with
      bgPatternLo := p.bgPatternLo <<< 1
      bgPatternHi := p.bgPatternHi <<< 1
      bgAttrLo := p.bgAttrLo <<< 1
      bgAttrHi := p.bgAttrHi <<< 1 }
  else p

/-- `load_background_shifters` (R432). -/
def Ppu.loadShifters (p : Ppu) : Ppu :=
  { p with
    bgPatternLo := p.bgPatternLo &&& 0xFF00#16 ||| zext16 p.nextTileLo
    bgPatternHi := p.bgPatternHi &&& 0xFF00#16 ||| zext16 p.nextTileHi
    bgAttrLo := p.bgAttrLo &&& 0xFF00#16 ||| (if bitOf p.nextTileAttr 0 then 0x00FF#16 else 0#16)
    bgAttrHi := p.bgAttrHi &&& 0xFF00#16 ||| (if bitOf p.nextTileAttr 1 then 0x00FF#16 else 0#16) }

/-- The nametable address of the tile at `v` (R422). -/
def tileAddr (v : Word) : Word := 0x2000#16 ||| v &&& 0x0FFF#16

/-- The attribute address of the tile at `v` (R422). -/
def attrAddr (v : Word) : Word :=
  0x23C0#16 ||| v &&& 0x0C00#16 ||| v >>> 4 &&& 0x38#16 ||| v >>> 2 &&& 0x07#16

/-- The two attribute bits of the tile at `v` in an attribute byte (R422). -/
def attrBits (v : Word) (b : Byte) : Byte :=
  b >>> (v >>> 4 &&& 4#16 ||| v &&& 2#16).toNat &&& 0x03#8

/-- The low pattern byte's address (R422). -/
def Ppu.patternAddr (p : Ppu) : Word :=
  zext16 (p.ctrl &&& 0x10#8) <<< 8 ||| zext16 p.nextTileId <<< 4 ||| p.v >>> 12 &&& 7#16

/-- The nametable byte into `next_tile_id` (R422, R430). -/
def Video.fetchTileId (s : Video) : Video :=
  let r := s.fetch (tileAddr s.ppu.v)
  { r.2 with ppu := { r.2.ppu with nextTileId := r.1 } }

/-- The eight-dot background fetch pattern: the work of a dot with `c mod 8 = k` (R422). -/
def Video.backgroundFetch (s : Video) (k : Nat) : Video :=
  match k with
  | 1 => Video.fetchTileId { s with ppu := s.ppu.loadShifters }
  | 3 =>
    let r := s.fetch (attrAddr s.ppu.v)
    { r.2 with ppu := { r.2.ppu with nextTileAttr := attrBits s.ppu.v r.1 } }
  | 5 =>
    let r := s.fetch s.ppu.patternAddr
    { r.2 with ppu := { r.2.ppu with nextTileLo := r.1 } }
  | 7 =>
    let r := s.fetch (s.ppu.patternAddr + 8#16)
    { r.2 with ppu := { r.2.ppu with nextTileHi := r.1 } }
  | 0 => { s with ppu := { s.ppu with v := incCoarseX s.ppu.v } }
  | _ => s

/-! ## Sprites -/

/-- The slot with index `i`. -/
def Ppu.slot (p : Ppu) (i : Nat) : SpriteSlot := p.slots.toList.getD i .zero

/-- Every slot rewritten from its index and its value. -/
def mapSlots (f : Nat → SpriteSlot → SpriteSlot) (v : Vector SpriteSlot 8) : Vector SpriteSlot 8 :=
  #v[f 0 v[0], f 1 v[1], f 2 v[2], f 3 v[3], f 4 v[4], f 5 v[5], f 6 v[6], f 7 v[7]]

/-- `ctrl` bit 5: the sprite height (R410, R426). -/
def Ppu.spriteHeight (p : Ppu) : Nat := if bitOf p.ctrl 5 then 16 else 8

/-- OAM sprite `n` put into the next slot (R426). -/
def Ppu.takeSprite (p : Ppu) (n : Nat) : Ppu :=
  let old := p.slot p.spriteCount
  { p with
    slots := p.slots.setIfInBounds p.spriteCount
      { old with
        y := p.oam.read (4 * n)
        tile := p.oam.read (4 * n + 1)
        attr := p.oam.read (4 * n + 2)
        x := p.oam.read (4 * n + 3) }
    spriteZeroIndex := if n = 0 then some p.spriteCount else p.spriteZeroIndex
    spriteZeroHitPossible := n == 0 || p.spriteZeroHitPossible
    spriteCount := p.spriteCount + 1 }

/-- The sprite loop of R426: `k` sprites from number `n` on, stopping at the ninth in range. -/
def evaluateFrom (p : Ppu) (n : Nat) : Nat → Ppu
  | 0 => p
  | k + 1 =>
    let y := (p.oam.read (4 * n)).toNat
    if y ≤ p.scanline ∧ p.scanline < y + p.spriteHeight then
      if p.spriteCount < 8 then evaluateFrom (p.takeSprite n) (n + 1) k
      else { p with status := p.status ||| 0x20#8 }
    else evaluateFrom p (n + 1) k

/-- `evaluate_sprites` (R426, D34): none are prepared on the pre-render line. -/
def Ppu.evaluateSprites (p : Ppu) : Ppu :=
  let p1 := { p with spriteCount := 0, spriteZeroIndex := none, spriteZeroHitPossible := false }
  if p.scanline = Config.preRenderLine then p1 else evaluateFrom p1 0 64

/-- The row of a slot's sprite on the current line, turned over by `attr` bit 7: an unbounded integer, in `0..height-1`
for a slot that was evaluated for this line at this height (R8, R427). -/
def Ppu.spriteRow (p : Ppu) (s : SpriteSlot) (height : Nat) : Int :=
  let row : Int := (p.scanline : Int) - (s.y.toNat : Int)
  if bitOf s.attr 7 then (height : Int) - 1 - row else row

/-- The pattern address of a sprite's current row (R427). The row is compared with 8 as an integer and enters the address
modulo 65536, also where it is outside `0..height-1` (DEDUCED: entry 20). -/
def Ppu.spriteAddr (p : Ppu) (s : SpriteSlot) : Word :=
  let row := p.spriteRow s p.spriteHeight
  if bitOf p.ctrl 5 then
    zext16 (s.tile &&& 1#8) <<< 12
      ||| (zext16 (s.tile &&& 0xFE#8) + if 8 ≤ row then 1#16 else 0#16) <<< 4
      ||| BitVec.ofInt 16 row &&& 7#16
  else zext16 (p.ctrl &&& 0x08#8) <<< 9 ||| zext16 s.tile <<< 4 ||| BitVec.ofInt 16 row

/-- The address an unused slot fetches: tile 0xFF, row 0 (R427). -/
def Ppu.dummyAddr (p : Ppu) : Word :=
  if bitOf p.ctrl 5 then 0x1FF0#16 else zext16 (p.ctrl &&& 0x08#8) <<< 9 ||| 0x0FF0#16

/-- The pattern byte of slot `i`, its low plane (`plane` 0) or its high plane (`plane` 8), into its shifter (R427). -/
def Video.spritePattern (s : Video) (i : Nat) (plane : Word) : Video :=
  let slot := s.ppu.slot i
  let used := decide (i < s.ppu.spriteCount)
  let r := s.fetch ((if used then s.ppu.spriteAddr slot else s.ppu.dummyAddr) + plane)
  let b := if used then (if bitOf slot.attr 6 then reverseBits8 r.1 else r.1) else 0#8
  let slot' := if plane = 0#16 then { slot with lo := b } else { slot with hi := b }
  { r.2 with ppu := { r.2.ppu with slots := r.2.ppu.slots.setIfInBounds i slot' } }

/-- `sprite_fetch(c)`, dots 257 to 320 (R427). -/
def Video.spriteFetch (s : Video) (c : Nat) : Video :=
  let i := (c - 257) / 8
  match (c - 257) % 8 with
  | 0 => (s.fetch (tileAddr s.ppu.v)).2
  | 2 => (s.fetch (attrAddr s.ppu.v)).2
  | 4 => s.spritePattern i 0#16
  | 6 => s.spritePattern i 8#16
  | _ => s

/-- One slot of `advance_sprites`: its counter runs down, then its shifters shift (R461). -/
def SpriteSlot.advance (s : SpriteSlot) : SpriteSlot :=
  if s.x = 0#8 then { s with lo := s.lo <<< 1, hi := s.hi <<< 1 } else { s with x := s.x - 1#8 }

/-- `advance_sprites` (R461). -/
def Ppu.advanceSprites (p : Ppu) : Ppu :=
  if bitOf p.mask 4 then
    { p with slots := mapSlots (fun i s => if i < p.spriteCount then s.advance else s) p.slots }
  else p

/-! ## Pixels -/

/-- A pixel of one layer: its two pattern bits, its palette, and for a sprite its priority and whether it is OAM sprite 0. -/
structure Pixel where
  value : Nat
  palette : Nat
  front : Bool
  spriteZero : Bool
  deriving DecidableEq, Repr

/-- A transparent pixel. -/
def Pixel.clear : Pixel := ⟨0, 0, false, false⟩

/-- The background pixel of column `px` (R460). -/
def Ppu.backgroundPixel (p : Ppu) (px : Nat) : Pixel :=
  if bitOf p.mask 3 && (decide (8 ≤ px) || bitOf p.mask 1) then
    let k := 15 - p.fineX.toNat
    { Pixel.clear with
      value := 2 * (p.bgPatternHi.getLsbD k).toNat + (p.bgPatternLo.getLsbD k).toNat
      palette := 2 * (p.bgAttrHi.getLsbD k).toNat + (p.bgAttrLo.getLsbD k).toNat }
  else .clear

/-- The two pattern bits a slot shows (R461). -/
def SpriteSlot.pixel (s : SpriteSlot) : Nat := 2 * (bitOf s.hi 7).toNat + (bitOf s.lo 7).toNat

/-- The sprite pixel of column `px`: the first slot whose counter is 0 and whose pixel is not 0 (R461). -/
def Ppu.spritePixel (p : Ppu) (px : Nat) : Pixel :=
  if bitOf p.mask 4 && (decide (8 ≤ px) || bitOf p.mask 2) then
    match p.slots.toList.zipIdx.find? fun c => decide (c.2 < p.spriteCount) && c.1.x == 0#8 && c.1.pixel != 0 with
    | some (s, i) =>
      { value := s.pixel
        palette := (s.attr &&& 3#8).toNat + 4
        front := !bitOf s.attr 5
        spriteZero := p.spriteZeroIndex == some i }
    | none => .clear
  else .clear

/-- Which layer's pixel is shown (R463): (palette, value). -/
def mixPixels (bg sp : Pixel) : Nat × Nat :=
  if bg.value = 0 ∧ sp.value = 0 then (0, 0)
  else if bg.value = 0 then (sp.palette, sp.value)
  else if sp.value = 0 then (bg.palette, bg.value)
  else if sp.front then (sp.palette, sp.value)
  else (bg.palette, bg.value)

/-- The 6-bit colour index of a palette entry (R463). -/
def Ppu.colour (p : Ppu) (palette value : Nat) : BitVec 6 :=
  (p.paletteRam.read (palIndex (0x3F00 + palette * 4 + value))).truncate 6

/-- `output_pixel` with rendering enabled (R460-R463). -/
def Ppu.outputPixel (p : Ppu) (px py : Nat) : Ppu :=
  let bg := p.backgroundPixel px
  let sp := p.spritePixel px
  let hit := bg.value != 0 && sp.value != 0 && p.spriteZeroHitPossible && sp.spriteZero && bitOf p.mask 3 && bitOf p.mask 4
  let m := mixPixels bg sp
  { p with
    spriteZeroRendering := sp.spriteZero
    status := if hit then p.status ||| 0x40#8 else p.status
    framebuffer := pixelSet p.framebuffer py px (p.colour m.1 m.2) }

/-- A visible dot with rendering disabled: the backdrop colour (R421, R463). -/
def Ppu.outputBackdrop (p : Ppu) (px py : Nat) : Ppu :=
  { p with framebuffer := pixelSet p.framebuffer py px ((p.paletteRam.read 0).truncate 6) }

/-! ## One dot -/

/-- The shifts of dot `c` (R422). -/
def Ppu.shiftDot (p : Ppu) (c : Nat) : Ppu :=
  if (2 ≤ c ∧ c ≤ 257) ∨ (322 ≤ c ∧ c ≤ 337) then
    let p1 := p.shiftBackground
    if c ≤ 257 then p1.advanceSprites else p1
  else p

/-- The background fetches of dot `c`, the loads and dummy fetches at its end (R422, R428, R430). -/
def Video.fetchDot (s : Video) (c : Nat) : Video :=
  if (1 ≤ c ∧ c ≤ 256) ∨ (321 ≤ c ∧ c ≤ 336) then s.backgroundFetch (c % 8) else s

/-- What happens at the end of the visible part of a line: dots 256 and 257 (R424, R425, R426). -/
def Ppu.lineEndDot (p : Ppu) (c : Nat) : Ppu :=
  if c = 256 then { p with v := incFineY p.v }
  else if c = 257 then Ppu.evaluateSprites { p with v := copyHorizontal p.v p.t }
  else p

/-- The sprite fetches and the dummy nametable fetches of dot `c` (R427, R430). -/
def Video.tailDot (s : Video) (c : Nat) : Video :=
  if 257 ≤ c ∧ c ≤ 320 then s.spriteFetch c
  else if c = 337 then Video.fetchTileId { s with ppu := s.ppu.loadShifters }
  else if c = 339 then s.fetchTileId
  else s

/-- The work of dot `c` on a rendering line with rendering enabled, in R422's order. -/
def Video.renderDot (s : Video) (c : Nat) : Video :=
  let s1 := Video.fetchDot { s with ppu := s.ppu.shiftDot c } c
  let s2 := Video.tailDot { s1 with ppu := s1.ppu.lineEndDot c } c
  let s3 :=
    if s2.ppu.scanline = Config.preRenderLine ∧ 280 ≤ c ∧ c ≤ 304 then
      { s2 with ppu := { s2.ppu with v := copyVertical s2.ppu.v s2.ppu.t } }
    else s2
  if s3.ppu.scanline ≤ 239 ∧ 1 ≤ c ∧ c ≤ 256 then
    { s3 with ppu := s3.ppu.outputPixel (c - 1) s3.ppu.scanline }
  else s3

/-- Phase 1 of a dot: the rendering work of the current position (R420, R421). -/
def Video.work (s : Video) : Video :=
  if s.ppu.scanline ≤ 239 ∨ s.ppu.scanline = Config.preRenderLine then
    if renderingOn s.ppu.mask then s.renderDot s.ppu.cycle
    else if s.ppu.scanline ≤ 239 ∧ 1 ≤ s.ppu.cycle ∧ s.ppu.cycle ≤ 256 then
      { s with ppu := s.ppu.outputBackdrop (s.ppu.cycle - 1) s.ppu.scanline }
    else s
  else s

/-- The mask that decides the odd-frame skip (R449, D32). -/
def Ppu.skipMask (p : Ppu) : Byte :=
  let now := p.frameCycle
  if p.maskWriteCycle ≤ now ∧ now - p.maskWriteCycle ≤ 2 then p.maskPrev else p.mask

/-- Does the position go from here straight to (0, 0): the last dot of a frame, or the dot before it when an odd
frame is skipped (R403, R448)? -/
def Ppu.frameEnds (p : Ppu) : Bool :=
  p.scanline == Config.preRenderLine
    && (p.cycle == 340 || (p.cycle == 339 && p.oddFrame && renderingOn p.skipMask))

/-- Phase 2 of a dot: the position advances; at (0, 0) a new frame starts (R403, R420, R448). -/
def Video.advance (s : Video) : Video :=
  if s.ppu.frameEnds then
    { ppu := { s.ppu with
        scanline := 0
        cycle := 0
        frame := s.ppu.frame + 1#64
        oddFrame := !s.ppu.oddFrame
        maskPrev := s.ppu.mask }
      cart := s.cart.notifyFrameStart }
  else if s.ppu.cycle < 340 then { s with ppu := { s.ppu with cycle := s.ppu.cycle + 1 } }
  else { s with ppu := { s.ppu with scanline := s.ppu.scanline + 1, cycle := 0 } }

/-- Phase 3 of a dot: a latched NMI counts down (R442). -/
def Ppu.countNmi (p : Ppu) : Ppu :=
  if p.nmiLatched then
    let d := p.nmiDelay - 1#8
    if d = 0#8 then { p with nmiDelay := d, nmiLatched := false, nmiTriggered := true }
    else { p with nmiDelay := d }
  else p

/-- Arrival at (241, 1): VBlank starts (R440, R441). -/
def Ppu.startVblank (p : Ppu) : Ppu :=
  let p1 := { p with frameComplete := true }
  if p.vblSuppress then p1
  else
    let p2 := { p1 with status := p.status ||| 0x80#8, nmiOccurred := true }
    if p.nmiOutput && !p.suppressNmi then { p2 with nmiLatched := true, nmiDelay := Config.nmiDelayDots } else p2

/-- Arrival at (261, 1): VBlank ends (R443). -/
def Ppu.endVblank (p : Ppu) : Ppu :=
  { p with status := p.status &&& 0x1F#8, nmiOccurred := false, vblSuppress := false, suppressNmi := false }

/-- Phase 4 of a dot: the events of the new position (R440, R443). -/
def Ppu.events (p : Ppu) : Ppu :=
  if p.scanline = 241 ∧ p.cycle = 1 then p.startVblank
  else if p.scanline = Config.preRenderLine ∧ p.cycle = Config.vblClearDot then p.endVblank
  else p

/-- `ppu.step()`: one dot (R420). -/
def Video.dot (s : Video) : Video :=
  let s1 := s.work.advance
  { s1 with ppu := s1.ppu.countNmi.events }

/-- What `check_nmi()` answers (R446). -/
inductive NmiSignal where
  | none
  | immediate
  | delayed
  deriving DecidableEq, Repr

/-- `check_nmi()` (R446). -/
def Ppu.checkNmi (p : Ppu) : NmiSignal × Ppu :=
  if p.nmiTriggered then (.immediate, { p with nmiTriggered := false })
  else if p.nmiTriggeredDelayed then (.delayed, { p with nmiTriggeredDelayed := false })
  else (.none, p)

/-- `check_frame_complete()` (R447). -/
def Ppu.checkFrameComplete (p : Ppu) : Bool × Ppu := (p.frameComplete, { p with frameComplete := false })

/-- `ppu.reset()`: every field as at power-on, the memories and the picture kept (R401). -/
def Ppu.reset (p : Ppu) : Ppu :=
  { Ppu.atLoad with
    oam := p.oam, nametableRam := p.nametableRam, paletteRam := p.paletteRam, framebuffer := p.framebuffer }

end Sys2Proof.Machine
end

