-- ==== Sys2Proof/Machine/Ops.lean ====
section
/-! DEFINITION. The operations over the state that every instruction is made of: the bus and its devices
(spec/20_memory.md R60-R78), fetching, the stack, taking an exception and returning from one
(00_scope.md R10, R11; 60_exceptions.md R303-R305; 44_control_flow.md R223, R224). -/

namespace Sys2Proof.Machine

/-! ## The two halves of the state the bus reaches -/

/-- The PPU and its cartridge. -/
def State.video (s : State) : Video := ⟨s.ppu, s.cart⟩

/-- The state with its PPU and cartridge replaced. -/
def State.withVideo (s : State) (v : Video) : State := { s with ppu := v.ppu, cart := v.cart }

/-! ## Controllers -/

/-- `nes_buttons(s)` (R74). -/
def nesButtons (s : U32) : Byte :=
  (if s.getLsbD 0 then 1#8 else 0#8)
    ||| (if s.getLsbD 1 then 2#8 else 0#8)
    ||| (if s.getLsbD 7 then 4#8 else 0#8)
    ||| (if s.getLsbD 6 then 8#8 else 0#8)
    ||| (if s.getLsbD 8 then 16#8 else 0#8)
    ||| (if s.getLsbD 9 then 32#8 else 0#8)
    ||| (if s.getLsbD 10 then 64#8 else 0#8)
    ||| (if s.getLsbD 11 then 128#8 else 0#8)

/-- A port's shift register loaded from its buttons (R75, R76). -/
def Port.load (p : Port) : Port := { p with shift := nesButtons p.state }

/-- `controller_strobe_write(v)` (R75, D21). -/
def Bus.writeStrobe (b : Bus) (v : Byte) : Bus :=
  let b1 := { b with strobe := bitOf v 0 }
  if b.strobe || bitOf v 0 then { b1 with port0 := b.port0.load, port1 := b.port1.load } else b1

/-- `controller_read(i)` on one port (R76). -/
def Port.read (p : Port) (strobe : Bool) : Byte × Port :=
  let p1 := if strobe then p.load else p
  (0x40#8 ||| p1.shift &&& 1#8, { p1 with shift := p1.shift >>> 1 ||| 0x80#8 })

/-! ## The bus -/

/-- `BusRead(addr)`: the value, and the state after the read's side effects (R61, R65). -/
def busRead (addr : Word) (s : State) : Byte × State :=
  let a := addr.toNat
  if a ≤ 0x1FFF then (s.bus.ram.read (a % 0x800), s)
  else if a ≤ 0x3FFF then
    let r := s.video.regRead (a % 8)
    (r.1, s.withVideo r.2)
  else if a = 0x4015 then
    let r := s.apu.readStatus
    (r.1, { s with apu := r.2 })
  else if a = 0x4016 then
    let r := s.bus.port0.read s.bus.strobe
    (r.1, { s with bus := { s.bus with port0 := r.2 } })
  else if a = 0x4017 then
    let r := s.bus.port1.read s.bus.strobe
    (r.1, { s with bus := { s.bus with port1 := r.2 } })
  else if a ≤ 0x401F then (0#8, s)
  else (s.cart.cpuRead a, s)

/-- The copying of `oam_dma(v)`: `k` bytes from index `i` on, in ascending order (R72). -/
def dmaCopy (page : Byte) (i : Nat) (s : State) : Nat → State
  | 0 => s
  | k + 1 =>
    let r := busRead (mkWord page (BitVec.ofNat 8 i)) s
    let s1 := r.2
    dmaCopy page (i + 1) { s1 with ppu := s1.ppu.oamWrite ((s1.ppu.oamAddr.toNat + i) % 256) r.1 } k

/-- `oam_dma(v)`: 256 bus reads and OAM writes, then 513 pending cycles (R72, R73). -/
def oamDma (page : Byte) (s : State) : State :=
  let s1 := dmaCopy page 0 s 256
  { s1 with bus := { s1.bus with pendingDma := Config.dmaCycles } }

/-- `BusWrite(addr, v)` (R61, R64-R66). -/
def busWrite (addr : Word) (v : Byte) (s : State) : State :=
  let a := addr.toNat
  if a ≤ 0x1FFF then { s with bus := { s.bus with ram := s.bus.ram.write (a % 0x800) v } }
  else if a ≤ 0x3FFF then s.withVideo (s.video.regWrite (a % 8) v)
  else if a = 0x4014 then oamDma v s
  else if a = 0x4016 then { s with bus := s.bus.writeStrobe v }
  else if a ≤ 0x4013 ∨ a = 0x4015 ∨ a = 0x4017 then { s with apu := s.apu.write a v }
  else if a ≤ 0x401F then s
  else { s with cart := s.cart.cpuWrite a v }

/-- The value a bus read of `addr` would return, with the state left alone. -/
def peek (addr : Word) (s : State) : Byte := (busRead addr s).1

/-! ## Fetching and pointers (R11) -/

/-- `fetch8()`. -/
def fetch8 (s : State) : Byte × State :=
  let r := busRead s.cpu.pc s
  (r.1, { r.2 with cpu := { r.2.cpu with pc := r.2.cpu.pc + 1#16 } })

/-- `read16` with the two addresses given: low byte, then high byte. -/
def readPair (lowAddr highAddr : Word) (s : State) : Word × State :=
  let l := busRead lowAddr s
  let h := busRead highAddr l.2
  (mkWord h.1 l.1, h.2)

/-- `read16(addr)`. -/
def read16 (addr : Word) (s : State) : Word × State := readPair addr (addr + 1#16) s

/-- `read16zp(z)`: the second byte wraps inside page zero. -/
def read16zp (z : Byte) (s : State) : Word × State := readPair (zext16 z) (zext16 (z + 1#8)) s

/-! ## The stack (R11, 10_state.md R23) -/

/-- The address of stack slot `sp`. -/
def stackAddr (sp : Byte) : Word := Config.stackPage + zext16 sp

/-- `push(v)`: write, then decrement. -/
def push (v : Byte) (s : State) : State :=
  let s1 := busWrite (stackAddr s.cpu.sp) v s
  { s1 with cpu := { s1.cpu with sp := s1.cpu.sp - 1#8 } }

/-- `pull()`: increment, then read. -/
def pull (s : State) : Byte × State :=
  busRead (stackAddr (s.cpu.sp + 1#8)) { s with cpu := { s.cpu with sp := s.cpu.sp + 1#8 } }

/-- `push16(w)`: high byte, then low byte. -/
def push16 (w : Word) (s : State) : State := push (lo8 w) (push (hi8 w) s)

/-- `pull16()`: low byte, then high byte. -/
def pull16 (s : State) : Word × State :=
  let l := pull s
  let h := pull l.2
  (mkWord h.1 l.1, h.2)

/-! ## Exceptions -/

/-- The CPU's registers changed by `f`. -/
def State.mapCpu (s : State) (f : Cpu → Cpu) : State := { s with cpu := f s.cpu }

/-- The count a CPU step returns (00_scope.md R13). -/
def State.withCycles (s : State) (n : Nat) : State := { s with loop := { s.loop with stepCycles := n } }

/-- TAKING AN EXCEPTION: push `ret` high byte first, push the status byte with bit 4 as `brk` says, set I, load `pc` from
`vector`, seven cycles. NMI and IRQ entry and BRK differ in these three arguments only (60_exceptions.md R303, R304,
R305, R311; 44_control_flow.md R224). -/
def takeException (ret : Word) (brk : Bool) (vector : Word) (s : State) : State :=
  let s1 := push16 ret s
  let s2 := push (pushedP s1.cpu.p brk) s1
  let r := read16 vector (s2.mapCpu fun c => c.withFlag .I true)
  (r.2.mapCpu fun c => { c with pc := r.1 }).withCycles Config.interruptCycles

/-- `interrupt_entry(vector)` (60_exceptions.md R304, R305). -/
def interruptEntry (vector : Word) (s : State) : State := takeException s.cpu.pc false vector s

/-- RETURN FROM AN EXCEPTION: pull the status byte, then `pc`, low byte first (44_control_flow.md R223). -/
def returnFromException (s : State) : State :=
  let v := pull s
  let r := pull16 (v.2.mapCpu fun c => { c with p := pulledP c.p v.1 })
  (r.2.mapCpu fun c => { c with pc := r.1 }).withCycles 6

end Sys2Proof.Machine
end

