-- ==== Sys2Proof/Machine/Operands.lean ====
section
/-! DEFINITION. The addressing modes (spec/30_encoding.md R112-R124), the cycle counts (R125, R128) and the shapes the
instructions of one family share. The operand bytes were fetched with the opcode and stand in the instruction, so `pc`
is already the address after it (10_state.md R24, entry 19). -/

namespace Sys2Proof.Machine

/-- What resolving a memory operand gives: its address, whether the index carried into another page, and the state
after the pointer reads. -/
structure Resolved where
  ea : Word
  cross : Bool
  state : State
  deriving DecidableEq, Repr

/-- An address without a page cross. -/
def resolvedAt (ea : Word) (s : State) : Resolved := ⟨ea, false, s⟩

/-- A base address plus an index, modulo 65536, and whether the page changed (R119, R120, R123). -/
def resolvedIndexed (base : Word) (index : Byte) (s : State) : Resolved :=
  let ea := base + zext16 index
  ⟨ea, hi8 ea != hi8 base, s⟩

/-- `resolve(mode)` (R115-R120, R122, R123). -/
def resolve (m : Addr) (s : State) : Resolved :=
  match m with
  | .zp z => resolvedAt (zext16 z) s
  | .zpx z => resolvedAt (zext16 (z + s.cpu.x)) s
  | .zpy z => resolvedAt (zext16 (z + s.cpu.y)) s
  | .abs w => resolvedAt w s
  | .abx w => resolvedIndexed w s.cpu.x s
  | .aby w => resolvedIndexed w s.cpu.y s
  | .izx z =>
    let p := read16zp (z + s.cpu.x) s
    resolvedAt p.1 p.2
  | .izy z =>
    let p := read16zp z s
    resolvedIndexed p.1 p.2.cpu.y p.2

/-- What reading an operand gives: its value, the page cross, and the state after the reads. -/
structure Operand where
  value : Byte
  cross : Bool
  state : State
  deriving DecidableEq, Repr

/-- The operand of a reading instruction: the immediate byte (its one read was the fetch, R114) or the byte at `ea`. -/
def readSource (src : Source) (s : State) : Operand :=
  match src with
  | .imm v => ⟨v, false, s⟩
  | .mem m =>
    let r := resolve m s
    let b := busRead r.ea r.state
    ⟨b.1, r.cross, b.2⟩

/-- Base cycles of a reading instruction (R125). -/
def readBase : Source → Nat
  | .imm _ => 2
  | .mem (.zp _) => 3
  | .mem (.zpx _) | .mem (.zpy _) | .mem (.abs _) | .mem (.abx _) | .mem (.aby _) => 4
  | .mem (.izx _) => 6
  | .mem (.izy _) => 5

/-- Cycles of a reading instruction: one more when abx, aby or izy crosses a page (R128). -/
def readCycles (src : Source) (cross : Bool) : Nat := readBase src + cross.toNat

/-- Cycles of a store: never a page-cross penalty (R125, R128). -/
def storeCycles : Addr → Nat
  | .zp _ => 3
  | .zpx _ | .zpy _ | .abs _ => 4
  | .abx _ | .aby _ => 5
  | .izx _ | .izy _ => 6

/-- Cycles of a read-modify-write on memory: 5, 6, 6, 7 for zp, zpx, abs, abx (R125), two more than the store's. -/
def rmwCycles (m : Addr) : Nat := storeCycles m + 2

/-- A reading instruction: `f` gets the operand's value (40_load_store.md R150-R152 and the same shape in R180-R184, R200-R203). -/
def execRead (f : Cpu → Byte → Cpu) (src : Source) (s : State) : State :=
  let o := readSource src s
  (o.state.mapCpu fun c => f c o.value).withCycles (readCycles src o.cross)

/-- A store of the register `f` picks (40_load_store.md R153-R155). -/
def execStore (f : Cpu → Byte) (m : Addr) (s : State) : State :=
  let r := resolve m s
  (busWrite r.ea (f r.state.cpu) r.state).withCycles (storeCycles m)

/-- A read-modify-write of memory: one read, then one write of the same address; `op` gives the result and the
carry out, `flags` the flags (42_arithmetic.md R185, R188; 43_logic_shift.md, common frame). -/
def execModify (op : Byte → Bool → Byte × Bool) (flags : Cpu → Byte × Bool → Cpu) (m : Addr) (s : State) : State :=
  let r := resolve m s
  let b := busRead r.ea r.state
  let out := op b.1 (b.2.cpu.flag .C)
  (busWrite r.ea out.1 (b.2.mapCpu fun c => flags c out)).withCycles (rmwCycles m)

/-- A shift or rotate: of the accumulator, or of a byte of memory (43_logic_shift.md, common frame). -/
def execShift (op : Byte → Bool → Byte × Bool) (opd : ShiftOperand) (s : State) : State :=
  match opd with
  | .acc =>
    (s.mapCpu fun c =>
      let out := op c.a (c.flag .C)
      { c.shiftFlags out with a := out.1 }).withCycles 2
  | .mem m => execModify op Cpu.shiftFlags m s

/-- An instruction on registers and flags alone, two cycles. -/
def execImplied (f : Cpu → Cpu) (s : State) : State := (s.mapCpu f).withCycles 2

/-- Cycles of a branch: 2 not taken, 3 taken, 4 taken to another page (44_control_flow.md R226). -/
def branchCycles (taken : Bool) (next target : Word) : Nat :=
  if taken then 3 + (hi8 target != hi8 next).toNat else 2

/-- The common branch rule (44_control_flow.md R226, 30_encoding.md R124). -/
def execBranch (cond : Cpu → Bool) (off : Byte) (s : State) : State :=
  let next := s.cpu.pc
  let target := next + sext16 off
  let taken := cond s.cpu
  (s.mapCpu fun c => { c with pc := if taken then target else next }).withCycles (branchCycles taken next target)

end Sys2Proof.Machine
end

