-- ==== Sys2Proof/Machine/Arithmetic.lean ====
section
/-! DEFINITION. ADC, SBC, the compares, the increments and decrements (spec/42_arithmetic.md R180-R192). -/

namespace Sys2Proof.Machine

/-- ADC (R180). -/
def execAdc (src : Source) (s : State) : Host.Outcome State Fault Refusal :=
  .next (execRead Cpu.addWithCarry src s)

/-- SBC (R181). -/
def execSbc (src : Source) (s : State) : Host.Outcome State Fault Refusal :=
  .next (execRead Cpu.subWithBorrow src s)

/-- CMP (R182). -/
def execCmp (src : Source) (s : State) : Host.Outcome State Fault Refusal :=
  .next (execRead (fun c m => c.compare c.a m) src s)

/-- CPX (R183). -/
def execCpx (src : Source) (s : State) : Host.Outcome State Fault Refusal :=
  .next (execRead (fun c m => c.compare c.x m) src s)

/-- CPY (R184). -/
def execCpy (src : Source) (s : State) : Host.Outcome State Fault Refusal :=
  .next (execRead (fun c m => c.compare c.y m) src s)

/-- INC: C and V are not written (R185). -/
def execInc (dst : Addr) (s : State) : Host.Outcome State Fault Refusal :=
  .next (execModify (fun v _ => (v + 1#8, false)) (fun c r => c.setZN r.1) dst s)

/-- INX (R186). -/
def execInx (s : State) : Host.Outcome State Fault Refusal :=
  .next (execImplied (fun c => Cpu.setZN { c with x := c.x + 1#8 } (c.x + 1#8)) s)

/-- INY (R187). -/
def execIny (s : State) : Host.Outcome State Fault Refusal :=
  .next (execImplied (fun c => Cpu.setZN { c with y := c.y + 1#8 } (c.y + 1#8)) s)

/-- DEC: C and V are not written (R188). -/
def execDec (dst : Addr) (s : State) : Host.Outcome State Fault Refusal :=
  .next (execModify (fun v _ => (v - 1#8, false)) (fun c r => c.setZN r.1) dst s)

/-- DEX (R189). -/
def execDex (s : State) : Host.Outcome State Fault Refusal :=
  .next (execImplied (fun c => Cpu.setZN { c with x := c.x - 1#8 } (c.x - 1#8)) s)

/-- DEY (R190). -/
def execDey (s : State) : Host.Outcome State Fault Refusal :=
  .next (execImplied (fun c => Cpu.setZN { c with y := c.y - 1#8 } (c.y - 1#8)) s)

end Sys2Proof.Machine
end

