-- ==== Sys2Proof/Machine/Control.lean ====
section
/-! DEFINITION. Jumps, subroutines, RTI, BRK and the conditional branches (spec/44_control_flow.md R220-R236). -/

namespace Sys2Proof.Machine

/-- The word JMP indirect jumps to: the high byte comes from the pointer's own page (R221, 30_encoding.md R121). -/
def jumpPointer (ptr : Word) (s : State) : Word × State :=
  readPair ptr (mkWord (hi8 ptr) (lo8 ptr + 1#8)) s

/-- JMP absolute (R220). -/
def execJmpAbs (target : Word) (s : State) : Host.Outcome State Fault Refusal :=
  .next ((s.mapCpu fun c => { c with pc := target }).withCycles 3)

/-- JMP indirect (R221). -/
def execJmpInd (ptr : Word) (s : State) : Host.Outcome State Fault Refusal :=
  .next (((jumpPointer ptr s).2.mapCpu fun c => { c with pc := (jumpPointer ptr s).1 }).withCycles 5)

/-- JMP in its two forms (R220, R221). -/
def execJmp (target : JumpTarget) (s : State) : Host.Outcome State Fault Refusal :=
  match target with
  | .abs w => execJmpAbs w s
  | .ind p => execJmpInd p s

/-- JSR: the link is the address of its last byte (R222). -/
def execJsr (target : Word) (s : State) : Host.Outcome State Fault Refusal :=
  .next (((push16 (s.cpu.pc - 1#16) s).mapCpu fun c => { c with pc := target }).withCycles 6)

/-- RTS (R225). -/
def execRts (s : State) : Host.Outcome State Fault Refusal :=
  .next (((pull16 s).2.mapCpu fun c => { c with pc := (pull16 s).1 + 1#16 }).withCycles 6)

/-- RTI (R223). -/
def execRti (s : State) : Host.Outcome State Fault Refusal :=
  .next (returnFromException s)

/-- BRK: the return address skips the byte after it, which is not read (R224). -/
def execBrk (s : State) : Host.Outcome State Fault Refusal :=
  .next (takeException (s.cpu.pc + 1#16) true Config.irqVector s)

/-- BCC (R227). -/
def execBcc (off : Byte) (s : State) : Host.Outcome State Fault Refusal :=
  .next (execBranch (fun c => !c.flag .C) off s)

/-- BCS (R228). -/
def execBcs (off : Byte) (s : State) : Host.Outcome State Fault Refusal :=
  .next (execBranch (fun c => c.flag .C) off s)

/-- BEQ (R229). -/
def execBeq (off : Byte) (s : State) : Host.Outcome State Fault Refusal :=
  .next (execBranch (fun c => c.flag .Z) off s)

/-- BNE (R230). -/
def execBne (off : Byte) (s : State) : Host.Outcome State Fault Refusal :=
  .next (execBranch (fun c => !c.flag .Z) off s)

/-- BMI (R231). -/
def execBmi (off : Byte) (s : State) : Host.Outcome State Fault Refusal :=
  .next (execBranch (fun c => c.flag .N) off s)

/-- BPL (R232). -/
def execBpl (off : Byte) (s : State) : Host.Outcome State Fault Refusal :=
  .next (execBranch (fun c => !c.flag .N) off s)

/-- BVC (R233). -/
def execBvc (off : Byte) (s : State) : Host.Outcome State Fault Refusal :=
  .next (execBranch (fun c => !c.flag .V) off s)

/-- BVS (R234). -/
def execBvs (off : Byte) (s : State) : Host.Outcome State Fault Refusal :=
  .next (execBranch (fun c => c.flag .V) off s)

end Sys2Proof.Machine
end

