-- ==== Sys2Proof/Machine/FlagOps.lean ====
section
/-! DEFINITION. The flag instructions, NOP and the unofficial opcodes (spec/45_flags_nop.md R240-R248). -/

namespace Sys2Proof.Machine

/-- CLC (R240). -/
def execClc (s : State) : Host.Outcome State Fault Refusal :=
  .next (execImplied (fun c => c.withFlag .C false) s)

/-- SEC (R241). -/
def execSec (s : State) : Host.Outcome State Fault Refusal :=
  .next (execImplied (fun c => c.withFlag .C true) s)

/-- CLI (R242). -/
def execCli (s : State) : Host.Outcome State Fault Refusal :=
  .next (execImplied (fun c => c.withFlag .I false) s)

/-- SEI (R243). -/
def execSei (s : State) : Host.Outcome State Fault Refusal :=
  .next (execImplied (fun c => c.withFlag .I true) s)

/-- CLD (R244). -/
def execCld (s : State) : Host.Outcome State Fault Refusal :=
  .next (execImplied (fun c => c.withFlag .D false) s)

/-- SED (R245). -/
def execSed (s : State) : Host.Outcome State Fault Refusal :=
  .next (execImplied (fun c => c.withFlag .D true) s)

/-- CLV (R246). -/
def execClv (s : State) : Host.Outcome State Fault Refusal :=
  .next (execImplied (fun c => c.withFlag .V false) s)

/-- NOP (R247). -/
def execNop (s : State) : Host.Outcome State Fault Refusal :=
  .next (execImplied (fun c => c) s)

/-- NOP*: every unofficial opcode byte (R248). -/
def execNopStar (_op : Byte) (s : State) : Host.Outcome State Fault Refusal :=
  .next (s.withCycles Config.unofficialCycles)

end Sys2Proof.Machine
end

