-- ==== Sys2Proof/Machine/LoadStore.lean ====
section
/-! DEFINITION. LDA, LDX, LDY, STA, STX, STY (spec/40_load_store.md R150-R156). -/

namespace Sys2Proof.Machine

/-- LDA (R150). -/
def execLda (src : Source) (s : State) : Host.Outcome State Fault Refusal :=
  .next (execRead (fun c m => Cpu.setZN { c with a := m } m) src s)

/-- LDX (R151). -/
def execLdx (src : Source) (s : State) : Host.Outcome State Fault Refusal :=
  .next (execRead (fun c m => Cpu.setZN { c with x := m } m) src s)

/-- LDY (R152). -/
def execLdy (src : Source) (s : State) : Host.Outcome State Fault Refusal :=
  .next (execRead (fun c m => Cpu.setZN { c with y := m } m) src s)

/-- STA (R153). -/
def execSta (dst : Addr) (s : State) : Host.Outcome State Fault Refusal :=
  .next (execStore (fun c => c.a) dst s)

/-- STX (R154). -/
def execStx (dst : Addr) (s : State) : Host.Outcome State Fault Refusal :=
  .next (execStore (fun c => c.x) dst s)

/-- STY (R155). -/
def execSty (dst : Addr) (s : State) : Host.Outcome State Fault Refusal :=
  .next (execStore (fun c => c.y) dst s)

end Sys2Proof.Machine
end

