-- ==== Sys2Proof/Machine/Logic.lean ====
section
/-! DEFINITION. AND, ORA, EOR, BIT, the shifts and rotates (spec/43_logic_shift.md R200-R208). -/

namespace Sys2Proof.Machine

/-- AND (R200). -/
def execAnd (src : Source) (s : State) : Host.Outcome State Fault Refusal :=
  .next (execRead (fun c m => Cpu.setZN { c with a := c.a &&& m } (c.a &&& m)) src s)

/-- ORA (R201). -/
def execOra (src : Source) (s : State) : Host.Outcome State Fault Refusal :=
  .next (execRead (fun c m => Cpu.setZN { c with a := c.a ||| m } (c.a ||| m)) src s)

/-- EOR (R202). -/
def execEor (src : Source) (s : State) : Host.Outcome State Fault Refusal :=
  .next (execRead (fun c m => Cpu.setZN { c with a := c.a ^^^ m } (c.a ^^^ m)) src s)

/-- BIT (R203). -/
def execBit (src : Addr) (s : State) : Host.Outcome State Fault Refusal :=
  .next (execRead Cpu.testBits (.mem src) s)

/-- ASL (R204). -/
def execAsl (opd : ShiftOperand) (s : State) : Host.Outcome State Fault Refusal :=
  .next (execShift shiftAsl opd s)

/-- LSR (R205). -/
def execLsr (opd : ShiftOperand) (s : State) : Host.Outcome State Fault Refusal :=
  .next (execShift shiftLsr opd s)

/-- ROL (R206). -/
def execRol (opd : ShiftOperand) (s : State) : Host.Outcome State Fault Refusal :=
  .next (execShift shiftRol opd s)

/-- ROR (R207). -/
def execRor (opd : ShiftOperand) (s : State) : Host.Outcome State Fault Refusal :=
  .next (execShift shiftRor opd s)

end Sys2Proof.Machine
end

