-- ==== Sys2Proof/Machine/Transfer.lean ====
section
/-! DEFINITION. The register transfers and the stack instructions (spec/41_transfer_stack.md R160-R170). -/

namespace Sys2Proof.Machine

/-- TAX (R160). -/
def execTax (s : State) : Host.Outcome State Fault Refusal :=
  .next (execImplied (fun c => Cpu.setZN { c with x := c.a } c.a) s)

/-- TAY (R161). -/
def execTay (s : State) : Host.Outcome State Fault Refusal :=
  .next (execImplied (fun c => Cpu.setZN { c with y := c.a } c.a) s)

/-- TXA (R162). -/
def execTxa (s : State) : Host.Outcome State Fault Refusal :=
  .next (execImplied (fun c => Cpu.setZN { c with a := c.x } c.x) s)

/-- TYA (R163). -/
def execTya (s : State) : Host.Outcome State Fault Refusal :=
  .next (execImplied (fun c => Cpu.setZN { c with a := c.y } c.y) s)

/-- TSX (R164). -/
def execTsx (s : State) : Host.Outcome State Fault Refusal :=
  .next (execImplied (fun c => Cpu.setZN { c with x := c.sp } c.sp) s)

/-- TXS: no flag is written (R165). -/
def execTxs (s : State) : Host.Outcome State Fault Refusal :=
  .next (execImplied (fun c => { c with sp := c.x }) s)

/-- PHA (R166). -/
def execPha (s : State) : Host.Outcome State Fault Refusal :=
  .next ((push s.cpu.a s).withCycles 3)

/-- PHP: the pushed byte has B and U set, the register does not change (R167). -/
def execPhp (s : State) : Host.Outcome State Fault Refusal :=
  .next ((push (pushedP s.cpu.p true) s).withCycles 3)

/-- PLA (R168). -/
def execPla (s : State) : Host.Outcome State Fault Refusal :=
  .next (((pull s).2.mapCpu fun c => Cpu.setZN { c with a := (pull s).1 } (pull s).1).withCycles 4)

/-- PLP (R169). -/
def execPlp (s : State) : Host.Outcome State Fault Refusal :=
  .next (((pull s).2.mapCpu fun c => { c with p := pulledP c.p (pull s).1 }).withCycles 4)

end Sys2Proof.Machine
end

