-- ==== Sys2Proof/Machine/Dispatch.lean ====
section
/-! DEFINITION. What each instruction does: one arm per constructor of Instr, one direct call of its meaning. -/

namespace Sys2Proof.Machine

def exec (i : Instr) (s : State) : Host.Outcome State Fault Refusal :=
  match i with
  | .lda src => Sys2Proof.Machine.execLda src s
  | .ldx src => Sys2Proof.Machine.execLdx src s
  | .ldy src => Sys2Proof.Machine.execLdy src s
  | .sta dst => Sys2Proof.Machine.execSta dst s
  | .stx dst => Sys2Proof.Machine.execStx dst s
  | .sty dst => Sys2Proof.Machine.execSty dst s
  | .tax => Sys2Proof.Machine.execTax s
  | .tay => Sys2Proof.Machine.execTay s
  | .txa => Sys2Proof.Machine.execTxa s
  | .tya => Sys2Proof.Machine.execTya s
  | .tsx => Sys2Proof.Machine.execTsx s
  | .txs => Sys2Proof.Machine.execTxs s
  | .pha => Sys2Proof.Machine.execPha s
  | .php => Sys2Proof.Machine.execPhp s
  | .pla => Sys2Proof.Machine.execPla s
  | .plp => Sys2Proof.Machine.execPlp s
  | .adc src => Sys2Proof.Machine.execAdc src s
  | .sbc src => Sys2Proof.Machine.execSbc src s
  | .cmp src => Sys2Proof.Machine.execCmp src s
  | .cpx src => Sys2Proof.Machine.execCpx src s
  | .cpy src => Sys2Proof.Machine.execCpy src s
  | .inc dst => Sys2Proof.Machine.execInc dst s
  | .inx => Sys2Proof.Machine.execInx s
  | .iny => Sys2Proof.Machine.execIny s
  | .dec dst => Sys2Proof.Machine.execDec dst s
  | .dex => Sys2Proof.Machine.execDex s
  | .dey => Sys2Proof.Machine.execDey s
  | .and src => Sys2Proof.Machine.execAnd src s
  | .ora src => Sys2Proof.Machine.execOra src s
  | .eor src => Sys2Proof.Machine.execEor src s
  | .bit src => Sys2Proof.Machine.execBit src s
  | .asl opd => Sys2Proof.Machine.execAsl opd s
  | .lsr opd => Sys2Proof.Machine.execLsr opd s
  | .rol opd => Sys2Proof.Machine.execRol opd s
  | .ror opd => Sys2Proof.Machine.execRor opd s
  | .jmp target => Sys2Proof.Machine.execJmp target s
  | .jsr target => Sys2Proof.Machine.execJsr target s
  | .rts => Sys2Proof.Machine.execRts s
  | .rti => Sys2Proof.Machine.execRti s
  | .brk => Sys2Proof.Machine.execBrk s
  | .bcc off => Sys2Proof.Machine.execBcc off s
  | .bcs off => Sys2Proof.Machine.execBcs off s
  | .beq off => Sys2Proof.Machine.execBeq off s
  | .bne off => Sys2Proof.Machine.execBne off s
  | .bmi off => Sys2Proof.Machine.execBmi off s
  | .bpl off => Sys2Proof.Machine.execBpl off s
  | .bvc off => Sys2Proof.Machine.execBvc off s
  | .bvs off => Sys2Proof.Machine.execBvs off s
  | .clc => Sys2Proof.Machine.execClc s
  | .sec => Sys2Proof.Machine.execSec s
  | .cli => Sys2Proof.Machine.execCli s
  | .sei => Sys2Proof.Machine.execSei s
  | .cld => Sys2Proof.Machine.execCld s
  | .sed => Sys2Proof.Machine.execSed s
  | .clv => Sys2Proof.Machine.execClv s
  | .nop => Sys2Proof.Machine.execNop s
  | .nopStar op => Sys2Proof.Machine.execNopStar op s

end Sys2Proof.Machine
end

