-- ==== Sys2Proof/Machine/Fetch.lean ====
section
/-! DEFINITION. Fetching an instruction's bytes through the bus (spec/60_exceptions.md R300, 00_scope.md R11), and storing
an instruction where the next fetch finds it. -/

namespace Sys2Proof.Machine

/-- A fetch made only when the form has that operand byte. -/
def fetchIf (needed : Bool) (s : State) : Byte × State := if needed then fetch8 s else (0#8, s)

/-- The opcode byte, then as many operand bytes as it asks for, in order, decoded: the instruction, and the state with
`pc` after it (30_encoding.md R110, R111; entry 19). -/
def fetchInstr (s : State) : Instr × State :=
  let op := fetch8 s
  let lo := fetchIf (decide (1 ≤ operandCount op.1)) op.2
  let hi := fetchIf (decide (2 ≤ operandCount op.1)) lo.2
  (decodeRow op.1 lo.1 hi.1, hi.2)

/-- `fetchInstr` under parameters `p`: the bytes that an unofficial opcode skips are not read (45_flags_nop.md R248, D1;
entry 17). -/
def fetchInstrWith (p : Config.Params) (s : State) : Instr × State :=
  let r := fetchInstr s
  (r.1, r.2.mapCpu fun c => { c with pc := c.pc + BitVec.ofNat 16 (r.1.skipped p) })

/-- Can a byte be put at this CPU address: RAM, PRG RAM, or PRG ROM that the mapper maps there. -/
def pokeable (addr : Word) (s : State) : Bool :=
  let a := addr.toNat
  decide (a ≤ 0x1FFF) || (decide (0x6000 ≤ a) && decide (a < 0x8000))
    || (decide (0x8000 ≤ a) && (s.cart.prgOffset (s.cart.prgSlot a)).isSome)

/-- A byte put at a CPU address from outside the machine, into RAM, PRG RAM or PRG ROM. -/
def poke (addr : Word) (v : Byte) (s : State) : State :=
  let a := addr.toNat
  if a ≤ 0x1FFF then { s with bus := { s.bus with ram := s.bus.ram.write (a % 0x800) v } }
  else if a < 0x6000 then s
  else if a < 0x8000 then { s with cart := { s.cart with prgRam := s.cart.prgRam.write (a - 0x6000) v } }
  else match s.cart.prgOffset (s.cart.prgSlot a) with
    | some k => { s with cart := { s.cart with prgRom := s.cart.prgRom.write k v } }
    | none => s

/-- The state whose next step fetches an instruction: no NMI pending, no IRQ that would be taken, and `pc` at bytes that
can be put in place (else at 0x0000, in RAM). -/
def readyToFetch (s : State) : State :=
  s.mapCpu fun c =>
    { c with
      nmiPending := false
      irqPending := c.irqPending && c.flag .I
      pc := if pokeable c.pc s && pokeable (c.pc + 1#16) s && pokeable (c.pc + 2#16) s then c.pc else 0#16 }

/-- An instruction's three bytes, as spec/opcode_table.json numbers them, put where the next step fetches (entry 6). -/
def placeWord (s : State) (nbits w : Nat) : State :=
  let s1 := readyToFetch s
  let bytes := tableWordBytes nbits w
  poke s1.cpu.pc (bytes.getD 0 0#8)
    (poke (s1.cpu.pc + 1#16) (bytes.getD 1 0#8) (poke (s1.cpu.pc + 2#16) (bytes.getD 2 0#8) s1))

end Sys2Proof.Machine
end

