-- ==== Sys2Proof/Machine/Loop.lean ====
section
/-! DEFINITION. The CPU's step (spec/60_exceptions.md R300) and one iteration of `run_frame`'s loop (R330-R336). -/

namespace Sys2Proof.Machine

/-- `trigger_nmi()` when `b` (R301). -/
def Cpu.triggerNmi (c : Cpu) (b : Bool) : Cpu := { c with nmiPending := c.nmiPending || b }

/-- `trigger_irq()` when `b` (R301). -/
def Cpu.triggerIrq (c : Cpu) (b : Bool) : Cpu := { c with irqPending := c.irqPending || b }

/-- `step()`: an NMI entry, or an IRQ entry, or one instruction (R300), under parameters `p` (UNOFFICIAL_LEN). -/
def cpuStepWith (p : Config.Params) (s : State) : Host.Outcome State Fault Refusal :=
  if s.cpu.nmiPending then
    .next (interruptEntry Config.nmiVector (s.mapCpu fun c => { c with nmiPending := false }))
  else if s.cpu.irqPending && !s.cpu.flag .I then
    .next (interruptEntry Config.irqVector (s.mapCpu fun c => { c with irqPending := false }))
  else exec (fetchInstrWith p s).1 (fetchInstrWith p s).2

/-- `step()` at the default parameters. -/
def cpuStep (s : State) : Host.Outcome State Fault Refusal := cpuStepWith Config.defaults s

/-- One `ppu.step()` with the two one-shots polled after it; the flag says whether the frame is done (R330, R332, R333). -/
def dotOnce (r : State × Bool) : State × Bool :=
  let v := r.1.video.dot
  let n := v.ppu.checkNmi
  let f := n.2.checkFrameComplete
  ({ r.1 with
      ppu := f.2
      cart := v.cart
      cpu := r.1.cpu.triggerNmi (n.1 == .immediate)
      loop := { r.1.loop with nmiDelayArmed := r.1.loop.nmiDelayArmed || n.1 == .delayed } },
    r.2 || f.1)

/-- `k` dots. -/
def runDots : Nat → State × Bool → State × Bool
  | 0, r => r
  | k + 1, r => runDots k (dotOnce r)

/-- `k` APU cycles. -/
def runApu (alpha : F32) : Nat → Apu → Apu
  | 0, a => a
  | k + 1, a => runApu alpha k (a.step alpha)

/-- The mapper's IRQ handed to the CPU (R334, D8). -/
def pollMapper (s : State) : State :=
  if s.cart.irqPending then { s with cpu := s.cpu.triggerIrq true, cart := s.cart.irqClear } else s

/-- The APU's frame IRQ handed to the CPU, when it is routed (R312, D9). -/
def pollApu (p : Config.Params) (s : State) : State :=
  { s with cpu := s.cpu.triggerIrq (p.apuIrqRouted && s.apu.frameIrq) }

/-- The CPU cycles of an iteration: the step's own and a DMA's (R331). -/
def iterationCycles (s : State) : Nat := s.loop.stepCycles + s.bus.pendingDma.toNat

/-- What the loop does after `cpu.step()`: the armed NMI, the DMA's cycles, the dots, the APU, the IRQ polls, the cycle
counter; and whether the frame is done (R330-R334). -/
def catchUp (p : Config.Params) (armed : Bool) (s : State) : State × Bool :=
  let n := iterationCycles s
  let s1 := { s with cpu := s.cpu.triggerNmi armed, bus := { s.bus with pendingDma := 0#16 } }
  let r := runDots (Config.ppuDotsPerCpuCycle * n) (s1, false)
  let s2 := { r.1 with apu := runApu p.lowpassAlpha n r.1.apu }
  let s3 := pollApu p (pollMapper s2)
  ({ s3 with loop := { s3.loop with cycleCount := s3.loop.cycleCount + BitVec.ofNat 64 n } }, r.2)

/-- One iteration of the loop of R330. -/
def loopIteration (p : Config.Params) (s : State) : Host.Outcome (State × Bool) Fault Refusal :=
  match cpuStepWith p { s with loop := { s.loop with nmiDelayArmed := false } } with
  | .next s1 => .next (catchUp p s.loop.nmiDelayArmed s1)
  | .fault f => .fault f
  | .refused r => .refused r

/-- The end of `run_frame`: its inputs are latched for the next call, the frame is counted (R335, 20_memory.md R78). -/
def endFrame (s : State) : State :=
  { s with
    bus := { s.bus with
      port0 := { s.bus.port0 with state := s.loop.input1 }
      port1 := { s.bus.port1 with state := s.loop.input2 } }
    loop := { s.loop with frameCount := s.loop.frameCount + 1#64 } }

/-- One step of the machine under parameters `p`: one loop iteration, and the end of `run_frame` when the frame is done
(entry 1). -/
def stepWith (p : Config.Params) (s : State) : Host.Outcome State Fault Refusal :=
  match loopIteration p s with
  | .next r => .next (if r.2 then endFrame r.1 else r.1)
  | .fault f => .fault f
  | .refused r => .refused r

end Sys2Proof.Machine
end

