-- ==== Sys2Proof/Machine/Step.lean ====
section
/-! DEFINITION. The machine's step at the default parameters (spec/00_scope.md R6), and the state whose next step runs
a given instruction word. -/

namespace Sys2Proof.Machine

/-- One step: one iteration of `run_frame`'s loop (60_exceptions.md R330), at the default parameters. -/
def step (s : State) : Host.Outcome State Fault Refusal := stepWith Config.defaults s

/-- The state with an instruction stored where the next step fetches it (entry 6). -/
def State.withFetchWord (s : State) (nbits w : Nat) : State := placeWord s nbits w

end Sys2Proof.Machine
end

