-- ==== Sys2Proof/Machine/HostOps.lean ====
section
/-! DEFINITION. What the host may do between steps (spec/60_exceptions.md R340, R341; 70_reset_and_hazards.md
R700-R706, R715, R716; 63_cartridge_mappers.md R553-R555). -/

namespace Sys2Proof.Machine

/-- LoadError (70_reset_and_hazards.md R715, 63_cartridge_mappers.md R553): reported to the host, the state is kept. -/
inductive LoadError where
  | shortHeader
  | badMagic
  | noPrg
  | tooFewBytes
  | unsupportedMapper (number : Nat)
  | savestateTooShort
  | savestateCrcMismatch
  deriving DecidableEq, Repr

/-! ## CRC-32 (63_cartridge_mappers.md R554) -/

/-- `k` bits of the reflected CRC with polynomial 0xEDB88320. -/
def crcBits : Nat → U32 → U32
  | 0, c => c
  | k + 1, c => crcBits k (c >>> 1 ^^^ (if c.getLsbD 0 then 0xEDB88320#32 else 0#32))

/-- The CRC register after a list of bytes. -/
def crcBytes (c : U32) : List Byte → U32
  | [] => c
  | b :: bs => crcBytes (crcBits 8 (c ^^^ b.zeroExtend 32)) bs

/-- `crc32` of bytes: initial value all ones, final complement. -/
def crc32 (bs : List Byte) : U32 := ~~~crcBytes 0xFFFFFFFF#32 bs

/-! ## iNES (63_cartridge_mappers.md R553, R555) -/

/-- The header's initial mirroring. -/
def headerMirror (f6 : Byte) : MirrorMode :=
  if bitOf f6 3 then .fourScreen else if bitOf f6 0 then .vertical else .horizontal

/-- The header's mapper number. -/
def headerMapper (f6 f7 : Byte) : Byte := f7 &&& 0xF0#8 ||| f6 >>> 4

/-- `parse(b)`: the cartridge of an iNES 1.0 image, or why it is none, in the order R553 checks. -/
def parseRom (b : List Byte) : Except LoadError Cartridge :=
  let prgSize := (b.getD 4 0#8).toNat * 16384
  let chrLen := (b.getD 5 0#8).toNat * 8192
  let f6 := b.getD 6 0#8
  let number := headerMapper f6 (b.getD 7 0#8)
  let off := 16 + if bitOf f6 2 then 512 else 0
  if b.length < 16 then .error .shortHeader
  else if b.take 4 ≠ [0x4E#8, 0x45#8, 0x53#8, 0x1A#8] then .error .badMagic
  else if prgSize = 0 then .error .noPrg
  else if b.length < off + prgSize + chrLen then .error .tooFewBytes
  else
    match mapperOf number.toNat prgSize with
    | none => .error (.unsupportedMapper number.toNat)
    | some mapper =>
      let body := b.drop off
      .ok {
        prgRom := memoryFrom 0 (body.take prgSize)
        prgSize := prgSize
        chr := memoryFrom 0 ((body.drop prgSize).take chrLen)
        chrSize := if chrLen = 0 then 8192 else chrLen
        prgRam := []
        crc32 := crc32 (body.take (prgSize + chrLen))
        mapperNumber := number
        hasBattery := bitOf f6 1
        hasTrainer := bitOf f6 2
        hasChrRam := chrLen == 0
        initialMirror := headerMirror f6
        mapper := mapper }

/-! ## Reset and load -/

/-- The bus after `reset()`: RAM is kept (70_reset_and_hazards.md R700). -/
def Bus.reset (b : Bus) : Bus := { Bus.atLoad with ram := b.ram }

/-- RESET_CYCLES of PPU and APU time at the end of a reset (70_reset_and_hazards.md R703, D4). -/
def resetTime (p : Config.Params) (s : State) : State :=
  let r := (runDots (Config.ppuDotsPerCpuCycle * p.resetCycles) (s, false)).1
  { r with
    apu := runApu p.lowpassAlpha p.resetCycles r.apu
    loop := { r.loop with cycleCount := BitVec.ofNat 64 p.resetCycles } }

/-- `reset()` (70_reset_and_hazards.md R700-R703). -/
def resetMachine (p : Config.Params) (s : State) : State :=
  let s1 : State := { s with
    cart := s.cart.mapperReset
    bus := s.bus.reset
    ppu := s.ppu.reset
    apu := Apu.reset
    cpu := .atReset 0#16
    loop := { s.loop with nmiDelayArmed := false } }
  let r := read16 Config.resetVector s1
  resetTime p (r.2.mapCpu fun c => { c with pc := r.1 })

/-- `n` bytes of POWER_ON_RAM contents. -/
def poweredOn (n : Nat) (bs : List Byte) : Memory := memoryFrom 0 (bs.take n)

/-- A machine just built around a cartridge: every memory holds POWER_ON_RAM, the picture is empty, the counters are zero
(70_reset_and_hazards.md R704, R705; entry 5). -/
def State.fresh (p : Config.Params) (c : Cartridge) : State :=
  { State.reset with
    bus := { Bus.atLoad with ram := poweredOn 2048 p.powerOnRam.ram }
    ppu := { Ppu.atLoad with
      oam := poweredOn 256 p.powerOnRam.oam
      nametableRam := poweredOn 4096 p.powerOnRam.nametableRam
      paletteRam := poweredOn 32 p.powerOnRam.paletteRam }
    cart := { c with
      prgRam := poweredOn 8192 p.powerOnRam.prgRam
      chr := if c.hasChrRam then poweredOn 8192 p.powerOnRam.chrRam else c.chr } }

/-- The host's machine: before the first successful `load_rom` there is no cartridge and no state (R706). -/
inductive Console where
  | empty
  | loaded (s : State)
  deriving DecidableEq, Repr

/-- `load_rom(bytes)`: the new machine, or the error with the old machine kept (R704, R715). -/
def loadRom (p : Config.Params) (b : List Byte) (c : Console) : Console × Option LoadError :=
  match parseRom b with
  | .ok cart => (.loaded (resetMachine p (.fresh p cart)), none)
  | .error e => (c, some e)

/-- A host operation on the loaded machine; refused before the first `load_rom` (R706, U16). -/
def Console.onLoaded {α : Type} (c : Console) (f : State → α) : Except Refusal α :=
  match c with
  | .empty => .error .noCartridge
  | .loaded s => .ok (f s)

/-! ## Running -/

/-- The loop of `run_frame`, at most `fuel` iterations; none if the frame is not done by then. -/
def frameLoop (p : Config.Params) : Nat → State → Option State
  | 0, _ => none
  | fuel + 1, s =>
    match loopIteration p s with
    | .next r => if r.2 then some (endFrame r.1) else frameLoop p fuel r.1
    | .fault _ => none
    | .refused _ => none

/-- The most iterations one frame can take: every iteration runs at least six of its 89342 dots (60_exceptions.md R336). -/
def frameFuel : Nat := 15000

/-- `run_frame(input, input2)` (60_exceptions.md R330). -/
def runFrame (p : Config.Params) (input1 input2 : U32) (s : State) : Option State :=
  frameLoop p frameFuel { s with loop := { s.loop with input1 := input1, input2 := input2 } }

/-- `run_frame(input)`: "`input2` is 0 when the host passes a single argument" (R330). -/
def runFrameOne (p : Config.Params) (input : U32) (s : State) : Option State := runFrame p input 0#32 s

/-- `read_memory(addr)` (20_memory.md R96, D20). -/
def readMemory (addr : Word) (s : State) : Byte × State := busRead addr s

/-- `write_memory(addr, v)` (20_memory.md R96, D20). -/
def writeMemory (addr : Word) (v : Byte) (s : State) : State := busWrite addr v s

/-! ## Outputs -/

/-- One pixel of `framebuffer()`: its colour, 0 where nothing has been drawn (61_ppu.md R463, R464, entry 10). -/
def pixelColour (s : State) (py px : Nat) : U32 :=
  match pixelGet s.ppu.framebuffer py px with
  | some c => Config.masterPalette c
  | none => 0#32

/-- `framebuffer()`: 256 x 240 pixels, row by row. -/
def framebuffer (s : State) : List U32 :=
  (List.range 240).flatMap fun py => (List.range 256).map fun px => pixelColour s py px

/-- `drain_audio(out)` with room for `room` floats (62_apu.md R532). -/
def drainAudio (room : Nat) (s : State) : List F32 × State :=
  let r := s.apu.drain room
  (r.1, { s with apu := r.2 })

/-- `rom_crc32()`. -/
def romCrc32 (s : State) : U32 := s.cart.crc32

/-- `frame_count()`. -/
def frameCount (s : State) : U64 := s.loop.frameCount

/-- `cycle_count()`. -/
def cycleCount (s : State) : U64 := s.loop.cycleCount

/-! ## Savestates (70_reset_and_hazards.md R716; the blobs as typed data, entry 15) -/

/-- The blobs a savestate is a concatenation of. -/
inductive Blob where
  | cpu (c : Cpu) (l : Loop)
  | ppu (p : Ppu)
  | apu (a : Apu)
  | bus (b : Bus)
  /-- the mapper's registers, PRG RAM, and the CHR when it is RAM -/
  | cartridge (m : Mapper) (prgRam : Memory) (chrRam : Option Memory)
  deriving DecidableEq, Repr

/-- A savestate: the ROM's CRC and the blobs. -/
structure SaveState where
  romCrc : U32
  blobs : List Blob
  deriving DecidableEq, Repr

/-- `save_state()`. The whole PPU and APU are saved, so the picture and the audio ring too; R716 does not say whether they
are (DESIGN CHOICE: entry 15). -/
def saveState (s : State) : SaveState where
  romCrc := s.cart.crc32
  blobs := [.cpu s.cpu s.loop, .ppu s.ppu, .apu s.apu, .bus s.bus,
    .cartridge s.cart.mapper s.cart.prgRam (if s.cart.hasChrRam then some s.cart.chr else none)]

/-- A cartridge with the state of a cartridge blob: the mapper's registers, the PRG RAM, and the CHR when it is RAM; the CHR
of a cartridge with CHR ROM is the image's and stays. None when the blob is shorter than this cartridge's: its CHR RAM is
missing (R716), or its registers are those of another mapper, which the CRC does not tell apart (DESIGN CHOICE: entry 15). -/
def Cartridge.restore (c : Cartridge) (m : Mapper) (prgRam : Memory) (chrRam : Option Memory) : Option Cartridge :=
  if m.number = c.mapper.number then
    (if c.hasChrRam then chrRam else some c.chr).map fun chr => { c with mapper := m, prgRam := prgRam, chr := chr }
  else none

/-- `load_state(blob)`: the state restored, or the error with the state kept by the caller (R715, R716). DESIGN CHOICE, entry
15: the CRC is compared first, so a savestate that is both of another ROM and too short is a CRC mismatch (the rules do not
order the two checks); what follows the five blobs is ignored (the rules name no error for a longer savestate); the values in
the blobs are taken as they are. -/
def loadState (b : SaveState) (s : State) : Except LoadError State :=
  if b.romCrc ≠ s.cart.crc32 then .error .savestateCrcMismatch
  else match b.blobs with
    | .cpu c l :: .ppu p :: .apu a :: .bus u :: .cartridge m prgRam chrRam :: _ =>
      match s.cart.restore m prgRam chrRam with
      | some cart => .ok { cpu := c, loop := l, ppu := p, apu := a, bus := u, cart := cart }
      | none => .error .savestateTooShort
    | _ => .error .savestateTooShort

end Sys2Proof.Machine
end

