-- ==== Sys2Proof/Safety.lean ====
section
/-! DEFINITION. What a good state is: the invariants the claims of this model are made under, each with the rule it
comes from, and together `State.good`. After them the terms the claims are written in: what the spec's tables say of
an instruction (its cycles, its address, its flags and registers), and what it means that an instruction completes. -/

namespace Sys2Proof.Machine

/-- `p.U = 1` and `p.B = 0` (10_state.md R28). -/
abbrev Cpu.statusOk (c : Cpu) : Prop := getFlag c.p .U = true ∧ getFlag c.p .B = false

/-- The PPU is on its grid of 262 lines of 341 dots (61_ppu.md R400, R403). -/
abbrev Ppu.onGrid (p : Ppu) : Prop := p.scanline ≤ 261 ∧ p.cycle ≤ 340

/-- `v` and `t` use 15 bits, and the unused bits of `status` are 0 (61_ppu.md R400). -/
abbrev Ppu.fieldsOk (p : Ppu) : Prop :=
  p.v.getLsbD 15 = false ∧ p.t.getLsbD 15 = false ∧ p.status &&& 0x1F#8 = 0#8

/-- At most eight slots are in use, and OAM sprite 0 is in one of them if it is in any (61_ppu.md R400, R426). -/
abbrev Ppu.spritesOk (p : Ppu) : Prop :=
  p.spriteCount ≤ 8 ∧ ∀ i ∈ p.spriteZeroIndex, i < p.spriteCount

/-- The noise LFSR has 15 bits and is never 0 (62_apu.md R501, R524). -/
abbrev Noise.ok (n : Noise) : Prop := n.shift ≠ 0#16 ∧ n.shift < 0x8000#16

/-- The ring holds at most 8192 pairs, the frame counter and the sample accumulator stay below their periods, the timer
periods have 11 bits, the LFSR is sound (62_apu.md R500, R503, R530, R532). -/
abbrev Apu.ok (a : Apu) : Prop :=
  a.ring.length ≤ Config.audioRingPairs ∧ a.fcCycles < Config.frameCounterPeriod ∧ a.outAcc < Config.cpuFreq
    ∧ a.pulse0.period < 0x800#16 ∧ a.pulse1.period < 0x800#16 ∧ a.tri.period < 0x800#16 ∧ a.noise.ok

/-- The cartridge's sizes are what a parsed image gives: whole 16 KiB and 8 KiB units, at least one of each
(63_cartridge_mappers.md R551, R553). -/
abbrev Cartridge.sizesOk (c : Cartridge) : Prop :=
  c.prgSize % 16384 = 0 ∧ 0 < c.prgSize ∧ c.chrSize % 8192 = 0 ∧ 0 < c.chrSize

/-- MMC1's bit count stays in 0..4 (63_cartridge_mappers.md R562). -/
def Mapper.ok (m : Mapper) : Bool :=
  match m with
  | .mmc1 r => decide (r.count ≤ 4)
  | _ => true

/-- The mapper is the one its number names (63_cartridge_mappers.md R555, R560). -/
abbrev Cartridge.mapperOk (c : Cartridge) : Prop := c.mapper.number = c.mapperNumber.toNat ∧ c.mapper.ok = true

/-- Every memory of the cartridge is canonical and inside its size. -/
abbrev Cartridge.memoriesOk (c : Cartridge) : Prop :=
  (Memory.wf c.prgRom ∧ Memory.below c.prgSize c.prgRom)
    ∧ (Memory.wf c.chr ∧ Memory.below c.chrSize c.chr)
    ∧ (Memory.wf c.prgRam ∧ Memory.below 8192 c.prgRam)

/-- Every memory of the PPU is canonical and inside its size (61_ppu.md R400). -/
abbrev Ppu.memoriesOk (p : Ppu) : Prop :=
  (Memory.wf p.oam ∧ Memory.below 256 p.oam)
    ∧ (Memory.wf p.nametableRam ∧ Memory.below 4096 p.nametableRam)
    ∧ (Memory.wf p.paletteRam ∧ Memory.below 32 p.paletteRam)

/-- The RAM is canonical and inside its 2048 bytes (20_memory.md R62). -/
abbrev Bus.memoryOk (b : Bus) : Prop := Memory.wf b.ram ∧ Memory.below 2048 b.ram

/-- Every memory of the machine is canonical and inside its size. -/
abbrev State.memoriesOk (s : State) : Prop :=
  s.bus.memoryOk ∧ s.ppu.memoriesOk ∧ s.cart.memoriesOk

/-- A good state: every invariant of this file. -/
abbrev State.good (s : State) : Prop :=
  s.cpu.statusOk ∧ s.ppu.onGrid ∧ s.ppu.fieldsOk ∧ s.ppu.spritesOk ∧ s.apu.ok ∧ s.memoriesOk
    ∧ s.cart.sizesOk ∧ s.cart.mapperOk

/-- A memory-like address: RAM, the unused addresses from 0x4018 on, the cartridge. Its read changes nothing (20_memory.md
R83), and only a store or a bank switch changes what it reads as. -/
abbrev quietAddr (a : Word) : Prop := a.toNat ≤ 0x1FFF ∨ 0x4018 ≤ a.toNat

/-- The two states have the same PPU, APU, cartridge, controller ports and pending DMA: everything beside the CPU's
registers, the loop and the RAM. -/
abbrev sameDevices (s t : State) : Prop :=
  t.ppu = s.ppu ∧ t.apu = s.apu ∧ t.cart = s.cart ∧ t.bus = { s.bus with ram := t.bus.ram }

/-- The two states differ in the count of the last step at most, as far as the loop goes. -/
abbrev sameLoop (s t : State) : Prop := t.loop = { s.loop with stepCycles := t.loop.stepCycles }

/-- `d` is `c` but for what a running machine may write: the CHR if it is RAM, the PRG RAM, the mapper's registers
(20_memory.md R66, 63_cartridge_mappers.md R551). -/
abbrev Cartridge.sameImage (c d : Cartridge) : Prop :=
  d = { c with chr := d.chr, prgRam := d.prgRam, mapper := d.mapper }
    ∧ (c.hasChrRam = false → d.chr = c.chr)
    ∧ d.mapper.number = c.mapper.number

/-- `q` is `p` but for what the CPU's eight registers reach: the position, the picture and the rendering pipeline are
the same (61_ppu.md R400). -/
abbrev Ppu.sameRendering (p q : Ppu) : Prop :=
  q = { p with
    ctrl := q.ctrl, mask := q.mask, status := q.status, oamAddr := q.oamAddr, v := q.v, t := q.t, fineX := q.fineX
    w := q.w, dataBuffer := q.dataBuffer, nmiOccurred := q.nmiOccurred, nmiOutput := q.nmiOutput
    nmiLatched := q.nmiLatched, nmiDelay := q.nmiDelay, nmiTriggeredDelayed := q.nmiTriggeredDelayed
    vblSuppress := q.vblSuppress, suppressNmi := q.suppressNmi, oam := q.oam, nametableRam := q.nametableRam
    paletteRam := q.paletteRam, maskWriteCycle := q.maskWriteCycle, maskPrev := q.maskPrev }

/-- `b` is `a` but for what the CPU's registers reach: no sample is made, no cycle is counted (62_apu.md R502). -/
abbrev Apu.sameOutput (a b : Apu) : Prop :=
  b = { a with
    pulse0 := b.pulse0, pulse1 := b.pulse1, tri := b.tri, noise := b.noise, dmc := b.dmc, fiveStep := b.fiveStep
    irqInhibit := b.irqInhibit, frameIrq := b.frameIrq, fcCycles := b.fcCycles, fcStep := b.fcStep }

/-- What no instruction can change: the loop's state but for the count of the step, the host's buttons, the PPU's
position and picture, the APU's output, the cartridge's ROM. -/
abbrev State.sameOutside (s t : State) : Prop :=
  t.loop = { s.loop with stepCycles := t.loop.stepCycles }
    ∧ (t.bus.port0.state = s.bus.port0.state ∧ t.bus.port1.state = s.bus.port1.state)
    ∧ s.ppu.sameRendering t.ppu ∧ s.apu.sameOutput t.apu ∧ s.cart.sameImage t.cart

end Sys2Proof.Machine

/-! ## The terms of the claims: what the tables say of an instruction -/

namespace Sys2Proof

open Sys2Proof.Machine

/-- The base cycles of every opcode byte, in the order of the table (30_encoding.md R125; 2 for an unofficial byte, R127). -/
def baseCycles : List Nat :=
  [7, 6, 2, 2, 2, 3, 5, 2, 3, 2, 2, 2, 2, 4, 6, 2]
  ++ [2, 5, 2, 2, 2, 4, 6, 2, 2, 4, 2, 2, 2, 4, 7, 2]
  ++ [6, 6, 2, 2, 3, 3, 5, 2, 4, 2, 2, 2, 4, 4, 6, 2]
  ++ [2, 5, 2, 2, 2, 4, 6, 2, 2, 4, 2, 2, 2, 4, 7, 2]
  ++ [6, 6, 2, 2, 2, 3, 5, 2, 3, 2, 2, 2, 3, 4, 6, 2]
  ++ [2, 5, 2, 2, 2, 4, 6, 2, 2, 4, 2, 2, 2, 4, 7, 2]
  ++ [6, 6, 2, 2, 2, 3, 5, 2, 4, 2, 2, 2, 5, 4, 6, 2]
  ++ [2, 5, 2, 2, 2, 4, 6, 2, 2, 4, 2, 2, 2, 4, 7, 2]
  ++ [2, 6, 2, 2, 3, 3, 3, 2, 2, 2, 2, 2, 4, 4, 4, 2]
  ++ [2, 6, 2, 2, 4, 4, 4, 2, 2, 5, 2, 2, 2, 5, 2, 2]
  ++ [2, 6, 2, 2, 3, 3, 3, 2, 2, 2, 2, 2, 4, 4, 4, 2]
  ++ [2, 5, 2, 2, 4, 4, 4, 2, 2, 4, 2, 2, 4, 4, 4, 2]
  ++ [2, 6, 2, 2, 3, 3, 5, 2, 2, 2, 2, 2, 4, 4, 6, 2]
  ++ [2, 5, 2, 2, 2, 4, 6, 2, 2, 4, 2, 2, 2, 4, 7, 2]
  ++ [2, 6, 2, 2, 3, 3, 5, 2, 2, 2, 2, 2, 4, 4, 6, 2]
  ++ [2, 5, 2, 2, 2, 4, 6, 2, 2, 4, 2, 2, 2, 4, 7, 2]

/-- The opcode bytes whose cell carries a `+` (30_encoding.md R125): one more cycle when the index crosses a page. -/
def plusRows : List Nat :=
  [0x11, 0x19, 0x1D, 0x31, 0x39, 0x3D, 0x51, 0x59, 0x5D, 0x71, 0x79, 0x7D]
  ++ [0xB1, 0xB9, 0xBC, 0xBD, 0xBE, 0xD1, 0xD9, 0xDD, 0xF1, 0xF9, 0xFD]

/-- The memory form of an instruction, if it has one. -/
def Instr.address? : Instr → Option Addr
  | .lda (.mem m) | .ldx (.mem m) | .ldy (.mem m) | .adc (.mem m) | .sbc (.mem m) | .cmp (.mem m) => some m
  | .cpx (.mem m) | .cpy (.mem m) | .and (.mem m) | .ora (.mem m) | .eor (.mem m) | .bit m => some m
  | .sta m | .stx m | .sty m | .inc m | .dec m => some m
  | .asl (.mem m) | .lsr (.mem m) | .rol (.mem m) | .ror (.mem m) => some m
  | _ => none

/-- The memory form an instruction stores to: the stores and the read-modify-writes. -/
def Instr.storesTo? : Instr → Option Addr
  | .sta m | .stx m | .sty m | .inc m | .dec m => some m
  | .asl (.mem m) | .lsr (.mem m) | .rol (.mem m) | .ror (.mem m) => some m
  | _ => none

/-- The stack slots an instruction pushes to, from stack pointer `sp` (41_transfer_stack.md R170). -/
def Instr.pushesTo (sp : Byte) : Instr → List Byte
  | .pha | .php => [sp]
  | .jsr _ => [sp, sp - 1#8]
  | .brk => [sp, sp - 1#8, sp - 2#8]
  | _ => []

/-- The flag a conditional branch tests, the value it branches on, and its offset (44_control_flow.md R227-R234). -/
def Instr.branch? : Instr → Option (Flag × Bool × Byte)
  | .bcc d => some (.C, false, d)
  | .bcs d => some (.C, true, d)
  | .beq d => some (.Z, true, d)
  | .bne d => some (.Z, false, d)
  | .bmi d => some (.N, true, d)
  | .bpl d => some (.N, false, d)
  | .bvc d => some (.V, false, d)
  | .bvs d => some (.V, true, d)
  | _ => none

/-- The flags an instruction may write (10_state.md R27, the column "written by"). -/
def Instr.flagsWritten : Instr → List Flag
  | .lda _ | .ldx _ | .ldy _ | .tax | .tay | .txa | .tya | .tsx | .pla => [.Z, .N]
  | .inc _ | .inx | .iny | .dec _ | .dex | .dey | .and _ | .ora _ | .eor _ => [.Z, .N]
  | .adc _ | .sbc _ => [.C, .Z, .V, .N]
  | .cmp _ | .cpx _ | .cpy _ | .asl _ | .lsr _ | .rol _ | .ror _ => [.C, .Z, .N]
  | .bit _ => [.Z, .V, .N]
  | .plp | .rti => [.C, .Z, .I, .D, .U, .V, .N]
  | .brk | .cli | .sei => [.I]
  | .clc | .sec => [.C]
  | .cld | .sed => [.D]
  | .clv => [.V]
  | .sta _ | .stx _ | .sty _ | .txs | .pha | .php | .jmp _ | .jsr _ | .rts => []
  | .bcc _ | .bcs _ | .beq _ | .bne _ | .bmi _ | .bpl _ | .bvc _ | .bvs _ | .nop | .nopStar _ => []

/-- May the instruction write `a` (10_state.md R20)? -/
def Instr.writesA : Instr → Bool
  | .lda _ | .pla | .txa | .tya | .adc _ | .sbc _ | .and _ | .ora _ | .eor _ => true
  | .asl .acc | .lsr .acc | .rol .acc | .ror .acc => true
  | _ => false

/-- May the instruction write `x` (R21)? -/
def Instr.writesX : Instr → Bool
  | .ldx _ | .tax | .tsx | .inx | .dex => true
  | _ => false

/-- May the instruction write `y` (R22)? -/
def Instr.writesY : Instr → Bool
  | .ldy _ | .tay | .iny | .dey => true
  | _ => false

/-- May the instruction write `sp` (R23)? -/
def Instr.writesSp : Instr → Bool
  | .txs | .pha | .php | .pla | .plp | .jsr _ | .rts | .rti | .brk => true
  | _ => false

/-- May the instruction write `pc` after its bytes were fetched (44_control_flow.md)? -/
def Instr.writesPc : Instr → Bool
  | .jmp _ | .jsr _ | .rts | .rti | .brk => true
  | .bcc _ | .bcs _ | .beq _ | .bne _ | .bmi _ | .bpl _ | .bvc _ | .bvs _ => true
  | _ => false

/-- The effective address of a memory form (30_encoding.md R115-R123). -/
def Addr.ea (m : Addr) (s : State) : Word := (resolve m s).ea

/-- The byte a reading form reads: the fetched immediate, or the byte at the effective address. -/
def Source.value (s : State) : Source → Byte
  | .imm v => v
  | .mem m => peek (m.ea s) s

/-- The state after a reading form's one data read: a device read has its side effect (20_memory.md R83). -/
def Source.after (s : State) : Source → State
  | .imm _ => s
  | .mem m => (busRead (m.ea s) s).2

/-- The cycles an instruction's step returns in state `s`, from the tables (30_encoding.md R125, R128, 44_control_flow.md
R226). -/
def Instr.cycles (s : State) (i : Instr) : Nat :=
  let op := ((encode i).headD 0#8).toNat
  let base := baseCycles.getD op 0
  match i.branch? with
  | some (f, b, off) =>
    if s.cpu.flag f = b then base + 1 + (if hi8 (s.cpu.pc + sext16 off) = hi8 s.cpu.pc then 0 else 1) else base
  | none =>
    match i.address? with
    | some m => base + (if op ∈ plusRows ∧ (resolve m s).cross = true then 1 else 0)
    | none => base

/-- These bytes are the encoding of `i`: they decode to it, and it encodes to them. -/
def encodes (bs : List Byte) (i : Instr) : Prop := decode bs = .ok (i, []) ∧ encode i = bs

/-- Two-byte forms, by opcode byte. -/
def forms8 (fs : List (Byte × (Byte → Instr))) : Prop := ∀ f ∈ fs, ∀ d, encodes [f.1, d] (f.2 d)

/-- Three-byte forms, by opcode byte: the low byte of the address first. -/
def forms16 (fs : List (Byte × (Word → Instr))) : Prop := ∀ f ∈ fs, ∀ lo hi, encodes [f.1, lo, hi] (f.2 (mkWord hi lo))

/-- The eight forms of ADC, AND, CMP, EOR, LDA, ORA and SBC. -/
def forms8Modes (mk : Source → Instr) (imm zp zpx abs abx aby izx izy : Byte) : Prop :=
  forms8 [(imm, fun d => mk (.imm d)), (zp, fun d => mk (.mem (.zp d))), (zpx, fun d => mk (.mem (.zpx d))),
      (izx, fun d => mk (.mem (.izx d))), (izy, fun d => mk (.mem (.izy d)))]
    ∧ forms16 [(abs, fun w => mk (.mem (.abs w))), (abx, fun w => mk (.mem (.abx w))), (aby, fun w => mk (.mem (.aby w)))]

/-- The four memory forms of INC, DEC and the shifts. -/
def formsRmw (mk : Addr → Instr) (zp zpx abs abx : Byte) : Prop :=
  forms8 [(zp, fun d => mk (.zp d)), (zpx, fun d => mk (.zpx d))]
    ∧ forms16 [(abs, fun w => mk (.abs w)), (abx, fun w => mk (.abx w))]

/-- The three forms of CPX and CPY. -/
def formsCompare (mk : Source → Instr) (imm zp abs : Byte) : Prop :=
  forms8 [(imm, fun d => mk (.imm d)), (zp, fun d => mk (.mem (.zp d)))] ∧ forms16 [(abs, fun w => mk (.mem (.abs w)))]

end Sys2Proof

/-! ## The terms of the claims: an instruction completes -/

namespace Sys2Proof.Machine

/-- `i` completes in `s`: `exec` answers a next state, which is `base` but for the CPU, of which `P` holds, and the cycle
count, which is the table's. -/
def completes (i : Instr) (s base : State) (P : Cpu → Prop) : Prop :=
  ∃ t, exec i s = .next t ∧ t = { base with cpu := t.cpu, loop := { base.loop with stepCycles := i.cycles s } } ∧ P t.cpu

/-- Every flag but those listed is as it was. -/
def flagsKept (fs : List Flag) (c d : Cpu) : Prop := ∀ f, f ∉ fs → d.flag f = c.flag f

/-- Z and N as `setZN(v)` leaves them (00_scope.md R11). -/
def setsZN (v : Byte) (d : Cpu) : Prop := d.flag .Z = decide (v = 0#8) ∧ d.flag .N = v.getLsbD 7

/-- Two addresses below 0x2000 are the same byte of RAM (20_memory.md R62), and any two equal addresses are the same. -/
def sameByte (a b : Word) : Prop := a = b ∨ (a.toNat ≤ 0x1FFF ∧ b.toNat ≤ 0x1FFF ∧ a.toNat % 0x800 = b.toNat % 0x800)

/-- One byte of RAM replaced. -/
def State.setRam (s : State) (k : Nat) (v : Byte) : State :=
  { s with bus := { s.bus with ram := s.bus.ram.write k v } }

/-- The byte of RAM in stack slot `sp` (10_state.md R23). -/
def State.stackByte (s : State) (sp : Byte) : Byte := s.bus.ram.read (0x100 + sp.toNat)

/-- `k` dots of the PPU alone (61_ppu.md R420). -/
def Video.dots (v : Video) : Nat → Video
  | 0 => v
  | k + 1 => (v.dots k).dot

/-- The OAM numbers of the sprites in range of the PPU's line (61_ppu.md R426). -/
def Ppu.spritesInRange (p : Ppu) : List Nat :=
  (List.range 64).filter fun n =>
    decide ((p.oam.read (4 * n)).toNat ≤ p.scanline ∧ p.scanline < (p.oam.read (4 * n)).toNat + p.spriteHeight)

end Sys2Proof.Machine
end

