-- ==== Sys2Proof/Certificates/Slice0/Obligations.lean ====
section
/-! DEFINITION. The statements for the provers. Each says what spec/ says an instruction or the machine does; a clause
that rests on a decision of 92_eei_decisions.md or on an entry of notes/assumptions names it. The terms are
Safety.lean's. -/

open Sys2Proof Sys2Proof.Machine

/-! ## Encoding -/

/-- Decoding the bytes of a well-formed instruction gives it back, with the bytes after it (30_encoding.md R110, R111,
R125, R127; the length 1 of an unofficial byte is D1, entry 17). -/
def Obligations.DecodeUndoesEncode : Prop :=
  ∀ (i : Instr) (rest : List Byte), i.wf = true →
    decode (encode i ++ rest) = .ok (i, rest) ∧ (encode i).length = i.length

/-- Every opcode byte, with any operand bytes, is one well-formed instruction of one to three bytes, which encodes to
exactly the bytes it was read from (30_encoding.md R111, R129; entry 17). -/
def Obligations.EveryByteIsOneInstruction : Prop :=
  ∀ op lo hi : Byte,
    (decodeRow op lo hi).wf = true
      ∧ encode (decodeRow op lo hi) = [op, lo, hi].take (decodeRow op lo hi).length
      ∧ 1 ≤ (decodeRow op lo hi).length ∧ (decodeRow op lo hi).length ≤ 3
      ∧ ∀ lo' hi' : Byte, (decodeRow op lo' hi').length = (decodeRow op lo hi).length

/-- Words written out from spec/opcode_table.json, one of each format and of several families (30_encoding.md R125, R127, R130).
That the unofficial byte 02 leaves the byte after it over rests on its length 1, the default of UNOFFICIAL_LEN (D1, entry 17). -/
def Obligations.SampleWordsDecode : Prop :=
  decode [0b10101001, 0b00010000] = .ok (.lda (.imm 0x10), [])
    ∧ decode [0b10111101, 0b00110100, 0b00010010] = .ok (.lda (.mem (.abx 0x1234)), [])
    ∧ decode [0b10010110, 0b11111111] = .ok (.stx (.zpy 0xFF), [])
    ∧ decode [0b01110001, 0b00010000] = .ok (.adc (.mem (.izy 0x10)), [])
    ∧ decode [0b11111110, 0b00000000, 0b00000011] = .ok (.inc (.abx 0x0300), [])
    ∧ decode [0b01101100, 0b11111111, 0b00000010] = .ok (.jmp (.ind 0x02FF), [])
    ∧ decode [0b11010000, 0b11111011] = .ok (.bne 0xFB, [])
    ∧ decode [0b00001010] = .ok (.asl .acc, [])
    ∧ decode [0b00101000] = .ok (.plp, [])
    ∧ decode [0b00000000, 0b11101010] = .ok (.brk, [0b11101010])
    ∧ decode [0b11111000] = .ok (.sed, [])
    ∧ decode [0b00000010, 0b11101010] = .ok (.nopStar 0x02, [0b11101010])

/-! ## The step -/

/-- When no interrupt is taken, a step fetches an instruction through the bus, runs it, and then the loop catches up with the
NMI that was armed before; at the end of the frame the inputs are latched. Fetching decodes the bytes that as many bus reads
as the instruction is long give, in order, and leaves `pc` after them. When the bytes at `pc` are memory-like and decode to
`i`, that is `exec i` with `pc` after the instruction (60_exceptions.md R300, R330). The model's choices: a step is one loop
iteration with the end of the frame (entry 1, DEDUCED), at the default parameters (entries 17, 18); the operand bytes are read
before the instruction runs (entry 19). -/
def Obligations.StepRunsTheDecodedInstruction : Prop :=
  ∀ s : State,
    let s0 : State := { s with loop := { s.loop with nmiDelayArmed := false } }
    let caughtUp := fun t : State =>
      let r := catchUp Config.defaults s.loop.nmiDelayArmed t
      if r.2 then endFrame r.1 else r.1
    (let op := busRead s0.cpu.pc s0
     let lo := busRead (s0.cpu.pc + 1) op.2
     let hi := busRead (s0.cpu.pc + 2) lo.2
     let i := decodeRow op.1 lo.1 hi.1
     let read := ([op, lo, hi].getD (i.length - 1) hi).2
     fetchInstr s0 = (i, { read with cpu := { s.cpu with pc := s.cpu.pc + BitVec.ofNat 16 i.length } }))
    ∧ (s.cpu.nmiPending = false → (s.cpu.irqPending = false ∨ s.cpu.flag .I = true) →
      (∀ t, exec (fetchInstr s0).1 (fetchInstr s0).2 = .next t → step s = .next (caughtUp t))
      ∧ ∀ (i : Instr) (rest : List Byte),
        quietAddr s.cpu.pc → quietAddr (s.cpu.pc + 1) → quietAddr (s.cpu.pc + 2) →
        decode [peek s.cpu.pc s, peek (s.cpu.pc + 1) s, peek (s.cpu.pc + 2) s] = .ok (i, rest) →
        ∀ t, exec i { s0 with cpu := { s.cpu with pc := s.cpu.pc + BitVec.ofNat 16 i.length } } = .next t →
          step s = .next (caughtUp t))

/-- The CPU cannot fail: every instruction, every CPU step and every step of the machine answers a next state, and a CPU
step returns a count from 2 to 7 (00_scope.md R12, R13). -/
def Obligations.EveryStepAnswersANextState : Prop :=
  ∀ s : State,
    (∀ i, ∃ t, exec i s = .next t)
      ∧ (∃ t, cpuStep s = .next t ∧ 2 ≤ t.loop.stepCycles ∧ t.loop.stepCycles ≤ 7)
      ∧ ∃ t, step s = .next t

/-- The effective address of every memory form by plain arithmetic: page-zero forms wrap in page zero, the others at
65536, a pointer's second byte wraps in page zero; `cross` is the change of page, and forms that cannot cross say so.
Resolving an address changes nothing (30_encoding.md R115-R120, R122, R123). -/
def Obligations.AddressingModes : Prop :=
  ∀ (s : State) (z : Byte) (w : Word),
    let ram := fun k : Nat => (s.bus.ram.read (k % 256)).toNat
    let x := s.cpu.x.toNat
    let y := s.cpu.y.toNat
    let at' := fun (m : Addr) (ea : Nat) (cross : Bool) =>
      (resolve m s).ea.toNat = ea ∧ (resolve m s).cross = cross ∧ (resolve m s).state = s
    let pointer := fun k : Nat => ram k + 256 * ram (k + 1)
    let indexed := fun (m : Addr) (base i : Nat) =>
      at' m ((base + i) % 65536) (decide ((base + i) % 65536 / 256 ≠ base / 256))
    at' (.zp z) z.toNat false
      ∧ at' (.zpx z) ((z.toNat + x) % 256) false
      ∧ at' (.zpy z) ((z.toNat + y) % 256) false
      ∧ at' (.abs w) w.toNat false
      ∧ indexed (.abx w) w.toNat x
      ∧ indexed (.aby w) w.toNat y
      ∧ at' (.izx z) (pointer (z.toNat + x)) false
      ∧ indexed (.izy z) (pointer z.toNat) y

/-- The cycles of every well-formed instruction are the table's: the base count of its opcode byte, one more for a `+`
row whose index crosses a page, and for a branch one more if taken and one more again into another page; an interrupt
entry takes seven (30_encoding.md R125, R128, 44_control_flow.md R226, 60_exceptions.md R303). -/
def Obligations.CyclesFollowTheTable : Prop :=
  (∀ (i : Instr) (s t : State), i.wf = true → exec i s = .next t → t.loop.stepCycles = i.cycles s)
    ∧ ∀ (vector : Word) (s : State), (interruptEntry vector s).loop.stepCycles = 7

/-! ## Loads, stores, transfers, the stack -/

/-- LDA, LDX, LDY: one register, Z and N (40_load_store.md R150-R152). -/
def Obligations.LoadsReplaceOneRegister : Prop :=
  forms8Modes .lda 0xA9 0xA5 0xB5 0xAD 0xBD 0xB9 0xA1 0xB1
    ∧ forms8 [(0xA2, fun d => .ldx (.imm d)), (0xA6, fun d => .ldx (.mem (.zp d))), (0xB6, fun d => .ldx (.mem (.zpy d)))]
    ∧ forms16 [(0xAE, fun w => .ldx (.mem (.abs w))), (0xBE, fun w => .ldx (.mem (.aby w)))]
    ∧ forms8 [(0xA0, fun d => .ldy (.imm d)), (0xA4, fun d => .ldy (.mem (.zp d))), (0xB4, fun d => .ldy (.mem (.zpx d)))]
    ∧ forms16 [(0xAC, fun w => .ldy (.mem (.abs w))), (0xBC, fun w => .ldy (.mem (.abx w)))]
    ∧ ∀ (src : Source) (s : State),
      ((Instr.lda src).wf = true → completes (.lda src) s (src.after s) fun d =>
        d = { s.cpu with a := src.value s, p := d.p } ∧ setsZN (src.value s) d ∧ flagsKept [.Z, .N] s.cpu d)
      ∧ ((Instr.ldx src).wf = true → completes (.ldx src) s (src.after s) fun d =>
        d = { s.cpu with x := src.value s, p := d.p } ∧ setsZN (src.value s) d ∧ flagsKept [.Z, .N] s.cpu d)
      ∧ ((Instr.ldy src).wf = true → completes (.ldy src) s (src.after s) fun d =>
        d = { s.cpu with y := src.value s, p := d.p } ∧ setsZN (src.value s) d ∧ flagsKept [.Z, .N] s.cpu d)

/-- STA, STX, STY: one bus write of the register at the effective address and nothing else: no register, no flag, no
read (40_load_store.md R153-R155; that a store makes no dummy read is D5, entry 22). -/
def Obligations.StoresWriteOneByte : Prop :=
  forms8 [(0x85, fun d => .sta (.zp d)), (0x95, fun d => .sta (.zpx d)), (0x81, fun d => .sta (.izx d)),
      (0x91, fun d => .sta (.izy d))]
    ∧ forms16 [(0x8D, fun w => .sta (.abs w)), (0x9D, fun w => .sta (.abx w)), (0x99, fun w => .sta (.aby w))]
    ∧ forms8 [(0x86, fun d => .stx (.zp d)), (0x96, fun d => .stx (.zpy d))]
    ∧ forms16 [(0x8E, fun w => .stx (.abs w))]
    ∧ forms8 [(0x84, fun d => .sty (.zp d)), (0x94, fun d => .sty (.zpx d))]
    ∧ forms16 [(0x8C, fun w => .sty (.abs w))]
    ∧ ∀ (m : Addr) (s : State),
      ((Instr.sta m).wf = true → completes (.sta m) s (busWrite (m.ea s) s.cpu.a s) fun d => d = s.cpu)
      ∧ ((Instr.stx m).wf = true → completes (.stx m) s (busWrite (m.ea s) s.cpu.x s) fun d => d = s.cpu)
      ∧ ((Instr.sty m).wf = true → completes (.sty m) s (busWrite (m.ea s) s.cpu.y s) fun d => d = s.cpu)

/-- TAX, TAY, TXA, TYA, TSX, TXS: one register moved; Z and N follow the value, except that TXS writes no flag
(41_transfer_stack.md R160-R165). -/
def Obligations.TransfersMoveOneRegister : Prop :=
  encodes [0xAA] .tax ∧ encodes [0xA8] .tay ∧ encodes [0x8A] .txa ∧ encodes [0x98] .tya ∧ encodes [0xBA] .tsx
    ∧ encodes [0x9A] .txs
    ∧ ∀ s : State,
      let moved := fun (v : Byte) (d : Cpu) => setsZN v d ∧ flagsKept [.Z, .N] s.cpu d
      completes .tax s s (fun d => d = { s.cpu with x := s.cpu.a, p := d.p } ∧ moved s.cpu.a d)
        ∧ completes .tay s s (fun d => d = { s.cpu with y := s.cpu.a, p := d.p } ∧ moved s.cpu.a d)
        ∧ completes .txa s s (fun d => d = { s.cpu with a := s.cpu.x, p := d.p } ∧ moved s.cpu.x d)
        ∧ completes .tya s s (fun d => d = { s.cpu with a := s.cpu.y, p := d.p } ∧ moved s.cpu.y d)
        ∧ completes .tsx s s (fun d => d = { s.cpu with x := s.cpu.sp, p := d.p } ∧ moved s.cpu.sp d)
        ∧ completes .txs s s (fun d => d = { s.cpu with sp := s.cpu.x })

/-- PHA and PHP: one byte in the stack slot `sp` names, then `sp` down by one, wrapping; PHP's byte has B and U set, the
register keeps its own. PLA and PLP: `sp` up by one, wrapping, then the byte there: into `a` with Z and N, or into the
flags but B and U: B keeps its value and U becomes 1 (41_transfer_stack.md R166-R169; that PLP keeps B and sets U in every
state is D18, entry 22). -/
def Obligations.StackBytes : Prop :=
  encodes [0x48] .pha ∧ encodes [0x08] .php ∧ encodes [0x68] .pla ∧ encodes [0x28] .plp
    ∧ ∀ s : State,
      let slot := 0x100 + s.cpu.sp.toNat
      let v := s.stackByte (s.cpu.sp + 1)
      completes .pha s (s.setRam slot s.cpu.a) (fun d => d = { s.cpu with sp := s.cpu.sp - 1 })
        ∧ completes .php s (s.setRam slot (s.cpu.p ||| 0x30)) (fun d => d = { s.cpu with sp := s.cpu.sp - 1 })
        ∧ completes .pla s s (fun d =>
          d = { s.cpu with a := v, sp := s.cpu.sp + 1, p := d.p } ∧ setsZN v d ∧ flagsKept [.Z, .N] s.cpu d)
        ∧ completes .plp s s (fun d =>
          d = { s.cpu with sp := s.cpu.sp + 1, p := v &&& 0xCF ||| s.cpu.p &&& 0x10 ||| 0x20 }
            ∧ (∀ f ∈ [Flag.C, .Z, .I, .D, .V, .N], d.flag f = getFlag v f)
            ∧ d.flag .B = s.cpu.flag .B ∧ d.flag .U = true)

/-! ## Arithmetic -/

/-- ADC: `a + m + C` as a number is the new `a` and the new C together; V says that the signs of `a` and `m` agree and
the result's differs, which is that the signed sum leaves -128..127; Z and N follow the result; I, D, B, U and every
other register stay (42_arithmetic.md R180). -/
def Obligations.AdcAddsWithCarry : Prop :=
  forms8Modes .adc 0x69 0x65 0x75 0x6D 0x7D 0x79 0x61 0x71
    ∧ ∀ (src : Source) (s : State), (Instr.adc src).wf = true →
      let m := src.value s
      let c := (s.cpu.flag .C).toNat
      completes (.adc src) s (src.after s) fun d =>
        d = { s.cpu with a := d.a, p := d.p }
          ∧ d.a.toNat + 256 * (d.flag .C).toNat = s.cpu.a.toNat + m.toNat + c
          ∧ d.flag .V = ((s.cpu.a.msb == m.msb) && (d.a.msb != s.cpu.a.msb))
          ∧ d.flag .V = decide (¬(-128 ≤ s.cpu.a.toInt + m.toInt + c ∧ s.cpu.a.toInt + m.toInt + c ≤ 127))
          ∧ setsZN d.a d ∧ flagsKept [.C, .Z, .V, .N] s.cpu d

/-- SBC: `a - m - (1 - C)` as a number is the new `a` less 256 when the new C is 0; V says that the signs of `a` and `m`
differ and the result's differs from `a`'s, which is that the signed difference leaves -128..127 (42_arithmetic.md R181). -/
def Obligations.SbcSubtractsWithBorrow : Prop :=
  forms8Modes .sbc 0xE9 0xE5 0xF5 0xED 0xFD 0xF9 0xE1 0xF1
    ∧ ∀ (src : Source) (s : State), (Instr.sbc src).wf = true →
      let m := src.value s
      let borrow := (!s.cpu.flag .C).toNat
      completes (.sbc src) s (src.after s) fun d =>
        d = { s.cpu with a := d.a, p := d.p }
          ∧ d.a.toNat + m.toNat + borrow = s.cpu.a.toNat + 256 * (!d.flag .C).toNat
          ∧ d.flag .V = ((s.cpu.a.msb != m.msb) && (d.a.msb != s.cpu.a.msb))
          ∧ d.flag .V = decide (¬(-128 ≤ s.cpu.a.toInt - m.toInt - borrow ∧ s.cpu.a.toInt - m.toInt - borrow ≤ 127))
          ∧ setsZN d.a d ∧ flagsKept [.C, .Z, .V, .N] s.cpu d

/-- ADC and SBC do not read D: with D replaced before, they give the same machine with D replaced after
(42_arithmetic.md R180, R181). -/
def Obligations.AdcAndSbcIgnoreDecimal : Prop :=
  ∀ (src : Source) (s t : State) (b : Bool),
    (exec (.adc src) s = .next t →
      exec (.adc src) (s.mapCpu fun c => c.withFlag .D b) = .next (t.mapCpu fun c => c.withFlag .D b))
    ∧ (exec (.sbc src) s = .next t →
      exec (.sbc src) (s.mapCpu fun c => c.withFlag .D b) = .next (t.mapCpu fun c => c.withFlag .D b))

/-- CMP, CPX, CPY: no register is written; C is the unsigned comparison, Z equality, N bit 7 of the difference
(42_arithmetic.md R182-R184). -/
def Obligations.ComparesSetOnlyFlags : Prop :=
  forms8Modes .cmp 0xC9 0xC5 0xD5 0xCD 0xDD 0xD9 0xC1 0xD1 ∧ formsCompare .cpx 0xE0 0xE4 0xEC
    ∧ formsCompare .cpy 0xC0 0xC4 0xCC
    ∧ ∀ (src : Source) (s : State),
      let compared := fun (r : Byte) (d : Cpu) =>
        d = { s.cpu with p := d.p } ∧ d.flag .C = decide ((src.value s).toNat ≤ r.toNat)
          ∧ d.flag .Z = decide (r = src.value s) ∧ d.flag .N = (r - src.value s).getLsbD 7
          ∧ flagsKept [.C, .Z, .N] s.cpu d
      ((Instr.cmp src).wf = true → completes (.cmp src) s (src.after s) (compared s.cpu.a))
        ∧ ((Instr.cpx src).wf = true → completes (.cpx src) s (src.after s) (compared s.cpu.x))
        ∧ ((Instr.cpy src).wf = true → completes (.cpy src) s (src.after s) (compared s.cpu.y))

/-- INC and DEC of memory: one read, then one write of the value one up or down, modulo 256, at the same address; INX, INY,
DEX, DEY: the index register one up or down, modulo 256. Z and N follow the result, C and V stay (42_arithmetic.md
R185-R190). -/
def Obligations.IncrementsAndDecrements : Prop :=
  formsRmw .inc 0xE6 0xF6 0xEE 0xFE ∧ formsRmw .dec 0xC6 0xD6 0xCE 0xDE
    ∧ encodes [0xE8] .inx ∧ encodes [0xC8] .iny ∧ encodes [0xCA] .dex ∧ encodes [0x88] .dey
    ∧ ∀ s : State,
      let up := fun r : Byte => BitVec.ofNat 8 (r.toNat + 1)
      let down := fun r : Byte => BitVec.ofNat 8 (r.toNat + 255)
      let flags := fun (r : Byte) (d : Cpu) => setsZN r d ∧ flagsKept [.Z, .N] s.cpu d
      completes .inx s s (fun d => d = { s.cpu with x := up s.cpu.x, p := d.p } ∧ flags (up s.cpu.x) d)
        ∧ completes .iny s s (fun d => d = { s.cpu with y := up s.cpu.y, p := d.p } ∧ flags (up s.cpu.y) d)
        ∧ completes .dex s s (fun d => d = { s.cpu with x := down s.cpu.x, p := d.p } ∧ flags (down s.cpu.x) d)
        ∧ completes .dey s s (fun d => d = { s.cpu with y := down s.cpu.y, p := d.p } ∧ flags (down s.cpu.y) d)
        ∧ ∀ m : Addr,
          let v := peek (m.ea s) s
          let rewritten := fun r : Byte => busWrite (m.ea s) r (busRead (m.ea s) s).2
          ((Instr.inc m).wf = true →
            completes (.inc m) s (rewritten (up v)) fun d => d = { s.cpu with p := d.p } ∧ flags (up v) d)
          ∧ ((Instr.dec m).wf = true →
            completes (.dec m) s (rewritten (down v)) fun d => d = { s.cpu with p := d.p } ∧ flags (down v) d)

/-! ## Logic and shifts -/

/-- AND, ORA, EOR write `a`, Z and N; BIT writes no register: Z from the and, N and V from bits 7 and 6 of the memory
byte (43_logic_shift.md R200-R203). -/
def Obligations.LogicAndBitTest : Prop :=
  forms8Modes .and 0x29 0x25 0x35 0x2D 0x3D 0x39 0x21 0x31 ∧ forms8Modes .ora 0x09 0x05 0x15 0x0D 0x1D 0x19 0x01 0x11
    ∧ forms8Modes .eor 0x49 0x45 0x55 0x4D 0x5D 0x59 0x41 0x51
    ∧ forms8 [(0x24, fun d => .bit (.zp d))] ∧ forms16 [(0x2C, fun w => .bit (.abs w))]
    ∧ (∀ (src : Source) (s : State),
      let result := fun (r : Byte) (d : Cpu) =>
        d = { s.cpu with a := r, p := d.p } ∧ setsZN r d ∧ flagsKept [.Z, .N] s.cpu d
      let m := src.value s
      ((Instr.and src).wf = true → completes (.and src) s (src.after s) (result (s.cpu.a &&& m)))
        ∧ ((Instr.ora src).wf = true → completes (.ora src) s (src.after s) (result (s.cpu.a ||| m)))
        ∧ ((Instr.eor src).wf = true → completes (.eor src) s (src.after s) (result (s.cpu.a ^^^ m))))
    ∧ ∀ (m : Addr) (s : State), (Instr.bit m).wf = true →
      let v := peek (m.ea s) s
      completes (.bit m) s (busRead (m.ea s) s).2 fun d =>
        d = { s.cpu with p := d.p } ∧ d.flag .Z = decide (s.cpu.a &&& v = 0) ∧ d.flag .N = v.getLsbD 7
          ∧ d.flag .V = v.getLsbD 6 ∧ flagsKept [.Z, .N, .V] s.cpu d

/-- ASL, LSR, ROL, ROR, of the accumulator and of memory: the result as a number, C the bit shifted out, Z and N of the
result, V kept; the memory forms make one read and one write at the same address (43_logic_shift.md R204-R207). -/
def Obligations.ShiftsAndRotates : Prop :=
  (encodes [0x0A] (.asl .acc) ∧ formsRmw (fun m => .asl (.mem m)) 0x06 0x16 0x0E 0x1E)
    ∧ (encodes [0x4A] (.lsr .acc) ∧ formsRmw (fun m => .lsr (.mem m)) 0x46 0x56 0x4E 0x5E)
    ∧ (encodes [0x2A] (.rol .acc) ∧ formsRmw (fun m => .rol (.mem m)) 0x26 0x36 0x2E 0x3E)
    ∧ (encodes [0x6A] (.ror .acc) ∧ formsRmw (fun m => .ror (.mem m)) 0x66 0x76 0x6E 0x7E)
    ∧ ∀ s : State,
      let c := (s.cpu.flag .C).toNat
      let shifted := fun (mk : ShiftOperand → Instr) (result : Nat → Nat) (out : Nat) =>
        (let r := BitVec.ofNat 8 (result s.cpu.a.toNat)
         completes (mk .acc) s s fun d =>
          d = { s.cpu with a := r, p := d.p } ∧ d.flag .C = s.cpu.a.getLsbD out ∧ setsZN r d
            ∧ flagsKept [.C, .Z, .N] s.cpu d)
        ∧ ∀ m : Addr, (mk (.mem m)).wf = true →
          let v := peek (m.ea s) s
          let r := BitVec.ofNat 8 (result v.toNat)
          completes (mk (.mem m)) s (busWrite (m.ea s) r (busRead (m.ea s) s).2) fun d =>
            d = { s.cpu with p := d.p } ∧ d.flag .C = v.getLsbD out ∧ setsZN r d ∧ flagsKept [.C, .Z, .N] s.cpu d
      shifted .asl (fun v => 2 * v % 256) 7
        ∧ shifted .lsr (fun v => v / 2) 0
        ∧ shifted .rol (fun v => 2 * v % 256 + c) 7
        ∧ shifted .ror (fun v => v / 2 + 128 * c) 0

/-! ## Control flow -/

/-- JMP absolute goes to its target; JMP indirect goes to the word whose low byte is at the pointer and whose high byte
is at the next address of the pointer's own page, read in that order; RTS pulls a word, low byte first, and goes one past
it, modulo 65536. Nothing else changes but what the two reads of a pointer do (44_control_flow.md R220, R221, R225). -/
def Obligations.JumpsAndRts : Prop :=
  forms16 [(0x4C, fun w => .jmp (.abs w)), (0x6C, fun w => .jmp (.ind w))] ∧ encodes [0x60] .rts
    ∧ ∀ (w : Word) (s : State),
      completes (.jmp (.abs w)) s s (fun d => d = { s.cpu with pc := w })
        ∧ (let low := busRead w s
           let high := busRead (BitVec.ofNat 16 (w.toNat / 256 * 256 + (w.toNat + 1) % 256)) low.2
           completes (.jmp (.ind w)) s high.2 fun d =>
            d = { s.cpu with pc := BitVec.ofNat 16 (high.1.toNat * 256 + low.1.toNat) })
        ∧ (let pulled := (s.stackByte (s.cpu.sp + 2)).toNat * 256 + (s.stackByte (s.cpu.sp + 1)).toNat
           completes .rts s s fun d =>
            d = { s.cpu with sp := s.cpu.sp + 2, pc := BitVec.ofNat 16 ((pulled + 1) % 65536) })

/-- JSR pushes the address of its own last byte, high byte first, and goes to its target; both operand bytes were
fetched before (44_control_flow.md R222, D16). -/
def Obligations.JsrPushesItsLastByte : Prop :=
  forms16 [(0x20, .jsr)]
    ∧ ∀ (w : Word) (s : State),
      let link := s.cpu.pc - 1
      completes (.jsr w) s
        ((s.setRam (0x100 + s.cpu.sp.toNat) (hi8 link)).setRam (0x100 + (s.cpu.sp - 1).toNat) (lo8 link))
        (fun d => d = { s.cpu with sp := s.cpu.sp - 2, pc := w })

/-- BRK pushes the address two past its own, high byte first, then the status with B and U set, sets I, and goes to the
word at 0xFFFE (44_control_flow.md R224, D17). RTI pulls the status (B kept, U set: D18), then `pc`, low byte first
(R223). Neither touches the interrupt latches. -/
def Obligations.BrkAndRti : Prop :=
  encodes [0x00] .brk ∧ encodes [0x40] .rti
    ∧ ∀ s : State,
      let ret := s.cpu.pc + 1
      (let pushed := ((s.setRam (0x100 + s.cpu.sp.toNat) (hi8 ret)).setRam (0x100 + (s.cpu.sp - 1).toNat) (lo8 ret)).setRam
          (0x100 + (s.cpu.sp - 2).toNat) (s.cpu.p ||| 0x30)
       completes .brk s pushed fun d =>
        d = { s.cpu with sp := s.cpu.sp - 3, p := d.p, pc := mkWord (peek 0xFFFF s) (peek 0xFFFE s) }
          ∧ d.flag .I = true ∧ flagsKept [.I] s.cpu d)
      ∧ completes .rti s s fun d =>
        d = { s.cpu with
          sp := s.cpu.sp + 3
          p := s.stackByte (s.cpu.sp + 1) &&& 0xCF ||| s.cpu.p &&& 0x10 ||| 0x20
          pc := mkWord (s.stackByte (s.cpu.sp + 3)) (s.stackByte (s.cpu.sp + 2)) }

/-- The eight branches: taken exactly when the flag has the value, to the next instruction's address plus the signed
offset, modulo 65536; 2 cycles not taken, 3 taken, 4 to another page; nothing else changes (44_control_flow.md
R226-R234). -/
def Obligations.BranchesFollowOneFlag : Prop :=
  let branch := fun (mk : Byte → Instr) (op : Byte) (f : Flag) (b : Bool) =>
    forms8 [(op, mk)]
      ∧ ∀ (off : Byte) (s : State),
        let target := BitVec.ofInt 16 (s.cpu.pc.toNat + off.toInt)
        ∃ t, exec (mk off) s = .next t
          ∧ t = { s with
              cpu := { s.cpu with pc := if s.cpu.flag f = b then target else s.cpu.pc }
              loop := { s.loop with stepCycles := t.loop.stepCycles } }
          ∧ t.loop.stepCycles =
              if s.cpu.flag f = b then (if target.toNat / 256 = s.cpu.pc.toNat / 256 then 3 else 4) else 2
  branch .bcc 0x90 .C false ∧ branch .bcs 0xB0 .C true ∧ branch .beq 0xF0 .Z true ∧ branch .bne 0xD0 .Z false
    ∧ branch .bmi 0x30 .N true ∧ branch .bpl 0x10 .N false ∧ branch .bvc 0x50 .V false ∧ branch .bvs 0x70 .V true

/-- CLC, SEC, CLI, SEI, CLD, SED, CLV write their flag and nothing else; NOP writes nothing (45_flags_nop.md R240-R247). -/
def Obligations.FlagInstructionsWriteOneFlag : Prop :=
  let writes := fun (i : Instr) (op : Byte) (f : Flag) (b : Bool) =>
    encodes [op] i
      ∧ ∀ s : State, completes i s s fun d => d = { s.cpu with p := d.p } ∧ d.flag f = b ∧ flagsKept [f] s.cpu d
  writes .clc 0x18 .C false ∧ writes .sec 0x38 .C true ∧ writes .cli 0x58 .I false ∧ writes .sei 0x78 .I true
    ∧ writes .cld 0xD8 .D false ∧ writes .sed 0xF8 .D true ∧ writes .clv 0xB8 .V false
    ∧ encodes [0xEA] .nop ∧ ∀ s : State, completes .nop s s fun d => d = s.cpu

/-- Every one of the 105 unofficial bytes is one byte long, takes two cycles and changes nothing (30_encoding.md R127,
45_flags_nop.md R248; the length is D1, entry 17). -/
def Obligations.UnofficialOpcodesDoNothing : Prop :=
  unofficialOpcodes.length = 105
    ∧ ∀ (op : Byte) (s : State), op.toNat ∈ unofficialOpcodes →
      encodes [op] (.nopStar op)
        ∧ exec (.nopStar op) s = .next { s with loop := { s.loop with stepCycles := 2 } }

/-! ## What an instruction leaves alone -/

/-- No instruction writes a flag or a register but those the tables give it; B in particular is written by none, and `pc`
only by control flow (10_state.md R20-R28). -/
def Obligations.InstructionsWriteOnlyTheirRegisters : Prop :=
  ∀ (i : Instr) (s t : State), exec i s = .next t →
    flagsKept i.flagsWritten s.cpu t.cpu
      ∧ (i.writesA = false → t.cpu.a = s.cpu.a)
      ∧ (i.writesX = false → t.cpu.x = s.cpu.x)
      ∧ (i.writesY = false → t.cpu.y = s.cpu.y)
      ∧ (i.writesSp = false → t.cpu.sp = s.cpu.sp)
      ∧ (i.writesPc = false → t.cpu.pc = s.cpu.pc)

/-- No instruction touches an interrupt latch, the loop's counters and inputs, the host's buttons, the PPU's position and
picture, the APU's output, or the cartridge's image (10_state.md R29, R30; 20_memory.md R66, R78). -/
def Obligations.InstructionsReachOnlyTheirOwn : Prop :=
  ∀ (i : Instr) (s t : State), exec i s = .next t →
    t.cpu.nmiPending = s.cpu.nmiPending ∧ t.cpu.irqPending = s.cpu.irqPending ∧ s.sameOutside t

/-- An instruction that neither stores nor pushes leaves every byte that reads without side effect as it was (20_memory.md
R83, R84). -/
def Obligations.ReadingFormsLeaveMemory : Prop :=
  ∀ (i : Instr) (s t : State), i.storesTo? = none → i.pushesTo s.cpu.sp = [] → exec i s = .next t →
    ∀ a, quietAddr a → peek a t = peek a s

/-- A store or a read-modify-write changes, of the bytes that read without side effect, the one at its effective address
alone; from 0x8000 on nothing changes but through a bank switch, and a store below 0x4100 switches no bank. A push
changes its own slots of the stack alone (20_memory.md R62, R66, R67, R82; 41_transfer_stack.md R170). -/
def Obligations.StoringFormsLeaveOtherBytes : Prop :=
  ∀ (i : Instr) (s t : State), exec i s = .next t →
    (∀ m, i.storesTo? = some m →
      (∀ a, quietAddr a → a.toNat < 0x8000 → ¬sameByte a (m.ea s) → peek a t = peek a s)
        ∧ (∀ a, 0x8000 ≤ a.toNat → t.cart.prgSlot a.toNat = s.cart.prgSlot a.toNat → peek a t = peek a s)
        ∧ ((m.ea s).toNat < 0x4100 → ∀ a, 0x8000 ≤ a.toNat → peek a t = peek a s))
    ∧ (i.pushesTo s.cpu.sp ≠ [] → ∀ a, quietAddr a →
      (∀ slot ∈ i.pushesTo s.cpu.sp, ¬sameByte a (0x100 + zext16 slot)) → peek a t = peek a s)

/-! ## Interrupts -/

/-- NMI and IRQ entry: `pc` high byte, low byte and the status with B clear and U set in the three slots from `sp` down,
`sp` down by three, I set, `pc` from the vector, the taken latch cleared, seven cycles; `a`, `x`, `y`, every other flag,
the other latch and every other byte stay (60_exceptions.md R303-R305). -/
def Obligations.InterruptEntrySavesPcAndStatus : Prop :=
  ∀ s : State,
    let entry := fun (vector : Word) (s : State) =>
      { (((s.setRam (0x100 + s.cpu.sp.toNat) (hi8 s.cpu.pc)).setRam (0x100 + (s.cpu.sp - 1).toNat) (lo8 s.cpu.pc)).setRam
          (0x100 + (s.cpu.sp - 2).toNat) (s.cpu.p &&& 0xCF ||| 0x20)) with
        cpu := { s.cpu with
          sp := s.cpu.sp - 3
          p := s.cpu.p ||| 0x04
          pc := mkWord (peek (vector + 1) s) (peek vector s) }
        loop := { s.loop with stepCycles := 7 } }
    (s.cpu.nmiPending = true →
      cpuStep s = .next (entry 0xFFFA { s with cpu := { s.cpu with nmiPending := false } }))
    ∧ (s.cpu.nmiPending = false → s.cpu.irqPending = true → s.cpu.flag .I = false →
      cpuStep s = .next (entry 0xFFFE { s with cpu := { s.cpu with irqPending := false } }))

/-- A CPU step looks at the latches first: with an NMI pending the entry runs whatever the IRQ latch and I are, and the
IRQ latch stays; an IRQ with I set waits in its latch while the instruction at `pc` runs; with I clear it is taken
(60_exceptions.md R300, R302, R313; that it waits is D7). -/
def Obligations.LatchesAreCheckedFirst : Prop :=
  ∀ s t : State, cpuStep s = .next t →
    (s.cpu.nmiPending = true → t.cpu.nmiPending = false ∧ t.cpu.irqPending = s.cpu.irqPending ∧ t.cpu.flag .I = true)
    ∧ (s.cpu.nmiPending = false → s.cpu.irqPending = true → s.cpu.flag .I = true → t.cpu.irqPending = true
      ∧ exec (fetchInstr s).1 (fetchInstr s).2 = .next t)
    ∧ (s.cpu.nmiPending = false → s.cpu.irqPending = true → s.cpu.flag .I = false → t.cpu.irqPending = false
      ∧ t.cpu.flag .I = true)
    ∧ (s.cpu.nmiPending = false → s.cpu.irqPending = false → exec (fetchInstr s).1 (fetchInstr s).2 = .next t
      ∧ t.cpu.nmiPending = false ∧ t.cpu.irqPending = false)

/-- RTI undoes an interrupt entry, and RTS undoes JSR: the registers are as before, `pc` included (with U set and B clear,
as in every reachable state), whatever `sp` is (60_exceptions.md R304, 44_control_flow.md R222, R223, R225). -/
def Obligations.ReturnsUndoEntries : Prop :=
  ∀ s : State,
    (s.cpu.statusOk → ∀ vector : Word, ∃ t, exec .rti (interruptEntry vector s) = .next t ∧ t.cpu = s.cpu)
    ∧ ∀ w : Word, ∃ u t, exec (.jsr w) s = .next u ∧ exec .rts u = .next t ∧ t.cpu = s.cpu

/-! ## Whole-machine invariants -/

/-- A step keeps every good state: U set and B clear, the PPU on its grid, at most eight sprites, the unused bits of `v`,
`t` and `status` clear, the noise register never 0, the periods in 11 bits, the rings and counters in bounds, every
memory canonical and inside its size, the mapper the one of its number. -/
def Obligations.GoodStatesAreKept : Prop :=
  ∀ s t : State, s.good → step s = .next t → t.good

/-- The machine after reset is a good state, at the values 10_state.md R39 gives: `sp` 0xFD, I and U set, `pc` from the reset
vector. The model's choices: `a`, `x`, `y` are 0 (D2, entry 3), no interrupt is pending (D3, entry 4), RAM, PRG RAM, OAM,
nametables and palettes read as zero everywhere (POWER_ON_RAM, D29, entry 5), and the cartridge is blank, its CHR RAM and its
PRG ROM zero too (entry 6). -/
def Obligations.ResetStateIsGood : Prop :=
  let r := State.reset
  r.good ∧ r.cpu.sp = 0xFD ∧ r.cpu.p = 0x24 ∧ r.cpu.pc = mkWord (peek 0xFFFD r) (peek 0xFFFC r)
    ∧ (r.cpu.a = 0 ∧ r.cpu.x = 0 ∧ r.cpu.y = 0)
    ∧ (r.cpu.nmiPending = false ∧ r.cpu.irqPending = false ∧ r.loop.nmiDelayArmed = false)
    ∧ (∀ m ∈ [r.bus.ram, r.cart.prgRam, r.ppu.oam, r.ppu.nametableRam, r.ppu.paletteRam, r.cart.chr, r.cart.prgRom],
      m = [] ∧ ∀ k, m.read k = 0)

/-- Resetting: `sp` 0xFD, `p` 0x24, `pc` from 0xFFFC in the bank mapped at power-on; and a reset right after a load changes
nothing (70_reset_and_hazards.md R700, R704). The model's choices: `a`, `x`, `y` are 0 (D2, entry 3), both latches are clear
(D3, entry 4), the memories are kept (D29, entry 5), RESET_CYCLES is 0 and `frame_count` is kept (D4, entry 8). -/
def Obligations.ResetReloadsTheVector : Prop :=
  (∀ s : State,
    let t := resetMachine Config.defaults s
    t.cpu = { a := 0, x := 0, y := 0, sp := 0xFD, p := 0x24, nmiPending := false, irqPending := false
              pc := mkWord (s.cart.mapperReset.cpuRead 0xFFFD) (s.cart.mapperReset.cpuRead 0xFFFC) }
      ∧ t.bus.ram = s.bus.ram ∧ t.cart = s.cart.mapperReset ∧ t.ppu.oam = s.ppu.oam
      ∧ t.ppu.nametableRam = s.ppu.nametableRam ∧ t.ppu.paletteRam = s.ppu.paletteRam
      ∧ t.loop.frameCount = s.loop.frameCount ∧ t.loop.cycleCount = 0)
    ∧ ∀ (image : List Byte) (c : Console) (s : State),
      loadRom Config.defaults image c = (.loaded s, none) → resetMachine Config.defaults s = s

/-- No step changes the ROM, the CHR ROM, the sizes, the header or the mapper's number; a CPU write from 0x8000 on
changes the mapper's registers alone, with the byte the CPU wrote (20_memory.md R66). -/
def Obligations.RomNeverChanges : Prop :=
  (∀ s t : State, step s = .next t → s.cart.sameImage t.cart)
    ∧ ∀ (a : Word) (v : Byte) (s : State), 0x8000 ≤ a.toNat →
      busWrite a v s = { s with cart := { s.cart with mapper := s.cart.mapper.writeHigh s.cart.hasChrRam a.toNat v } }

/-! ## The bus -/

/-- The 2048 bytes of RAM appear four times below 0x2000: a read there gives the last byte written to any mirror, and
neither a read nor a write does anything else (20_memory.md R62). -/
def Obligations.RamIsMirrored : Prop :=
  ∀ (a b : Word) (v : Byte) (s : State), a.toNat ≤ 0x1FFF → b.toNat ≤ 0x1FFF →
    busRead b s = (peek b s, s)
      ∧ (a.toNat % 0x800 = b.toNat % 0x800 → peek a s = peek b s)
      ∧ peek b (busWrite a v s) = (if a.toNat % 0x800 = b.toNat % 0x800 then v else peek b s)
      ∧ busWrite a v s = { s with bus := { s.bus with ram := (busWrite a v s).bus.ram } }

/-- The PPU's eight registers repeat every eight bytes up to 0x3FFF; the write-only ones and the addresses with no
readable device read as 0 and change nothing; a write of PPUSTATUS, of 0x4018-0x401F, or of 0x4020-0x5FFF on every mapper
but 79, where no device takes it, changes nothing (20_memory.md R63, R65; 63_cartridge_mappers.md R556; the zeros of the
write-only registers are D14, entry 23). -/
def Obligations.DeviceAddresses : Prop :=
  ∀ (a b : Word) (v : Byte) (s : State),
    (0x2000 ≤ a.toNat → a.toNat ≤ 0x3FFF → 0x2000 ≤ b.toNat → b.toNat ≤ 0x3FFF → a.toNat % 8 = b.toNat % 8 →
      busRead a s = busRead b s ∧ busWrite a v s = busWrite b v s)
    ∧ (0x2000 ≤ a.toNat → a.toNat ≤ 0x3FFF → (a.toNat % 8 = 0 ∨ a.toNat % 8 = 1 ∨ a.toNat % 8 = 3 ∨ a.toNat % 8 = 5
        ∨ a.toNat % 8 = 6) → busRead a s = (0, s))
    ∧ (0x4000 ≤ a.toNat → a.toNat ≤ 0x4014 → busRead a s = (0, s))
    ∧ (0x4018 ≤ a.toNat → a.toNat ≤ 0x5FFF → busRead a s = (0, s))
    ∧ (0x4018 ≤ a.toNat → a.toNat ≤ 0x401F → busWrite a v s = s)
    ∧ (0x4020 ≤ a.toNat → a.toNat ≤ 0x5FFF → s.cart.mapper.number ≠ 79 → busWrite a v s = s)
    ∧ (0x2000 ≤ a.toNat → a.toNat ≤ 0x3FFF → a.toNat % 8 = 2 → busWrite a v s = s)

/-- A store to 0x4014 copies the 256 bytes of a page that reads without side effect into OAM from OAMADDR on, wrapping,
and leaves 513 cycles pending; OAMADDR and everything else stay. From any page, OAMADDR stays and the cycles are 513
(20_memory.md R72, R73). -/
def Obligations.OamDmaCopiesAPage : Prop :=
  ∀ (page : Byte) (s : State),
    let t := busWrite 0x4014 page s
    t.bus.pendingDma = 513 ∧ t.ppu.oamAddr = s.ppu.oamAddr ∧ t.cpu = s.cpu
      ∧ ((page.toNat < 0x20 ∨ 0x41 ≤ page.toNat) →
        t = { s with ppu := { s.ppu with oam := t.ppu.oam }, bus := { s.bus with pendingDma := 513 } }
          ∧ ∀ i, i < 256 → t.ppu.oam.read ((s.ppu.oamAddr.toNat + i) % 256) = peek (mkWord page (BitVec.ofNat 8 i)) s)

/-- After the strobe goes high and low, eight reads of a controller port give A, B, Select, Start, Up, Down, Left, Right,
each as 0x40 or 0x41, and every read after them 0x41; while the strobe is high every read gives A (20_memory.md R74-R76;
the composition of the byte is D21). -/
def Obligations.ControllerReadsEightButtons : Prop :=
  ∀ (s : State) (k : Nat),
    let reads := fun (port : Word) (s : State) => Nat.rec (motive := fun _ => State) s (fun _ t => (busRead port t).2) k
    let button := fun (buttons : U32) =>
      if k < 8 ∧ buttons.getLsbD ([0, 1, 7, 6, 8, 9, 10, 11].getD k 0) = false then 0x40#8 else 0x41#8
    let strobed := busWrite 0x4016 0 (busWrite 0x4016 1 s)
    let high := busWrite 0x4016 1 s
    peek 0x4016 (reads 0x4016 strobed) = button s.bus.port0.state
      ∧ peek 0x4017 (reads 0x4017 strobed) = button s.bus.port1.state
      ∧ peek 0x4016 (reads 0x4016 high) = (if s.bus.port0.state.getLsbD 0 then 0x41 else 0x40)
      ∧ peek 0x4017 (reads 0x4017 high) = (if s.bus.port1.state.getLsbD 0 then 0x41 else 0x40)

/-! ## The frame loop -/

/-- One iteration charges the CPU step's cycles and a DMA's to the counters: with `n` their sum, `cycle_count` and the
APU's clock advance by `n`, the PPU runs `3 n` dots, the pending DMA is cleared, and the buttons stay until the frame ends
(60_exceptions.md R330, R331; 20_memory.md R73, R78; where the loop adds the DMA is D10). -/
def Obligations.IterationRunsThreeDotsPerCycle : Prop :=
  ∀ (p : Config.Params) (s u : State) (done : Bool), loopIteration p s = .next (u, done) →
    ∃ t, cpuStepWith p { s with loop := { s.loop with nmiDelayArmed := false } } = .next t
      ∧ (let n := t.loop.stepCycles + t.bus.pendingDma.toNat
         u.loop.cycleCount = s.loop.cycleCount + BitVec.ofNat 64 n
          ∧ u.apu.cycle = s.apu.cycle + BitVec.ofNat 64 n
          ∧ u.bus.pendingDma = 0
          ∧ (u.ppu.scanline, u.ppu.cycle, u.ppu.frame)
            = ((t.video.dots (3 * n)).ppu.scanline, (t.video.dots (3 * n)).ppu.cycle, (t.video.dots (3 * n)).ppu.frame)
          ∧ u.bus.port0.state = s.bus.port0.state ∧ u.bus.port1.state = s.bus.port1.state
          ∧ u.loop.frameCount = s.loop.frameCount)

/-- `run_frame` ends from every state whose PPU is on its grid, whatever the program does: the frame is counted, and the
inputs given to it become the buttons the next frame reads; called with one input, the second port's become 0
(60_exceptions.md R330, R335, R336; 20_memory.md R78). -/
def Obligations.FrameAlwaysEnds : Prop :=
  ∀ (p : Config.Params) (input1 input2 : U32) (s : State), s.ppu.onGrid →
    ∃ t, runFrame p input1 input2 s = some t ∧ t.ppu.onGrid ∧ t.loop.frameCount = s.loop.frameCount + 1
      ∧ t.bus.port0.state = input1 ∧ t.bus.port1.state = input2
      ∧ ∃ u, runFrameOne p input1 s = some u ∧ u.bus.port0.state = input1 ∧ u.bus.port1.state = 0

/-- The hand-over of interrupts in one iteration: an NMI that was armed before is latched after this CPU step (R333, D11); a
dot that reports an immediate NMI latches it and one that reports a delayed NMI arms it, whatever the later dots do (R332,
R333, R446), so an NMI delayed by the CPU step itself is armed in the same iteration; a mapper's IRQ is latched and cleared at
the mapper (R334, D8); the APU's is latched only when it is routed (R312, D9); and an IRQ latch that is set is not cleared by
the loop (60_exceptions.md R301; the decisions are entries 18, 22, 24, 26). -/
def Obligations.LoopHandsOverInterrupts : Prop :=
  ∀ (p : Config.Params) (s u : State) (done : Bool), loopIteration p s = .next (u, done) →
    (s.loop.nmiDelayArmed = true → u.cpu.nmiPending = true)
      ∧ u.cart.irqPending = false
      ∧ ∃ t, cpuStepWith p { s with loop := { s.loop with nmiDelayArmed := false } } = .next t
        ∧ (t.cpu.irqPending = true → u.cpu.irqPending = true)
        ∧ (t.cart.irqPending = true → u.cpu.irqPending = true)
        ∧ (u.cpu = { t.cpu with nmiPending := u.cpu.nmiPending, irqPending := u.cpu.irqPending })
        ∧ (p.apuIrqRouted = false → (∀ m, s.cart.mapper ≠ .mmc3 m) → u.cpu.irqPending = t.cpu.irqPending)
        ∧ (p.apuIrqRouted = true → u.apu.frameIrq = true → u.cpu.irqPending = true)
        ∧ (t.ppu.nmiTriggered = false → t.ppu.nmiLatched = false → t.ppu.nmiTriggeredDelayed = true →
          u.loop.nmiDelayArmed = true)
        ∧ ∀ k, k < 3 * (t.loop.stepCycles + t.bus.pendingDma.toNat) →
          let start : State := { t with
            cpu := t.cpu.triggerNmi s.loop.nmiDelayArmed
            bus := { t.bus with pendingDma := 0 } }
          let q := (runDots k (start, false)).1.video.dot.ppu
          (q.nmiTriggered = true → u.cpu.nmiPending = true)
            ∧ (q.nmiTriggered = false → q.nmiTriggeredDelayed = true → u.loop.nmiDelayArmed = true)

/-! ## The PPU -/

/-- Two writes to PPUADDR set `v` and `t` to the 14-bit address, two writes to PPUSCROLL set the scroll fields of `t` and
fine X, a PPUCTRL write sets the nametable bits, and schedules a delayed NMI exactly when it turns NMI output on while VBlank
has occurred; a PPUSTATUS read starts a pair over (61_ppu.md R410, R412, R415, R416, R444). -/
def Obligations.AddressAndScrollWrites : Prop :=
  ∀ (hi lo : Byte) (v : Video), v.ppu.w = false →
    let addressed := (v.regWrite 6 hi).regWrite 6 lo
    let scrolled := (v.regWrite 5 hi).regWrite 5 lo
    let controlled := v.regWrite 0 hi
    let address := BitVec.ofNat 16 (hi.toNat % 64 * 256 + lo.toNat)
    addressed.ppu = { v.ppu with v := address, t := address }
      ∧ scrolled = { v with ppu := { v.ppu with
          t := BitVec.ofNat 16 (lo.toNat % 8 * 4096 + v.ppu.t.toNat / 1024 % 4 * 1024 + lo.toNat / 8 * 32 + hi.toNat / 8)
          fineX := BitVec.ofNat 3 hi.toNat } }
      ∧ (controlled.ppu.ctrl = hi ∧ controlled.ppu.nmiOutput = hi.getLsbD 7 ∧ controlled.ppu.v = v.ppu.v
        ∧ controlled.ppu.t = v.ppu.t &&& 0x73FF ||| BitVec.ofNat 16 (hi.toNat % 4 * 1024)
        ∧ controlled.ppu.nmiTriggeredDelayed = (v.ppu.nmiTriggeredDelayed
          || (!v.ppu.nmiOutput && hi.getLsbD 7 && v.ppu.nmiOccurred)))
      ∧ ∀ w : Bool, ((v.regRead 2).2.ppu.w = false
        ∧ (Video.regRead { v with ppu := { v.ppu with w := w } } 2).2 = (v.regRead 2).2)

/-- PPUDATA: a write stores at `v`, in the nametables, the palette and CHR RAM, and leaves CHR ROM; a read below the palette
returns the buffer and refills it, a read of the palette returns the byte at once; each moves `v` by 1 or 32 in 15 bits. The
palette's four backdrop mirrors are one byte each on read and on write (61_ppu.md R405, R407, R417, R418; the refill under the
palette is D37, entry 24; the offset of a CHR RAM store is entry 21). -/
def Obligations.PpuDataIsBuffered : Prop :=
  ∀ (b : Byte) (v : Video),
    let addr := v.ppu.v &&& 0x3FFF
    let next := BitVec.ofNat 16 ((v.ppu.v.toNat + if v.ppu.ctrl.getLsbD 2 then 32 else 1) % 0x8000)
    (v.regRead 7).2.ppu.v = next ∧ (v.regWrite 7 b).ppu.v = next
      ∧ (addr.toNat < 0x3F00 → (v.regRead 7).1 = v.ppu.dataBuffer ∧ (v.regRead 7).2.ppu.dataBuffer = (v.busRead addr).1)
      ∧ (0x3F00 ≤ addr.toNat → (v.regRead 7).1 = (v.busRead addr).1
        ∧ (v.regRead 7).2.ppu.dataBuffer = (v.busRead (addr - 0x1000)).1)
      ∧ (0x2000 ≤ addr.toNat → ((v.regWrite 7 b).busRead addr).1 = b)
      ∧ (v.cart.hasChrRam = false → (v.regWrite 7 b).cart.chr = v.cart.chr)
      ∧ (v.cart.hasChrRam = true → ((v.regWrite 7 b).busRead addr).1 = b)
      ∧ ∀ a c : Word, 0x3F00 ≤ a.toNat → a.toNat < 0x4000 → 0x3F00 ≤ c.toNat → c.toNat < 0x4000 →
        ((v.busWrite a b).busRead c).1 =
          if c.toNat % 32 = a.toNat % 32 ∨ (a.toNat % 4 = 0 ∧ c.toNat % 16 = a.toNat % 16) then b else (v.busRead c).1

/-- A PPUSTATUS read returns the flags over the buffer's low bits and clears VBlank and `w`. At (241, 0) it keeps the flag
from being set and the NMI from being raised at the next dot; at (241, 1) and (241, 2) it returns the flag and cancels a
latched NMI; elsewhere a latched NMI stays (61_ppu.md R412, R440, R445; that it clears `nmi_occurred` is D31). -/
def Obligations.StatusReadsSuppress : Prop :=
  ∀ v : Video,
    let r := v.regRead 2
    r.1 = v.ppu.status &&& 0xE0 ||| v.ppu.dataBuffer &&& 0x1F
      ∧ r.2.ppu.status = v.ppu.status &&& 0x7F ∧ r.2.ppu.w = false ∧ r.2.ppu.nmiOccurred = false ∧ r.2.cart = v.cart
      ∧ (v.ppu.scanline = 241 → v.ppu.cycle = 0 → v.ppu.nmiLatched = false →
        r.2.dot.ppu.cycle = 1 ∧ r.2.dot.ppu.status.getLsbD 7 = false ∧ r.2.dot.ppu.nmiOccurred = false
          ∧ r.2.dot.ppu.nmiLatched = false ∧ r.2.dot.ppu.frameComplete = true)
      ∧ (v.ppu.scanline = 241 → v.ppu.cycle = 1 ∨ v.ppu.cycle = 2 →
        r.2.ppu.nmiLatched = false ∧ r.2.ppu.nmiDelay = 0 ∧ r.2.ppu.suppressNmi = true)
      ∧ (¬(v.ppu.scanline = 241 ∧ v.ppu.cycle ≤ 2) →
        r.2.ppu.nmiLatched = v.ppu.nmiLatched ∧ r.2.ppu.nmiDelay = v.ppu.nmiDelay
          ∧ r.2.ppu.suppressNmi = v.ppu.suppressNmi ∧ r.2.ppu.vblSuppress = v.ppu.vblSuppress)

/-- From (241, 0), with nothing suppressed: the next dot sets VBlank and `frame_complete`; with NMI output on, the NMI is
latched there and is ready exactly at (241, 16) and not before; with it off, never in those dots (61_ppu.md R440-R442;
the dot of arrival is D30). -/
def Obligations.VblankNmiAfterFifteenDots : Prop :=
  ∀ v : Video, v.ppu.scanline = 241 → v.ppu.cycle = 0 → v.ppu.vblSuppress = false → v.ppu.suppressNmi = false →
    v.ppu.nmiLatched = false → v.ppu.nmiTriggered = false →
    ((v.dots 1).ppu.status.getLsbD 7 = true ∧ (v.dots 1).ppu.nmiOccurred = true ∧ (v.dots 1).ppu.frameComplete = true)
      ∧ (∀ k, k ≤ 16 → (v.dots k).ppu.scanline = 241 ∧ (v.dots k).ppu.cycle = k
        ∧ (v.dots k).ppu.nmiTriggered = (v.ppu.nmiOutput && decide (k = 16)))

/-- A frame is 262 lines of 341 dots: from (0, 0) the position first comes back to (0, 0) after 89342 dots, or after 89341
when the frame is odd and rendering is on; then the frame is counted, its parity changes, and `mask_prev` is the mask again,
as the premise asks (61_ppu.md R403, R420, R448; `mask_prev` is D32, entry 24). -/
def Obligations.FramesHaveTheirLength : Prop :=
  ∀ v : Video, v.ppu.scanline = 0 → v.ppu.cycle = 0 → v.ppu.maskPrev = v.ppu.mask →
    let n := if v.ppu.oddFrame = true ∧ v.ppu.mask &&& 0x18 ≠ 0 then 89341 else 89342
    ((v.dots n).ppu.scanline = 0 ∧ (v.dots n).ppu.cycle = 0 ∧ (v.dots n).ppu.frame = v.ppu.frame + 1
        ∧ (v.dots n).ppu.oddFrame = !v.ppu.oddFrame ∧ (v.dots n).ppu.maskPrev = (v.dots n).ppu.mask)
      ∧ ∀ k, k < n → (v.dots k).ppu.scanline = k / 341 ∧ (v.dots k).ppu.cycle = k % 341
        ∧ (v.dots k).ppu.frame = v.ppu.frame ∧ (v.dots k).ppu.oddFrame = v.ppu.oddFrame

/-- One dot stores nothing: OAM, the nametables, the palettes, the CHR, the PRG RAM, the registers the CPU wrote and the
buffer stay; with rendering off it changes nothing in the PPU but the position, the VBlank and NMI flags and, on a visible dot,
one pixel, the backdrop's colour (61_ppu.md R402, R420, R421; the backdrop with rendering off is D36, entry 24). -/
def Obligations.DotsStoreNothing : Prop :=
  ∀ v : Video,
    let p := v.ppu
    let q := v.dot.ppu
    (q.oam = p.oam ∧ q.nametableRam = p.nametableRam ∧ q.paletteRam = p.paletteRam ∧ q.ctrl = p.ctrl ∧ q.mask = p.mask
        ∧ q.oamAddr = p.oamAddr ∧ q.t = p.t ∧ q.fineX = p.fineX ∧ q.w = p.w ∧ q.dataBuffer = p.dataBuffer
        ∧ v.dot.cart.chr = v.cart.chr ∧ v.dot.cart.prgRam = v.cart.prgRam ∧ v.cart.sameImage v.dot.cart)
      ∧ (p.mask &&& 0x18 = 0 →
        q = { p with
            scanline := q.scanline, cycle := q.cycle, frame := q.frame, oddFrame := q.oddFrame, maskPrev := q.maskPrev
            status := q.status, nmiOccurred := q.nmiOccurred, nmiLatched := q.nmiLatched, nmiDelay := q.nmiDelay
            nmiTriggered := q.nmiTriggered, vblSuppress := q.vblSuppress, suppressNmi := q.suppressNmi
            frameComplete := q.frameComplete, framebuffer := q.framebuffer }
          ∧ (¬(p.scanline ≤ 239 ∧ 1 ≤ p.cycle ∧ p.cycle ≤ 256) → q.framebuffer = p.framebuffer)
          ∧ (p.scanline ≤ 239 → 1 ≤ p.cycle → p.cycle ≤ 256 →
            pixelGet q.framebuffer p.scanline (p.cycle - 1) = some ((p.paletteRam.read 0).truncate 6)
              ∧ ∀ py px, (py, px) ≠ (p.scanline, p.cycle - 1) → pixelGet q.framebuffer py px = pixelGet p.framebuffer py px))

/-- Sprite evaluation takes the first eight sprites in range, in OAM order, with their four bytes; a ninth sets the
overflow flag; sprite 0, if in range, is in slot 0; none is prepared on the pre-render line (61_ppu.md R426, D34). -/
def Obligations.SpritesOfALine : Prop :=
  ∀ p : Ppu,
    let q := p.evaluateSprites
    let sprites := if p.scanline = 261 then [] else p.spritesInRange
    q.spriteCount = min 8 sprites.length
      ∧ q.status = (if 8 < sprites.length then p.status ||| 0x20 else p.status)
      ∧ q.spriteZeroIndex = (if 0 ∈ sprites then some 0 else none)
      ∧ q.spriteZeroHitPossible = decide (0 ∈ sprites)
      ∧ ∀ i, i < q.spriteCount →
        let n := sprites.getD i 0
        (q.slot i).y = p.oam.read (4 * n) ∧ (q.slot i).tile = p.oam.read (4 * n + 1)
          ∧ (q.slot i).attr = p.oam.read (4 * n + 2) ∧ (q.slot i).x = p.oam.read (4 * n + 3)

/-- A visible dot draws one pixel and no other: the sprite's colour where the background is transparent or the sprite is
in front, the background's where the sprite is transparent or behind, the backdrop where both are transparent; sprite 0
hit is set when both are opaque and the sprite is OAM sprite 0, and no other status bit moves. A dot of the visible grid with
rendering on does just that, after its shifts and its fetch, at column `cycle - 1` of its line (61_ppu.md R422, R460-R463;
that the pixel is taken after the dot's shift and fetch is D33, the left eight columns are D35, both entry 24). -/
def Obligations.PixelsByPriority : Prop :=
  (∀ v : Video, v.ppu.scanline ≤ 239 → 1 ≤ v.ppu.cycle → v.ppu.cycle ≤ 256 → v.ppu.mask &&& 0x18 ≠ 0 →
    let fetched := Video.fetchDot { v with ppu := v.ppu.shiftDot v.ppu.cycle } v.ppu.cycle
    let drawn := fetched.ppu.outputPixel (v.ppu.cycle - 1) v.ppu.scanline
    v.dot.ppu.framebuffer = drawn.framebuffer ∧ v.dot.ppu.status = drawn.status)
  ∧ ∀ (p : Ppu) (px py : Nat),
    let bg := p.backgroundPixel px
    let sp := p.spritePixel px
    let q := p.outputPixel px py
    let colour := fun palette value => some ((p.paletteRam.read (palIndex (0x3F00 + palette * 4 + value))).truncate 6)
    let drawn := pixelGet q.framebuffer py px
    (bg.value = 0 → sp.value = 0 → drawn = colour 0 0)
      ∧ (sp.value ≠ 0 → (bg.value = 0 ∨ sp.front = true) → drawn = colour sp.palette sp.value)
      ∧ (bg.value ≠ 0 → (sp.value = 0 ∨ sp.front = false) → drawn = colour bg.palette bg.value)
      ∧ (∀ px' py', (px', py') ≠ (px, py) → pixelGet q.framebuffer py' px' = pixelGet p.framebuffer py' px')
      ∧ q.status = (if bg.value ≠ 0 ∧ sp.value ≠ 0 ∧ p.spriteZeroHitPossible = true ∧ sp.spriteZero = true
          ∧ p.mask.getLsbD 3 = true ∧ p.mask.getLsbD 4 = true then p.status ||| 0x40 else p.status)
      ∧ (p.mask.getLsbD 3 = false ∨ (px < 8 ∧ p.mask.getLsbD 1 = false) → bg.value = 0)
      ∧ (p.mask.getLsbD 4 = false ∨ (px < 8 ∧ p.mask.getLsbD 2 = false) → sp.value = 0)

/-! ## The APU -/

/-- A read of 0x4015 returns which lengths are not 0 and the frame IRQ flag, clears that flag and nothing else; a write
enables channels, zeroes the lengths of the disabled ones and leaves the flag (62_apu.md R517, R518). -/
def Obligations.ApuStatusAndEnable : Prop :=
  ∀ (v : Byte) (s : State),
    let r := busRead 0x4015 s
    let b := (busWrite 0x4015 v s).apu
    let a := s.apu
    (r.2 = { s with apu := { a with frameIrq := false } }
        ∧ r.1.toNat = (if a.pulse0.length = 0 then 0 else 1) + (if a.pulse1.length = 0 then 0 else 2)
          + (if a.tri.length = 0 then 0 else 4) + (if a.noise.length = 0 then 0 else 8) + (if a.frameIrq then 64 else 0))
      ∧ (busWrite 0x4015 v s = { s with apu := b }
        ∧ b = { a with
            pulse0 := { a.pulse0 with enabled := v.getLsbD 0, length := b.pulse0.length }
            pulse1 := { a.pulse1 with enabled := v.getLsbD 1, length := b.pulse1.length }
            tri := { a.tri with enabled := v.getLsbD 2, length := b.tri.length }
            noise := { a.noise with enabled := v.getLsbD 3, length := b.noise.length }
            dmc := { a.dmc with enabled := v.getLsbD 4 } }
        ∧ b.pulse0.length = (if v.getLsbD 0 then a.pulse0.length else 0)
        ∧ b.pulse1.length = (if v.getLsbD 1 then a.pulse1.length else 0)
        ∧ b.tri.length = (if v.getLsbD 2 then a.tri.length else 0)
        ∧ b.noise.length = (if v.getLsbD 3 then a.noise.length else 0))

/-- Writing a pulse channel's two timer registers sets its eleven-bit period, restarts its sequencer and its envelope, and
loads its length from the table if it is enabled; the other channels stay (62_apu.md R512). -/
def Obligations.PulseTimerTakesTwoWrites : Prop :=
  ∀ (lo hi : Byte) (a : Apu),
    let written := fun p : Pulse => { p with
      period := BitVec.ofNat 16 (hi.toNat % 8 * 256 + lo.toNat)
      length := if p.enabled then lengthTable (hi.toNat / 8) else p.length
      seq := 0
      env := { p.env with start := true } }
    (a.write 0x4002 lo).write 0x4003 hi = { a with pulse0 := written a.pulse0 }
      ∧ (a.write 0x4006 lo).write 0x4007 hi = { a with pulse1 := written a.pulse1 }

/-- The frame sequencer from the start of its sequence: in 4-step mode it wraps after 4 times 7457 cycles and sets the
frame IRQ exactly then, unless inhibited; in 5-step mode it wraps after 5 times 7457 and never sets it; in both the
lengths were clocked twice (62_apu.md R503, R525; the integer period is D26, the idle step 4 is D40). -/
def Obligations.FrameSequencerWraps : Prop :=
  ∀ (alpha : F32) (a : Apu), a.fcCycles = 0 → a.fcStep = 0 →
    let n := if a.fiveStep then 37285 else 29828
    let b := runApu alpha n a
    (b.fcCycles = 0 ∧ b.fcStep = 0 ∧ b.frameIrq = (a.frameIrq || (!a.fiveStep && !a.irqInhibit)))
      ∧ (∀ k, k < n → (runApu alpha k a).frameIrq = a.frameIrq)
      ∧ b.tri.length = clockLength a.tri.control (clockLength a.tri.control a.tri.length)
      ∧ b.pulse0.length = clockLength a.pulse0.env.halt (clockLength a.pulse0.env.halt a.pulse0.length)
      ∧ b.pulse1.length = clockLength a.pulse1.env.halt (clockLength a.pulse1.env.halt a.pulse1.length)
      ∧ b.noise.length = clockLength a.noise.env.halt (clockLength a.noise.env.halt a.noise.length)

/-- The rate conversion does not drift: over any `n` cycles, as long as the ring has room, it puts out exactly
floor((44100 n + accumulator) / 1789773) samples, keeps the remainder, and never touches a sample already there; a full
ring drops what is new (62_apu.md R530, R532; that the newest are dropped is D42). -/
def Obligations.SampleRateDoesNotDrift : Prop :=
  ∀ (alpha : F32) (n : Nat) (a : Apu), a.outAcc.toNat < 1789773 →
    let b := runApu alpha n a
    let made := (44100 * n + a.outAcc.toNat) / 1789773
    b.outAcc.toNat = (44100 * n + a.outAcc.toNat) % 1789773
      ∧ b.cycle = a.cycle + BitVec.ofNat 64 n
      ∧ (a.ring.length ≤ 8192 →
        b.ring.length = min 8192 (a.ring.length + made) ∧ b.ring.take a.ring.length = a.ring)

/-! ## The cartridge -/

/-- Bank numbers wrap: in a ROM of at least 32 KiB every CPU read from 0x8000 on is a byte of the ROM at an offset equal to
the address modulo 8 KiB, and every PPU read of CHR is a byte of the CHR at an offset equal to the address modulo 1 KiB,
whatever the registers hold; mapper 0 shows a ROM of any size, one of 16 KiB twice (63_cartridge_mappers.md R557, R561). -/
def Obligations.BanksWrapIntoTheRom : Prop :=
  ∀ (c : Cartridge) (a : Nat), c.sizesOk →
    (32768 ≤ c.prgSize → 0x8000 ≤ a → a < 0x10000 →
      ∃ k, k < c.prgSize ∧ k % 8192 = a % 8192 ∧ c.cpuRead a = c.prgRom.read k)
    ∧ (c.mapper = .nrom → 0x8000 ≤ a → a < 0x10000 → c.cpuRead a = c.prgRom.read ((a - 0x8000) % c.prgSize))
    ∧ (a < 0x2000 →
      ∃ k, k < c.chrSize ∧ k % 1024 = a % 1024 ∧ (c.chrRead a).1 = c.chr.read k)

/-- UxROM: any write from 0x8000 on is the bank of the lower window, the upper window is the last bank, and power-on
selects bank 0 (63_cartridge_mappers.md R570). -/
def Obligations.UxromBanks : Prop :=
  (∀ n, mapperOf 2 n = some (.uxrom 0))
    ∧ ∀ (c : Cartridge) (bank v : Byte), c.sizesOk → c.mapper = .uxrom bank →
      (∀ a, 0x8000 ≤ a → a < 0x10000 → c.cpuWrite a v = { c with mapper := .uxrom v })
        ∧ (∀ a, 0x8000 ≤ a → a < 0xC000 →
          c.cpuRead a = c.prgRom.read (bank.toNat % (c.prgSize / 16384) * 16384 + (a - 0x8000)))
        ∧ (∀ a, 0xC000 ≤ a → a < 0x10000 → c.cpuRead a = c.prgRom.read (c.prgSize - 16384 + (a - 0xC000)))

/-- MMC1: from an empty shift register, five writes with bit 7 clear load their five low bits, the first lowest, into the
register that the fifth address selects, and leave it empty again; a write with bit 7 set empties it and sets the two bits
of `control` (63_cartridge_mappers.md R562). -/
def Obligations.Mmc1LoadsInFiveWrites : Prop :=
  ∀ (m : Mmc1) (a : Nat) (v : Nat → Byte), m.shift = 0 → m.count = 0 → (∀ k, k < 5 → (v k).getLsbD 7 = false) →
    let value := BitVec.ofNat 8 ((v 0).toNat % 2 + 2 * ((v 1).toNat % 2) + 4 * ((v 2).toNat % 2)
      + 8 * ((v 3).toNat % 2) + 16 * ((v 4).toNat % 2))
    let after := fun b : Nat → Nat => (((((m.write (b 0) (v 0)).write (b 1) (v 1)).write (b 2) (v 2)).write (b 3) (v 3)).write a
      (v 4))
    (∀ b : Nat → Nat,
      (a / 8192 % 4 = 0 → after b = { m with control := value })
        ∧ (a / 8192 % 4 = 1 → after b = { m with chr0 := value })
        ∧ (a / 8192 % 4 = 2 → after b = { m with chr1 := value })
        ∧ (a / 8192 % 4 = 3 → after b = { m with prgr := value }))
    ∧ ∀ (n : Mmc1) (w : Byte), w.getLsbD 7 = true →
      n.write a w = { n with shift := 0, count := 0, control := n.control ||| 0x0C }

/-- MMC3: with a latch of `n` and a reload pending, the counter takes `n` at the first clock and, if enabled, raises its
flag at clock `n + 1` and at no clock before; a clock is an A12 rise after at least 16 low dots, counted from the fall, the
one bus access that moves the count's start, and no other bus access clocks. The start of a frame moves it to 0 and changes
nothing else: that is D43, entry 26 (63_cartridge_mappers.md R595, R596). -/
def Obligations.Mmc3CountsScanlines : Prop :=
  (∀ (m : Mmc3) (fc : Nat → Nat), m.irqReload = true → m.irqFlag = false → m.irqEnabled = true →
    let after := fun k => Nat.rec (motive := fun _ => Mmc3) m (fun j (x : Mmc3) => x.clockCounter (fc j)) k
    ∀ k, k ≤ m.irqLatch.toNat →
      (after (k + 1)).irqCounter.toNat = m.irqLatch.toNat - k
        ∧ (after (k + 1)).irqFlag = decide (k = m.irqLatch.toNat))
    ∧ (∀ (m : Mmc3) (addr : Word) (fc : Nat),
      let n := m.addressBus addr fc
      n.lastA12 = addr.getLsbD 12
        ∧ n.lastA12Cycle = (if m.lastA12 = true ∧ addr.getLsbD 12 = false then fc else m.lastA12Cycle)
        ∧ ((m.lastA12 = true ∨ addr.getLsbD 12 = false ∨ cyclesLow fc m.lastA12Cycle < 16) →
          n = { m with lastA12 := n.lastA12, lastA12Cycle := n.lastA12Cycle })
        ∧ (m.lastA12 = false → addr.getLsbD 12 = true → 16 ≤ cyclesLow fc m.lastA12Cycle →
          n = { m.clockCounter fc with lastA12 := true }))
    ∧ ∀ (c : Cartridge) (m : Mmc3), c.mapper = .mmc3 m →
      c.notifyFrameStart = { c with mapper := .mmc3 { m with lastA12Cycle := 0 } }

/-! ## Loading and saving -/

/-- `load_rom` checks an image in this order, and at the first check that fails reports its error with the machine as it was: a
short header, a wrong magic number, no PRG (D45, entry 26), fewer bytes than the header declares, an unknown mapper. Every
other image loads: a good machine around a cartridge with the header's fields, the image's PRG and CHR bytes, and the header's
mapper (63_cartridge_mappers.md R553-R555; 70_reset_and_hazards.md R704, R715; at the default parameters). -/
def Obligations.LoadsAreGoodOrRefused : Prop :=
  ∀ (image : List Byte) (c : Console),
    let byte := fun k => (image.getD k 0).toNat
    let loads := loadRom Config.defaults image c
    let prgSize := byte 4 * 16384
    let chrLen := byte 5 * 8192
    let off := 16 + if (image.getD 6 0).getLsbD 2 then 512 else 0
    let number := byte 7 / 16 * 16 + byte 6 / 16
    (image.length < 16 → loads = (c, some .shortHeader))
      ∧ (16 ≤ image.length →
        (image.take 4 ≠ [0x4E, 0x45, 0x53, 0x1A] → loads = (c, some .badMagic))
        ∧ (image.take 4 = [0x4E, 0x45, 0x53, 0x1A] →
          (prgSize = 0 → loads = (c, some .noPrg))
          ∧ (prgSize ≠ 0 →
            (image.length < off + prgSize + chrLen → loads = (c, some .tooFewBytes))
            ∧ (off + prgSize + chrLen ≤ image.length →
              (number ∉ [0, 1, 2, 3, 4, 7, 9, 10, 11, 34, 66, 71, 79, 206] →
                loads = (c, some (.unsupportedMapper number)))
              ∧ (number ∈ [0, 1, 2, 3, 4, 7, 9, 10, 11, 34, 66, 71, 79, 206] →
                ∃ s, loads = (.loaded s, none) ∧ s.good
                  ∧ s.cart.prgSize = prgSize ∧ s.cart.chrSize = (if chrLen = 0 then 8192 else chrLen)
                  ∧ s.cart.hasChrRam = decide (chrLen = 0)
                  ∧ s.cart.mapperNumber.toNat = number ∧ s.cart.mapper.number = number
                  ∧ s.cart.hasBattery = (image.getD 6 0).getLsbD 1
                  ∧ s.cart.initialMirror = (if (image.getD 6 0).getLsbD 3 then .fourScreen
                    else if (image.getD 6 0).getLsbD 0 then .vertical else .horizontal)
                  ∧ (∀ k, k < prgSize → s.cart.prgRom.read k = image.getD (off + k) 0)
                  ∧ (∀ k, k < chrLen → s.cart.chr.read k = image.getD (off + prgSize + k) 0)
                  ∧ s.loop.frameCount = 0)))))

/-- Loading a saved state into a machine with the same ROM gives back the machine that was saved, whatever ran in between;
a blob of another ROM, one with a part missing, or one without the CHR RAM that the cartridge has, is an error; and no load
changes the ROM, the header or which mapper it is (70_reset_and_hazards.md R715, R716; 20_memory.md R66). The model's choices
(entry 15): the blobs are typed data, the picture and the audio ring are among them, a blob of another ROM is a CRC mismatch
also where it is too short, registers of another mapper are too short, and what follows the five blobs is ignored. -/
def Obligations.SaveStatesRestore : Prop :=
  (∀ (s t : State) (more : List Blob), s.cart.sameImage t.cart →
      let b := saveState s
      loadState b t = .ok s ∧ loadState { b with blobs := b.blobs ++ more } t = .ok s)
    ∧ (∀ (b : SaveState) (t : State), b.romCrc ≠ t.cart.crc32 → loadState b t = .error .savestateCrcMismatch)
    ∧ (∀ (b : SaveState) (t : State), b.romCrc = t.cart.crc32 → b.blobs.length < 5 →
      loadState b t = .error .savestateTooShort)
    ∧ (∀ (b : SaveState) (t : State) (m : Mapper) (r : Memory) (x : Option Memory), b.romCrc = t.cart.crc32 →
      b.blobs[4]? = some (.cartridge m r x) →
      (t.cart.hasChrRam = true ∧ x = none) ∨ m.number ≠ t.cart.mapper.number → loadState b t = .error .savestateTooShort)
    ∧ ∀ (b : SaveState) (t u : State), loadState b t = .ok u → t.cart.sameImage u.cart
end

