-- ==== Sys2Proof/Laws/Apu.lean ====
section
/-! SUPPORT. The APU: its bounds are kept by every access and every cycle, and a register access makes no sample. -/

namespace Sys2Proof.Machine

theorem Apu.sameOutput_trans {a b c : Apu} (h : a.sameOutput b) (h' : b.sameOutput c) : a.sameOutput c := by
  unfold Apu.sameOutput at *
  rw [h']
  congr 1 <;> rw [h]

theorem Apu.sameOutput.ring {a b : Apu} (h : a.sameOutput b) : b.ring = a.ring := by rw [h]

theorem Apu.sameOutput.outAcc {a b : Apu} (h : a.sameOutput b) : b.outAcc = a.outAcc := by rw [h]

theorem half_sameOutput (s : Apu) : s.sameOutput s.half := rfl

theorem quarter_sameOutput (s : Apu) : s.sameOutput s.quarter := rfl

theorem writeFrameCounter_sameOutput (s : Apu) (v : Byte) : s.sameOutput (s.writeFrameCounter v) := by
  unfold Apu.writeFrameCounter Apu.sameOutput
  dsimp only
  split <;> rfl

theorem sameOutput_pulse0 (s : Apu) (x : Pulse) : s.sameOutput { s with pulse0 := x } := rfl

theorem sameOutput_pulse1 (s : Apu) (x : Pulse) : s.sameOutput { s with pulse1 := x } := rfl

theorem sameOutput_tri (s : Apu) (x : Triangle) : s.sameOutput { s with tri := x } := rfl

theorem sameOutput_noise (s : Apu) (x : Noise) : s.sameOutput { s with noise := x } := rfl

theorem sameOutput_dmc (s : Apu) (x : Dmc) : s.sameOutput { s with dmc := x } := rfl

theorem writeEnable_sameOutput (s : Apu) (v : Byte) : s.sameOutput (s.writeEnable v) := rfl

/-- A register write makes no sample and counts no cycle. -/
theorem apuWrite_sameOutput (s : Apu) (addr : Nat) (v : Byte) : s.sameOutput (s.write addr v) := by
  unfold Apu.write
  repeat' split
  · exact sameOutput_pulse0 ..
  · exact sameOutput_pulse1 ..
  · exact sameOutput_tri ..
  · exact sameOutput_noise ..
  · exact sameOutput_dmc ..
  · exact writeEnable_sameOutput s v
  · exact writeFrameCounter_sameOutput s v
  · rfl

theorem apuReadStatus_sameOutput (s : Apu) : s.sameOutput s.readStatus.2 := rfl

/-! ## Bounds -/

/-- The parts of `Apu.ok` that the units can move: the periods and the LFSR. -/
structure Apu.unitsOk (s : Apu) : Prop where
  pulse0 : s.pulse0.period < 0x800#16
  pulse1 : s.pulse1.period < 0x800#16
  tri : s.tri.period < 0x800#16
  noise : s.noise.ok

theorem periodLow_lt (p : Word) (v : Byte) : periodLow p v < 0x800#16 := by
  unfold periodLow
  have h1 : (p &&& 0x0700#16).toNat ≤ 0x700 := by
    rw [BitVec.toNat_and]
    exact Nat.and_le_right
  rw [BitVec.lt_def, BitVec.toNat_or]
  refine Nat.or_lt_two_pow (n := 11) (by omega) ?_
  have := v.isLt
  simp only [zext16, BitVec.toNat_setWidth]
  omega

theorem periodHigh_lt (p : Word) (v : Byte) : periodHigh p v < 0x800#16 := by
  unfold periodHigh
  have h1 : (p &&& 0x00FF#16).toNat ≤ 0xFF := by
    rw [BitVec.toNat_and]
    exact Nat.and_le_right
  have h2 : (v &&& 0x07#8).toNat ≤ 7 := by
    rw [BitVec.toNat_and]
    exact Nat.and_le_right
  rw [BitVec.lt_def, BitVec.toNat_or]
  refine Nat.or_lt_two_pow (n := 11) (by omega) ?_
  simp only [zext16, BitVec.toNat_shiftLeft, BitVec.toNat_setWidth, Nat.shiftLeft_eq]
  omega

theorem pulseWrite_period {p : Pulse} (h : p.period < 0x800#16) (reg : Nat) (v : Byte) :
    (p.write reg v).period < 0x800#16 := by
  unfold Pulse.write
  split
  · exact h
  · exact h
  · exact periodLow_lt _ _
  · exact periodHigh_lt _ _

theorem triangleWrite_period {t : Triangle} (h : t.period < 0x800#16) (reg : Nat) (v : Byte) :
    (t.write reg v).period < 0x800#16 := by
  unfold Triangle.write
  split
  · exact h
  · exact h
  · exact periodLow_lt _ _
  · exact periodHigh_lt _ _

theorem noiseWrite_shift (n : Noise) (reg : Nat) (v : Byte) : (n.write reg v).shift = n.shift := by
  unfold Noise.write
  split <;> rfl

/-- The sweep's range guard keeps the period within 11 bits (R522). -/
theorem clockSweep_period {p : Pulse} (h : p.period < 0x800#16) (first : Bool) :
    (p.clockSweep first).period < 0x800#16 := by
  have hq : (if p.sweepDiv = 0#3 ∧ p.sweepEnabled ∧ p.sweepShift ≠ 0#3 ∧ 8 ≤ p.period.toNat ∧ 0 ≤ p.sweepTarget first
      ∧ p.sweepTarget first ≤ 0x7FF then { p with period := BitVec.ofNat 16 (p.sweepTarget first).toNat } else p).period
      < 0x800#16 := by
    split
    · next hg =>
      show BitVec.ofNat 16 (p.sweepTarget first).toNat < 0x800#16
      rw [BitVec.lt_def, BitVec.toNat_ofNat]
      show _ < 2048
      omega
    · exact h
  unfold Pulse.clockSweep
  dsimp only
  split
  · exact hq
  · exact hq

theorem quarter_unitsOk {s : Apu} (h : s.unitsOk) : s.quarter.unitsOk := ⟨h.pulse0, h.pulse1, h.tri, h.noise⟩

theorem half_unitsOk {s : Apu} (h : s.unitsOk) : s.half.unitsOk :=
  ⟨clockSweep_period (p := { s.pulse0 with length := clockLength s.pulse0.env.halt s.pulse0.length }) h.pulse0 true,
    clockSweep_period (p := { s.pulse1 with length := clockLength s.pulse1.env.halt s.pulse1.length }) h.pulse1 false,
    h.tri, h.noise⟩

theorem writeFrameCounter_unitsOk {s : Apu} (h : s.unitsOk) (v : Byte) : (s.writeFrameCounter v).unitsOk := by
  unfold Apu.writeFrameCounter
  dsimp only
  split
  · exact half_unitsOk (quarter_unitsOk ⟨h.pulse0, h.pulse1, h.tri, h.noise⟩)
  · exact ⟨h.pulse0, h.pulse1, h.tri, h.noise⟩

section WithUnit
variable {s : Apu} (h : s.unitsOk)
include h

theorem withPulse0_unitsOk {p : Pulse} (hp : p.period < 0x800#16) : Apu.unitsOk { s with pulse0 := p } :=
  ⟨hp, h.pulse1, h.tri, h.noise⟩

theorem withPulse1_unitsOk {p : Pulse} (hp : p.period < 0x800#16) : Apu.unitsOk { s with pulse1 := p } :=
  ⟨h.pulse0, hp, h.tri, h.noise⟩

theorem withTriangle_unitsOk {t : Triangle} (ht : t.period < 0x800#16) : Apu.unitsOk { s with tri := t } :=
  ⟨h.pulse0, h.pulse1, ht, h.noise⟩

theorem withNoise_unitsOk {n : Noise} (hn : n.ok) : Apu.unitsOk { s with noise := n } :=
  ⟨h.pulse0, h.pulse1, h.tri, hn⟩

theorem withDmc_unitsOk (d : Dmc) : Apu.unitsOk { s with dmc := d } := ⟨h.pulse0, h.pulse1, h.tri, h.noise⟩

end WithUnit

theorem noiseWrite_ok {n : Noise} (h : n.ok) (reg : Nat) (v : Byte) : (n.write reg v).ok := by
  rw [Noise.ok, noiseWrite_shift]
  exact h

theorem writeEnable_unitsOk {s : Apu} (h : s.unitsOk) (v : Byte) : (s.writeEnable v).unitsOk :=
  ⟨h.pulse0, h.pulse1, h.tri, h.noise⟩

theorem apuWrite_unitsOk {s : Apu} (h : s.unitsOk) (addr : Nat) (v : Byte) : (s.write addr v).unitsOk := by
  unfold Apu.write
  repeat' split
  · exact withPulse0_unitsOk h (pulseWrite_period h.pulse0 _ _)
  · exact withPulse1_unitsOk h (pulseWrite_period h.pulse1 _ _)
  · exact withTriangle_unitsOk h (triangleWrite_period h.tri _ _)
  · exact withNoise_unitsOk h (noiseWrite_ok h.noise _ _)
  · exact withDmc_unitsOk h _
  · exact writeEnable_unitsOk h v
  · exact writeFrameCounter_unitsOk h v
  · exact h

theorem pulseTimer_period (p : Pulse) : p.clockTimer.period = p.period := by
  unfold Pulse.clockTimer
  split <;> rfl

theorem triangleTimer_period (t : Triangle) : t.clockTimer.period = t.period := by
  unfold Triangle.clockTimer
  split <;> rfl

/-- A clock of the LFSR keeps it within 15 bits and never makes it 0 (R524). -/
theorem noiseTimer_ok {n : Noise} (h : n.ok) : n.clockTimer.ok := by
  obtain ⟨h0, hlt⟩ := h
  have hlt : n.shift.toNat < 32768 := hlt
  unfold Noise.clockTimer
  dsimp only
  split
  · have hs : (n.shift >>> 1).toNat = n.shift.toNat / 2 := by
      rw [BitVec.toNat_ushiftRight, Nat.shiftRight_eq_div_pow]
    have hone : n.shift >>> 1 = 0#16 → n.shift = 1#16 := fun hz => by
      have hn : n.shift.toNat ≠ 0 := fun hn => h0 (BitVec.eq_of_toNat_eq hn)
      have hd : n.shift.toNat / 2 = 0 := by rw [← hs, hz, BitVec.toNat_zero]
      apply BitVec.eq_of_toNat_eq
      show n.shift.toNat = 1
      omega
    refine ⟨fun hz => ?_, ?_⟩
    · have hz := BitVec.or_eq_zero_iff.1 hz
      have h1 := hone hz.1
      simp only [h1] at hz
      cases n.mode <;> simp at hz
    · have hb : ∀ b : Bool, (n.shift >>> 1 ||| if b then 0x4000#16 else 0#16).toNat < 32768 := fun b => by
        rw [BitVec.toNat_or]
        refine Nat.or_lt_two_pow (n := 15) (by omega) ?_
        cases b <;> decide
      exact hb _
  · exact ⟨h0, hlt⟩

theorem clockTimers_unitsOk {s : Apu} (h : s.unitsOk) : s.clockTimers.unitsOk := by
  unfold Apu.clockTimers
  dsimp only
  split
  · exact ⟨(pulseTimer_period _).symm ▸ h.pulse0, (pulseTimer_period _).symm ▸ h.pulse1,
      (triangleTimer_period _).symm ▸ h.tri, noiseTimer_ok h.noise⟩
  · exact ⟨h.pulse0, h.pulse1, (triangleTimer_period _).symm ▸ h.tri, h.noise⟩

theorem withStep_unitsOk {s : Apu} (h : s.unitsOk) (k : Byte) : Apu.unitsOk { s with fcStep := k } :=
  ⟨h.pulse0, h.pulse1, h.tri, h.noise⟩

theorem sequencerStep_unitsOk {s : Apu} (h : s.unitsOk) : s.sequencerStep.unitsOk := by
  have h1 := withStep_unitsOk h (s.fcStep + 1#8)
  have hq := quarter_unitsOk h1
  have hh := half_unitsOk hq
  unfold Apu.sequencerStep
  dsimp only
  split
  · exact hq
  · exact hh
  · exact hq
  · exact ⟨hh.pulse0, hh.pulse1, hh.tri, hh.noise⟩
  · exact ⟨hh.pulse0, hh.pulse1, hh.tri, hh.noise⟩
  · exact h1

theorem clockFrameCounter_unitsOk {s : Apu} (h : s.unitsOk) : s.clockFrameCounter.unitsOk := by
  unfold Apu.clockFrameCounter
  split
  · exact sequencerStep_unitsOk ⟨h.pulse0, h.pulse1, h.tri, h.noise⟩
  · exact ⟨h.pulse0, h.pulse1, h.tri, h.noise⟩

theorem putSample_unitsOk {s : Apu} (h : s.unitsOk) (y : F32) : (s.putSample y).unitsOk :=
  ⟨h.pulse0, h.pulse1, h.tri, h.noise⟩

theorem emitSample_unitsOk (alpha : F32) {s : Apu} (h : s.unitsOk) (m : F32) : (s.emitSample alpha m).unitsOk := by
  unfold Apu.emitSample
  split
  · refine putSample_unitsOk ?_ _
    exact ⟨h.pulse0, h.pulse1, h.tri, h.noise⟩
  · exact ⟨h.pulse0, h.pulse1, h.tri, h.noise⟩

theorem Apu.ok.unitsOk {s : Apu} (h : s.ok) : s.unitsOk := ⟨h.2.2.2.1, h.2.2.2.2.1, h.2.2.2.2.2.1, h.2.2.2.2.2.2⟩

theorem Apu.unitsOk.ok {s : Apu} (h : s.unitsOk) (h1 : s.ring.length ≤ Config.audioRingPairs)
    (h2 : s.fcCycles < Config.frameCounterPeriod) (h3 : s.outAcc < Config.cpuFreq) : s.ok :=
  ⟨h1, h2, h3, h.pulse0, h.pulse1, h.tri, h.noise⟩

/-- The sequencer's work leaves the cycle counter within its period alone. -/
theorem quarter_fcCycles (s : Apu) : s.quarter.fcCycles = s.fcCycles := rfl

theorem half_fcCycles (s : Apu) : s.half.fcCycles = s.fcCycles := rfl

theorem writeFrameCounter_fcCycles (s : Apu) (v : Byte) : (s.writeFrameCounter v).fcCycles = 0#16 := by
  unfold Apu.writeFrameCounter
  dsimp only
  split <;> rfl

/-- A write to 0x4017 restarts the frame counter; no other write moves it. -/
theorem apuWrite_fcCycles (s : Apu) (addr : Nat) (v : Byte) :
    (s.write addr v).fcCycles = if addr = 0x4017 then 0#16 else s.fcCycles := by
  unfold Apu.write
  iterate 5 (split; rw [if_neg (by omega)])
  split
  · rw [if_neg (by omega)]
    rfl
  · split
    · exact writeFrameCounter_fcCycles s v
    · rfl

theorem apuWrite_ok {s : Apu} (h : s.ok) (addr : Nat) (v : Byte) : (s.write addr v).ok := by
  have hs := apuWrite_sameOutput s addr v
  refine (apuWrite_unitsOk h.unitsOk addr v).ok ?_ ?_ ?_
  · rw [hs.ring]
    exact h.1
  · rw [apuWrite_fcCycles]
    split
    · decide
    · exact h.2.1
  · rw [hs.outAcc]
    exact h.2.2.1

theorem apuReadStatus_ok {s : Apu} (h : s.ok) : s.readStatus.2.ok := h

theorem sequencerStep_fields (s : Apu) :
    s.sequencerStep.ring = s.ring ∧ s.sequencerStep.fcCycles = s.fcCycles ∧ s.sequencerStep.outAcc = s.outAcc := by
  unfold Apu.sequencerStep
  dsimp only
  split <;> exact ⟨rfl, rfl, rfl⟩

theorem clockTimers_fields (s : Apu) :
    s.clockTimers.ring = s.ring ∧ s.clockTimers.fcCycles = s.fcCycles ∧ s.clockTimers.outAcc = s.outAcc := by
  unfold Apu.clockTimers
  dsimp only
  split <;> exact ⟨rfl, rfl, rfl⟩

theorem clockFrameCounter_fields (s : Apu) :
    s.clockFrameCounter.ring = s.ring ∧ s.clockFrameCounter.outAcc = s.outAcc := by
  unfold Apu.clockFrameCounter
  split
  · exact ⟨(sequencerStep_fields _).1, (sequencerStep_fields _).2.2⟩
  · exact ⟨rfl, rfl⟩

theorem clockFrameCounter_lt {s : Apu} (h : s.fcCycles < Config.frameCounterPeriod) :
    s.clockFrameCounter.fcCycles < Config.frameCounterPeriod := by
  unfold Apu.clockFrameCounter
  split
  · rw [(sequencerStep_fields _).2.1]
    show 0#16 < Config.frameCounterPeriod
    decide
  · next hne =>
    show s.fcCycles + 1#16 < Config.frameCounterPeriod
    simp only [Config.frameCounterPeriod] at h hne ⊢
    bv_omega

/-- The sample accumulator after a cycle: 44100 more, modulo the CPU's frequency (R530). -/
theorem emitSample_outAcc (alpha : F32) {s : Apu} (m : F32) (h : s.outAcc < Config.cpuFreq) :
    (s.emitSample alpha m).outAcc.toNat = (s.outAcc.toNat + 44100) % 1789773 := by
  have hlt : s.outAcc.toNat < 1789773 := h
  have hacc : (s.outAcc + Config.sampleRate).toNat = s.outAcc.toNat + 44100 := by
    rw [BitVec.toNat_add]
    show (s.outAcc.toNat + 44100) % 4294967296 = _
    omega
  unfold Apu.emitSample
  split
  · next hle =>
    have hle' : 1789773 ≤ (s.outAcc + Config.sampleRate).toNat := hle
    show (s.outAcc + Config.sampleRate - Config.cpuFreq).toNat = _
    rw [BitVec.toNat_sub_of_le hle, hacc]
    have hf : Config.cpuFreq.toNat = 1789773 := rfl
    omega
  · next hlt' =>
    have hlt' : ¬1789773 ≤ (s.outAcc + Config.sampleRate).toNat := hlt'
    show (s.outAcc + Config.sampleRate).toNat = _
    omega

theorem pushPair_length {ring : List (F32 × F32)} (h : ring.length ≤ Config.audioRingPairs) (y : F32) :
    (pushPair ring y).length ≤ Config.audioRingPairs := by
  unfold pushPair
  split
  · simp only [List.length_append, List.length_singleton]
    omega
  · exact h

@[simp] theorem putSample_fcCycles (s : Apu) (y : F32) : (s.putSample y).fcCycles = s.fcCycles := rfl

@[simp] theorem putSample_outAcc (s : Apu) (y : F32) : (s.putSample y).outAcc = s.outAcc := rfl

@[simp] theorem putSample_ring (s : Apu) (y : F32) : (s.putSample y).ring = pushPair s.ring y := rfl

theorem emitSample_ring (alpha : F32) {s : Apu} (m : F32) (h : s.ring.length ≤ Config.audioRingPairs) :
    (s.emitSample alpha m).ring.length ≤ Config.audioRingPairs := by
  unfold Apu.emitSample
  split
  · exact pushPair_length h _
  · exact h

theorem emitSample_fcCycles (alpha : F32) (s : Apu) (m : F32) : (s.emitSample alpha m).fcCycles = s.fcCycles := by
  unfold Apu.emitSample
  split
  · rw [putSample_fcCycles]
  · rfl

/-- One APU cycle keeps the APU's bounds. -/
theorem apuStep_ok (alpha : F32) {s : Apu} (h : s.ok) : (s.step alpha).ok := by
  have hu := emitSample_unitsOk alpha
    (clockTimers_unitsOk (clockFrameCounter_unitsOk (s := { s with cycle := s.cycle + 1#64 })
      ⟨h.2.2.2.1, h.2.2.2.2.1, h.2.2.2.2.2.1, h.2.2.2.2.2.2⟩))
  obtain ⟨h1, h2, h3, -⟩ := h
  obtain ⟨f1, f3⟩ := clockFrameCounter_fields { s with cycle := s.cycle + 1#64 }
  have f2 := clockFrameCounter_lt (s := { s with cycle := s.cycle + 1#64 }) h2
  rw [Apu.step]
  generalize Apu.clockFrameCounter { s with cycle := s.cycle + 1#64 } = u at f1 f2 f3 hu ⊢
  obtain ⟨t1, t2, t3⟩ := clockTimers_fields u
  generalize u.clockTimers = w at t1 t2 t3 hu ⊢
  have hw : w.outAcc < Config.cpuFreq := by rw [t3, f3]; exact h3
  refine (hu _).ok (emitSample_ring _ _ ?_) ?_ ?_
  · rw [t1, f1]
    exact h1
  · rw [emitSample_fcCycles, t2]
    exact f2
  · rw [BitVec.lt_def, emitSample_outAcc _ _ hw]
    exact Nat.mod_lt _ (by decide)

end Sys2Proof.Machine
end

