-- ==== Sys2Proof/Laws/Memory.lean ====
section
/-! SUPPORT. Memories: a read after a write, and that every memory operation keeps the canonical form and the size. -/

namespace Sys2Proof.Machine

section Cells
variable {α : Type} {d : α} {m : List (Nat × α)} {k j : Nat} {v : α}

@[simp] theorem cellGet_nil : cellGet d ([] : List (Nat × α)) k = d := rfl

theorem cellGet_cons (c : Nat × α) : cellGet d (c :: m) k = if c.1 = k then c.2 else cellGet d m k := rfl

@[simp] theorem cellGet_cellErase : cellGet d (cellErase m k) j = if j = k then d else cellGet d m j := by
  induction m with
  | nil => simp [cellErase]
  | cons c m ih =>
    by_cases h : c.1 = k
    · have hd : cellErase (c :: m) k = cellErase m k := by simp [cellErase, h]
      rw [hd, ih, cellGet_cons]
      by_cases hj : j = k
      · simp [hj]
      · have hc : c.1 ≠ j := fun e => hj (e.symm.trans h)
        simp [hj, hc]
    · have hd : cellErase (c :: m) k = c :: cellErase m k := by simp [cellErase, h]
      rw [hd, cellGet_cons, ih, cellGet_cons]
      by_cases hj : c.1 = j
      · have hjk : j ≠ k := fun e => h (hj.trans e)
        simp [hj, hjk]
      · simp [hj]

theorem cellGet_cellInsert (hk : ∀ c ∈ m, c.1 ≠ k) :
    cellGet d (cellInsert k v m) j = if j = k then v else cellGet d m j := by
  induction m with
  | nil => simp [cellInsert, cellGet_cons, eq_comm]
  | cons c m ih =>
    have ih := ih fun c hc => hk c (List.mem_cons_of_mem _ hc)
    have hck : c.1 ≠ k := hk c (List.mem_cons_self ..)
    unfold cellInsert
    split
    · simp [cellGet_cons, eq_comm]
    · rw [cellGet_cons, ih, cellGet_cons]
      by_cases hj : c.1 = j
      · have hjk : j ≠ k := fun e => hck (hj.trans e)
        simp [hj, hjk]
      · simp [hj]

theorem ne_of_mem_cellErase {c : Nat × α} (h : c ∈ cellErase m k) : c.1 ≠ k := by
  simpa [cellErase] using (List.mem_filter.1 h).2

/-- Reading after storing: the stored value at that key, every other key as before. -/
@[simp] theorem cellGet_cellSet [DecidableEq α] : cellGet d (cellSet d m k v) j = if j = k then v else cellGet d m j := by
  unfold cellSet
  split
  · next h => simp [h]
  · rw [cellGet_cellInsert fun c hc => ne_of_mem_cellErase hc, cellGet_cellErase]
    split <;> rfl

theorem mem_cellInsert {c : Nat × α} : c ∈ cellInsert k v m ↔ c = (k, v) ∨ c ∈ m := by
  induction m with
  | nil => simp [cellInsert]
  | cons e m ih =>
    unfold cellInsert
    split
    · simp
    · simp only [List.mem_cons, ih]
      tauto

/-- What a store leaves listed: the new cell at most, and old cells. -/
theorem mem_of_mem_cellSet [DecidableEq α] {c : Nat × α} (h : c ∈ cellSet d m k v) : (c = (k, v) ∧ v ≠ d) ∨ c ∈ m := by
  unfold cellSet at h
  split at h
  · exact .inr (List.mem_filter.1 h).1
  · next hv =>
    rcases mem_cellInsert.1 h with h | h
    · exact .inl ⟨h, hv⟩
    · exact .inr (List.mem_filter.1 h).1

theorem pairwise_cellInsert (hm : m.Pairwise fun c c' => c.1 < c'.1) (hk : ∀ c ∈ m, c.1 ≠ k) :
    (cellInsert k v m).Pairwise fun c c' => c.1 < c'.1 := by
  induction m with
  | nil => simp [cellInsert]
  | cons c m ih =>
    have hm' := List.pairwise_cons.1 hm
    have hck : c.1 ≠ k := hk c (List.mem_cons_self ..)
    unfold cellInsert
    split
    · next hlt =>
      refine List.pairwise_cons.2 ⟨fun e he => ?_, hm⟩
      rcases List.mem_cons.1 he with rfl | he
      · exact hlt
      · exact hlt.trans (hm'.1 e he)
    · next hge =>
      refine List.pairwise_cons.2 ⟨fun e he => ?_, ih hm'.2 fun e he => hk e (List.mem_cons_of_mem _ he)⟩
      rcases mem_cellInsert.1 he with rfl | he
      · show c.1 < k
        omega
      · exact hm'.1 e he

/-- A store keeps the canonical form. -/
theorem cellSet_wf [DecidableEq α] (h : cellsWf d m) : cellsWf d (cellSet d m k v) := by
  refine ⟨?_, fun c hc => ?_⟩
  · unfold cellSet
    have he : (cellErase m k).Pairwise fun c c' => c.1 < c'.1 := h.1.filter _
    split
    · exact he
    · exact pairwise_cellInsert he fun c hc => ne_of_mem_cellErase hc
  · rcases mem_of_mem_cellSet hc with ⟨rfl, hv⟩ | hc
    · exact hv
    · exact h.2 c hc

/-- Two canonical lists that read the same everywhere are the same list. -/
theorem cells_ext {m' : List (Nat × α)} (h : cellsWf d m) (h' : cellsWf d m')
    (he : ∀ k, cellGet d m k = cellGet d m' k) : m = m' := by
  induction m generalizing m' with
  | nil =>
    cases m' with
    | nil => rfl
    | cons c m' =>
      have := he c.1
      simp only [cellGet_nil, cellGet_cons, if_true] at this
      exact absurd this.symm (h'.2 c (List.mem_cons_self ..))
  | cons c m ih =>
    have get_low : ∀ {l : List (Nat × α)} {k : Nat}, (∀ e ∈ l, k < e.1) → cellGet d l k = d := by
      intro l k hl
      induction l with
      | nil => rfl
      | cons e l ihl =>
        have := hl e (List.mem_cons_self ..)
        rw [cellGet_cons, if_neg (by omega)]
        exact ihl fun e he => hl e (List.mem_cons_of_mem _ he)
    cases m' with
    | nil =>
      have := he c.1
      simp only [cellGet_nil, cellGet_cons, if_true] at this
      exact absurd this (h.2 c (List.mem_cons_self ..))
    | cons c' m' =>
      have hp := List.pairwise_cons.1 h.1
      have hp' := List.pairwise_cons.1 h'.1
      have hcd := h.2 c (List.mem_cons_self ..)
      have hcd' := h'.2 c' (List.mem_cons_self ..)
      have hkey : c.1 = c'.1 := by
        rcases Nat.lt_trichotomy c.1 c'.1 with hlt | heq | hgt
        · have hz : cellGet d (c' :: m') c.1 = d := get_low fun e he => by
            rcases List.mem_cons.1 he with rfl | he
            · exact hlt
            · exact hlt.trans (hp'.1 e he)
          have := he c.1
          rw [hz, cellGet_cons, if_pos rfl] at this
          exact absurd this hcd
        · exact heq
        · have hz : cellGet d (c :: m) c'.1 = d := get_low fun e he => by
            rcases List.mem_cons.1 he with rfl | he
            · exact hgt
            · exact hgt.trans (hp.1 e he)
          have := he c'.1
          rw [hz, cellGet_cons, if_pos rfl] at this
          exact absurd this.symm hcd'
      have hval : c.2 = c'.2 := by
        have := he c.1
        rwa [cellGet_cons, if_pos rfl, cellGet_cons, if_pos hkey.symm] at this
      have hc : c = c' := Prod.ext hkey hval
      subst hc
      refine congrArg (c :: ·) (ih ⟨hp.2, fun e he => h.2 e (List.mem_cons_of_mem _ he)⟩
        ⟨hp'.2, fun e he => h'.2 e (List.mem_cons_of_mem _ he)⟩ fun k => ?_)
      by_cases hk : c.1 = k
      · subst hk
        rw [get_low hp.1, get_low hp'.1]
      · have := he k
        rwa [cellGet_cons, if_neg hk, cellGet_cons, if_neg hk] at this

end Cells

section Memory
variable (m : Memory) (k j n : Nat) (v : Byte)

@[simp] theorem Memory.read_nil : Memory.read [] k = Config.unlistedByte := rfl

/-- Reading a byte after writing one. -/
@[simp] theorem Memory.read_write : (m.write k v).read j = if j = k then v else m.read j := cellGet_cellSet

variable {m k n}

/-- A write keeps the canonical form. -/
theorem Memory.write_wf (h : m.wf) : (m.write k v).wf := cellSet_wf h

/-- A write below a size keeps the memory inside it. -/
theorem Memory.write_below (h : m.below n) (hk : k < n) : (m.write k v).below n := by
  intro c hc
  rcases mem_of_mem_cellSet hc with ⟨rfl, -⟩ | hc
  · exact hk
  · exact h c hc

theorem memoryFrom_cons (i : Nat) (b : Byte) (bs : List Byte) : memoryFrom i (b :: bs) =
    if b = Config.unlistedByte then memoryFrom (i + 1) bs else (i, b) :: memoryFrom (i + 1) bs := rfl

theorem memoryFrom_key (bs : List Byte) : ∀ i, ∀ c ∈ memoryFrom i bs, i ≤ c.1 ∧ c.1 < i + bs.length := by
  induction bs with
  | nil => simp [memoryFrom]
  | cons b bs ih =>
    intro i c hc
    unfold memoryFrom at hc
    simp only [List.length_cons]
    split at hc
    · have := ih (i + 1) c hc
      omega
    · rcases List.mem_cons.1 hc with rfl | hc
      · exact ⟨Nat.le_refl i, by show i < _; omega⟩
      · have := ih (i + 1) c hc
        omega

/-- A memory made of bytes is canonical. -/
theorem memoryFrom_wf (bs : List Byte) : ∀ i, Memory.wf (memoryFrom i bs) := by
  induction bs with
  | nil => exact fun _ => ⟨List.Pairwise.nil, fun c hc => absurd hc (by simp [memoryFrom])⟩
  | cons b bs ih =>
    intro i
    rw [memoryFrom_cons]
    split
    · exact ih (i + 1)
    · next hb =>
      refine ⟨List.pairwise_cons.2 ⟨fun c hc => (memoryFrom_key bs (i + 1) c hc).1, (ih (i + 1)).1⟩, fun c hc => ?_⟩
      rcases List.mem_cons.1 hc with rfl | hc
      · exact hb
      · exact (ih (i + 1)).2 c hc

/-- A memory made of bytes reads as those bytes. -/
theorem read_memoryFrom (bs : List Byte) : ∀ i j, (memoryFrom i bs).read j =
    if i ≤ j then bs.getD (j - i) Config.unlistedByte else Config.unlistedByte := by
  induction bs with
  | nil => simp [memoryFrom]
  | cons b bs ih =>
    intro i j
    have hread : (memoryFrom i (b :: bs)).read j = if i = j then b else (memoryFrom (i + 1) bs).read j := by
      rw [memoryFrom_cons]
      split
      · next hb =>
        split
        · next hij =>
          subst hij
          rw [ih, if_neg (by omega), hb]
        · rfl
      · rfl
    rw [hread, ih]
    rcases Nat.lt_trichotomy i j with h | h | h
    · rw [if_neg (by omega), if_pos (by omega), if_pos (by omega)]
      obtain ⟨d, rfl⟩ : ∃ d, j = i + 1 + d := ⟨j - (i + 1), by omega⟩
      have h1 : i + 1 + d - i = d + 1 := by omega
      have h2 : i + 1 + d - (i + 1) = d := by omega
      rw [h1, h2, List.getD_cons_succ]
    · subst h
      simp
    · rw [if_neg (by omega), if_neg (by omega), if_neg (by omega)]

end Memory

end Sys2Proof.Machine
end

