-- ==== Sys2Proof/Laws/Cartridge.lean ====
section
/-! SUPPORT. The cartridge: what each mapper operation may change, and that it stays inside its memories. -/

namespace Sys2Proof.Machine

theorem Cartridge.sameImage_refl (c : Cartridge) : c.sameImage c := ⟨rfl, fun _ => rfl, rfl⟩

theorem Cartridge.sameImage_trans {c d e : Cartridge} (h : c.sameImage d) (h' : d.sameImage e) : c.sameImage e := by
  obtain ⟨h1, h2, h3⟩ := h
  obtain ⟨h1', h2', h3'⟩ := h'
  have hr : d.hasChrRam = c.hasChrRam := by rw [h1]
  refine ⟨?_, fun hc => (h2' (hr.trans hc)).trans (h2 hc), h3'.trans h3⟩
  rw [h1']
  congr 1 <;> rw [h1]

section Bus
variable (c : Cartridge) (addr : Word) (fc : Nat)

/-- Watching the PPU bus changes the mapper's registers only. -/
theorem notifyAddressBus_eq : c.notifyAddressBus addr fc = { c with mapper := (c.notifyAddressBus addr fc).mapper } := by
  unfold Cartridge.notifyAddressBus
  split <;> rfl

theorem notifyAddressBus_number : (c.notifyAddressBus addr fc).mapper.number = c.mapper.number := by
  unfold Cartridge.notifyAddressBus
  split
  · next h => simp [h, Mapper.number]
  · rfl

theorem notifyAddressBus_sameImage : c.sameImage (c.notifyAddressBus addr fc) := by
  refine ⟨?_, fun _ => ?_, notifyAddressBus_number c addr fc⟩ <;> rw [notifyAddressBus_eq]

theorem clockCounter_r (m : Mmc3) : (m.clockCounter fc).r = m.r := by
  simp only [Mmc3.clockCounter, apply_ite Mmc3.r, ite_self]

theorem clockCounter_prgMode (m : Mmc3) : (m.clockCounter fc).prgMode = m.prgMode := by
  simp only [Mmc3.clockCounter, apply_ite Mmc3.prgMode, ite_self]

theorem addressBus_r (m : Mmc3) : (m.addressBus addr fc).r = m.r := by
  simp only [Mmc3.addressBus, apply_ite Mmc3.r, clockCounter_r, ite_self]

theorem addressBus_prgMode (m : Mmc3) : (m.addressBus addr fc).prgMode = m.prgMode := by
  simp only [Mmc3.addressBus, apply_ite Mmc3.prgMode, clockCounter_prgMode, ite_self]

/-- Watching the PPU bus moves no PRG bank. -/
@[simp] theorem notifyAddressBus_prgSlot (a : Nat) : (c.notifyAddressBus addr fc).prgSlot a = c.prgSlot a := by
  unfold Cartridge.notifyAddressBus
  split
  · next h => simp [Cartridge.prgSlot, h, addressBus_r, addressBus_prgMode]
  · rfl

theorem afterChrRead_number (m : Mapper) (a : Nat) : (m.afterChrRead a).number = m.number := by
  cases m <;> rfl

theorem latchMmc2_prgBank (m : Mmc24) (a : Nat) : (m.latchMmc2 a).prgBank = m.prgBank := by
  simp only [Mmc24.latchMmc2, apply_ite Mmc24.prgBank, ite_self]

theorem latchMmc4_prgBank (m : Mmc24) (a : Nat) : (m.latchMmc4 a).prgBank = m.prgBank := by
  simp only [Mmc24.latchMmc4, apply_ite Mmc24.prgBank, ite_self]

/-- A PPU read moves no PRG bank. -/
@[simp] theorem chrRead_prgSlot (a b : Nat) : (c.chrRead a).2.prgSlot b = c.prgSlot b := by
  cases hm : c.mapper <;>
    simp [Cartridge.chrRead, Cartridge.prgSlot, Mapper.afterChrRead, hm, latchMmc2_prgBank, latchMmc4_prgBank]

theorem chrRead_sameImage (a : Nat) : c.sameImage (c.chrRead a).2 :=
  ⟨rfl, fun _ => rfl, afterChrRead_number ..⟩

theorem chrWrite_eq (a : Nat) (v : Byte) : c.chrWrite a v = { c with chr := (c.chrWrite a v).chr } := by
  unfold Cartridge.chrWrite
  split <;> rfl

@[simp] theorem chrWrite_prgSlot (a b : Nat) (v : Byte) : (c.chrWrite a v).prgSlot b = c.prgSlot b := by
  rw [chrWrite_eq]
  rfl

theorem chrWrite_sameImage (a : Nat) (v : Byte) : c.sameImage (c.chrWrite a v) := by
  refine ⟨?_, fun h => ?_, ?_⟩
  · rw [chrWrite_eq]
  · simp [Cartridge.chrWrite, h]
  · rw [chrWrite_eq]

theorem writeHigh_number (m : Mapper) (b : Bool) (a : Nat) (v : Byte) : (m.writeHigh b a v).number = m.number := by
  cases m <;> simp only [Mapper.writeHigh] <;> repeat' split
  all_goals rfl

theorem writeRamWindow_number (m : Mapper) (b : Bool) (a : Nat) (v : Byte) :
    (m.writeRamWindow b a v).number = m.number := by
  cases m <;> simp only [Mapper.writeRamWindow] <;> repeat' split
  all_goals rfl

theorem writeLow_number (m : Mapper) (a : Nat) (v : Byte) : (m.writeLow a v).number = m.number := by
  cases m <;> simp only [Mapper.writeLow] <;> repeat' split
  all_goals rfl

theorem cpuWrite_sameImage (a : Nat) (v : Byte) : c.sameImage (c.cpuWrite a v) := by
  unfold Cartridge.cpuWrite
  split
  · exact ⟨rfl, fun _ => rfl, writeLow_number ..⟩
  · split
    · exact ⟨rfl, fun _ => rfl, writeRamWindow_number ..⟩
    · exact ⟨rfl, fun _ => rfl, writeHigh_number ..⟩

theorem notifyFrameStart_sameImage : c.sameImage c.notifyFrameStart := by
  unfold Cartridge.notifyFrameStart
  split
  · next h => exact ⟨rfl, fun _ => rfl, by simp [h, Mapper.number]⟩
  · exact c.sameImage_refl

theorem irqClear_sameImage : c.sameImage c.irqClear := by
  unfold Cartridge.irqClear
  split
  · next h => exact ⟨rfl, fun _ => rfl, by simp [h, Mapper.number]⟩
  · exact c.sameImage_refl

end Bus

/-- A cartridge with the same image keeps its sizes. -/
theorem Cartridge.sameImage.sizesOk {c d : Cartridge} (h : c.sameImage d) (hc : c.sizesOk) : d.sizesOk := by
  have h1 : d.prgSize = c.prgSize := by rw [h.1]
  have h2 : d.chrSize = c.chrSize := by rw [h.1]
  simpa only [Cartridge.sizesOk, h1, h2] using hc

/-- A cartridge with the same image and a sound mapper is still the one its number names. -/
theorem Cartridge.sameImage.mapperOk {c d : Cartridge} (h : c.sameImage d) (hc : c.mapperOk) (hd : d.mapper.ok = true) :
    d.mapperOk := by
  have h1 : d.mapperNumber = c.mapperNumber := by rw [h.1]
  exact ⟨by rw [h.2.2, h1]; exact hc.1, hd⟩

theorem notifyAddressBus_ok (c : Cartridge) (addr : Word) (fc : Nat) :
    (c.notifyAddressBus addr fc).mapper.ok = c.mapper.ok := by
  unfold Cartridge.notifyAddressBus
  split
  · next h => simp [h, Mapper.ok]
  · rfl

theorem afterChrRead_ok (m : Mapper) (a : Nat) : (m.afterChrRead a).ok = m.ok := by
  cases m <;> rfl

theorem mmc1Write_count {m : Mmc1} (h : m.count ≤ 4) (a : Nat) (v : Byte) : (m.write a v).count ≤ 4 := by
  unfold Mmc1.write
  dsimp only
  split
  · exact Nat.zero_le _
  split
  · split <;> exact Nat.zero_le _
  · show m.count + 1 ≤ 4
    omega

theorem writeHigh_ok {m : Mapper} (h : m.ok = true) (b : Bool) (a : Nat) (v : Byte) : (m.writeHigh b a v).ok = true := by
  cases m
  case mmc1 r =>
    exact decide_eq_true (mmc1Write_count (of_decide_eq_true h) a v)
  all_goals
    simp only [Mapper.writeHigh]
    repeat' split
  all_goals rfl

theorem writeRamWindow_ok {m : Mapper} (h : m.ok = true) (b : Bool) (a : Nat) (v : Byte) :
    (m.writeRamWindow b a v).ok = true := by
  cases m
  case m34 =>
    simp only [Mapper.writeRamWindow]
    repeat' split
    all_goals rfl
  all_goals exact h

theorem writeLow_ok {m : Mapper} (h : m.ok = true) (a : Nat) (v : Byte) : (m.writeLow a v).ok = true := by
  cases m
  case nina =>
    simp only [Mapper.writeLow]
    split <;> rfl
  all_goals exact h

theorem cpuWrite_ok {c : Cartridge} (h : c.mapper.ok = true) (a : Nat) (v : Byte) : (c.cpuWrite a v).mapper.ok = true := by
  unfold Cartridge.cpuWrite
  split
  · exact writeLow_ok h _ _
  · split
    · exact writeRamWindow_ok h _ _ _
    · exact writeHigh_ok h _ _ _

theorem notifyFrameStart_ok (c : Cartridge) : c.notifyFrameStart.mapper.ok = c.mapper.ok := by
  unfold Cartridge.notifyFrameStart
  split
  · next h => simp [h, Mapper.ok]
  · rfl

theorem irqClear_ok (c : Cartridge) : c.irqClear.mapper.ok = c.mapper.ok := by
  unfold Cartridge.irqClear
  split
  · next h => simp [h, Mapper.ok]
  · rfl

theorem chrOffset_lt {n size bank off : Nat} (hs : n % size = 0) (hn : 0 < n) (ho : off < size) :
    chrOffset n size bank off < n := by
  have hsize : 0 < size := by omega
  have hdvd : size ∣ n := Nat.dvd_of_mod_eq_zero hs
  have hq : 0 < n / size := Nat.div_pos (Nat.le_of_dvd hn hdvd) hsize
  have hb : bank % (n / size) + 1 ≤ n / size := Nat.mod_lt _ hq
  have hmul : (bank % (n / size) + 1) * size ≤ n / size * size := Nat.mul_le_mul_right _ hb
  rw [Nat.div_mul_cancel hdvd] at hmul
  unfold chrOffset
  rw [Nat.succ_mul] at hmul
  omega

/-- A PPU address below 0x2000 falls inside the CHR memory. -/
theorem chrIndex_lt {c : Cartridge} (h : c.sizesOk) {a : Nat} (ha : a < 0x2000) : c.chrIndex a < c.chrSize := by
  obtain ⟨-, -, hm, hn⟩ := h
  have h4 : c.chrSize % 4096 = 0 := by omega
  have h1 : c.chrSize % 1024 = 0 := by omega
  unfold Cartridge.chrIndex
  split
  case h_9 =>
    repeat' split
    · exact chrOffset_lt h4 hn (by omega)
    · exact chrOffset_lt h4 hn (by omega)
    · exact chrOffset_lt hm hn ha
  case h_10 =>
    repeat' split
    · exact Nat.mod_lt _ hn
    · exact chrOffset_lt h4 hn (by omega)
    · exact chrOffset_lt h4 hn (by omega)
  all_goals first
    | exact Nat.mod_lt _ hn
    | exact chrOffset_lt hm hn ha
    | exact chrOffset_lt h4 hn (Nat.mod_lt _ (by decide))
    | exact chrOffset_lt h1 hn (Nat.mod_lt _ (by decide))

section Memories
variable {c : Cartridge} (hm : c.memoriesOk)
include hm

theorem notifyAddressBus_memoriesOk (addr : Word) (fc : Nat) : (c.notifyAddressBus addr fc).memoriesOk := by
  rw [notifyAddressBus_eq]
  exact hm

theorem chrRead_memoriesOk (a : Nat) : (c.chrRead a).2.memoriesOk := hm

theorem chrWrite_memoriesOk (hs : c.sizesOk) {a : Nat} (ha : a < 0x2000) (v : Byte) : (c.chrWrite a v).memoriesOk := by
  unfold Cartridge.chrWrite
  split
  · exact ⟨hm.1, ⟨Memory.write_wf v hm.2.1.1, Memory.write_below v hm.2.1.2 (chrIndex_lt hs ha)⟩, hm.2.2⟩
  · exact hm

theorem cpuWrite_memoriesOk (a : Nat) (v : Byte) : (c.cpuWrite a v).memoriesOk := by
  unfold Cartridge.cpuWrite
  split
  · exact hm
  · split
    · exact ⟨hm.1, hm.2.1, ⟨Memory.write_wf v hm.2.2.1, Memory.write_below v hm.2.2.2 (by omega)⟩⟩
    · exact hm

theorem notifyFrameStart_memoriesOk : c.notifyFrameStart.memoriesOk := by
  unfold Cartridge.notifyFrameStart
  split <;> exact hm

theorem irqClear_memoriesOk : c.irqClear.memoriesOk := by
  unfold Cartridge.irqClear
  split <;> exact hm

end Memories

/-- Everything Safety.lean asks of the cartridge. -/
structure Cartridge.Good (c : Cartridge) : Prop where
  memories : c.memoriesOk
  sizes : c.sizesOk
  mapper : c.mapperOk

/-- A step of the cartridge that keeps the image, the memories and a sound mapper keeps all of it. -/
theorem Cartridge.Good.step {c d : Cartridge} (h : c.Good) (hi : c.sameImage d) (hm : d.memoriesOk)
    (ho : d.mapper.ok = true) : d.Good := ⟨hm, hi.sizesOk h.sizes, hi.mapperOk h.mapper ho⟩

section GoodCartridge
variable {c : Cartridge} (h : c.Good)
include h

theorem notifyAddressBus_good (addr : Word) (fc : Nat) : (c.notifyAddressBus addr fc).Good :=
  h.step (notifyAddressBus_sameImage ..) (notifyAddressBus_memoriesOk h.memories _ _)
    ((notifyAddressBus_ok ..).trans h.mapper.2)

theorem notifyAddrChange_good (addr : Word) (fc : Nat) : (c.notifyAddrChange addr fc).Good := by
  unfold Cartridge.notifyAddrChange
  exact notifyAddressBus_good h _ _

theorem chrRead_good (a : Nat) : (c.chrRead a).2.Good :=
  h.step (chrRead_sameImage ..) (chrRead_memoriesOk h.memories _) ((afterChrRead_ok ..).trans h.mapper.2)

theorem chrWrite_good {a : Nat} (ha : a < 0x2000) (v : Byte) : (c.chrWrite a v).Good :=
  h.step (chrWrite_sameImage ..) (chrWrite_memoriesOk h.memories h.sizes ha v) (by rw [chrWrite_eq]; exact h.mapper.2)

theorem cpuWrite_good (a : Nat) (v : Byte) : (c.cpuWrite a v).Good :=
  h.step (cpuWrite_sameImage ..) (cpuWrite_memoriesOk h.memories _ _) (cpuWrite_ok h.mapper.2 _ _)

theorem notifyFrameStart_good : c.notifyFrameStart.Good :=
  h.step (notifyFrameStart_sameImage _) (notifyFrameStart_memoriesOk h.memories) ((notifyFrameStart_ok _).trans h.mapper.2)

theorem irqClear_good : c.irqClear.Good :=
  h.step (irqClear_sameImage _) (irqClear_memoriesOk h.memories) ((irqClear_ok _).trans h.mapper.2)

end GoodCartridge

end Sys2Proof.Machine
end

