-- ==== Sys2Proof/Laws/Video.lean ====
section
/-! SUPPORT. The PPU: what its registers may change, and that the registers and the dots keep the good states of
Safety.lean. -/

namespace Sys2Proof.Machine

theorem Ppu.sameRendering_refl (p : Ppu) : p.sameRendering p := rfl

theorem Ppu.sameRendering_trans {p q r : Ppu} (h : p.sameRendering q) (h' : q.sameRendering r) : p.sameRendering r := by
  unfold Ppu.sameRendering at *
  rw [h']
  congr 1 <;> rw [h]

/-- What a register access may change of the PPU and the cartridge: nothing of the rendering, nothing of the CPU's
view of the cartridge. -/
structure Video.registerStep (s t : Video) : Prop where
  rendering : s.ppu.sameRendering t.ppu
  image : s.cart.sameImage t.cart
  prgRam : t.cart.prgRam = s.cart.prgRam
  prgSlot : ∀ a, t.cart.prgSlot a = s.cart.prgSlot a

theorem Video.registerStep.refl (s : Video) : s.registerStep s :=
  ⟨rfl, s.cart.sameImage_refl, rfl, fun _ => rfl⟩

theorem Video.registerStep.trans {s t u : Video} (h : s.registerStep t) (h' : t.registerStep u) : s.registerStep u :=
  ⟨s.ppu.sameRendering_trans h.rendering h'.rendering, Cartridge.sameImage_trans h.image h'.image,
    h'.prgRam.trans h.prgRam, fun a => (h'.prgSlot a).trans (h.prgSlot a)⟩

/-- The register operations touch the PPU alone when they leave the cartridge. -/
theorem Video.registerStep.ofPpu {s : Video} {p : Ppu} (h : s.ppu.sameRendering p) :
    s.registerStep { s with ppu := p } :=
  ⟨h, s.cart.sameImage_refl, rfl, fun _ => rfl⟩

section Registers
variable (s : Video)

theorem busRead_registerStep (addr : Word) : s.registerStep (s.busRead addr).2 := by
  unfold Video.busRead
  dsimp only
  split
  · exact ⟨rfl, chrRead_sameImage _ _, rfl, fun _ => chrRead_prgSlot ..⟩
  · split <;> exact .refl s

theorem busWrite_registerStep (addr : Word) (v : Byte) : s.registerStep (s.busWrite addr v) := by
  unfold Video.busWrite
  dsimp only
  split
  · refine ⟨rfl, chrWrite_sameImage _ _ _, ?_, fun _ => chrWrite_prgSlot ..⟩
    rw [chrWrite_eq]
  · split <;> exact .ofPpu rfl

theorem notify_registerStep (p : Ppu) (h : s.ppu.sameRendering p) (addr : Word) (fc : Nat) :
    s.registerStep ⟨p, s.cart.notifyAddrChange addr fc⟩ := by
  refine ⟨h, notifyAddressBus_sameImage .., ?_, fun _ => notifyAddressBus_prgSlot ..⟩
  unfold Cartridge.notifyAddrChange
  rw [notifyAddressBus_eq]

theorem advanceAddr_registerStep : s.registerStep s.advanceAddr := notify_registerStep s _ rfl _ _

theorem readData_registerStep : s.registerStep s.readData.2 := by
  unfold Video.readData
  dsimp only
  split
  · exact ((busRead_registerStep s _).trans (busRead_registerStep _ _)).trans
      ((Video.registerStep.ofPpu rfl).trans (advanceAddr_registerStep _))
  · exact (busRead_registerStep s _).trans ((Video.registerStep.ofPpu rfl).trans (advanceAddr_registerStep _))

theorem readStatus_sameRendering (p : Ppu) : p.sameRendering p.readStatus.2 := by
  unfold Ppu.readStatus Ppu.sameRendering
  dsimp only
  repeat' split
  all_goals rfl

theorem writeCtrl_sameRendering (p : Ppu) (v : Byte) : p.sameRendering (p.writeCtrl v) := by
  unfold Ppu.writeCtrl Ppu.sameRendering
  dsimp only
  split <;> rfl

theorem writeScroll_sameRendering (p : Ppu) (v : Byte) : p.sameRendering (p.writeScroll v) := by
  unfold Ppu.writeScroll Ppu.sameRendering
  split <;> rfl

theorem writeAddr_registerStep (v : Byte) : s.registerStep (s.writeAddr v) := by
  unfold Video.writeAddr
  split
  · exact notify_registerStep s _ rfl _ _
  · exact .ofPpu rfl

/-- A read of a PPU register. -/
theorem regRead_registerStep (reg : Nat) : s.registerStep (s.regRead reg).2 := by
  unfold Video.regRead
  split
  · exact .ofPpu (readStatus_sameRendering _)
  · exact .refl s
  · exact readData_registerStep s
  · exact .refl s

/-- A write of a PPU register. -/
theorem regWrite_registerStep (reg : Nat) (v : Byte) : s.registerStep (s.regWrite reg v) := by
  unfold Video.regWrite
  split
  · exact .ofPpu (writeCtrl_sameRendering _ _)
  · exact .ofPpu rfl
  · exact .ofPpu rfl
  · exact .ofPpu rfl
  · exact .ofPpu (writeScroll_sameRendering _ _)
  · exact writeAddr_registerStep s v
  · exact (busWrite_registerStep s _ v).trans (advanceAddr_registerStep _)
  · exact .refl s

end Registers

/-! ## Good states -/

/-- Everything Safety.lean asks of the PPU. -/
structure Ppu.Good (p : Ppu) : Prop where
  grid : p.onGrid
  fields : p.fieldsOk
  sprites : p.spritesOk
  memories : p.memoriesOk

/-- Everything Safety.lean asks of the two together. -/
structure Video.Good (s : Video) : Prop where
  ppu : s.ppu.Good
  cart : s.cart.Good

theorem ntIndex_lt (m : MirrorMode) (a : Nat) : ntIndex m a < 4096 := by
  cases m <;> simp only [ntIndex] <;> omega

theorem palIndex_lt (a : Nat) : palIndex a < 32 := by
  unfold palIndex
  dsimp only
  split <;> omega

section Good
variable {s : Video} (h : s.Good)
include h

theorem busRead_good (addr : Word) : (s.busRead addr).2.Good := by
  unfold Video.busRead
  dsimp only
  split
  · exact ⟨h.ppu, chrRead_good h.cart _⟩
  · split <;> exact h

theorem busWrite_good (addr : Word) (v : Byte) : (s.busWrite addr v).Good := by
  obtain ⟨h1, h2, h3, h4⟩ := h.ppu
  unfold Video.busWrite
  dsimp only
  split
  · next ha =>
    exact ⟨h.ppu, chrWrite_good h.cart ha v⟩
  · split
    · exact ⟨⟨h1, h2, h3, h4.1, ⟨Memory.write_wf v h4.2.1.1, Memory.write_below v h4.2.1.2 (ntIndex_lt _ _)⟩, h4.2.2⟩,
        h.cart⟩
    · exact ⟨⟨h1, h2, h3, h4.1, h4.2.1, Memory.write_wf v h4.2.2.1, Memory.write_below v h4.2.2.2 (palIndex_lt _)⟩,
        h.cart⟩

theorem fetch_good (addr : Word) : (s.fetch addr).2.Good :=
  busRead_good (s := { s with cart := s.cart.notifyAddressBus addr s.ppu.frameCycle })
    ⟨h.ppu, notifyAddressBus_good h.cart addr _⟩ addr

theorem advanceAddr_good : s.advanceAddr.Good := by
  obtain ⟨h1, h2, h3, h4⟩ := h.ppu
  exact ⟨⟨h1, ⟨by simp [Video.advanceAddr], h2.2⟩, h3, h4⟩, notifyAddrChange_good h.cart _ _⟩

end Good

theorem withDataBuffer_good {s : Video} (h : s.Good) (b : Byte) :
    Video.Good { s with ppu := { s.ppu with dataBuffer := b } } :=
  ⟨⟨h.ppu.grid, h.ppu.fields, h.ppu.sprites, h.ppu.memories⟩, h.cart⟩

theorem status_and {p : Byte} (h : p &&& 0x1F#8 = 0#8) (q : Byte) : p &&& q &&& 0x1F#8 = 0#8 := by
  rw [BitVec.and_assoc, BitVec.and_comm q, ← BitVec.and_assoc, h, BitVec.zero_and]

theorem status_or {p q : Byte} (h : p &&& 0x1F#8 = 0#8) (hq : q &&& 0x1F#8 = 0#8) : (p ||| q) &&& 0x1F#8 = 0#8 := by
  have : (p ||| q) &&& 0x1F#8 = (p &&& 0x1F#8) ||| (q &&& 0x1F#8) := by
    apply BitVec.eq_of_getLsbD_eq
    intro i hi
    simp only [BitVec.getLsbD_and, BitVec.getLsbD_or, Bool.and_or_distrib_right]
  rw [this, h, hq, BitVec.or_zero]

section GoodRegisters
variable {s : Video} (h : s.Good)
include h

theorem readData_good : s.readData.2.Good := by
  unfold Video.readData
  dsimp only
  split
  · exact advanceAddr_good (withDataBuffer_good (busRead_good (busRead_good h _) _) _)
  · exact advanceAddr_good (withDataBuffer_good (busRead_good h _) _)

theorem writeAddr_good (v : Byte) : (s.writeAddr v).Good := by
  obtain ⟨h1, h2, h3, h4⟩ := h.ppu
  unfold Video.writeAddr
  dsimp only
  split
  · have ht : (s.ppu.t &&& 0x7F00#16 ||| zext16 v).getLsbD 15 = false := by simp [zext16]
    exact ⟨⟨h1, ⟨ht, ht, h2.2.2⟩, h3, h4⟩, notifyAddrChange_good h.cart _ _⟩
  · have ht : (s.ppu.t &&& 0x00FF#16 ||| (zext16 (v &&& 0x3F#8) <<< 8)).getLsbD 15 = false := by simp [zext16]
    exact ⟨⟨h1, ⟨h2.1, ht, h2.2.2⟩, h3, h4⟩, h.cart⟩

theorem readStatus_good : s.ppu.readStatus.2.Good := by
  obtain ⟨h1, h2, h3, h4⟩ := h.ppu
  have hs : s.ppu.status &&& 0x7F#8 &&& 0x1F#8 = 0#8 := status_and h2.2.2 _
  unfold Ppu.readStatus
  dsimp only
  repeat' split
  all_goals exact ⟨h1, ⟨h2.1, h2.2.1, hs⟩, h3, h4⟩

theorem writeCtrl_good (v : Byte) : (s.ppu.writeCtrl v).Good := by
  obtain ⟨h1, h2, h3, h4⟩ := h.ppu
  have ht : (s.ppu.t &&& 0x73FF#16 ||| (zext16 (v &&& 0x03#8) <<< 10)).getLsbD 15 = false := by
    simp [zext16]
  unfold Ppu.writeCtrl
  dsimp only
  split <;> exact ⟨h1, ⟨h2.1, ht, h2.2.2⟩, h3, h4⟩

theorem writeScroll_good (v : Byte) : (s.ppu.writeScroll v).Good := by
  obtain ⟨h1, h2, h3, h4⟩ := h.ppu
  unfold Ppu.writeScroll
  split
  · refine ⟨h1, ⟨h2.1, ?_, h2.2.2⟩, h3, h4⟩
    simp [zext16]
  · refine ⟨h1, ⟨h2.1, ?_, h2.2.2⟩, h3, h4⟩
    simp [zext16]

theorem oamWrite_good {k : Nat} (hk : k < 256) (v : Byte) : (s.ppu.oamWrite k v).Good :=
  ⟨h.ppu.grid, h.ppu.fields, h.ppu.sprites,
    ⟨Memory.write_wf v h.ppu.memories.1.1, Memory.write_below v h.ppu.memories.1.2 hk⟩, h.ppu.memories.2⟩

theorem regRead_good (reg : Nat) : (s.regRead reg).2.Good := by
  unfold Video.regRead
  split
  · exact ⟨readStatus_good h, h.cart⟩
  · exact h
  · exact readData_good h
  · exact h

theorem regWrite_good (reg : Nat) (v : Byte) : (s.regWrite reg v).Good := by
  have hp := h.ppu
  unfold Video.regWrite
  split
  · exact ⟨writeCtrl_good h v, h.cart⟩
  · exact ⟨⟨hp.grid, hp.fields, hp.sprites, hp.memories⟩, h.cart⟩
  · exact ⟨⟨hp.grid, hp.fields, hp.sprites, hp.memories⟩, h.cart⟩
  · have ho := oamWrite_good h s.ppu.oamAddr.isLt v
    exact ⟨⟨ho.grid, ho.fields, ho.sprites, ho.memories⟩, h.cart⟩
  · exact ⟨writeScroll_good h v, h.cart⟩
  · exact writeAddr_good h v
  · exact advanceAddr_good (busWrite_good h _ v)
  · exact h

end GoodRegisters

end Sys2Proof.Machine
end

