-- ==== Sys2Proof/Laws/Dots.lean ====
section
/-! SUPPORT. One dot of the PPU: `v` keeps its 15 bits, and every part of a dot keeps the good states. -/

namespace Sys2Proof.Machine

/-! ## The scroll arithmetic -/

theorem bit15_iff (v : Word) : v.getLsbD 15 = false ↔ v.toNat < 0x8000 := by
  have := v.isLt
  simp only [BitVec.getLsbD, Nat.testBit_eq_decide_div_mod_eq, decide_eq_false_iff_not]
  omega

theorem incCoarseX_bit15 {v : Word} (h : v.getLsbD 15 = false) : (incCoarseX v).getLsbD 15 = false := by
  unfold incCoarseX
  split
  · rw [BitVec.getLsbD_xor, BitVec.getLsbD_and, h]
    decide
  · next hne =>
    rw [bit15_iff] at h ⊢
    have hmod : v.toNat % 32 ≠ 31 := fun hm => hne <| by
      apply BitVec.eq_of_toNat_eq
      simp only [BitVec.toNat_and, BitVec.toNat_ofNat]
      exact (Nat.and_two_pow_sub_one_eq_mod v.toNat 5).trans hm
    simp only [BitVec.toNat_add, BitVec.toNat_ofNat]
    omega

theorem and_7000 {v : Word} (h : 0x7000 ≤ v.toNat) (h' : v.toNat < 0x8000) : v &&& 0x7000#16 = 0x7000#16 := by
  apply BitVec.eq_of_getLsbD_eq
  intro i hi
  have hd : v.toNat / 2 ^ 12 = 7 := by omega
  have hb : ∀ k, v.getLsbD (12 + k) = Nat.testBit 7 k := fun k => by
    rw [← hd, Nat.testBit_div_two_pow]
    simp [BitVec.getLsbD, Nat.add_comm]
  rw [BitVec.getLsbD_and]
  rcases Nat.lt_or_ge i 12 with h12 | h12
  · have : (0x7000#16).getLsbD i = false := by
      clear hb hi
      interval_cases i <;> decide
    simp [this]
  · obtain ⟨k, rfl⟩ := Nat.exists_eq_add_of_le h12
    rw [hb]
    have : k < 4 := by omega
    clear hi h12
    interval_cases k <;> decide

theorem incFineY_bit15 {v : Word} (h : v.getLsbD 15 = false) : (incFineY v).getLsbD 15 = false := by
  unfold incFineY
  split
  · next hne =>
    rw [bit15_iff] at h ⊢
    have : v.toNat < 0x7000 := Nat.lt_of_not_le fun hle => hne (and_7000 hle h)
    simp only [BitVec.toNat_add, BitVec.toNat_ofNat]
    omega
  · dsimp only
    have hy : ∀ y : Word, y.toNat < 64 → (y <<< 5).getLsbD 15 = false := by
      intro y hy
      rw [bit15_iff, BitVec.toNat_shiftLeft, Nat.shiftLeft_eq]
      omega
    have h31 : (v &&& ~~~0x7000#16) >>> 5 &&& 0x1F#16 ≤ 0x1F#16 := by
      rw [BitVec.le_def, BitVec.toNat_and]
      exact Nat.and_le_right
    rw [BitVec.le_def] at h31
    generalize hw : (v &&& ~~~0x7000#16) >>> 5 &&& 0x1F#16 = y at h31 ⊢
    have hu : ∀ b : Word, b.getLsbD 15 = false → (b &&& ~~~0x03E0#16 ||| (if y = 29#16 ∨ y = 31#16 then 0#16 else y + 1#16) <<< 5).getLsbD 15 = false := by
      intro b hb
      rw [BitVec.getLsbD_or, BitVec.getLsbD_and, hb, hy]
      · rfl
      · simp only [BitVec.toNat_ofNat] at h31
        split
        · decide
        · simp only [BitVec.toNat_add, BitVec.toNat_ofNat]
          omega
    apply hu
    split
    · rw [BitVec.getLsbD_xor, BitVec.getLsbD_and, h]
      decide
    · rw [BitVec.getLsbD_and, h]
      rfl

theorem copyHorizontal_bit15 {v t : Word} (h : v.getLsbD 15 = false) : (copyHorizontal v t).getLsbD 15 = false := by
  unfold copyHorizontal
  rw [BitVec.getLsbD_or, BitVec.getLsbD_and, BitVec.getLsbD_and, h, Bool.false_and, Bool.false_or]
  simp

theorem copyVertical_bit15 {v t : Word} (h : v.getLsbD 15 = false) : (copyVertical v t).getLsbD 15 = false := by
  unfold copyVertical
  rw [BitVec.getLsbD_or, BitVec.getLsbD_and, BitVec.getLsbD_and, h, Bool.false_and, Bool.false_or]
  simp

/-! ## The parts of a dot -/

theorem fetchTileId_good {s : Video} (h : s.Good) : s.fetchTileId.Good := by
  have hf := fetch_good h (tileAddr s.ppu.v)
  exact ⟨⟨hf.ppu.grid, hf.ppu.fields, hf.ppu.sprites, hf.ppu.memories⟩, hf.cart⟩

theorem backgroundFetch_good {s : Video} (h : s.Good) (k : Nat) : (s.backgroundFetch k).Good := by
  have hp := h.ppu
  unfold Video.backgroundFetch
  split
  · exact fetchTileId_good (s := { s with ppu := s.ppu.loadShifters })
      ⟨⟨hp.grid, hp.fields, hp.sprites, hp.memories⟩, h.cart⟩
  · have hf := fetch_good h (attrAddr s.ppu.v)
    exact ⟨⟨hf.ppu.grid, hf.ppu.fields, hf.ppu.sprites, hf.ppu.memories⟩, hf.cart⟩
  · have hf := fetch_good h s.ppu.patternAddr
    exact ⟨⟨hf.ppu.grid, hf.ppu.fields, hf.ppu.sprites, hf.ppu.memories⟩, hf.cart⟩
  · have hf := fetch_good h (s.ppu.patternAddr + 8#16)
    exact ⟨⟨hf.ppu.grid, hf.ppu.fields, hf.ppu.sprites, hf.ppu.memories⟩, hf.cart⟩
  · exact ⟨⟨hp.grid, ⟨incCoarseX_bit15 hp.fields.1, hp.fields.2⟩, hp.sprites, hp.memories⟩, h.cart⟩
  · exact h

/-- Taking a sprite into a free slot. -/
theorem takeSprite_good {p : Ppu} (h : p.Good) (hc : p.spriteCount < 8) (n : Nat) : (p.takeSprite n).Good := by
  refine ⟨h.grid, h.fields, ⟨?_, fun i hi => ?_⟩, h.memories⟩
  · show p.spriteCount + 1 ≤ 8
    omega
  · show i < p.spriteCount + 1
    have hi : (if n = 0 then some p.spriteCount else p.spriteZeroIndex) = some i := hi
    split at hi
    · have := Option.some.inj hi
      omega
    · have := h.sprites.2 i hi
      omega

theorem evaluateFrom_good (k : Nat) : ∀ {p : Ppu} (n : Nat), p.Good → (evaluateFrom p n k).Good := by
  induction k with
  | zero => exact fun _ h => h
  | succ k ih =>
    intro p n h
    unfold evaluateFrom
    dsimp only
    split
    · split
      · next hc => exact ih _ (takeSprite_good h hc n)
      · exact ⟨h.grid, ⟨h.fields.1, h.fields.2.1, status_or h.fields.2.2 rfl⟩, h.sprites, h.memories⟩
    · exact ih _ h

theorem evaluateSprites_good {p : Ppu} (h : p.Good) : p.evaluateSprites.Good := by
  have h1 : Ppu.Good { p with spriteCount := 0, spriteZeroIndex := none, spriteZeroHitPossible := false } :=
    ⟨h.grid, h.fields, ⟨Nat.zero_le _, fun i hi => by cases hi⟩, h.memories⟩
  unfold Ppu.evaluateSprites
  dsimp only
  split
  · exact h1
  · exact evaluateFrom_good _ _ h1

theorem spritePattern_good {s : Video} (h : s.Good) (i : Nat) (plane : Word) : (s.spritePattern i plane).Good := by
  unfold Video.spritePattern
  dsimp only
  have hf := fetch_good h ((if decide (i < s.ppu.spriteCount) = true then s.ppu.spriteAddr (s.ppu.slot i) else s.ppu.dummyAddr) + plane)
  exact ⟨⟨hf.ppu.grid, hf.ppu.fields, hf.ppu.sprites, hf.ppu.memories⟩, hf.cart⟩

theorem spriteFetch_good {s : Video} (h : s.Good) (c : Nat) : (s.spriteFetch c).Good := by
  unfold Video.spriteFetch
  dsimp only
  split
  · exact fetch_good h _
  · exact fetch_good h _
  · exact spritePattern_good h _ _
  · exact spritePattern_good h _ _
  · exact h

theorem shiftDot_good {p : Ppu} (h : p.Good) (c : Nat) : (p.shiftDot c).Good := by
  unfold Ppu.shiftDot Ppu.shiftBackground Ppu.advanceSprites
  dsimp only
  repeat' split
  all_goals exact ⟨h.grid, h.fields, h.sprites, h.memories⟩

theorem fetchDot_good {s : Video} (h : s.Good) (c : Nat) : (s.fetchDot c).Good := by
  unfold Video.fetchDot
  split
  · exact backgroundFetch_good h _
  · exact h

theorem lineEndDot_good {p : Ppu} (h : p.Good) (c : Nat) : (p.lineEndDot c).Good := by
  unfold Ppu.lineEndDot
  split
  · exact ⟨h.grid, ⟨incFineY_bit15 h.fields.1, h.fields.2⟩, h.sprites, h.memories⟩
  · split
    · exact evaluateSprites_good ⟨h.grid, ⟨copyHorizontal_bit15 h.fields.1, h.fields.2⟩, h.sprites, h.memories⟩
    · exact h

theorem tailDot_good {s : Video} (h : s.Good) (c : Nat) : (s.tailDot c).Good := by
  unfold Video.tailDot
  split
  · exact spriteFetch_good h c
  · split
    · exact fetchTileId_good (s := { s with ppu := s.ppu.loadShifters })
        ⟨⟨h.ppu.grid, h.ppu.fields, h.ppu.sprites, h.ppu.memories⟩, h.cart⟩
    · split
      · exact fetchTileId_good h
      · exact h

theorem outputPixel_good {p : Ppu} (h : p.Good) (px py : Nat) : (p.outputPixel px py).Good := by
  refine ⟨h.grid, ⟨h.fields.1, h.fields.2.1, ?_⟩, h.sprites, h.memories⟩
  unfold Ppu.outputPixel
  dsimp only
  split
  · exact status_or h.fields.2.2 rfl
  · exact h.fields.2.2

theorem renderDot_good {s : Video} (h : s.Good) (c : Nat) : (s.renderDot c).Good := by
  have h1 : (Video.fetchDot { s with ppu := s.ppu.shiftDot c } c).Good := 
    fetchDot_good (s := { s with ppu := s.ppu.shiftDot c }) ⟨shiftDot_good h.ppu c, h.cart⟩ c
  unfold Video.renderDot
  generalize Video.fetchDot { s with ppu := s.ppu.shiftDot c } c = s1 at h1 ⊢
  have h2 : (Video.tailDot { s1 with ppu := s1.ppu.lineEndDot c } c).Good :=
    tailDot_good (s := { s1 with ppu := s1.ppu.lineEndDot c }) ⟨lineEndDot_good h1.ppu c, h1.cart⟩ c
  dsimp only
  generalize Video.tailDot { s1 with ppu := s1.ppu.lineEndDot c } c = s2 at h2 ⊢
  have h3 : Video.Good (if s2.ppu.scanline = Config.preRenderLine ∧ 280 ≤ c ∧ c ≤ 304 then
      { s2 with ppu := { s2.ppu with v := copyVertical s2.ppu.v s2.ppu.t } } else s2) := by
    split
    · exact ⟨⟨h2.ppu.grid, ⟨copyVertical_bit15 h2.ppu.fields.1, h2.ppu.fields.2⟩, h2.ppu.sprites, h2.ppu.memories⟩, h2.cart⟩
    · exact h2
  generalize (if s2.ppu.scanline = Config.preRenderLine ∧ 280 ≤ c ∧ c ≤ 304 then
      { s2 with ppu := { s2.ppu with v := copyVertical s2.ppu.v s2.ppu.t } } else s2) = s3 at h3 ⊢
  split
  · exact ⟨outputPixel_good h3.ppu _ _, h3.cart⟩
  · exact h3

theorem work_good {s : Video} (h : s.Good) : s.work.Good := by
  unfold Video.work
  split
  · split
    · exact renderDot_good h _
    · split
      · exact ⟨⟨h.ppu.grid, h.ppu.fields, h.ppu.sprites, h.ppu.memories⟩, h.cart⟩
      · exact h
  · exact h

/-- The position stays on the grid. -/
theorem advance_good {s : Video} (h : s.Good) : s.advance.Good := by
  have hp := h.ppu
  have hg := hp.grid
  unfold Video.advance
  split
  · exact ⟨⟨⟨Nat.zero_le _, Nat.zero_le _⟩, hp.fields, hp.sprites, hp.memories⟩,
      notifyFrameStart_good h.cart⟩
  · next he =>
    split
    · next hc =>
      refine ⟨⟨⟨hg.1, ?_⟩, hp.fields, hp.sprites, hp.memories⟩, h.cart⟩
      show s.ppu.cycle + 1 ≤ 340
      omega
    · next hc =>
      refine ⟨⟨⟨?_, Nat.zero_le _⟩, hp.fields, hp.sprites, hp.memories⟩, h.cart⟩
      show s.ppu.scanline + 1 ≤ 261
      have h340 : s.ppu.cycle = 340 := by omega
      have hne : s.ppu.scanline ≠ 261 := fun hs => he (by simp [Ppu.frameEnds, hs, h340, Config.preRenderLine])
      omega

theorem countNmi_good {p : Ppu} (h : p.Good) : p.countNmi.Good := by
  unfold Ppu.countNmi
  dsimp only
  repeat' split
  all_goals exact ⟨h.grid, h.fields, h.sprites, h.memories⟩

theorem startVblank_good {p : Ppu} (h : p.Good) : p.startVblank.Good := by
  have hs := status_or (q := 0x80#8) h.fields.2.2 rfl
  unfold Ppu.startVblank
  dsimp only
  repeat' split
  · exact ⟨h.grid, h.fields, h.sprites, h.memories⟩
  · exact ⟨h.grid, ⟨h.fields.1, h.fields.2.1, hs⟩, h.sprites, h.memories⟩
  · exact ⟨h.grid, ⟨h.fields.1, h.fields.2.1, hs⟩, h.sprites, h.memories⟩

theorem endVblank_good {p : Ppu} (h : p.Good) : p.endVblank.Good :=
  ⟨h.grid, ⟨h.fields.1, h.fields.2.1, status_and h.fields.2.2 _⟩, h.sprites, h.memories⟩

theorem events_good {p : Ppu} (h : p.Good) : p.events.Good := by
  unfold Ppu.events
  split
  · exact startVblank_good h
  · split
    · exact endVblank_good h
    · exact h

/-- A dot keeps the good states. -/
theorem dot_good {s : Video} (h : s.Good) : s.dot.Good := by
  have h1 := advance_good (work_good h)
  exact ⟨events_good (countNmi_good h1.ppu), h1.cart⟩

/-! ## What a dot leaves alone -/

/-- What no dot changes of the PPU: its memories and what the CPU wrote into its registers. -/
structure Ppu.keepsInputs (p q : Ppu) : Prop where
  oam : q.oam = p.oam
  nametableRam : q.nametableRam = p.nametableRam
  paletteRam : q.paletteRam = p.paletteRam
  ctrl : q.ctrl = p.ctrl
  mask : q.mask = p.mask
  oamAddr : q.oamAddr = p.oamAddr
  t : q.t = p.t
  fineX : q.fineX = p.fineX
  w : q.w = p.w
  dataBuffer : q.dataBuffer = p.dataBuffer
  nmiOutput : q.nmiOutput = p.nmiOutput

theorem Ppu.keepsInputs.refl (p : Ppu) : p.keepsInputs p := by constructor <;> rfl

theorem Ppu.keepsInputs.trans {p q r : Ppu} (h : p.keepsInputs q) (h' : q.keepsInputs r) : p.keepsInputs r where
  oam := h'.oam.trans h.oam
  nametableRam := h'.nametableRam.trans h.nametableRam
  paletteRam := h'.paletteRam.trans h.paletteRam
  ctrl := h'.ctrl.trans h.ctrl
  mask := h'.mask.trans h.mask
  oamAddr := h'.oamAddr.trans h.oamAddr
  t := h'.t.trans h.t
  fineX := h'.fineX.trans h.fineX
  w := h'.w.trans h.w
  dataBuffer := h'.dataBuffer.trans h.dataBuffer
  nmiOutput := h'.nmiOutput.trans h.nmiOutput

/-- What no dot changes: the PPU's inputs, the cartridge's image and memories. -/
structure Video.rendersTo (s t : Video) : Prop where
  ppu : s.ppu.keepsInputs t.ppu
  image : s.cart.sameImage t.cart
  chr : t.cart.chr = s.cart.chr
  prgRam : t.cart.prgRam = s.cart.prgRam

theorem Video.rendersTo.refl (s : Video) : s.rendersTo s := ⟨.refl _, s.cart.sameImage_refl, rfl, rfl⟩

theorem Video.rendersTo.trans {s t u : Video} (h : s.rendersTo t) (h' : t.rendersTo u) : s.rendersTo u :=
  ⟨h.ppu.trans h'.ppu, Cartridge.sameImage_trans h.image h'.image, h'.chr.trans h.chr, h'.prgRam.trans h.prgRam⟩

theorem Video.rendersTo.ofPpu {s : Video} {p : Ppu} (h : s.ppu.keepsInputs p) : s.rendersTo { s with ppu := p } :=
  ⟨h, s.cart.sameImage_refl, rfl, rfl⟩

theorem Video.rendersTo.withPpu {s t : Video} (h : s.rendersTo t) {p : Ppu} (hp : t.ppu.keepsInputs p) :
    s.rendersTo { t with ppu := p } := h.trans (.ofPpu hp)

theorem fetch_rendersTo (s : Video) (addr : Word) : s.rendersTo (s.fetch addr).2 := by
  have hn : s.rendersTo { s with cart := s.cart.notifyAddressBus addr s.ppu.frameCycle } := by
    refine ⟨.refl _, notifyAddressBus_sameImage .., ?_, ?_⟩ <;> · rw [notifyAddressBus_eq]
  refine hn.trans ?_
  unfold Video.fetch Video.busRead
  dsimp only
  split
  · exact ⟨.refl _, chrRead_sameImage _ _, rfl, rfl⟩
  · split <;> exact .refl _

theorem fetchTileId_rendersTo (s : Video) : s.rendersTo s.fetchTileId :=
  (fetch_rendersTo s _).withPpu (by constructor <;> rfl)

theorem backgroundFetch_rendersTo (s : Video) (k : Nat) : s.rendersTo (s.backgroundFetch k) := by
  unfold Video.backgroundFetch
  split
  · exact (Video.rendersTo.ofPpu (by constructor <;> rfl)).trans (fetchTileId_rendersTo _)
  · exact (fetch_rendersTo s _).withPpu (by constructor <;> rfl)
  · exact (fetch_rendersTo s _).withPpu (by constructor <;> rfl)
  · exact (fetch_rendersTo s _).withPpu (by constructor <;> rfl)
  · exact .ofPpu (by constructor <;> rfl)
  · exact .refl s

theorem evaluateFrom_keepsInputs (k : Nat) : ∀ (p : Ppu) (n : Nat), p.keepsInputs (evaluateFrom p n k) := by
  induction k with
  | zero => exact fun p _ => .refl p
  | succ k ih =>
    intro p n
    unfold evaluateFrom
    dsimp only
    split
    · split
      · exact Ppu.keepsInputs.trans (by constructor <;> rfl) (ih _ _)
      · constructor <;> rfl
    · exact ih _ _

theorem evaluateSprites_keepsInputs (p : Ppu) : p.keepsInputs p.evaluateSprites := by
  unfold Ppu.evaluateSprites
  dsimp only
  split
  · constructor <;> rfl
  · exact Ppu.keepsInputs.trans (by constructor <;> rfl) (evaluateFrom_keepsInputs _ _ _)

theorem spritePattern_rendersTo (s : Video) (i : Nat) (plane : Word) : s.rendersTo (s.spritePattern i plane) :=
  (fetch_rendersTo s _).withPpu (by constructor <;> rfl)

theorem spriteFetch_rendersTo (s : Video) (c : Nat) : s.rendersTo (s.spriteFetch c) := by
  unfold Video.spriteFetch
  dsimp only
  split
  · exact fetch_rendersTo _ _
  · exact fetch_rendersTo _ _
  · exact spritePattern_rendersTo _ _ _
  · exact spritePattern_rendersTo _ _ _
  · exact .refl s

theorem shiftDot_keepsInputs (p : Ppu) (c : Nat) : p.keepsInputs (p.shiftDot c) := by
  unfold Ppu.shiftDot Ppu.shiftBackground Ppu.advanceSprites
  dsimp only
  repeat' split
  all_goals constructor <;> rfl

theorem lineEndDot_keepsInputs (p : Ppu) (c : Nat) : p.keepsInputs (p.lineEndDot c) := by
  unfold Ppu.lineEndDot
  split
  · constructor <;> rfl
  · split
    · exact Ppu.keepsInputs.trans (by constructor <;> rfl) (evaluateSprites_keepsInputs _)
    · exact .refl p

theorem tailDot_rendersTo (s : Video) (c : Nat) : s.rendersTo (s.tailDot c) := by
  unfold Video.tailDot
  split
  · exact spriteFetch_rendersTo s c
  · split
    · exact (Video.rendersTo.ofPpu (by constructor <;> rfl)).trans (fetchTileId_rendersTo _)
    · split
      · exact fetchTileId_rendersTo s
      · exact .refl s

theorem fetchDot_rendersTo (s : Video) (c : Nat) : s.rendersTo (s.fetchDot c) := by
  unfold Video.fetchDot
  split
  · exact backgroundFetch_rendersTo s _
  · exact .refl s

theorem renderDot_rendersTo (s : Video) (c : Nat) : s.rendersTo (s.renderDot c) := by
  have h1 := (Video.rendersTo.ofPpu (s := s) (shiftDot_keepsInputs s.ppu c)).trans (fetchDot_rendersTo _ c)
  unfold Video.renderDot
  generalize Video.fetchDot { s with ppu := s.ppu.shiftDot c } c = s1 at h1 ⊢
  have h2 := (h1.withPpu (lineEndDot_keepsInputs s1.ppu c)).trans (tailDot_rendersTo _ c)
  dsimp only
  generalize Video.tailDot { s1 with ppu := s1.ppu.lineEndDot c } c = s2 at h2 ⊢
  refine h2.trans ?_
  repeat' split
  all_goals first
    | exact .refl _
    | exact .ofPpu (by constructor <;> rfl)

theorem work_rendersTo (s : Video) : s.rendersTo s.work := by
  unfold Video.work
  split
  · split
    · exact renderDot_rendersTo s _
    · split
      · exact .ofPpu (by constructor <;> rfl)
      · exact .refl s
  · exact .refl s

theorem advance_rendersTo (s : Video) : s.rendersTo s.advance := by
  unfold Video.advance
  split
  · refine ⟨by constructor <;> rfl, notifyFrameStart_sameImage _, ?_, ?_⟩ <;>
      · unfold Cartridge.notifyFrameStart
        split <;> rfl
  · split <;> exact .ofPpu (by constructor <;> rfl)

theorem countNmi_keepsInputs (p : Ppu) : p.keepsInputs p.countNmi := by
  unfold Ppu.countNmi
  dsimp only
  repeat' split
  all_goals constructor <;> rfl

theorem events_keepsInputs (p : Ppu) : p.keepsInputs p.events := by
  unfold Ppu.events Ppu.startVblank Ppu.endVblank
  dsimp only
  repeat' split
  all_goals constructor <;> rfl

/-- Rendering only reads: a dot writes no memory and none of the CPU's registers in the PPU. -/
theorem dot_rendersTo (s : Video) : s.rendersTo s.dot :=
  ((work_rendersTo s).trans (advance_rendersTo _)).withPpu ((countNmi_keepsInputs _).trans (events_keepsInputs _))

end Sys2Proof.Machine
end

