-- ==== Sys2Proof/Laws/State.lean ====
section
/-! SUPPORT. One lemma per field per update of the state, so that no proof unfolds a record update. -/

namespace Sys2Proof.Machine

section MapCpu
variable (s : State) (f g : Cpu → Cpu)

@[simp] theorem mapCpu_cpu : (s.mapCpu f).cpu = f s.cpu := rfl
@[simp] theorem mapCpu_bus : (s.mapCpu f).bus = s.bus := rfl
@[simp] theorem mapCpu_ppu : (s.mapCpu f).ppu = s.ppu := rfl
@[simp] theorem mapCpu_apu : (s.mapCpu f).apu = s.apu := rfl
@[simp] theorem mapCpu_cart : (s.mapCpu f).cart = s.cart := rfl
@[simp] theorem mapCpu_loop : (s.mapCpu f).loop = s.loop := rfl
@[simp] theorem mapCpu_video : (s.mapCpu f).video = s.video := rfl
theorem mapCpu_mapCpu : (s.mapCpu f).mapCpu g = s.mapCpu fun c => g (f c) := rfl

end MapCpu

section WithCycles
variable (s : State) (n m : Nat)

@[simp] theorem withCycles_cpu : (s.withCycles n).cpu = s.cpu := rfl
@[simp] theorem withCycles_bus : (s.withCycles n).bus = s.bus := rfl
@[simp] theorem withCycles_ppu : (s.withCycles n).ppu = s.ppu := rfl
@[simp] theorem withCycles_apu : (s.withCycles n).apu = s.apu := rfl
@[simp] theorem withCycles_cart : (s.withCycles n).cart = s.cart := rfl
@[simp] theorem withCycles_stepCycles : (s.withCycles n).loop.stepCycles = n := rfl
@[simp] theorem withCycles_cycleCount : (s.withCycles n).loop.cycleCount = s.loop.cycleCount := rfl
@[simp] theorem withCycles_frameCount : (s.withCycles n).loop.frameCount = s.loop.frameCount := rfl
@[simp] theorem withCycles_nmiDelayArmed : (s.withCycles n).loop.nmiDelayArmed = s.loop.nmiDelayArmed := rfl
@[simp] theorem withCycles_input1 : (s.withCycles n).loop.input1 = s.loop.input1 := rfl
@[simp] theorem withCycles_input2 : (s.withCycles n).loop.input2 = s.loop.input2 := rfl
@[simp] theorem withCycles_withCycles : (s.withCycles n).withCycles m = s.withCycles m := rfl

end WithCycles

section WithVideo
variable (s : State) (v : Video)

@[simp] theorem withVideo_cpu : (s.withVideo v).cpu = s.cpu := rfl
@[simp] theorem withVideo_bus : (s.withVideo v).bus = s.bus := rfl
@[simp] theorem withVideo_ppu : (s.withVideo v).ppu = v.ppu := rfl
@[simp] theorem withVideo_apu : (s.withVideo v).apu = s.apu := rfl
@[simp] theorem withVideo_cart : (s.withVideo v).cart = v.cart := rfl
@[simp] theorem withVideo_loop : (s.withVideo v).loop = s.loop := rfl
@[simp] theorem video_ppu : s.video.ppu = s.ppu := rfl
@[simp] theorem video_cart : s.video.cart = s.cart := rfl
@[simp] theorem withVideo_video : s.withVideo s.video = s := rfl

end WithVideo

section Cpu
variable (c : Cpu) (f : Flag) (b : Bool) (v : Byte)

@[simp] theorem withFlag_a : (c.withFlag f b).a = c.a := rfl
@[simp] theorem withFlag_x : (c.withFlag f b).x = c.x := rfl
@[simp] theorem withFlag_y : (c.withFlag f b).y = c.y := rfl
@[simp] theorem withFlag_sp : (c.withFlag f b).sp = c.sp := rfl
@[simp] theorem withFlag_pc : (c.withFlag f b).pc = c.pc := rfl
@[simp] theorem withFlag_p : (c.withFlag f b).p = putFlag c.p f b := rfl
@[simp] theorem withFlag_nmiPending : (c.withFlag f b).nmiPending = c.nmiPending := rfl
@[simp] theorem withFlag_irqPending : (c.withFlag f b).irqPending = c.irqPending := rfl

@[simp] theorem setZN_a : (c.setZN v).a = c.a := rfl
@[simp] theorem setZN_x : (c.setZN v).x = c.x := rfl
@[simp] theorem setZN_y : (c.setZN v).y = c.y := rfl
@[simp] theorem setZN_sp : (c.setZN v).sp = c.sp := rfl
@[simp] theorem setZN_pc : (c.setZN v).pc = c.pc := rfl
@[simp] theorem setZN_nmiPending : (c.setZN v).nmiPending = c.nmiPending := rfl
@[simp] theorem setZN_irqPending : (c.setZN v).irqPending = c.irqPending := rfl

end Cpu

end Sys2Proof.Machine
end

