-- ==== Sys2Proof/Laws/Bus.lean ====
section
/-! SUPPORT. The bus, the stack and the addressing modes: what each shared operation can do, once. -/

namespace Sys2Proof.Machine

/-! ## What the CPU's accesses never change -/

theorem State.sameOutside_refl (s : State) : s.sameOutside s :=
  ⟨rfl, ⟨rfl, rfl⟩, rfl, rfl, s.cart.sameImage_refl⟩

theorem State.sameOutside_trans {s t u : State} (h : s.sameOutside t) (h' : t.sameOutside u) : s.sameOutside u := by
  obtain ⟨a1, ⟨b1, c1⟩, d1, e1, f1⟩ := h
  obtain ⟨a2, ⟨b2, c2⟩, d2, e2, f2⟩ := h'
  refine ⟨?_, ⟨b2.trans b1, c2.trans c1⟩, Ppu.sameRendering_trans d1 d2, Apu.sameOutput_trans e1 e2,
    Cartridge.sameImage_trans f1 f2⟩
  rw [a2, a1]

/-- What a bus access keeps: the CPU, the loop, and all that is outside the CPU's reach. -/
structure State.busStep (s t : State) : Prop where
  cpu : t.cpu = s.cpu
  loop : t.loop = s.loop
  outside : s.sameOutside t

theorem State.busStep.refl (s : State) : s.busStep s := ⟨rfl, rfl, s.sameOutside_refl⟩

theorem State.busStep.trans {s t u : State} (h : s.busStep t) (h' : t.busStep u) : s.busStep u :=
  ⟨h'.cpu.trans h.cpu, h'.loop.trans h.loop, State.sameOutside_trans h.outside h'.outside⟩

theorem withVideo_busStep {s : State} {v : Video} (h : s.video.registerStep v) : s.busStep (s.withVideo v) :=
  ⟨rfl, rfl, rfl, ⟨rfl, rfl⟩, h.rendering, rfl, h.image⟩

theorem withApu_busStep {s : State} {a : Apu} (h : s.apu.sameOutput a) : s.busStep { s with apu := a } :=
  ⟨rfl, rfl, rfl, ⟨rfl, rfl⟩, rfl, h, s.cart.sameImage_refl⟩

theorem port_read_state (p : Port) (b : Bool) : (p.read b).2.state = p.state := by
  unfold Port.read Port.load
  dsimp only
  split <;> rfl

/-- What a bus read changes: a device's registers at most. -/
theorem busRead_busStep (addr : Word) (s : State) : s.busStep (busRead addr s).2 := by
  unfold busRead
  dsimp only
  split
  · exact .refl s
  split
  · exact withVideo_busStep (regRead_registerStep _ _)
  split
  · exact withApu_busStep (apuReadStatus_sameOutput _)
  split
  · exact ⟨rfl, rfl, rfl, ⟨port_read_state _ _, rfl⟩, rfl, rfl, s.cart.sameImage_refl⟩
  split
  · exact ⟨rfl, rfl, rfl, ⟨rfl, port_read_state _ _⟩, rfl, rfl, s.cart.sameImage_refl⟩
  split <;> exact .refl s

/-- A bus read changes no RAM and no cartridge memory, and moves no PRG bank. -/
theorem busRead_memory (addr : Word) (s : State) :
    (busRead addr s).2.bus.ram = s.bus.ram ∧ (busRead addr s).2.cart.prgRam = s.cart.prgRam
      ∧ ∀ a, (busRead addr s).2.cart.prgSlot a = s.cart.prgSlot a := by
  unfold busRead
  dsimp only
  split
  · exact ⟨rfl, rfl, fun _ => rfl⟩
  split
  · have h := regRead_registerStep s.video (addr.toNat % 8)
    exact ⟨rfl, h.prgRam, h.prgSlot⟩
  repeat' split
  all_goals exact ⟨rfl, rfl, fun _ => rfl⟩

@[simp] theorem busRead_cpu (addr : Word) (s : State) : (busRead addr s).2.cpu = s.cpu := (busRead_busStep addr s).cpu
@[simp] theorem busRead_loop (addr : Word) (s : State) : (busRead addr s).2.loop = s.loop := (busRead_busStep addr s).loop
@[simp] theorem busRead_ram (addr : Word) (s : State) : (busRead addr s).2.bus.ram = s.bus.ram := (busRead_memory addr s).1

/-- A read of a quiet address changes nothing (20_memory.md R83). -/
theorem busRead_quiet {addr : Word} (h : quietAddr addr) (s : State) : (busRead addr s).2 = s := by
  unfold busRead
  dsimp only
  rcases h with h | h
  · rw [if_pos h]
  · rw [if_neg (by omega), if_neg (by omega), if_neg (by omega), if_neg (by omega), if_neg (by omega)]
    split <;> rfl

/-- A read of RAM (R62). -/
theorem busRead_ramAddr {addr : Word} (h : addr.toNat ≤ 0x1FFF) (s : State) :
    busRead addr s = (s.bus.ram.read (addr.toNat % 0x800), s) := by
  unfold busRead
  rw [if_pos h]

/-- A read of the cartridge's addresses. -/
theorem busRead_cart {addr : Word} (h : 0x4020 ≤ addr.toNat) (s : State) :
    busRead addr s = (s.cart.cpuRead addr.toNat, s) := by
  unfold busRead
  rw [if_neg (by omega), if_neg (by omega), if_neg (by omega), if_neg (by omega), if_neg (by omega), if_neg (by omega)]

/-- What a quiet address reads as is fixed by the RAM, the PRG RAM, the PRG banks and the image. -/
theorem peek_congr {s t : State} {a : Word} (h : quietAddr a) (hr : t.bus.ram = s.bus.ram)
    (hp : t.cart.prgRam = s.cart.prgRam) (hs : ∀ k, t.cart.prgSlot k = s.cart.prgSlot k)
    (hi : s.cart.sameImage t.cart) : peek a t = peek a s := by
  have hrom : t.cart.prgRom = s.cart.prgRom := by rw [hi.1]
  have hsize : t.cart.prgSize = s.cart.prgSize := by rw [hi.1]
  have hc : ∀ k, t.cart.cpuRead k = s.cart.cpuRead k := fun k => by
    simp only [Cartridge.cpuRead, Cartridge.prgByte, Cartridge.prgOffset, hp, hs, hrom, hsize]
  unfold peek
  rcases h with h | h
  · rw [busRead_ramAddr h, busRead_ramAddr h, hr]
  · rcases Nat.lt_or_ge a.toNat 0x4020 with h' | h'
    · unfold busRead
      simp only [if_neg (show ¬a.toNat ≤ 0x1FFF by omega), if_neg (show ¬a.toNat ≤ 0x3FFF by omega),
        if_neg (show ¬a.toNat = 0x4015 by omega), if_neg (show ¬a.toNat = 0x4016 by omega),
        if_neg (show ¬a.toNat = 0x4017 by omega), if_pos (show a.toNat ≤ 0x401F by omega)]
    · rw [busRead_cart h', busRead_cart h', hc]

/-- No bus read changes what a quiet address reads as. -/
theorem peek_busRead {a : Word} (h : quietAddr a) (addr : Word) (s : State) : peek a (busRead addr s).2 = peek a s :=
  have hm := busRead_memory addr s
  peek_congr h hm.1 hm.2.1 hm.2.2 (busRead_busStep addr s).outside.2.2.2.2

theorem dmaCopy_busStep (page : Byte) (k : Nat) : ∀ (i : Nat) (s : State), s.busStep (dmaCopy page i s k) := by
  induction k with
  | zero => exact fun _ s => .refl s
  | succ k ih =>
    intro i s
    rw [dmaCopy]
    refine State.busStep.trans ?_ (ih _ _)
    exact (busRead_busStep _ s).trans ⟨rfl, rfl, rfl, ⟨rfl, rfl⟩, rfl, rfl, Cartridge.sameImage_refl _⟩

theorem writeStrobe_states (b : Bus) (v : Byte) :
    (b.writeStrobe v).port0.state = b.port0.state ∧ (b.writeStrobe v).port1.state = b.port1.state := by
  unfold Bus.writeStrobe Port.load
  dsimp only
  split <;> exact ⟨rfl, rfl⟩

/-- What a bus write changes: RAM, a device's registers, the cartridge's registers and RAM. -/
theorem busWrite_busStep (addr : Word) (v : Byte) (s : State) : s.busStep (busWrite addr v s) := by
  unfold busWrite
  dsimp only
  split
  · exact ⟨rfl, rfl, rfl, ⟨rfl, rfl⟩, rfl, rfl, s.cart.sameImage_refl⟩
  split
  · exact withVideo_busStep (regWrite_registerStep _ _ _)
  split
  · have h := dmaCopy_busStep v 256 0 s
    exact h.trans ⟨rfl, rfl, rfl, ⟨rfl, rfl⟩, rfl, rfl, Cartridge.sameImage_refl _⟩
  split
  · exact ⟨rfl, rfl, rfl, writeStrobe_states _ _, rfl, rfl, s.cart.sameImage_refl⟩
  split
  · exact withApu_busStep (apuWrite_sameOutput _ _ _)
  split
  · exact .refl s
  · exact ⟨rfl, rfl, rfl, ⟨rfl, rfl⟩, rfl, rfl, cpuWrite_sameImage _ _ _⟩

@[simp] theorem busWrite_cpu (addr : Word) (v : Byte) (s : State) : (busWrite addr v s).cpu = s.cpu :=
  (busWrite_busStep addr v s).cpu

@[simp] theorem busWrite_loop (addr : Word) (v : Byte) (s : State) : (busWrite addr v s).loop = s.loop :=
  (busWrite_busStep addr v s).loop

/-- A write of RAM (R62). -/
theorem busWrite_ramAddr {addr : Word} (h : addr.toNat ≤ 0x1FFF) (v : Byte) (s : State) :
    busWrite addr v s = { s with bus := { s.bus with ram := s.bus.ram.write (addr.toNat % 0x800) v } } := by
  unfold busWrite
  rw [if_pos h]

/-! ## The stack is in RAM -/

theorem stackAddr_toNat (sp : Byte) : (stackAddr sp).toNat = 0x100 + sp.toNat := by
  have := sp.isLt
  simp only [stackAddr, Config.stackPage, zext16, BitVec.toNat_add, BitVec.toNat_setWidth, BitVec.toNat_ofNat]
  omega

/-- A push is one byte of RAM and the stack pointer. -/
theorem push_eq (v : Byte) (s : State) : push v s =
    { s with
      bus := { s.bus with ram := s.bus.ram.write (0x100 + s.cpu.sp.toNat) v }
      cpu := { s.cpu with sp := s.cpu.sp - 1#8 } } := by
  have hsp := s.cpu.sp.isLt
  have ha := stackAddr_toNat s.cpu.sp
  unfold push
  rw [busWrite_ramAddr (by omega), ha, Nat.mod_eq_of_lt (by omega)]

/-- A pull reads one byte of RAM and moves the stack pointer. -/
theorem pull_eq (s : State) : pull s =
    (s.bus.ram.read (0x100 + (s.cpu.sp + 1#8).toNat), { s with cpu := { s.cpu with sp := s.cpu.sp + 1#8 } }) := by
  have hsp := (s.cpu.sp + 1#8).isLt
  have ha := stackAddr_toNat (s.cpu.sp + 1#8)
  unfold pull
  rw [busRead_ramAddr (by omega), ha, Nat.mod_eq_of_lt (by omega)]

/-! ## Pointers and addressing modes -/

theorem zext16_toNat (z : Byte) : (zext16 z).toNat = z.toNat := by
  have := z.isLt
  simp only [zext16, BitVec.toNat_setWidth]
  omega

theorem zext16_quiet (z : Byte) : quietAddr (zext16 z) := by
  have := z.isLt
  have := zext16_toNat z
  left
  omega

/-- A pointer in page zero is two bytes of RAM, and reading it changes nothing. -/
theorem read16zp_eq (z : Byte) (s : State) :
    read16zp z s = (mkWord (s.bus.ram.read (z + 1#8).toNat) (s.bus.ram.read z.toNat), s) := by
  have h0 := z.isLt
  have h1 := (z + 1#8).isLt
  have e0 := zext16_toNat z
  have e1 := zext16_toNat (z + 1#8)
  unfold read16zp readPair
  simp only [busRead_ramAddr (show (zext16 z).toNat ≤ 0x1FFF by omega),
    busRead_ramAddr (show (zext16 (z + 1#8)).toNat ≤ 0x1FFF by omega), e0, e1,
    Nat.mod_eq_of_lt (show z.toNat < 0x800 by omega), Nat.mod_eq_of_lt (show (z + 1#8).toNat < 0x800 by omega)]

/-- Resolving an operand's address changes nothing. -/
@[simp] theorem resolve_state (m : Addr) (s : State) : (resolve m s).state = s := by
  cases m <;> simp [resolve, resolvedAt, resolvedIndexed, read16zp_eq]

/-- Reading two quiet addresses changes nothing. -/
theorem readPair_quiet {a b : Word} (ha : quietAddr a) (hb : quietAddr b) (s : State) :
    readPair a b s = (mkWord (peek b s) (peek a s), s) := by
  unfold readPair
  simp only [busRead_quiet ha, busRead_quiet hb, peek]

/-- Taking an exception: three bytes of RAM, `sp`, I, `pc`, seven cycles, when the vector is read quietly
(60_exceptions.md R303-R305; 44_control_flow.md R224). -/
theorem takeException_eq (ret : Word) (brk : Bool) {vector : Word} (h0 : quietAddr vector) (h1 : quietAddr (vector + 1#16))
    (s : State) : takeException ret brk vector s =
      let ram := ((s.bus.ram.write (0x100 + s.cpu.sp.toNat) (hi8 ret)).write (0x100 + (s.cpu.sp - 1#8).toNat) (lo8 ret)).write
        (0x100 + (s.cpu.sp - 1#8 - 1#8).toNat) (pushedP s.cpu.p brk)
      let s1 := { s with
        bus := { s.bus with ram := ram }
        cpu := { s.cpu with sp := s.cpu.sp - 1#8 - 1#8 - 1#8, p := putFlag s.cpu.p .I true } }
      State.withCycles { s1 with cpu := { s1.cpu with pc := mkWord (peek (vector + 1#16) s1) (peek vector s1) } } 7 := by
  unfold takeException read16
  simp only [readPair_quiet h0 h1, push16, push_eq]
  rfl

/-- Returning from an exception: three bytes of RAM pulled (R223). -/
theorem returnFromException_eq (s : State) : returnFromException s =
    let sp1 := s.cpu.sp + 1#8
    let sp2 := sp1 + 1#8
    let sp3 := sp2 + 1#8
    State.withCycles { s with cpu := { s.cpu with
      p := pulledP s.cpu.p (s.bus.ram.read (0x100 + sp1.toNat))
      pc := mkWord (s.bus.ram.read (0x100 + sp3.toNat)) (s.bus.ram.read (0x100 + sp2.toNat))
      sp := sp3 } } 6 := by
  unfold returnFromException pull16
  simp only [pull_eq]
  rfl

end Sys2Proof.Machine
end

