-- ==== Sys2Proof/Laws/Flags.lean ====
section
/-! SUPPORT. The status register: reading a flag after writing one, and what each flag computation leaves. -/

namespace Sys2Proof.Machine

theorem getFlag_eq (p : Byte) (f : Flag) : getFlag p f = p.getLsbD f.index := rfl

/-- A flag just written reads as written; every other flag as before. -/
theorem getFlag_putFlag (p : Byte) (f g : Flag) (b : Bool) :
    getFlag (putFlag p f b) g = if g = f then b else getFlag p g := by
  revert p b
  cases f <;> cases g <;> decide

@[simp] theorem getFlag_putFlag_self (p : Byte) (f : Flag) (b : Bool) : getFlag (putFlag p f b) f = b := by
  simp [getFlag_putFlag]

theorem getFlag_putFlag_other (p : Byte) {f g : Flag} (b : Bool) (h : g ≠ f) :
    getFlag (putFlag p f b) g = getFlag p g := by
  simp [getFlag_putFlag, h]

/-- Writing a flag with the value it has changes nothing. -/
@[simp] theorem putFlag_getFlag (p : Byte) (f : Flag) : putFlag p f (getFlag p f) = p := by
  revert p
  cases f <;> decide

/-- Two status bytes with the same eight flags are the same. -/
theorem status_ext {p q : Byte} (h : ∀ f, getFlag p f = getFlag q f) : p = q := by
  apply BitVec.eq_of_getLsbD_eq
  intro i hi
  have h0 := h .C; have h1 := h .Z; have h2 := h .I; have h3 := h .D
  have h4 := h .B; have h5 := h .U; have h6 := h .V; have h7 := h .N
  simp only [getFlag, Flag.index] at h0 h1 h2 h3 h4 h5 h6 h7
  obtain rfl | rfl | rfl | rfl | rfl | rfl | rfl | rfl : i = 0 ∨ i = 1 ∨ i = 2 ∨ i = 3 ∨ i = 4 ∨ i = 5 ∨ i = 6 ∨ i = 7 := by omega
  all_goals assumption

@[simp] theorem flag_withFlag (c : Cpu) (f g : Flag) (b : Bool) :
    (c.withFlag f b).flag g = if g = f then b else c.flag g := getFlag_putFlag ..

/-- What `setZN` leaves in every flag. -/
@[simp] theorem flag_setZN (c : Cpu) (v : Byte) (g : Flag) :
    (c.setZN v).flag g = match g with | .Z => v == 0#8 | .N => bitOf v 7 | _ => c.flag g := by
  cases g <;> simp [Cpu.setZN]

/-- `setZN` reads nothing but the status. -/
theorem setZN_p (c : Cpu) (v : Byte) : (c.setZN v).p = putFlag (putFlag c.p .Z (v == 0#8)) .N (bitOf v 7) := rfl

/-- The pushed status: B as given, U set, the rest as it is (00_scope.md R11). -/
theorem getFlag_pushedP (p : Byte) (b : Bool) (f : Flag) :
    getFlag (pushedP p b) f = match f with | .B => b | .U => true | _ => getFlag p f := by
  revert p b
  cases f <;> decide

/-- The pulled status: B kept, U set, the rest from the byte (R169, R223). -/
theorem getFlag_pulledP (p v : Byte) (f : Flag) :
    getFlag (pulledP p v) f = match f with | .B => getFlag p .B | .U => true | _ => getFlag v f := by
  have h : ∀ p v : Byte, pulledP p v = v &&& 0xCF#8 ||| p &&& 0x10#8 ||| 0x20#8 := fun _ _ => rfl
  cases f <;> simp [getFlag, Flag.index, h]

/-- A pushed status that is pulled again is the status, when B is clear and U is set (R28). -/
theorem pulledP_pushedP (p : Byte) (b : Bool) (hu : getFlag p .U = true) (hb : getFlag p .B = false) :
    pulledP p (pushedP p b) = p := by
  apply status_ext
  intro f
  cases f <;> simp [getFlag_pulledP, getFlag_pushedP, hu, hb]

/-- ADC touches `a` and the flags C, Z, V, N only (R180). -/
theorem addWithCarry_frame (c : Cpu) (m : Byte) :
    c.addWithCarry m = { c with a := (c.addWithCarry m).a, p := (c.addWithCarry m).p } := rfl

@[simp] theorem addWithCarry_a (c : Cpu) (m : Byte) :
    (c.addWithCarry m).a = BitVec.ofNat 8 (sumWithCarry c.a m (c.flag .C)) := rfl

theorem flag_addWithCarry (c : Cpu) (m : Byte) (g : Flag) :
    (c.addWithCarry m).flag g = match g with
      | .C => decide (255 < sumWithCarry c.a m (c.flag .C))
      | .V => overflowed c.a m (c.addWithCarry m).a
      | .Z => (c.addWithCarry m).a == 0#8
      | .N => bitOf (c.addWithCarry m).a 7
      | _ => c.flag g := by
  cases g <;> simp [Cpu.addWithCarry] <;> rfl

theorem flag_compare (c : Cpu) (r m : Byte) (g : Flag) :
    (c.compare r m).flag g = match g with
      | .C => decide (m ≤ r)
      | .Z => (r - m) == 0#8
      | .N => bitOf (r - m) 7
      | _ => c.flag g := by
  cases g <;> simp [Cpu.compare]

theorem flag_testBits (c : Cpu) (m : Byte) (g : Flag) :
    (c.testBits m).flag g = match g with
      | .Z => (c.a &&& m) == 0#8
      | .N => bitOf m 7
      | .V => bitOf m 6
      | _ => c.flag g := by
  cases g <;> simp [Cpu.testBits]

theorem flag_shiftFlags (c : Cpu) (r : Byte × Bool) (g : Flag) :
    (c.shiftFlags r).flag g = match g with
      | .C => r.2
      | .Z => r.1 == 0#8
      | .N => bitOf r.1 7
      | _ => c.flag g := by
  cases g <;> simp [Cpu.shiftFlags]

end Sys2Proof.Machine
end

