-- ==== Sys2Proof/Laws/Exec.lean ====
section
/-! SUPPORT. The words, the shapes the instructions share, and what a bus write leaves of the memory-like addresses: once,
in the terms of Safety.lean. -/

namespace Sys2Proof.Machine

/-! ## Words -/

theorem lo8_toNat (w : Word) : (lo8 w).toNat = w.toNat % 256 := by
  simp only [lo8, BitVec.extractLsb'_toNat, Nat.shiftRight_eq_div_pow]
  omega

theorem hi8_toNat (w : Word) : (hi8 w).toNat = w.toNat / 256 := by
  have := w.isLt
  simp only [hi8, BitVec.extractLsb'_toNat, Nat.shiftRight_eq_div_pow]
  omega

theorem mkWord_toNat (h l : Byte) : (mkWord h l).toNat = h.toNat * 256 + l.toNat := by
  have := h.isLt
  have := l.isLt
  simp only [mkWord, BitVec.toNat_append]
  rw [Nat.shiftLeft_eq, Nat.mul_comm, ← Nat.two_pow_add_eq_or_of_lt (by omega)]

@[simp] theorem lo8_mkWord (h l : Byte) : lo8 (mkWord h l) = l := by
  apply BitVec.eq_of_toNat_eq
  rw [lo8_toNat, mkWord_toNat]
  have := l.isLt
  omega

@[simp] theorem hi8_mkWord (h l : Byte) : hi8 (mkWord h l) = h := by
  apply BitVec.eq_of_toNat_eq
  rw [hi8_toNat, mkWord_toNat]
  have := l.isLt
  omega

@[simp] theorem mkWord_hi8_lo8 (w : Word) : mkWord (hi8 w) (lo8 w) = w := by
  apply BitVec.eq_of_toNat_eq
  rw [mkWord_toNat, hi8_toNat, lo8_toNat]
  omega

/-! ## The bus does not read the CPU's registers -/

theorem busRead_mapCpu (a : Word) (s : State) (f : Cpu → Cpu) :
    busRead a (s.mapCpu f) = ((busRead a s).1, (busRead a s).2.mapCpu f) := by
  unfold busRead
  dsimp only
  repeat' split
  all_goals rfl

theorem dmaCopy_mapCpu (page : Byte) (f : Cpu → Cpu) (k : Nat) :
    ∀ (i : Nat) (s : State), dmaCopy page i (s.mapCpu f) k = (dmaCopy page i s k).mapCpu f := by
  induction k with
  | zero => exact fun _ _ => rfl
  | succ k ih =>
    intro i s
    let r := busRead (mkWord page (BitVec.ofNat 8 i)) s
    have h := ih (i + 1) { r.2 with ppu := r.2.ppu.oamWrite ((r.2.ppu.oamAddr.toNat + i) % 256) r.1 }
    simp only [dmaCopy, busRead_mapCpu]
    exact h

theorem busWrite_mapCpu (a : Word) (v : Byte) (s : State) (f : Cpu → Cpu) :
    busWrite a v (s.mapCpu f) = (busWrite a v s).mapCpu f := by
  unfold busWrite oamDma
  dsimp only
  rw [dmaCopy_mapCpu]
  repeat' split
  all_goals rfl

/-! ## The shapes of the instructions -/

theorem readSource_value (src : Source) (s : State) : (readSource src s).value = src.value s := by
  cases src <;> simp [readSource, Source.value, Addr.ea, peek]

theorem readSource_after (src : Source) (s : State) : (readSource src s).state = src.after s := by
  cases src <;> simp [readSource, Source.after, Addr.ea]

@[simp] theorem after_cpu (src : Source) (s : State) : (src.after s).cpu = s.cpu := by
  cases src <;> simp [Source.after]

/-- A reading instruction: the operand's read, then the CPU's registers from the value. -/
theorem execRead_eq (f : Cpu → Byte → Cpu) (src : Source) (s : State) : execRead f src s =
    ((src.after s).mapCpu fun _ => f s.cpu (src.value s)).withCycles (readCycles src (readSource src s).cross) := by
  unfold execRead
  simp only [readSource_value, readSource_after, State.mapCpu, after_cpu]

/-- A store: one bus write at the effective address. -/
theorem execStore_eq (f : Cpu → Byte) (m : Addr) (s : State) : execStore f m s =
    (busWrite (m.ea s) (f s.cpu) s).withCycles (storeCycles m) := by
  unfold execStore
  dsimp only
  rw [resolve_state]
  rfl

/-- A read-modify-write: one read, one write at the same address, the flags. -/
theorem execModify_eq (op : Byte → Bool → Byte × Bool) (flags : Cpu → Byte × Bool → Cpu) (m : Addr) (s : State) :
    execModify op flags m s =
      ((busWrite (m.ea s) (op (peek (m.ea s) s) (s.cpu.flag .C)).1 (busRead (m.ea s) s).2).mapCpu
        fun _ => flags s.cpu (op (peek (m.ea s) s) (s.cpu.flag .C))).withCycles (rmwCycles m) := by
  unfold execModify
  simp only [resolve_state, busRead_cpu, busWrite_mapCpu]
  simp only [State.mapCpu, busWrite_cpu, busRead_cpu]
  rfl

/-! ## What the memory-like addresses read as -/

/-- Only the RAM and the cartridge decide what a memory-like address reads as. -/
theorem peek_same {s t : State} {a : Word} (ha : quietAddr a) (hb : t.bus.ram = s.bus.ram) (hc : t.cart = s.cart) :
    peek a t = peek a s :=
  peek_congr ha hb (by rw [hc]) (by simp [hc]) (by rw [hc]; exact Cartridge.sameImage_refl _)

theorem peek_ram {a : Word} (h : a.toNat ≤ 0x1FFF) (s : State) : peek a s = s.bus.ram.read (a.toNat % 0x800) := by
  unfold peek
  rw [busRead_ramAddr h]

theorem peek_unmapped {a : Word} (h : 0x4018 ≤ a.toNat) (h' : a.toNat < 0x6000) (s : State) : peek a s = 0#8 := by
  unfold peek busRead
  dsimp only
  rw [if_neg (by omega), if_neg (by omega), if_neg (by omega), if_neg (by omega), if_neg (by omega)]
  split
  · rfl
  · unfold Cartridge.cpuRead
    rw [if_pos h']

theorem peek_prgRam {a : Word} (h : 0x6000 ≤ a.toNat) (h' : a.toNat < 0x8000) (s : State) :
    peek a s = s.cart.prgRam.read (a.toNat - 0x6000) := by
  unfold peek
  rw [busRead_cart (by omega)]
  unfold Cartridge.cpuRead
  rw [if_neg (by omega), if_pos h']

theorem peek_prgRom {a : Word} (h : 0x8000 ≤ a.toNat) (s : State) : peek a s = s.cart.prgByte (s.cart.prgSlot a.toNat) := by
  unfold peek
  rw [busRead_cart (by omega)]
  unfold Cartridge.cpuRead
  rw [if_neg (by omega), if_neg (by omega)]

/-! ## What a bus write leaves -/

theorem dmaCopy_memory (page : Byte) (k : Nat) : ∀ (i : Nat) (s : State),
    (dmaCopy page i s k).bus.ram = s.bus.ram ∧ (dmaCopy page i s k).cart.prgRam = s.cart.prgRam
      ∧ ∀ j, (dmaCopy page i s k).cart.prgSlot j = s.cart.prgSlot j := by
  induction k with
  | zero => exact fun _ _ => ⟨rfl, rfl, fun _ => rfl⟩
  | succ k ih =>
    intro i s
    let r := busRead (mkWord page (BitVec.ofNat 8 i)) s
    obtain ⟨h0, h1, h2⟩ := ih (i + 1) { r.2 with ppu := r.2.ppu.oamWrite ((r.2.ppu.oamAddr.toNat + i) % 256) r.1 }
    have hm := busRead_memory (mkWord page (BitVec.ofNat 8 i)) s
    rw [dmaCopy]
    exact ⟨h0.trans hm.1, h1.trans hm.2.1, fun j => (h2 j).trans (hm.2.2 j)⟩

theorem regWrite_prg (v : Video) (reg : Nat) (b : Byte) :
    (v.regWrite reg b).cart.prgRam = v.cart.prgRam ∧ ∀ k, (v.regWrite reg b).cart.prgSlot k = v.cart.prgSlot k := by
  have hn : ∀ (c : Cartridge) a fc, (c.notifyAddressBus a fc).prgRam = c.prgRam := fun c a fc => by rw [notifyAddressBus_eq]
  have hw : ∀ (c : Cartridge) a b, (c.chrWrite a b).prgRam = c.prgRam := fun c a fc => by rw [chrWrite_eq]
  unfold Video.regWrite
  split <;> try exact ⟨rfl, fun _ => rfl⟩
  · unfold Video.writeAddr
    split
    · exact ⟨hn _ _ _, fun _ => by simp [Cartridge.notifyAddrChange]⟩
    · exact ⟨rfl, fun _ => rfl⟩
  · unfold Video.writeData Video.advanceAddr Video.busWrite Cartridge.notifyAddrChange
    dsimp only
    split
    · refine ⟨?_, fun _ => ?_⟩
      · rw [hn, hw]
      · simp
    split
    · exact ⟨hn _ _ _, fun _ => by simp⟩
    · exact ⟨hn _ _ _, fun _ => by simp⟩

/-- A bus write changes at most one byte of RAM, the one its address names. -/
theorem busWrite_ram (addr : Word) (v : Byte) (s : State) (k : Nat)
    (h : ¬(addr.toNat ≤ 0x1FFF ∧ addr.toNat % 0x800 = k)) : (busWrite addr v s).bus.ram.read k = s.bus.ram.read k := by
  unfold busWrite
  dsimp only
  split
  · simp only [Memory.read_write]
    rw [if_neg fun h' => h ⟨by assumption, h'.symm⟩]
  split
  · rfl
  split
  · exact congrArg (fun m => Memory.read m k) (dmaCopy_memory v 256 0 s).1
  split
  · exact congrArg (fun m => Memory.read m k) (show (s.bus.writeStrobe v).ram = s.bus.ram by
      unfold Bus.writeStrobe
      dsimp only
      split <;> rfl)
  split
  · rfl
  split <;> rfl

/-- It changes at most one byte of PRG RAM, and below 0x4100 no PRG bank. -/
theorem busWrite_prg (addr : Word) (v : Byte) (s : State) :
    (∀ k, ¬(0x6000 ≤ addr.toNat ∧ addr.toNat < 0x8000 ∧ addr.toNat - 0x6000 = k) →
      (busWrite addr v s).cart.prgRam.read k = s.cart.prgRam.read k)
    ∧ (addr.toNat < 0x4100 → ∀ k, (busWrite addr v s).cart.prgSlot k = s.cart.prgSlot k) := by
  unfold busWrite
  dsimp only
  split
  · exact ⟨fun _ _ => rfl, fun _ _ => rfl⟩
  split
  · have h := regWrite_prg s.video (addr.toNat % 8) v
    exact ⟨fun k _ => congrArg (fun m => Memory.read m k) h.1, fun _ => h.2⟩
  split
  · have h := (dmaCopy_memory v 256 0 s).2
    exact ⟨fun k _ => congrArg (fun m => Memory.read m k) h.1, fun _ => h.2⟩
  split
  · exact ⟨fun _ _ => rfl, fun _ _ => rfl⟩
  split
  · exact ⟨fun _ _ => rfl, fun _ _ => rfl⟩
  split
  · exact ⟨fun _ _ => rfl, fun _ _ => rfl⟩
  · refine ⟨fun k hk => ?_, fun h k => ?_⟩
    · unfold Cartridge.cpuWrite
      split
      · rfl
      split
      · simp only [Memory.read_write]
        rw [if_neg fun h' => hk ⟨Nat.le_of_not_lt (by assumption), by assumption, h'.symm⟩]
      · rfl
    · unfold Cartridge.cpuWrite
      rw [if_pos (by omega)]
      have hl : s.cart.mapper.writeLow addr.toNat v = s.cart.mapper := by
        unfold Mapper.writeLow
        split
        · next h => rw [if_neg (by omega), h]
        · rfl
      rw [hl]

end Sys2Proof.Machine
end

