-- ==== Sys2Proof/Laws/Good.lean ====
section
/-! SUPPORT. The bus operations keep the good states of Safety.lean. -/

namespace Sys2Proof.Machine

/-- Everything Safety.lean asks of the machine outside the CPU's registers. -/
structure State.DevicesGood (s : State) : Prop where
  video : s.video.Good
  apu : s.apu.ok
  ram : s.bus.memoryOk

theorem good_iff (s : State) : s.good ↔ s.cpu.statusOk ∧ s.DevicesGood := by
  constructor
  · rintro ⟨h1, h2, h3, h4, h5, ⟨h6, h7, h8⟩, h9, h10⟩
    exact ⟨h1, ⟨⟨h2, h3, h4, h7⟩, ⟨h8, h9, h10⟩⟩, h5, h6⟩
  · rintro ⟨h1, ⟨⟨⟨h2, h3, h4, h7⟩, ⟨h8, h9, h10⟩⟩, h5, h6⟩⟩
    exact ⟨h1, h2, h3, h4, h5, ⟨h6, h7, h8⟩, h9, h10⟩

theorem withVideo_devicesGood {s : State} (h : s.DevicesGood) {v : Video} (hv : v.Good) : (s.withVideo v).DevicesGood :=
  ⟨hv, h.apu, h.ram⟩

theorem withApu_devicesGood {s : State} (h : s.DevicesGood) {a : Apu} (ha : a.ok) :
    State.DevicesGood { s with apu := a } := ⟨h.video, ha, h.ram⟩

theorem withCart_devicesGood {s : State} (h : s.DevicesGood) {c : Cartridge} (hc : c.Good) :
    State.DevicesGood { s with cart := c } := ⟨⟨h.video.ppu, hc⟩, h.apu, h.ram⟩

theorem withPpu_devicesGood {s : State} (h : s.DevicesGood) {p : Ppu} (hp : p.Good) :
    State.DevicesGood { s with ppu := p } := ⟨⟨hp, h.video.cart⟩, h.apu, h.ram⟩

/-- A change of the bus that keeps its RAM. -/
theorem withBus_devicesGood {s : State} (h : s.DevicesGood) {b : Bus} (hb : b.ram = s.bus.ram) :
    State.DevicesGood { s with bus := b } := by
  refine ⟨h.video, h.apu, ?_⟩
  show Memory.wf b.ram ∧ Memory.below 2048 b.ram
  rw [hb]
  exact h.ram

theorem withRam_devicesGood {s : State} (h : s.DevicesGood) {k : Nat} (hk : k < 2048) (v : Byte) :
    State.DevicesGood { s with bus := { s.bus with ram := s.bus.ram.write k v } } :=
  ⟨h.video, h.apu, Memory.write_wf v h.ram.1, Memory.write_below v h.ram.2 hk⟩

theorem busRead_devicesGood {s : State} (h : s.DevicesGood) (addr : Word) : (busRead addr s).2.DevicesGood := by
  unfold busRead
  dsimp only
  split
  · exact h
  split
  · exact withVideo_devicesGood h (regRead_good h.video _)
  split
  · exact withApu_devicesGood h (apuReadStatus_ok h.apu)
  split
  · exact withBus_devicesGood h rfl
  split
  · exact withBus_devicesGood h rfl
  split <;> exact h

theorem dmaCopy_devicesGood (page : Byte) (k : Nat) :
    ∀ (i : Nat) {s : State}, s.DevicesGood → (dmaCopy page i s k).DevicesGood := by
  induction k with
  | zero => exact fun _ _ h => h
  | succ k ih =>
    intro i s h
    have h1 := busRead_devicesGood h (mkWord page (BitVec.ofNat 8 i))
    rw [dmaCopy]
    exact ih _ (withPpu_devicesGood h1 (oamWrite_good h1.video (Nat.mod_lt _ (by decide)) _))

theorem writeStrobe_ram (b : Bus) (v : Byte) : (b.writeStrobe v).ram = b.ram := by
  unfold Bus.writeStrobe
  dsimp only
  split <;> rfl

theorem busWrite_devicesGood {s : State} (h : s.DevicesGood) (addr : Word) (v : Byte) : (busWrite addr v s).DevicesGood := by
  unfold busWrite
  dsimp only
  split
  · exact withRam_devicesGood h (Nat.mod_lt _ (by decide)) v
  split
  · exact withVideo_devicesGood h (regWrite_good h.video _ _)
  split
  · exact withBus_devicesGood (dmaCopy_devicesGood v 256 0 h) rfl
  split
  · exact withBus_devicesGood h (writeStrobe_ram _ _)
  split
  · exact withApu_devicesGood h (apuWrite_ok h.apu _ _)
  split
  · exact h
  · exact withCart_devicesGood h (cpuWrite_good h.video.cart _ _)

theorem mapCpu_devicesGood {s : State} (h : s.DevicesGood) (f : Cpu → Cpu) : (s.mapCpu f).DevicesGood :=
  ⟨h.video, h.apu, h.ram⟩

theorem withCycles_devicesGood {s : State} (h : s.DevicesGood) (n : Nat) : (s.withCycles n).DevicesGood :=
  ⟨h.video, h.apu, h.ram⟩

theorem push_devicesGood {s : State} (h : s.DevicesGood) (v : Byte) : (push v s).DevicesGood :=
  mapCpu_devicesGood (busWrite_devicesGood h _ v) fun c => { c with sp := c.sp - 1#8 }

theorem pull_devicesGood {s : State} (h : s.DevicesGood) : (pull s).2.DevicesGood :=
  busRead_devicesGood (mapCpu_devicesGood h fun c => { c with sp := c.sp + 1#8 }) _

theorem push16_devicesGood {s : State} (h : s.DevicesGood) (w : Word) : (push16 w s).DevicesGood :=
  push_devicesGood (push_devicesGood h _) _

theorem pull16_devicesGood {s : State} (h : s.DevicesGood) : (pull16 s).2.DevicesGood :=
  pull_devicesGood (pull_devicesGood h)

theorem readPair_devicesGood {s : State} (h : s.DevicesGood) (a b : Word) : (readPair a b s).2.DevicesGood :=
  busRead_devicesGood (busRead_devicesGood h _) _

theorem takeException_devicesGood {s : State} (h : s.DevicesGood) (ret : Word) (brk : Bool) (vector : Word) :
    (takeException ret brk vector s).DevicesGood :=
  withCycles_devicesGood (mapCpu_devicesGood
    (readPair_devicesGood (mapCpu_devicesGood (push_devicesGood (push16_devicesGood h ret) _) _) _ _) _) _

theorem fetch8_devicesGood {s : State} (h : s.DevicesGood) : (fetch8 s).2.DevicesGood :=
  mapCpu_devicesGood (busRead_devicesGood h _) fun c => { c with pc := c.pc + 1#16 }

theorem readSource_devicesGood {s : State} (h : s.DevicesGood) (src : Source) : (readSource src s).state.DevicesGood := by
  cases src with
  | imm v => exact h
  | mem m =>
    show (busRead (resolve m s).ea (resolve m s).state).2.DevicesGood
    rw [resolve_state]
    exact busRead_devicesGood h _

end Sys2Proof.Machine
end

