-- ==== Sys2Proof/Laws/HostOps.lean ====
section
/-! SUPPORT. What restoring a cartridge from a savestate can do. -/

namespace Sys2Proof.Machine

/-- A cartridge restored keeps its image and its kind of mapper, and has the blob's registers and PRG RAM (R66, R716). -/
theorem restore_some {c d : Cartridge} {m : Mapper} {r : Memory} {x : Option Memory} (h : c.restore m r x = some d) :
    c.sameImage d ∧ d.mapper = m ∧ d.prgRam = r ∧ (c.hasChrRam = true → x = some d.chr) := by
  unfold Cartridge.restore at h
  split at h
  · next hm =>
    obtain ⟨chr, hx, rfl⟩ := Option.map_eq_some_iff.mp h
    split at hx
    · next hc => exact ⟨⟨rfl, fun h' => by simp [hc] at h', hm⟩, rfl, rfl, fun _ => hx⟩
    · next hc => exact ⟨⟨rfl, fun _ => (Option.some.inj hx).symm, hm⟩, rfl, rfl, fun h' => absurd h' hc⟩
  · cases h

/-- A cartridge takes its own blob and those of every machine with its image (R716). -/
theorem restore_own {c d : Cartridge} (h : d.sameImage c) :
    c.restore d.mapper d.prgRam (if d.hasChrRam then some d.chr else none) = some d := by
  obtain ⟨hc, hchr, hm⟩ := h
  have hr : c.hasChrRam = d.hasChrRam := by rw [hc]
  rw [Cartridge.restore, if_pos hm.symm, hr]
  split
  · rw [hc]
    rfl
  · next hno =>
    rw [hchr (by simpa using hno), hc]
    rfl

/-- When a cartridge blob does not fit: its registers are of another mapper, or the CHR RAM is missing (R716). -/
theorem restore_none {c : Cartridge} {m : Mapper} {r : Memory} {x : Option Memory} :
    c.restore m r x = none ↔ m.number ≠ c.mapper.number ∨ (c.hasChrRam = true ∧ x = none) := by
  unfold Cartridge.restore
  split
  · next hm => split <;> simp_all
  · next hm => simp [hm]

end Sys2Proof.Machine
end

