-- ==== Sys2Proof/Laws/Params.lean ====
section
/-! SUPPORT. The open parameters: what the machine is at their defaults, and that POWER_ON_RAM of any contents gives
canonical memories. -/

namespace Sys2Proof.Machine

/-- At the default of UNOFFICIAL_LEN nothing is skipped. -/
@[simp] theorem skipped_defaults (i : Instr) : i.skipped Config.defaults = 0 := by
  cases i <;> rfl

@[simp] theorem fetchInstrWith_defaults (s : State) : fetchInstrWith Config.defaults s = fetchInstr s := by
  have h : ∀ t : State, (t.mapCpu fun c => { c with pc := c.pc + 0#16 }) = t := fun t => by
    simp only [State.mapCpu, BitVec.add_zero]
  rw [fetchInstrWith, skipped_defaults, h]

@[simp] theorem decodeWith_defaults (bs : List Byte) : decodeWith Config.defaults bs = decode bs := by
  unfold decodeWith
  split
  · next h => rw [h]
  · next h => rw [h, skipped_defaults, if_neg (Nat.not_lt_zero _), List.drop_zero]

/-- The CPU's step at the default parameters (60_exceptions.md R300). -/
theorem cpuStep_eq (s : State) : cpuStep s =
    if s.cpu.nmiPending then
      .next (interruptEntry Config.nmiVector (s.mapCpu fun c => { c with nmiPending := false }))
    else if s.cpu.irqPending && !s.cpu.flag .I then
      .next (interruptEntry Config.irqVector (s.mapCpu fun c => { c with irqPending := false }))
    else exec (fetchInstr s).1 (fetchInstr s).2 := by
  rw [cpuStep, cpuStepWith, fetchInstrWith_defaults]

theorem poweredOn_wf (n : Nat) (bs : List Byte) : Memory.wf (poweredOn n bs) := memoryFrom_wf _ _

theorem poweredOn_below (n : Nat) (bs : List Byte) : Memory.below n (poweredOn n bs) := fun c hc => by
  have h1 := (memoryFrom_key _ _ c hc).2
  have h2 := List.length_take_le n bs
  omega

@[simp] theorem poweredOn_nil (n : Nat) : poweredOn n [] = [] := by
  rw [poweredOn, List.take_nil]
  rfl

/-- At the default of POWER_ON_RAM every memory of a new machine is zero. -/
theorem fresh_defaults (c : Cartridge) : State.fresh Config.defaults c =
    { State.reset with cart := { c with prgRam := [], chr := if c.hasChrRam then [] else c.chr } } := by
  simp only [State.fresh, Config.defaults, Config.PowerOnRam.zero, poweredOn_nil]
  rfl

end Sys2Proof.Machine
end

