-- ==== Sys2Proof/Laws/PerInstr.lean ====
section
/-! SUPPORT. Per-instruction laws: the encoder writes as many bytes as the instruction is long (30_encoding.md R110, R111). -/

namespace Sys2Proof.Laws.EncodeLength

/-- A well-formed instruction is encoded in as many bytes as its form is long. -/
def Statement (i : Instr) : Prop := i.wf = true → (encode i).length = i.length

/-- The lengths of the shared encoders on the forms they have. -/
theorem accumulator_length {a b c d e f g : Byte} {m : Addr} (h : m.isAccumulator = true) :
    (encodeAccumulator a b c d e f g m).length = m.length := by
  cases m <;> simp_all [Addr.isAccumulator, encodeAccumulator, form8, form16, Addr.length]

theorem rmw_length {a b c d : Byte} {m : Addr} (h : m.isRmw = true) : (encodeRmw a b c d m).length = m.length := by
  cases m <;> simp_all [Addr.isRmw, encodeRmw, form8, form16, Addr.length]

theorem ldx_length {a b c d : Byte} {m : Addr} (h : m.isLdx = true) : (encodeY a b c (some d) m).length = m.length := by
  cases m <;> simp_all [Addr.isLdx, encodeY, form8, form16, Addr.length]

theorem stx_length {a b c : Byte} {m : Addr} (h : m.isStx = true) : (encodeY a b c none m).length = m.length := by
  cases m <;> simp_all [Addr.isStx, encodeY, form8, form16, Addr.length]

theorem plain_length {a b : Byte} {m : Addr} (h : m.isPlain = true) : (encodePlain a b m).length = m.length := by
  cases m <;> simp_all [Addr.isPlain, encodePlain, form8, form16, Addr.length]

theorem source_length {imm : Byte} {mem : Addr → List Byte} {ok : Addr → Bool} {s : Source}
    (hm : ∀ m, ok m = true → (mem m).length = m.length) (h : s.wf ok = true) :
    (encodeSource imm mem s).length = s.length := by
  cases s with
  | imm v => rfl
  | mem m => exact hm m h

theorem shift_length {acc a b c d : Byte} {o : ShiftOperand} (h : o.wf = true) :
    (encodeShift acc (encodeRmw a b c d) o).length = o.length := by
  cases o with
  | acc => rfl
  | mem m => exact rmw_length h

theorem lda (src : Source) : Statement (.lda src) := source_length fun _ => accumulator_length

theorem ldx (src : Source) : Statement (.ldx src) := source_length fun _ => ldx_length

theorem ldy (src : Source) : Statement (.ldy src) := source_length fun _ => rmw_length

theorem sta (dst : Addr) : Statement (.sta dst) := accumulator_length

theorem stx (dst : Addr) : Statement (.stx dst) := stx_length

theorem sty (dst : Addr) : Statement (.sty dst) := by
  intro h
  cases dst <;> simp_all [Instr.wf, Addr.isSty, encode, form8, form16, Instr.length, Addr.length]

theorem tax : Statement (.tax) := fun _ => rfl

theorem tay : Statement (.tay) := fun _ => rfl

theorem txa : Statement (.txa) := fun _ => rfl

theorem tya : Statement (.tya) := fun _ => rfl

theorem tsx : Statement (.tsx) := fun _ => rfl

theorem txs : Statement (.txs) := fun _ => rfl

theorem pha : Statement (.pha) := fun _ => rfl

theorem php : Statement (.php) := fun _ => rfl

theorem pla : Statement (.pla) := fun _ => rfl

theorem plp : Statement (.plp) := fun _ => rfl

theorem adc (src : Source) : Statement (.adc src) := source_length fun _ => accumulator_length

theorem sbc (src : Source) : Statement (.sbc src) := source_length fun _ => accumulator_length

theorem cmp (src : Source) : Statement (.cmp src) := source_length fun _ => accumulator_length

theorem cpx (src : Source) : Statement (.cpx src) := source_length fun _ => plain_length

theorem cpy (src : Source) : Statement (.cpy src) := source_length fun _ => plain_length

theorem inc (dst : Addr) : Statement (.inc dst) := rmw_length

theorem inx : Statement (.inx) := fun _ => rfl

theorem iny : Statement (.iny) := fun _ => rfl

theorem dec (dst : Addr) : Statement (.dec dst) := rmw_length

theorem dex : Statement (.dex) := fun _ => rfl

theorem dey : Statement (.dey) := fun _ => rfl

theorem and (src : Source) : Statement (.and src) := source_length fun _ => accumulator_length

theorem ora (src : Source) : Statement (.ora src) := source_length fun _ => accumulator_length

theorem eor (src : Source) : Statement (.eor src) := source_length fun _ => accumulator_length

theorem bit (src : Addr) : Statement (.bit src) := plain_length

theorem asl (opd : ShiftOperand) : Statement (.asl opd) := shift_length

theorem lsr (opd : ShiftOperand) : Statement (.lsr opd) := shift_length

theorem rol (opd : ShiftOperand) : Statement (.rol opd) := shift_length

theorem ror (opd : ShiftOperand) : Statement (.ror opd) := shift_length

theorem jmp (target : JumpTarget) : Statement (.jmp target) := by
  cases target <;> exact fun _ => rfl

theorem jsr (target : Word) : Statement (.jsr target) := fun _ => rfl

theorem rts : Statement (.rts) := fun _ => rfl

theorem rti : Statement (.rti) := fun _ => rfl

theorem brk : Statement (.brk) := fun _ => rfl

theorem bcc (off : Byte) : Statement (.bcc off) := fun _ => rfl

theorem bcs (off : Byte) : Statement (.bcs off) := fun _ => rfl

theorem beq (off : Byte) : Statement (.beq off) := fun _ => rfl

theorem bne (off : Byte) : Statement (.bne off) := fun _ => rfl

theorem bmi (off : Byte) : Statement (.bmi off) := fun _ => rfl

theorem bpl (off : Byte) : Statement (.bpl off) := fun _ => rfl

theorem bvc (off : Byte) : Statement (.bvc off) := fun _ => rfl

theorem bvs (off : Byte) : Statement (.bvs off) := fun _ => rfl

theorem clc : Statement (.clc) := fun _ => rfl

theorem sec : Statement (.sec) := fun _ => rfl

theorem cli : Statement (.cli) := fun _ => rfl

theorem sei : Statement (.sei) := fun _ => rfl

theorem cld : Statement (.cld) := fun _ => rfl

theorem sed : Statement (.sed) := fun _ => rfl

theorem clv : Statement (.clv) := fun _ => rfl

theorem nop : Statement (.nop) := fun _ => rfl

theorem nopStar (op : Byte) : Statement (.nopStar op) := fun _ => rfl

end Sys2Proof.Laws.EncodeLength
end

