-- ==== Sys2Proof/Tests/Slice0.lean ====
section
/-! SUPPORT. Tests: ill-formed terms, opcode words written out from spec/30_encoding.md, the one-step vectors of
spec/95_test_vectors.md, device vectors, and for every obligation with hypotheses a state that meets them. -/

namespace Sys2Proof.Tests

open Sys2Proof Sys2Proof.Machine

/-! ## WellFormed refuses a form that has no row, for each check -/

theorem test_wf_accumulator : [Instr.lda (.mem (.zpy 0)), .adc (.mem (.zpy 1)), .sbc (.mem (.zpy 2)), .cmp (.mem (.zpy 3)),
    .and (.mem (.zpy 4)), .ora (.mem (.zpy 5)), .eor (.mem (.zpy 6)), .sta (.zpy 7)].all (fun i => !i.wf) = true := by decide

theorem test_wf_ldx : [Instr.ldx (.mem (.zpx 0)), .ldx (.mem (.abx 0)), .ldx (.mem (.izx 0)), .ldx (.mem (.izy 0))].all
    (fun i => !i.wf) = true := by decide

theorem test_wf_ldy_rmw : [Instr.ldy (.mem (.zpy 0)), .ldy (.mem (.aby 0)), .inc (.izx 0), .dec (.izy 0), .asl (.mem (.zpy 0)),
    .lsr (.mem (.aby 0)), .rol (.mem (.izx 0)), .ror (.mem (.izy 0))].all (fun i => !i.wf) = true := by decide

theorem test_wf_plain : [Instr.bit (.zpx 0), .bit (.abx 0), .cpx (.mem (.abx 0)), .cpy (.mem (.zpx 0))].all
    (fun i => !i.wf) = true := by decide

theorem test_wf_stx_sty : [Instr.stx (.zpx 0), .stx (.aby 0), .stx (.izx 0), .sty (.zpy 0), .sty (.abx 0), .sty (.izy 0)].all
    (fun i => !i.wf) = true := by decide

/-- 0xEA is NOP, 0x6C is JMP: official bytes are not NOP*. -/
theorem test_wf_nopStar : [Instr.nopStar 0xEA, .nopStar 0x6C].all (fun i => !i.wf) = true := by decide

/-! ## Every constructor decoded from a word written out from R125's tables, operand bytes 0x34 0x12 -/

/-- The instruction an opcode byte decodes to, with operand bytes 0x34 and 0x12. -/
def at3412 (op : Byte) : Option Instr := decodeTableWord 24 (op.toNat + 256 * 0x34 + 65536 * 0x12)

theorem test_decode_loads : [0b10101001, 0b10110001, 0b10100010, 0b10110110, 0b10111110, 0b10100000, 0b10111100].map at3412
    = ([.lda (.imm 0x34), .lda (.mem (.izy 0x34)), .ldx (.imm 0x34), .ldx (.mem (.zpy 0x34)), .ldx (.mem (.aby 0x1234)), .ldy (.imm 0x34), .ldy (.mem (.abx 0x1234))] : List Instr).map some := by decide

theorem test_decode_stores : [0b10000001, 0b10011101, 0b10010110, 0b10001110, 0b10010100, 0b10001100].map at3412
    = ([.sta (.izx 0x34), .sta (.abx 0x1234), .stx (.zpy 0x34), .stx (.abs 0x1234), .sty (.zpx 0x34), .sty (.abs 0x1234)] : List Instr).map some := by decide

theorem test_decode_transfers : [0b10101010, 0b10101000, 0b10001010, 0b10011000, 0b10111010, 0b10011010].map at3412
    = ([.tax, .tay, .txa, .tya, .tsx, .txs] : List Instr).map some := by decide

theorem test_decode_stack : [0b01001000, 0b00001000, 0b01101000, 0b00101000].map at3412
    = ([.pha, .php, .pla, .plp] : List Instr).map some := by decide

theorem test_decode_arithmetic : [0b01100001, 0b11101001, 0b11011001, 0b11100100, 0b11001100].map at3412
    = ([.adc (.mem (.izx 0x34)), .sbc (.imm 0x34), .cmp (.mem (.aby 0x1234)), .cpx (.mem (.zp 0x34)), .cpy (.mem (.abs 0x1234))] : List Instr).map some := by decide

theorem test_decode_increments : [0b11110110, 0b11001110, 0b11101000, 0b11001000, 0b11001010, 0b10001000].map at3412
    = ([.inc (.zpx 0x34), .dec (.abs 0x1234), .inx, .iny, .dex, .dey] : List Instr).map some := by decide

theorem test_decode_logic : [0b00111101, 0b00010001, 0b01000101, 0b00100100].map at3412
    = ([.and (.mem (.abx 0x1234)), .ora (.mem (.izy 0x34)), .eor (.mem (.zp 0x34)), .bit (.zp 0x34)] : List Instr).map some := by decide

theorem test_decode_shifts : [0b00001010, 0b01011110, 0b00100110, 0b01101010].map at3412
    = ([.asl .acc, .lsr (.mem (.abx 0x1234)), .rol (.mem (.zp 0x34)), .ror .acc] : List Instr).map some := by decide

theorem test_decode_jumps : [0b01001100, 0b01101100, 0b00100000, 0b01100000, 0b01000000, 0b00000000].map at3412
    = ([.jmp (.abs 0x1234), .jmp (.ind 0x1234), .jsr 0x1234, .rts, .rti, .brk] : List Instr).map some := by decide

theorem test_decode_branches : [0b10010000, 0b10110000, 0b11110000, 0b11010000, 0b00110000, 0b00010000, 0b01010000, 0b01110000].map at3412
    = ([.bcc 0x34, .bcs 0x34, .beq 0x34, .bne 0x34, .bmi 0x34, .bpl 0x34, .bvc 0x34, .bvs 0x34] : List Instr).map some := by decide

theorem test_decode_flags : [0b00011000, 0b00111000, 0b01011000, 0b01111000, 0b11011000, 0b11111000, 0b10111000, 0b11101010].map at3412
    = ([.clc, .sec, .cli, .sei, .cld, .sed, .clv, .nop] : List Instr).map some := by decide

theorem test_decode_unofficial : [0b00000010, 0b10100111, 0b11111111].map at3412
    = ([.nopStar 0x02, .nopStar 0xA7, .nopStar 0xFF] : List Instr).map some := by decide

/-- Fewer bytes than the opcode byte asks for are no instruction; the bits above `nbits` count as 0. -/
theorem test_decode_short : decode [] = .error .empty ∧ decode [0xAD, 0x34] = .error (.truncated 0xAD)
    ∧ decodeTableWord 8 0x1234AD = some (.lda (.mem (.abs 0))) := ⟨rfl, rfl, by decide⟩

/-! ## One step: the vectors of spec/95_test_vectors.md, part 2 (the theorem's name ends in the vector's) -/

/-- Cells as the vectors list them. -/
def cells (m : List (Nat × Nat)) : Memory := m.map fun c => (c.1, BitVec.ofNat 8 c.2)

/-- A mapper 0 machine with `pc`, `a`, `x`, `y`, `sp`, `p`, RAM and ROM as given. -/
def vec (pc a x y sp p : Nat) (ram rom : List (Nat × Nat)) : State :=
  { State.reset with
    cpu := { Cpu.atReset (BitVec.ofNat 16 pc) with
      a := BitVec.ofNat 8 a, x := BitVec.ofNat 8 x, y := BitVec.ofNat 8 y, sp := BitVec.ofNat 8 sp, p := BitVec.ofNat 8 p }
    bus := { Bus.atLoad with ram := cells ram }
    cart := { Cartridge.blank with prgRom := cells rom } }

/-- After one CPU step: `pc`, `a`, `x`, `y`, `sp`, `p`, the cycles, and the byte at address `k`. -/
def after (k : Nat) (s : State) : List Nat :=
  match cpuStep s with
  | .next t => [t.cpu.pc.toNat, t.cpu.a.toNat, t.cpu.x.toNat, t.cpu.y.toNat, t.cpu.sp.toNat, t.cpu.p.toNat, t.loop.stepCycles,
      (peek (BitVec.ofNat 16 k) t).toNat]
  | .fault _ => []
  | .refused _ => []

theorem test_lda_V5 : after 0x0010 (vec 0x8000 0x00 0x01 0x00 0xFD 0x24 [(0x100, 0x33)] [(0x0000, 0xBD), (0x0001, 0xFF), (0x0002, 0x10)])
    = [0x8003, 0x33, 0x01, 0x00, 0xFD, 0x24, 5, 0x00] := by decide

theorem test_lda_V8 : after 0x0010 (vec 0x8000 0x00 0x01 0x00 0xFD 0x24 [(0x000, 0x12), (0x0FF, 0x34), (0x234, 0x5A)] [(0x0000, 0xA1), (0x0001, 0xFE)])
    = [0x8002, 0x5A, 0x01, 0x00, 0xFD, 0x24, 6, 0x00] := by decide

theorem test_ldx_V11 : after 0x0010 (vec 0x8000 0x00 0x00 0xF8 0xFD 0x24 [(0x008, 0xC3)] [(0x0000, 0xB6), (0x0001, 0x10)])
    = [0x8002, 0x00, 0xC3, 0xF8, 0xFD, 0xA4, 4, 0x00] := by decide

theorem test_ldx_V12 : after 0x0010 (vec 0x8000 0x00 0x00 0x02 0xFD 0x24 [] [(0x0000, 0xBE), (0x0001, 0xFF), (0x0002, 0x12)])
    = [0x8003, 0x00, 0x00, 0x02, 0xFD, 0x26, 5, 0x00] := by decide

theorem test_ldy_V13 : after 0x0010 (vec 0x8000 0x00 0x00 0x00 0xFD 0x24 [(0x000, 0x9C)] [(0x0000, 0xAC), (0x0002, 0x08)])
    = [0x8003, 0x00, 0x00, 0x9C, 0xFD, 0xA4, 4, 0x00] := by decide

theorem test_sta_V16 : after 0x1100 (vec 0x8000 0x00 0x01 0x00 0xFD 0xA4 [] [(0x0000, 0x9D), (0x0001, 0xFF), (0x0002, 0x10)])
    = [0x8003, 0x00, 0x01, 0x00, 0xFD, 0xA4, 5, 0x00] := by decide

theorem test_sta_V17 : after 0x0400 (vec 0x8000 0x5A 0x00 0xFF 0xFD 0x24 [(0x020, 0x01), (0x021, 0x03)] [(0x0000, 0x91), (0x0001, 0x20)])
    = [0x8002, 0x5A, 0x00, 0xFF, 0xFD, 0x24, 6, 0x5A] := by decide

theorem test_stx_V21 : after 0x0010 (vec 0x8000 0x00 0x12 0x20 0xFD 0x24 [] [(0x0000, 0x96), (0x0001, 0xF0)])
    = [0x8002, 0x00, 0x12, 0x20, 0xFD, 0x24, 4, 0x12] := by decide

theorem test_sty_V22 : after 0x000F (vec 0x8000 0x00 0xFF 0x34 0xFD 0x24 [] [(0x0000, 0x94), (0x0001, 0x10)])
    = [0x8002, 0x00, 0xFF, 0x34, 0xFD, 0x24, 4, 0x34] := by decide

theorem test_tax_V23 : after 0x0010 (vec 0x8000 0x00 0x55 0x00 0xFD 0x24 [] [(0x0000, 0xAA)])
    = [0x8001, 0x00, 0x00, 0x00, 0xFD, 0x26, 2, 0x00] := by decide

theorem test_tay_V24 : after 0x0010 (vec 0x8000 0x80 0x00 0x00 0xFD 0x24 [] [(0x0000, 0xA8)])
    = [0x8001, 0x80, 0x00, 0x80, 0xFD, 0xA4, 2, 0x00] := by decide

theorem test_txa_V25 : after 0x0010 (vec 0x8000 0x00 0x7F 0x00 0xFD 0xA4 [] [(0x0000, 0x8A)])
    = [0x8001, 0x7F, 0x7F, 0x00, 0xFD, 0x24, 2, 0x00] := by decide

theorem test_tya_V26 : after 0x0010 (vec 0x8000 0x10 0x00 0x00 0xFD 0x24 [] [(0x0000, 0x98)])
    = [0x8001, 0x00, 0x00, 0x00, 0xFD, 0x26, 2, 0x00] := by decide

theorem test_tsx_V27 : after 0x0010 (vec 0x8000 0x00 0x00 0x00 0xFD 0x24 [] [(0x0000, 0xBA)])
    = [0x8001, 0x00, 0xFD, 0x00, 0xFD, 0xA4, 2, 0x00] := by decide

theorem test_txs_V28 : after 0x0010 (vec 0x8000 0x00 0x00 0x00 0xFD 0x24 [] [(0x0000, 0x9A)])
    = [0x8001, 0x00, 0x00, 0x00, 0x00, 0x24, 2, 0x00] := by decide

theorem test_pha_V30 : after 0x0100 (vec 0x8000 0x42 0x00 0x00 0x00 0x24 [] [(0x0000, 0x48)])
    = [0x8001, 0x42, 0x00, 0x00, 0xFF, 0x24, 3, 0x42] := by decide

theorem test_pla_V32 : after 0x0010 (vec 0x8000 0x00 0x00 0x00 0xFF 0x24 [(0x100, 0x80)] [(0x0000, 0x68)])
    = [0x8001, 0x80, 0x00, 0x00, 0x00, 0xA4, 4, 0x00] := by decide

theorem test_php_V34 : after 0x01FD (vec 0x8000 0x00 0x00 0x00 0xFD 0xE5 [] [(0x0000, 0x08)])
    = [0x8001, 0x00, 0x00, 0x00, 0xFC, 0xE5, 3, 0xF5] := by decide

theorem test_plp_V35 : after 0x0010 (vec 0x8000 0x00 0x00 0x00 0xFC 0x24 [(0x1FD, 0xFF)] [(0x0000, 0x28)])
    = [0x8001, 0x00, 0x00, 0x00, 0xFD, 0xEF, 4, 0x00] := by decide

theorem test_plp_V36 : after 0x0010 (vec 0x8000 0x00 0x00 0x00 0xFC 0xEF [] [(0x0000, 0x28)])
    = [0x8001, 0x00, 0x00, 0x00, 0xFD, 0x20, 4, 0x00] := by decide

theorem test_adc_V41 : after 0x0010 (vec 0x8000 0xFF 0x00 0x00 0xFD 0x25 [] [(0x0000, 0x69)])
    = [0x8002, 0x00, 0x00, 0x00, 0xFD, 0x27, 2, 0x00] := by decide

theorem test_adc_V43 : after 0x0010 (vec 0x8000 0x09 0x00 0x00 0xFD 0x2C [] [(0x0000, 0x69), (0x0001, 0x01)])
    = [0x8002, 0x0A, 0x00, 0x00, 0xFD, 0x2C, 2, 0x00] := by decide

theorem test_sbc_V46 : after 0x0010 (vec 0x8000 0x50 0x00 0x00 0xFD 0x25 [] [(0x0000, 0xE9), (0x0001, 0xB0)])
    = [0x8002, 0xA0, 0x00, 0x00, 0xFD, 0xE4, 2, 0x00] := by decide

theorem test_sbc_V49 : after 0x0010 (vec 0x8000 0x05 0x00 0x00 0xFD 0x24 [] [(0x0000, 0xE9), (0x0001, 0x05)])
    = [0x8002, 0xFF, 0x00, 0x00, 0xFD, 0xA4, 2, 0x00] := by decide

theorem test_cmp_V52 : after 0x0010 (vec 0x8000 0x10 0x00 0x00 0xFD 0x25 [] [(0x0000, 0xC9), (0x0001, 0x20)])
    = [0x8002, 0x10, 0x00, 0x00, 0xFD, 0xA4, 2, 0x00] := by decide

theorem test_cmp_V53 : after 0x0010 (vec 0x8000 0x80 0x00 0x00 0xFD 0x64 [] [(0x0000, 0xC9), (0x0001, 0x01)])
    = [0x8002, 0x80, 0x00, 0x00, 0xFD, 0x65, 2, 0x00] := by decide

theorem test_cpx_V55 : after 0x0010 (vec 0x8000 0x00 0xFF 0x00 0xFD 0x24 [] [(0x0000, 0xE4), (0x0001, 0x10)])
    = [0x8002, 0x00, 0xFF, 0x00, 0xFD, 0xA5, 3, 0x00] := by decide

theorem test_cpy_V56 : after 0x0010 (vec 0x8000 0x00 0x00 0x00 0xFD 0xA4 [] [(0x0000, 0xC0)])
    = [0x8002, 0x00, 0x00, 0x00, 0xFD, 0x27, 2, 0x00] := by decide

theorem test_inc_V57 : after 0x0010 (vec 0x8000 0x00 0x00 0x00 0xFD 0x24 [(0x010, 0xFF)] [(0x0000, 0xE6), (0x0001, 0x10)])
    = [0x8002, 0x00, 0x00, 0x00, 0xFD, 0x26, 5, 0x00] := by decide

theorem test_inc_V58 : after 0x1100 (vec 0x8000 0x00 0x01 0x00 0xFD 0x24 [(0x100, 0x7F)] [(0x0000, 0xFE), (0x0001, 0xFF), (0x0002, 0x10)])
    = [0x8003, 0x00, 0x01, 0x00, 0xFD, 0xA4, 7, 0x80] := by decide

theorem test_dec_V59 : after 0x0010 (vec 0x8000 0x00 0x00 0x00 0xFD 0x24 [] [(0x0000, 0xC6), (0x0001, 0x10)])
    = [0x8002, 0x00, 0x00, 0x00, 0xFD, 0xA4, 5, 0xFF] := by decide

theorem test_dec_V60 : after 0x0000 (vec 0x8000 0x00 0xF0 0x00 0xFD 0x24 [(0x000, 0x01)] [(0x0000, 0xD6), (0x0001, 0x10)])
    = [0x8002, 0x00, 0xF0, 0x00, 0xFD, 0x26, 6, 0x00] := by decide

theorem test_inx_V61 : after 0x0010 (vec 0x8000 0x00 0xFF 0x00 0xFD 0x24 [] [(0x0000, 0xE8)])
    = [0x8001, 0x00, 0x00, 0x00, 0xFD, 0x26, 2, 0x00] := by decide

theorem test_iny_V62 : after 0x0010 (vec 0x8000 0x00 0x00 0x7F 0xFD 0x24 [] [(0x0000, 0xC8)])
    = [0x8001, 0x00, 0x00, 0x80, 0xFD, 0xA4, 2, 0x00] := by decide

theorem test_dex_V63 : after 0x0010 (vec 0x8000 0x00 0x00 0x00 0xFD 0x24 [] [(0x0000, 0xCA)])
    = [0x8001, 0x00, 0xFF, 0x00, 0xFD, 0xA4, 2, 0x00] := by decide

theorem test_dey_V64 : after 0x0010 (vec 0x8000 0x00 0x00 0x01 0xFD 0x24 [] [(0x0000, 0x88)])
    = [0x8001, 0x00, 0x00, 0x00, 0xFD, 0x26, 2, 0x00] := by decide

theorem test_and_V65 : after 0x0010 (vec 0x8000 0xF0 0x00 0x00 0xFD 0xA4 [] [(0x0000, 0x29), (0x0001, 0x0F)])
    = [0x8002, 0x00, 0x00, 0x00, 0xFD, 0x26, 2, 0x00] := by decide

theorem test_ora_V66 : after 0x0010 (vec 0x8000 0x01 0x00 0x00 0xFD 0x24 [] [(0x0000, 0x09), (0x0001, 0x80)])
    = [0x8002, 0x81, 0x00, 0x00, 0xFD, 0xA4, 2, 0x00] := by decide

theorem test_eor_V68 : after 0x0010 (vec 0x8000 0x0F 0x04 0x00 0xFD 0x24 [(0x015, 0x02), (0x200, 0xF0)] [(0x0000, 0x41), (0x0001, 0x10)])
    = [0x8002, 0xFF, 0x04, 0x00, 0xFD, 0xA4, 6, 0x00] := by decide

theorem test_bit_V69 : after 0x0010 (vec 0x8000 0x01 0x00 0x00 0xFD 0x24 [(0x010, 0xC0)] [(0x0000, 0x24), (0x0001, 0x10)])
    = [0x8002, 0x01, 0x00, 0x00, 0xFD, 0xE6, 3, 0xC0] := by decide

theorem test_bit_V70 : after 0x0010 (vec 0x8000 0xFF 0x00 0x00 0xFD 0xE6 [(0x010, 0x3F)] [(0x0000, 0x24), (0x0001, 0x10)])
    = [0x8002, 0xFF, 0x00, 0x00, 0xFD, 0x24, 3, 0x3F] := by decide

theorem test_asl_V73 : after 0x0010 (vec 0x8000 0x41 0x00 0x00 0xFD 0x25 [] [(0x0000, 0x0A)])
    = [0x8001, 0x82, 0x00, 0x00, 0xFD, 0xA4, 2, 0x00] := by decide

theorem test_asl_V74 : after 0x0010 (vec 0x8000 0x00 0x00 0x00 0xFD 0x24 [(0x010, 0xC0)] [(0x0000, 0x06), (0x0001, 0x10)])
    = [0x8002, 0x00, 0x00, 0x00, 0xFD, 0xA5, 5, 0x80] := by decide

theorem test_lsr_V75 : after 0x0010 (vec 0x8000 0x01 0x00 0x00 0xFD 0xA4 [] [(0x0000, 0x4A)])
    = [0x8001, 0x00, 0x00, 0x00, 0xFD, 0x27, 2, 0x00] := by decide

theorem test_lsr_V76 : after 0x0201 (vec 0x8000 0x00 0x01 0x00 0xFD 0xA5 [(0x201, 0xFE)] [(0x0000, 0x5E), (0x0002, 0x02)])
    = [0x8003, 0x00, 0x01, 0x00, 0xFD, 0x24, 7, 0x7F] := by decide

theorem test_rol_V77 : after 0x0010 (vec 0x8000 0x80 0x00 0x00 0xFD 0x25 [] [(0x0000, 0x2A)])
    = [0x8001, 0x01, 0x00, 0x00, 0xFD, 0x25, 2, 0x00] := by decide

theorem test_rol_V78 : after 0x0010 (vec 0x8000 0x00 0x00 0x00 0xFD 0x24 [(0x010, 0x40)] [(0x0000, 0x26), (0x0001, 0x10)])
    = [0x8002, 0x00, 0x00, 0x00, 0xFD, 0xA4, 5, 0x80] := by decide

theorem test_ror_V79 : after 0x0010 (vec 0x8000 0x01 0x00 0x00 0xFD 0x25 [] [(0x0000, 0x6A)])
    = [0x8001, 0x80, 0x00, 0x00, 0xFD, 0xA5, 2, 0x00] := by decide

theorem test_ror_V81 : after 0x0011 (vec 0x8000 0x00 0x01 0x00 0xFD 0x25 [] [(0x0000, 0x76), (0x0001, 0x10)])
    = [0x8002, 0x00, 0x01, 0x00, 0xFD, 0xA4, 6, 0x80] := by decide

theorem test_jmp_V82 : after 0x0010 (vec 0x8000 0x00 0x00 0x00 0xFD 0x24 [] [(0x0000, 0x4C), (0x0001, 0x34), (0x0002, 0x12)])
    = [0x1234, 0x00, 0x00, 0x00, 0xFD, 0x24, 3, 0x00] := by decide

theorem test_jmp_V84 : after 0x0010 (vec 0x8000 0x00 0x00 0x00 0xFD 0x24 [(0x200, 0x12), (0x2FF, 0x34), (0x300, 0x99)] [(0x0000, 0x6C), (0x0001, 0xFF), (0x0002, 0x02)])
    = [0x1234, 0x00, 0x00, 0x00, 0xFD, 0x24, 5, 0x00] := by decide

theorem test_jsr_V85 : after 0x01FD (vec 0x8000 0x00 0x00 0x00 0xFD 0x24 [] [(0x0000, 0x20), (0x0002, 0x90)])
    = [0x9000, 0x00, 0x00, 0x00, 0xFB, 0x24, 6, 0x80] := by decide

theorem test_rts_V88 : after 0x0010 (vec 0x8000 0x00 0x00 0x00 0xFB 0x24 [(0x1FC, 0xFF), (0x1FD, 0xFF)] [(0x0000, 0x60)])
    = [0x0000, 0x00, 0x00, 0x00, 0xFD, 0x24, 6, 0x00] := by decide

theorem test_brk_V89 : after 0x01FB (vec 0x8000 0x00 0x00 0x00 0xFD 0x20 [] [(0x0001, 0xEA), (0x7FFB, 0x90), (0x7FFD, 0x80), (0x7FFF, 0xA0)])
    = [0xA000, 0x00, 0x00, 0x00, 0xFA, 0x24, 7, 0x30] := by decide

theorem test_brk_V90 : after 0x01FF (vec 0x8000 0x00 0x00 0x00 0x01 0xE7 [] [(0x7FFB, 0x90), (0x7FFD, 0x80), (0x7FFF, 0xA0)])
    = [0xA000, 0x00, 0x00, 0x00, 0xFE, 0xE7, 7, 0xF7] := by decide

theorem test_rti_V91 : after 0x0010 (vec 0x8000 0x00 0x00 0x00 0xFA 0x24 [(0x1FB, 0xF3), (0x1FC, 0x02), (0x1FD, 0x80)] [(0x0000, 0x40)])
    = [0x8002, 0x00, 0x00, 0x00, 0xFD, 0xE3, 6, 0x00] := by decide

theorem test_bne_V94 : after 0x0010 (vec 0x8000 0x00 0x00 0x00 0xFD 0x26 [] [(0x0000, 0xD0), (0x0001, 0x04)])
    = [0x8002, 0x00, 0x00, 0x00, 0xFD, 0x26, 2, 0x00] := by decide

theorem test_bne_V106 : after 0x0010 (vec 0x80FE 0x00 0x00 0x00 0xFD 0x24 [] [(0x00FE, 0xD0), (0x00FF, 0xFD)])
    = [0x80FD, 0x00, 0x00, 0x00, 0xFD, 0x24, 4, 0x00] := by decide

theorem test_beq_V95 : after 0x0010 (vec 0x8000 0x00 0x00 0x00 0xFD 0x26 [] [(0x0000, 0xF0), (0x0001, 0xFE)])
    = [0x8000, 0x00, 0x00, 0x00, 0xFD, 0x26, 3, 0x00] := by decide

theorem test_beq_V96 : after 0x0010 (vec 0x80FC 0x00 0x00 0x00 0xFD 0x26 [] [(0x00FC, 0xF0), (0x00FD, 0x02)])
    = [0x8100, 0x00, 0x00, 0x00, 0xFD, 0x26, 4, 0x00] := by decide

theorem test_bcc_V97 : after 0x0010 (vec 0x8010 0x00 0x00 0x00 0xFD 0x24 [] [(0x0010, 0x90), (0x0011, 0x80)])
    = [0x7F92, 0x00, 0x00, 0x00, 0xFD, 0x24, 4, 0x00] := by decide

theorem test_bcs_V99 : after 0x0010 (vec 0x8000 0x00 0x00 0x00 0xFD 0x25 [] [(0x0000, 0xB0), (0x0001, 0x05)])
    = [0x8007, 0x00, 0x00, 0x00, 0xFD, 0x25, 3, 0x00] := by decide

theorem test_bcs_V100 : after 0x0010 (vec 0x8000 0x00 0x00 0x00 0xFD 0x24 [] [(0x0000, 0xB0), (0x0001, 0x05)])
    = [0x8002, 0x00, 0x00, 0x00, 0xFD, 0x24, 2, 0x00] := by decide

theorem test_bmi_V101 : after 0x0010 (vec 0x8000 0x00 0x00 0x00 0xFD 0xA4 [] [(0x0000, 0x30), (0x0001, 0x01)])
    = [0x8003, 0x00, 0x00, 0x00, 0xFD, 0xA4, 3, 0x00] := by decide

theorem test_bpl_V102 : after 0x0010 (vec 0x8000 0x00 0x00 0x00 0xFD 0x24 [] [(0x0000, 0x10), (0x0001, 0x01)])
    = [0x8003, 0x00, 0x00, 0x00, 0xFD, 0x24, 3, 0x00] := by decide

theorem test_bvc_V103 : after 0x0010 (vec 0x8000 0x00 0x00 0x00 0xFD 0x24 [] [(0x0000, 0x50), (0x0001, 0x01)])
    = [0x8003, 0x00, 0x00, 0x00, 0xFD, 0x24, 3, 0x00] := by decide

theorem test_bvs_V104 : after 0x0010 (vec 0x8000 0x00 0x00 0x00 0xFD 0x64 [] [(0x0000, 0x70), (0x0001, 0x01)])
    = [0x8003, 0x00, 0x00, 0x00, 0xFD, 0x64, 3, 0x00] := by decide

theorem test_bvs_V105 : after 0x0010 (vec 0x8000 0x00 0x00 0x00 0xFD 0x24 [] [(0x0000, 0x70), (0x0001, 0x01)])
    = [0x8002, 0x00, 0x00, 0x00, 0xFD, 0x24, 2, 0x00] := by decide

theorem test_clc_V107 : after 0x0010 (vec 0x8000 0x00 0x00 0x00 0xFD 0x25 [] [(0x0000, 0x18)])
    = [0x8001, 0x00, 0x00, 0x00, 0xFD, 0x24, 2, 0x00] := by decide

theorem test_sec_V108 : after 0x0010 (vec 0x8000 0x00 0x00 0x00 0xFD 0x24 [] [(0x0000, 0x38)])
    = [0x8001, 0x00, 0x00, 0x00, 0xFD, 0x25, 2, 0x00] := by decide

theorem test_cli_V109 : after 0x0010 (vec 0x8000 0x00 0x00 0x00 0xFD 0x24 [] [(0x0000, 0x58)])
    = [0x8001, 0x00, 0x00, 0x00, 0xFD, 0x20, 2, 0x00] := by decide

theorem test_sei_V110 : after 0x0010 (vec 0x8000 0x00 0x00 0x00 0xFD 0x20 [] [(0x0000, 0x78)])
    = [0x8001, 0x00, 0x00, 0x00, 0xFD, 0x24, 2, 0x00] := by decide

theorem test_cld_V111 : after 0x0010 (vec 0x8000 0x00 0x00 0x00 0xFD 0x2C [] [(0x0000, 0xD8)])
    = [0x8001, 0x00, 0x00, 0x00, 0xFD, 0x24, 2, 0x00] := by decide

theorem test_sed_V112 : after 0x0010 (vec 0x8000 0x00 0x00 0x00 0xFD 0x24 [] [(0x0000, 0xF8)])
    = [0x8001, 0x00, 0x00, 0x00, 0xFD, 0x2C, 2, 0x00] := by decide

theorem test_clv_V113 : after 0x0010 (vec 0x8000 0x00 0x00 0x00 0xFD 0x64 [] [(0x0000, 0xB8)])
    = [0x8001, 0x00, 0x00, 0x00, 0xFD, 0x24, 2, 0x00] := by decide

theorem test_nop_V114 : after 0x0010 (vec 0x8000 0x00 0x00 0x00 0xFD 0x24 [] [(0x0000, 0xEA)])
    = [0x8001, 0x00, 0x00, 0x00, 0xFD, 0x24, 2, 0x00] := by decide

theorem test_nopStar_V115 : after 0x0010 (vec 0x8000 0x00 0x00 0x00 0xFD 0x24 [] [(0x0000, 0x02), (0x0001, 0xEA)])
    = [0x8001, 0x00, 0x00, 0x00, 0xFD, 0x24, 2, 0x00] := by decide

theorem test_nopStar_V118 : after 0x0010 (vec 0x8000 0x10 0x00 0x00 0xFD 0x25 [] [(0x0000, 0xEB), (0x0001, 0x01)])
    = [0x8001, 0x10, 0x00, 0x00, 0xFD, 0x25, 2, 0x00] := by decide

/-! ## Interrupt entry (V119, V120, V121, V124) -/

/-- The vectors' six bytes at 0xFFFA with a NOP at 0x8000. -/
def handlers : List (Nat × Nat) := [(0x0000, 0xEA), (0x7FFB, 0x90), (0x7FFD, 0x80), (0x7FFF, 0xA0)]

/-- The state with the two latches as given. -/
def latched (nmi irq : Bool) (s : State) : State := s.mapCpu fun c => { c with nmiPending := nmi, irqPending := irq }

theorem test_nmi_V119 : after 0x01FB (latched true false (vec 0x8000 0 0 0 0xFD 0x21 [] handlers))
    = [0x9000, 0, 0, 0, 0xFA, 0x25, 7, 0x21] := by decide

theorem test_irq_V120 : after 0x01FD (latched false true (vec 0x8000 0 0 0 0xFD 0x20 [] handlers))
    = [0xA000, 0, 0, 0, 0xFA, 0x24, 7, 0x80] := by decide

theorem test_irq_masked_V121 : after 0x01FD (latched false true (vec 0x8000 0 0 0 0xFD 0x24 [] handlers))
    = [0x8001, 0, 0, 0, 0xFD, 0x24, 2, 0x00] := by decide

theorem test_nmi_wraps_V124 : after 0x01FF (latched true false (vec 0x8000 0 0 0 0x01 0x24 [] handlers))
    = [0x9000, 0, 0, 0, 0xFE, 0x24, 7, 0x24] := by decide

/-! ## The bus and the devices (part 3) -/

/-- A list of bus accesses: a write, or a read. -/
def access (s : State) : List (Nat × Option Nat) → State
  | [] => s
  | (a, some v) :: rest => access (busWrite (BitVec.ofNat 16 a) (BitVec.ofNat 8 v) s) rest
  | (a, none) :: rest => access (busRead (BitVec.ofNat 16 a) s).2 rest

/-- X1. -/
theorem test_ram_mirrors : (([0x0005, 0x0805, 0x1005, 0x1805].map fun a => peek a (access State.reset [(0x0005, some 0x5A)]))
    = [0x5A, 0x5A, 0x5A, 0x5A]) ∧ peek 0x07FF (access State.reset [(0x1FFF, some 0x11)]) = 0x11 := by decide

/-- X3. -/
theorem test_unmapped : [0x4018, 0x401F, 0x4000, 0x4014, 0x4020, 0x5FFF, 0x2000, 0x2005].map (fun a => busRead a State.reset)
    = List.replicate 8 (0, State.reset) ∧ access State.reset [(0x4018, some 0xFF), (0x5000, some 0xFF)] = State.reset := by decide

/-- X4: A and Start held on port 0. -/
def held : State := { State.reset with bus := { Bus.atLoad with port0 := ⟨0x041, 0⟩ } }

theorem test_buttons : [0x041, 0x8C1, 0xFFFFF03C, 0xFFF].map nesButtons = [0x09, 0x8D, 0x00, 0xFF] := by decide

theorem test_controller : (access held [(0x4016, some 1), (0x4016, none)]).bus.port0.shift = 0x84
    ∧ (access held [(0x4016, some 1), (0x4016, none), (0x4016, some 0), (0x4016, none), (0x4016, none)]).bus.port0.shift = 0xC2
    ∧ peek 0x4016 (access held [(0x4016, some 1), (0x4016, some 0), (0x4016, none)]) = 0x40
    ∧ peek 0x4016 (access held [(0x4016, some 1), (0x4016, some 0), (0x4016, none), (0x4016, none), (0x4016, none)]) = 0x41 := by
  decide

/-- X6: its start state. -/
def video6 : State := { State.reset with
  ppu := { Ppu.atLoad with nametableRam := cells [(0x000, 0xAA), (0x001, 0xBB), (0x020, 0xCC), (0x710, 0x77)], paletteRam := [(0, 0x0F)] }
  cart := { Cartridge.blank with initialMirror := .vertical } }

theorem test_ppudata_buffered :
    let s := access video6 [(0x2006, some 0x20), (0x2006, some 0x00), (0x2007, none)]
    peek 0x2007 s = 0xAA ∧ s.ppu.v = 0x2001 ∧ (access s [(0x2000, some 4), (0x2007, none)]).ppu.v = 0x2021 := by decide

theorem test_ppudata_palette :
    let s := access video6 [(0x2006, some 0xFF), (0x2006, some 0x10)]
    peek 0x2007 s = 0x0F ∧ (access s [(0x2007, none)]).ppu.dataBuffer = 0x77 ∧ (access s [(0x2007, none)]).ppu.v = 0x3F11 := by decide

theorem test_scroll :
    let s := access video6 [(0x2006, some 0xFF), (0x2006, some 0x10), (0x2005, some 0x7D), (0x2005, some 0x5E)]
    s.ppu.t = 0x6D6F ∧ s.ppu.fineX = 5 ∧ s.ppu.w = false ∧ s.ppu.v = 0x3F10 := by decide

/-- X7: the dot before VBlank with NMI output on. -/
def beforeVblank : Video := ⟨{ Ppu.atLoad with scanline := 241, cycle := 0, nmiOutput := true }, .blank⟩

theorem test_vblank_dot : beforeVblank.dot.ppu.status = 0x80 ∧ beforeVblank.dot.ppu.nmiDelay = 15
    ∧ ((beforeVblank.dots 15).ppu.nmiTriggered, (beforeVblank.dots 16).ppu.nmiTriggered) = (false, true) := by
  decide +kernel

theorem test_status_suppression : ((beforeVblank.regRead 2).2.dot.ppu.status, (beforeVblank.regRead 2).2.dot.ppu.frameComplete) = (0, true)
    ∧ ((beforeVblank.dots 1).regRead 2).1 = 0x80 ∧ ((beforeVblank.dots 1).regRead 2).2.ppu.nmiLatched = false
    ∧ ((beforeVblank.dots 3).regRead 2).2.ppu.nmiLatched = true := by decide

/-- X8. -/
theorem test_index_functions : [0x3F00, 0x3F10, 0x3F14, 0x3F18, 0x3F1C, 0x3F11, 0x3F1F, 0x3F30, 0x3FFF].map palIndex
      = [0x00, 0x00, 0x04, 0x08, 0x0C, 0x11, 0x1F, 0x00, 0x1F]
    ∧ [0x2000, 0x2400, 0x2800, 0x2C00, 0x27FF, 0x2BFF].map (ntIndex .horizontal) = [0, 0, 0x400, 0x400, 0x3FF, 0x7FF]
    ∧ [0x2000, 0x2400, 0x2800, 0x2C00].map (ntIndex .vertical) = [0, 0x400, 0, 0x400]
    ∧ (ntIndex .singleScreen0 0x2C55, ntIndex .singleScreen1 0x2C55, ntIndex .fourScreen 0x2C55) = (0x55, 0x455, 0xC55) := by decide

/-- X10: 128 KiB of PRG ROM on MMC1. -/
theorem test_mmc1_serial :
    let five := fun (m : Mmc1) (a : Nat) (v : List Byte) => v.foldl (fun m b => m.write a b) m
    let m := five mmc1PowerOn 0xE000 [1, 0, 1, 0, 0]
    let at' := fun (m : Mmc1) (a : Nat) => Cartridge.prgOffset { Cartridge.blank with prgSize := 131072, mapper := .mmc1 m }
      (Cartridge.prgSlot { Cartridge.blank with prgSize := 131072, mapper := .mmc1 m } a)
    m = { mmc1PowerOn with prgr := 5 } ∧ at' m 0x8000 = some (5 * 16384) ∧ at' m 0xC000 = some (7 * 16384)
      ∧ five m 0x8000 [1, 0x80] = m ∧ (five m 0x8000 [0, 0, 0, 0, 0]).control = 0
      ∧ at' (five m 0x8000 [0, 0, 0, 0, 0]) 0xC000 = some (5 * 16384) := by decide

/-- X11. -/
theorem test_mmc3_filter :
    let m0 := ((mmc3PowerOn.write 0xC000 2).write 0xC001 0).write 0xE001 0
    let run := fun (m : Mmc3) (l : List (Nat × Nat)) => l.foldl (fun m c => m.addressBus (BitVec.ofNat 16 c.1) c.2) m
    let m1 := run m0 [(0x1000, 260)]
    let m2 := run m1 [(0x0000, 270), (0x1000, 280), (0x0000, 281), (0x0FFF, 290)]
    let m3 := run m2 [(0x1000, 297), (0x1FF0, 300)]
    let m4 := run m3 [(0x0000, 320), (0x1000, 601)]
    (m1.irqCounter, m1.irqReload, m2.irqCounter, m2.lastA12Cycle, m3.irqCounter, m3.irqFlag) = (2, false, 2, 281, 1, false)
      ∧ (m4.irqCounter, m4.irqFlag, m4.irqPendingAtCycle) = (0, true, 601)
      ∧ (m4.write 0xE000 0).irqFlag = false ∧ cyclesLow 10 89000 = 352 := by decide

/-- X12. -/
theorem test_apu_lengths :
    let s1 := access State.reset [(0x4003, some 8)]
    let s2 := access s1 [(0x4015, some 1), (0x4003, some 8)]
    let s3 := access s2 [(0x4017, some 0x80)]
    s1.apu.pulse0.length = 0 ∧ s2.apu.pulse0.length = 254 ∧ peek 0x4015 s2 = 1 ∧ s3.apu.pulse0.length = 253
      ∧ (access s3 [(0x4015, some 0)]).apu.pulse0.length = 0 := by decide

/-- X13: pulses, triangle and noise at 15, DMC at 0: 0.42735, here as a binary32. -/
theorem test_mixer : f32Add (f32Mul mixPulse (f32OfNat 30)) (f32Add (f32Mul mixTriangle (f32OfNat 15)) (f32Mul mixNoise (f32OfNat 15)))
    = 0x3EDACD9F := by decide

/-- X15: the check value of CRC-32. -/
theorem test_crc : crc32 [0x31, 0x32, 0x33, 0x34, 0x35, 0x36, 0x37, 0x38, 0x39] = 0xCBF43926 := by
  decide +kernel

theorem test_header : (headerMirror 0x01, headerMirror 0x48, headerMapper 0x48 0x00, headerMapper 0x42 0x10)
    = (.vertical, .fourScreen, 0x04, 0x14)
    ∧ parseRom [0x4E, 0x45, 0x53, 0x1A, 1, 0, 0, 0, 0, 0, 0, 0, 0, 0, 0, 0] = .error .tooFewBytes := ⟨by decide, by
    simp [parseRom, bitOf]⟩

/-! ## The open parameters (00_scope.md R6), and R427 -/

/-- UNOFFICIAL_LEN: with byte 0x04 two bytes long, its second byte is skipped, unread, by the step and by the decoder. -/
theorem test_unofficial_len :
    let p := { Config.defaults with unofficialLens := [(0x04, 2)] }
    let s := vec 0x8000 0 0 0 0xFD 0x24 [] [(0x0000, 0x04), (0x0001, 0xE8)]
    (fetchInstrWith p s).1 = .nopStar 0x04 ∧ (fetchInstrWith p s).2.cpu.pc = 0x8002 ∧ (fetchInstr s).2.cpu.pc = 0x8001
      ∧ (match decodeWith p [0x04, 0xE8, 0xEA] with | .ok r => r | .error _ => (.brk, [])) = (.nopStar 0x04, [0xEA]) := by decide

/-- POWER_ON_RAM: a new machine's RAM and palette with given contents. -/
theorem test_power_on_ram :
    let p := { Config.defaults with powerOnRam := { Config.PowerOnRam.zero with ram := [0xAA, 0, 0xBB], paletteRam := [1] } }
    (State.fresh p .blank).bus.ram = [(0, 0xAA), (2, 0xBB)] ∧ (State.fresh p .blank).ppu.paletteRam = [(0, 1)]
      ∧ State.fresh Config.defaults .blank = State.reset := by decide

/-- R427 with 16-row sprites, tile 0x03: row 9 is in the second tile; a row of -5, from a stale slot, adds nothing to the tile. -/
theorem test_sprite_row :
    let p := { Ppu.atLoad with ctrl := 0x20, scanline := 20 }
    p.spriteAddr { SpriteSlot.zero with tile := 0x03, y := 11 } = 0x1031
      ∧ p.spriteAddr { SpriteSlot.zero with tile := 0x03, y := 25 } = 0x1023 := by decide

/-! ## Witnesses: for every obligation with hypotheses, states and operands that meet them -/

/-- DecodeUndoesEncode, CyclesFollowTheTable and the statements about one family: the premise `i.wf`, for one form of every
constructor, at the ends of its operands' ranges. -/
theorem witness_wellFormed_memory :
    ([.lda (.mem (.izy 0xFF)), .ldx (.mem (.zpy 0xFF)), .ldy (.mem (.abx 0xFFFF)), .sta (.izx 0), .stx (.zpy 0), .sty (.zpx 0xFF),
      .adc (.imm 0xFF), .sbc (.mem (.aby 0)), .cmp (.mem (.zpx 0)), .cpx (.mem (.abs 0xFFFF)), .cpy (.imm 0), .inc (.abx 0),
      .dec (.zp 0xFF), .and (.mem (.abs 0)), .ora (.mem (.zp 0)), .eor (.mem (.izx 0xFF)), .bit (.abs 0xFFFF), .asl .acc,
      .lsr (.mem (.zpx 0)), .rol (.mem (.abx 0xFFFF)), .ror (.mem (.zp 0))] : List Instr).all Instr.wf = true := by decide

theorem witness_wellFormed_others :
    ([.tax, .tay, .txa, .tya, .tsx, .txs, .pha, .php, .pla, .plp, .inx, .iny, .dex, .dey, .jmp (.ind 0xFFFF), .jsr 0, .rts, .rti,
      .brk, .bcc 0x80, .bcs 0x7F, .beq 0, .bne 0xFF, .bmi 0, .bpl 0, .bvc 0, .bvs 0, .clc, .sec, .cli, .sei, .cld, .sed, .clv,
      .nop, .nopStar 0x02, .nopStar 0xFF] : List Instr).all Instr.wf = true := by decide

/-- Does an outcome carry a next state? -/
def answers {σ : Type} : Host.Outcome σ Fault Refusal → Bool
  | .next _ => true
  | .fault _ => false
  | .refused _ => false

theorem next_of_answers {σ : Type} {o : Host.Outcome σ Fault Refusal} (h : answers o = true) : ∃ t, o = .next t := by
  cases o with
  | next t => exact ⟨t, rfl⟩
  | fault f => cases f
  | refused r => cases h

/-- CyclesFollowTheTable, AdcAndSbcIgnoreDecimal, the frames: the premise that `exec` answers a next state. -/
theorem witness_exec : (∃ t, exec (.adc (.mem (.abs 0x4016))) State.reset = .next t)
    ∧ (∃ t, exec (.sbc (.imm 0)) State.reset = .next t) ∧ ∃ t, exec (.sta (.abs 0x2007)) State.reset = .next t :=
  ⟨⟨_, rfl⟩, ⟨_, rfl⟩, ⟨_, rfl⟩⟩

/-- The hypotheses of StepRunsTheDecodedInstruction. -/
def runsAt (s : State) : Prop :=
  (quietAddr s.cpu.pc ∧ quietAddr (s.cpu.pc + 1) ∧ quietAddr (s.cpu.pc + 2) ∧ s.cpu.nmiPending = false
      ∧ (s.cpu.irqPending = false ∨ s.cpu.flag .I = true))
    ∧ ∃ i rest t, decode [peek s.cpu.pc s, peek (s.cpu.pc + 1) s, peek (s.cpu.pc + 2) s] = .ok (i, rest)
      ∧ exec i { s with
          cpu := { s.cpu with pc := s.cpu.pc + BitVec.ofNat 16 i.length }
          loop := { s.loop with nmiDelayArmed := false } } = .next t

/-- At the end of RAM; at 0x4018; at the end of memory, where the operand bytes wrap; with an IRQ masked. -/
theorem witness_StepRunsTheDecodedInstruction : runsAt (vec 0x1FFD 0 0 0 0xFD 0x24 [(0x7FD, 0xAD)] [])
    ∧ runsAt (vec 0x4018 0 0 0 0xFD 0x24 [] []) ∧ runsAt (vec 0xFFFF 0 0 0 0xFD 0x24 [(0, 0x12)] [(0x7FFF, 0xA9)])
    ∧ runsAt (latched false true (vec 0x8000 0 0 0 0xFD 0x24 [] handlers)) :=
  ⟨⟨by decide, _, _, _, rfl, rfl⟩, ⟨by decide, _, _, _, rfl, rfl⟩, ⟨by decide, _, _, _, rfl, rfl⟩,
    ⟨by decide, _, _, _, rfl, rfl⟩⟩

theorem witness_UnofficialOpcodesDoNothing : (0x02#8).toNat ∈ unofficialOpcodes ∧ (0xFF#8).toNat ∈ unofficialOpcodes := by decide

/-- NOP writes no register. -/
theorem witness_InstructionsWriteOnlyTheirRegisters : (∃ t, exec .nop State.reset = .next t)
    ∧ (Instr.writesA .nop, Instr.writesX .nop, Instr.writesY .nop, Instr.writesSp .nop, Instr.writesPc .nop)
      = (false, false, false, false, false) := ⟨⟨_, rfl⟩, rfl⟩

/-- A load; the memory-like addresses at the ends of their ranges. -/
theorem witness_ReadingFormsLeaveMemory : Instr.storesTo? (.lda (.mem (.abs 0x2002))) = none
    ∧ Instr.pushesTo 0xFD (.lda (.mem (.abs 0x2002))) = [] ∧ (∃ t, exec (.lda (.mem (.abs 0x2002))) State.reset = .next t)
    ∧ quietAddr 0x0000 ∧ quietAddr 0x1FFF ∧ quietAddr 0x4018 ∧ quietAddr 0xFFFF :=
  ⟨rfl, rfl, ⟨_, rfl⟩, by decide⟩

/-- A store to the last address below the cartridge's registers and other bytes; a push and the byte above its slot. -/
theorem witness_StoringFormsLeaveOtherBytes : (∃ t, exec (.sta (.abs 0x40FF)) State.reset = .next t
      ∧ t.cart.prgSlot 0x8000 = State.reset.cart.prgSlot 0x8000)
    ∧ Instr.storesTo? (.sta (.abs 0x40FF)) = some (.abs 0x40FF) ∧ (Addr.ea (.abs 0x40FF) State.reset).toNat < 0x4100
    ∧ (quietAddr 0x7FFF ∧ (0x7FFF#16).toNat < 0x8000 ∧ ¬sameByte 0x7FFF (Addr.ea (.abs 0x40FF) State.reset))
    ∧ (∃ t, exec .pha State.reset = .next t) ∧ Instr.pushesTo State.reset.cpu.sp .pha ≠ []
    ∧ quietAddr 0x01FE ∧ ∀ slot ∈ Instr.pushesTo State.reset.cpu.sp .pha, ¬sameByte 0x01FE (0x100 + zext16 slot) :=
  ⟨⟨_, rfl, rfl⟩, rfl, by decide, ⟨by decide, by decide, by unfold sameByte; decide⟩, ⟨_, rfl⟩, by decide, by decide, by
    unfold sameByte; decide⟩

/-- The four cases of the latches, each with a step (InterruptEntrySavesPcAndStatus, LatchesAreCheckedFirst). -/
theorem witness_latches :
    (∃ t, cpuStep (latched true true State.reset) = .next t)
    ∧ ((∃ t, cpuStep (latched false true State.reset) = .next t) ∧ State.reset.cpu.flag .I = true)
    ∧ ((∃ t, cpuStep (latched false true (vec 0x8000 0 0 0 0xFD 0x20 [] [])) = .next t)
      ∧ (vec 0x8000 0 0 0 0xFD 0x20 [] []).cpu.flag .I = false)
    ∧ ∃ t, cpuStep (latched false false State.reset) = .next t :=
  ⟨⟨_, rfl⟩, ⟨⟨_, rfl⟩, by decide⟩, ⟨⟨_, rfl⟩, by decide⟩, ⟨_, rfl⟩⟩

theorem witness_ReturnsUndoEntries : State.reset.cpu.statusOk ∧ (vec 0 0 0 0 0x01 0xEF [] []).cpu.statusOk := by decide

/-- GoodStatesAreKept, RomNeverChanges: a good state that steps. -/
theorem witness_GoodStatesAreKept : State.reset.good ∧ ∃ t, step State.reset = .next t :=
  ⟨by decide, next_of_answers (by decide +kernel)⟩

/-- An image of mapper 0 with the PRG ROM given: one unit. -/
def imageOf (prg : List Byte) : List Byte := 0x4E :: 0x45 :: 0x53 :: 0x1A :: 1 :: 0 :: 0 :: 0 :: 0 :: 0 :: 0 :: 0 :: 0 :: 0 :: 0 :: 0 :: prg

theorem imageOf_loads (prg : List Byte) (h : prg.length = 16384) :
    ∃ s, loadRom Config.defaults (imageOf prg) .empty = (.loaded s, none) := by
  unfold loadRom parseRom
  simp [imageOf, bitOf, headerMapper, mapperOf, h]

/-- ResetReloadsTheVector, LoadsAreGoodOrRefused: an image that loads. -/
theorem witness_loadRom : ∃ s, loadRom Config.defaults (imageOf (List.replicate 16384 0)) .empty = (.loaded s, none) :=
  imageOf_loads _ List.length_replicate

/-- LoadsAreGoodOrRefused: an image for each error; mapper 5 is none of R560. -/
theorem witness_loadRom_errors :
    let error := fun image => (loadRom Config.defaults image .empty).2
    error (imageOf [] |>.take 15) = some .shortHeader
      ∧ error (List.replicate 16 0) = some .badMagic
      ∧ error ([0x4E, 0x45, 0x53, 0x1A] ++ List.replicate 12 0) = some .noPrg
      ∧ error (imageOf []) = some .tooFewBytes := by decide

theorem witness_loadRom_mapper (prg : List Byte) (h : prg.length = 16384) :
    loadRom Config.defaults (0x4E :: 0x45 :: 0x53 :: 0x1A :: 1 :: 0 :: 0x50 :: List.replicate 9 0 ++ prg) .empty
      = (.empty, some (.unsupportedMapper 5)) := by
  unfold loadRom parseRom
  simp [bitOf, headerMapper, mapperOf, h]

/-- RamIsMirrored: two mirrors of one byte at the ends of the window. -/
theorem witness_RamIsMirrored : (0x07FF#16).toNat ≤ 0x1FFF ∧ (0x1FFF#16).toNat ≤ 0x1FFF
    ∧ (0x07FF#16).toNat % 0x800 = (0x1FFF#16).toNat % 0x800 := by decide

/-- The hypothesis on an address of each clause of DeviceAddresses. -/
def inRange (lo hi : Nat) (a : Word) : Bool := decide (lo ≤ a.toNat ∧ a.toNat ≤ hi)

theorem witness_DeviceAddresses : [0x2000, 0x3FFF].all (inRange 0x2000 0x3FFF) = true ∧ (0x2007#16).toNat % 8 = (0x3FFF#16).toNat % 8
    ∧ [0x3FF8#16, 0x3FF9#16, 0x3FFB#16, 0x3FFD#16, 0x3FFE#16].map (fun a => a.toNat % 8) = [0, 1, 3, 5, 6]
    ∧ [0x4000, 0x4014].all (inRange 0x4000 0x4014) = true ∧ [0x4018, 0x5FFF].all (inRange 0x4018 0x5FFF) = true
    ∧ [0x4018, 0x401F].all (inRange 0x4018 0x401F) = true ∧ [0x4020, 0x5FFF].all (inRange 0x4020 0x5FFF) = true
    ∧ State.reset.cart.mapper.number ≠ 79 ∧ (0x3FFA#16).toNat % 8 = 2 := by decide

theorem witness_OamDmaCopiesAPage : [0x00#8, 0x1F#8, 0x41#8, 0xFF#8].all
    (fun p => decide (p.toNat < 0x20 ∨ 0x41 ≤ p.toNat)) = true := by decide

/-- A state at 0x8000 with a NOP, on the grid's last position, with an armed NMI, a masked IRQ and an MMC3 whose flag is up. -/
def waiting : State :=
  let s := latched false true (vec 0x8000 0 0 0 0xFD 0x24 [] handlers)
  { s with
    ppu := { s.ppu with scanline := 261, cycle := 340 }
    apu := { s.apu with frameIrq := true }
    cart := { s.cart with mapper := .mmc3 { mmc3PowerOn with irqFlag := true } }
    loop := { s.loop with nmiDelayArmed := true } }

/-- The state after an iteration's CPU step, and after the iteration, if they are next states. -/
def iterated (p : Config.Params) (s : State) : Option (State × State) :=
  match cpuStep { s with loop := { s.loop with nmiDelayArmed := false } }, loopIteration p s with
  | .next t, .next (u, _) => some (t, u)
  | _, _ => none

/-- IterationRunsThreeDotsPerCycle, LoopHandsOverInterrupts: each clause's hypothesis. -/
theorem witness_loopIteration : (∃ r, loopIteration Config.defaults waiting = .next r)
    ∧ waiting.loop.nmiDelayArmed = true
    ∧ (iterated Config.defaults waiting).map (fun r => (r.1.cpu.irqPending, r.1.cart.irqPending)) = some (true, true)
    ∧ (∀ m, State.reset.cart.mapper ≠ .mmc3 m)
    ∧ (iterated { Config.defaults with apuIrqRouted := true } waiting).map (fun r => r.2.apu.frameIrq) = some true :=
  ⟨next_of_answers (by decide +kernel), rfl, by decide +kernel, nofun, by decide +kernel⟩

/-- The same with an NMI that counts down to 0 in the first dot, and with one that the CPU step delayed. -/
def aboutToTrigger : State := { waiting with ppu := { waiting.ppu with nmiLatched := true, nmiDelay := 1 } }

def delayedNmi : State := { waiting with ppu := { waiting.ppu with nmiTriggeredDelayed := true } }

/-- LoopHandsOverInterrupts: an immediate and a delayed NMI reported by the first dot. -/
theorem witness_LoopHandsOverInterrupts_nmi :
    (iterated Config.defaults aboutToTrigger).map (fun r => r.1.video.dot.ppu.nmiTriggered) = some true
      ∧ (iterated Config.defaults delayedNmi).map (fun r => (r.1.ppu.nmiTriggered, r.1.ppu.nmiLatched, r.1.ppu.nmiTriggeredDelayed))
        = some (false, false, true)
      ∧ (iterated Config.defaults delayedNmi).map (fun r => (r.1.video.dot.ppu.nmiTriggered, r.1.video.dot.ppu.nmiTriggeredDelayed))
        = some (false, true)
      ∧ (iterated Config.defaults delayedNmi).map (fun r => r.2.loop.nmiDelayArmed) = some true := by decide +kernel

theorem witness_FrameAlwaysEnds : State.reset.ppu.onGrid ∧ waiting.ppu.onGrid := by decide

theorem witness_AddressAndScrollWrites : State.reset.video.ppu.w = false := rfl

/-- PpuDataIsBuffered: below the palette, at its start, and a cartridge with CHR ROM. -/
theorem witness_PpuDataIsBuffered : ((0x3EFF#16 &&& 0x3FFF).toNat < 0x3F00 ∧ 0x2000 ≤ (0x3EFF#16 &&& 0x3FFF).toNat)
    ∧ 0x3F00 ≤ (0x7F00#16 &&& 0x3FFF).toNat ∧ Cartridge.blank.hasChrRam = true ∧ { Cartridge.blank with hasChrRam := false }.hasChrRam = false
    ∧ (0x3F00 ≤ (0x3F00#16).toNat ∧ (0x3FFF#16).toNat < 0x4000) := by decide

/-- StatusReadsSuppress: line 241 at 0, 1, 2, 3, and the line before. -/
theorem witness_StatusReadsSuppress : (beforeVblank.ppu.scanline = 241 ∧ beforeVblank.ppu.cycle = 0 ∧ beforeVblank.ppu.nmiLatched = false)
    ∧ ((beforeVblank.dots 1).ppu.scanline = 241 ∧ (beforeVblank.dots 1).ppu.cycle = 1) ∧ (beforeVblank.dots 2).ppu.cycle = 2
    ∧ ¬((beforeVblank.dots 3).ppu.scanline = 241 ∧ (beforeVblank.dots 3).ppu.cycle ≤ 2)
    ∧ ¬((240 : Nat) = 241 ∧ (0 : Nat) ≤ 2) := by decide +kernel

theorem witness_VblankNmiAfterFifteenDots : beforeVblank.ppu.scanline = 241 ∧ beforeVblank.ppu.cycle = 0
    ∧ beforeVblank.ppu.vblSuppress = false ∧ beforeVblank.ppu.suppressNmi = false ∧ beforeVblank.ppu.nmiLatched = false
    ∧ beforeVblank.ppu.nmiTriggered = false := by decide

/-- An even frame without rendering, and an odd one with it. -/
theorem witness_FramesHaveTheirLength :
    let odd := { Ppu.atLoad with oddFrame := true, mask := 0x18, maskPrev := 0x18 }
    (Ppu.atLoad.scanline = 0 ∧ Ppu.atLoad.cycle = 0 ∧ Ppu.atLoad.maskPrev = Ppu.atLoad.mask)
      ∧ odd.scanline = 0 ∧ odd.cycle = 0 ∧ odd.maskPrev = odd.mask ∧ odd.oddFrame = true ∧ odd.mask &&& 0x18 ≠ 0 := by decide

/-- DotsStoreNothing: rendering off at the first and the last visible dot, and beside them. -/
theorem witness_DotsStoreNothing : Ppu.atLoad.mask &&& 0x18 = 0
    ∧ [(0, 1), (239, 256)].all (fun c : Nat × Nat => decide (c.1 ≤ 239 ∧ 1 ≤ c.2 ∧ c.2 ≤ 256)) = true
    ∧ [(0, 0), (239, 257), (240, 1), (261, 340)].all (fun c : Nat × Nat => decide ¬(c.1 ≤ 239 ∧ 1 ≤ c.2 ∧ c.2 ≤ 256)) = true := by
  decide

/-- A PPU with its background bit and its first sprite's bit as given, the sprite in front or behind. -/
def layers (bg sp front : Bool) : Ppu :=
  { Ppu.atLoad with
    mask := 0x1E
    bgPatternLo := if bg then 0x8000 else 0
    slots := Vector.replicate 8 { SpriteSlot.zero with lo := if sp then 0x80 else 0, attr := if front then 0 else 0x20 }
    spriteCount := 1
    spriteZeroIndex := some 0
    spriteZeroHitPossible := true }

/-- PixelsByPriority: each case of the two layers, and the two masks of the left columns. -/
theorem witness_PixelsByPriority :
    let value := fun p : Ppu => ((p.backgroundPixel 0).value, (p.spritePixel 0).value, (p.spritePixel 0).front, (p.spritePixel 0).spriteZero)
    value (layers false false true) = (0, 0, false, false) ∧ value (layers false true false) = (0, 1, false, true)
      ∧ value (layers true true true) = (1, 1, true, true) ∧ value (layers true true false) = (1, 1, false, true)
      ∧ value (layers true false true) = (1, 0, false, false)
      ∧ (Ppu.atLoad.mask.getLsbD 3 = false ∧ Ppu.atLoad.mask.getLsbD 4 = false)
      ∧ ((layers true true true).scanline ≤ 239 ∧ (layers true true true).mask &&& 0x18 ≠ 0)
      ∧ ((0x18#8).getLsbD 3 = true ∧ (0x18#8).getLsbD 1 = false ∧ (0x18#8).getLsbD 2 = false) := by decide

/-- SpritesOfALine: with OAM all zero, line 0 has 64 sprites in range; line 8 none; the pre-render line takes none. -/
theorem witness_SpritesOfALine : Ppu.atLoad.spritesInRange.length = 64 ∧ Ppu.atLoad.evaluateSprites.status = 0x20
    ∧ { Ppu.atLoad with scanline := 8 }.spritesInRange = [] := by decide +kernel

/-- FrameSequencerWraps: both modes. -/
theorem witness_FrameSequencerWraps : (Apu.atReset.fcCycles = 0 ∧ Apu.atReset.fcStep = 0 ∧ Apu.atReset.fiveStep = false)
    ∧ { Apu.atReset with fiveStep := true }.fcCycles = 0 := by decide

/-- SampleRateDoesNotDrift: the largest accumulator, and a full ring. -/
theorem witness_SampleRateDoesNotDrift : (BitVec.ofNat 32 1789772 : U32).toNat < 1789773 ∧ Apu.atReset.ring.length ≤ 8192
    ∧ (List.replicate 8192 ((0, 0) : F32 × F32)).length ≤ 8192 := ⟨by decide, by decide, List.length_replicate.le⟩

theorem witness_BanksWrapIntoTheRom : { Cartridge.blank with prgSize := 16384 }.sizesOk ∧ Cartridge.blank.mapper = .nrom
    ∧ Cartridge.blank.sizesOk ∧ 32768 ≤ Cartridge.blank.prgSize
    ∧ (0x8000 ≤ 0x8000 ∧ 0xFFFF < 0x10000 ∧ 0x1FFF < 0x2000) := by decide

/-- UxromBanks: the windows' ends. -/
theorem witness_UxromBanks : { Cartridge.blank with mapper := .uxrom 1 }.sizesOk
    ∧ { Cartridge.blank with mapper := .uxrom 1 }.mapper = .uxrom 1 ∧ (0x8000 ≤ 0xBFFF ∧ 0xBFFF < 0xC000)
    ∧ (0xC000 ≤ 0xFFFF ∧ 0xFFFF < 0x10000) := by decide

/-- Mmc1LoadsInFiveWrites: an address for each register, and both values of bit 7. -/
theorem witness_Mmc1LoadsInFiveWrites : (mmc1PowerOn.shift = 0 ∧ mmc1PowerOn.count = 0 ∧ (0x7F#8).getLsbD 7 = false)
    ∧ [0x8000, 0xA000, 0xC000, 0xFFFF].map (fun a => a / 8192 % 4) = [0, 1, 2, 3] ∧ (0x80#8).getLsbD 7 = true := by decide

/-- Mmc3CountsScanlines: a reload with latches 0 and 255; an A12 rise after 15 and after 16 dots, a level held, a fall. -/
theorem witness_Mmc3CountsScanlines :
    let m := { mmc3PowerOn with irqReload := true, irqEnabled := true }
    (m.irqReload = true ∧ m.irqFlag = false ∧ m.irqEnabled = true) ∧ (0 ≤ m.irqLatch.toNat ∧ 255 ≤ (0xFF#8).toNat)
      ∧ m.lastA12 = false ∧ (0x1000#16).getLsbD 12 = true ∧ (0x0FFF#16).getLsbD 12 = false
      ∧ cyclesLow 15 m.lastA12Cycle < 16 ∧ 16 ≤ cyclesLow 16 m.lastA12Cycle
      ∧ Cartridge.mapper { Cartridge.blank with mapper := .mmc3 m } = .mmc3 m := by decide

/-- SaveStatesRestore: the same ROM, another ROM, a blob with a part missing. -/
theorem witness_SaveStatesRestore : State.reset.cart.sameImage State.reset.cart
    ∧ (SaveState.mk 0 []).romCrc ≠ State.reset.cart.crc32
    ∧ (SaveState.mk Cartridge.blank.crc32 []).romCrc = State.reset.cart.crc32
    ∧ (saveState State.reset).blobs[4]? = some (.cartridge .nrom [] (some [])) ∧ State.reset.cart.hasChrRam = true
    ∧ (Mapper.uxrom 0).number ≠ State.reset.cart.mapper.number := by decide

/-- R715, R716: a cartridge blob without the CHR RAM of the cartridge, or of another mapper, is too short; blobs past the fifth
are not read. -/
theorem test_loadState_blobs :
    let s := State.reset
    let with5 := fun b : Blob => { saveState s with blobs := [.cpu s.cpu s.loop, .ppu s.ppu, .apu s.apu, .bus s.bus, b] }
    let error := fun r : Except LoadError State => match r with
      | .error e => some e
      | .ok _ => none
    error (loadState (with5 (.cartridge .nrom [] none)) s) = some .savestateTooShort
      ∧ error (loadState (with5 (.cartridge (.uxrom 0) [] (some []))) s) = some .savestateTooShort
      ∧ error (loadState (with5 (.cartridge .nrom [(0, 1)] (some []))) s) = none
      ∧ error (loadState { saveState s with blobs := (saveState s).blobs ++ [.bus s.bus] } s) = none := by decide

end Sys2Proof.Tests
end

section
/-! PROOFS. The CPU cannot fail (00_scope.md R12, R13; 30_encoding.md R128). Every byte decodes to a form that R125 or R127
has; every instruction answers a next state, and its count is 2 to 7 when its form is such a one. -/

namespace Sys2Proof

/-- The opcode bytes by row and column of the table (30_encoding.md R125, R127), whatever the operand bytes are. -/
theorem decodeRow_wf_nibbles (lo hi : Byte) (h l : Fin 16) :
    (decodeRow (BitVec.ofNat 8 (16 * h + l)) lo hi).wf = true := by
  fin_cases h <;> fin_cases l <;> rfl

/-- Every byte decodes to a well-formed instruction (30_encoding.md R129). -/
theorem decodeRow_wf (op lo hi : Byte) : (decodeRow op lo hi).wf = true := by
  have hop : BitVec.ofNat 8 (16 * (op.toNat / 16) + op.toNat % 16) = op := by
    rw [Nat.div_add_mod, BitVec.ofNat_toNat, BitVec.setWidth_eq]
  have h := decodeRow_wf_nibbles lo hi ⟨op.toNat / 16, by omega⟩ ⟨op.toNat % 16, by omega⟩
  rwa [hop] at h

end Sys2Proof

namespace Sys2Proof.Machine

theorem fetchInstr_wf (s : State) : (fetchInstr s).1.wf = true := decodeRow_wf _ _ _

theorem fetchInstrWith_wf (p : Config.Params) (s : State) : (fetchInstrWith p s).1.wf = true := fetchInstr_wf s

/-! ## The cycle counts lie between 2 and 7 -/

/-- The counts a CPU step can return (00_scope.md R13; 30_encoding.md R128). -/
abbrev isStepCount (n : Nat) : Prop := 2 ≤ n ∧ n ≤ 7

theorem readBase_bounds (src : Source) : 2 ≤ readBase src ∧ readBase src ≤ 6 := by
  unfold readBase
  split <;> decide

/-- At most six cycles and one for a page cross (30_encoding.md R128). -/
theorem isStepCount_readCycles (src : Source) (cross : Bool) : isStepCount (readCycles src cross) := by
  have hb := readBase_bounds src
  have hc := cross.toNat_le
  unfold readCycles isStepCount
  omega

theorem isStepCount_storeCycles (m : Addr) : isStepCount (storeCycles m) := by
  cases m <;> simp [isStepCount, storeCycles]

/-- A read-modify-write has no pointer form (30_encoding.md R125); one would take eight cycles. -/
theorem isStepCount_rmwCycles {m : Addr} (h : m.isRmw = true) : isStepCount (rmwCycles m) := by
  cases m with
  | zp | zpx | abs | abx => simp [isStepCount, rmwCycles, storeCycles]
  | zpy | aby | izx | izy => simp [Addr.isRmw] at h

theorem isStepCount_branchCycles (taken : Bool) (next target : Word) : isStepCount (branchCycles taken next target) := by
  have hc := (hi8 target != hi8 next).toNat_le
  unfold branchCycles isStepCount
  split <;> omega

theorem isStepCount_execShift (op : Byte → Bool → Byte × Bool) {opd : ShiftOperand} (h : opd.wf = true) (s : State) :
    isStepCount (execShift op opd s).loop.stepCycles := by
  cases opd with
  | acc => exact (by decide : isStepCount 2)
  | mem m => exact isStepCount_rmwCycles h

/-! ## Every step answers a next state -/

/-- Every instruction completes, whatever the state, and a form of R125 or R127 takes two to seven cycles. -/
theorem exec_next (i : Instr) (s : State) :
    ∃ t, exec i s = .next t ∧ (i.wf = true → isStepCount t.loop.stepCycles) := by
  cases i with
  | lda | ldx | ldy | adc | sbc | cmp | cpx | cpy | and | ora | eor | bit =>
    exact ⟨_, rfl, fun _ => isStepCount_readCycles _ _⟩
  | sta | stx | sty => exact ⟨_, rfl, fun _ => isStepCount_storeCycles _⟩
  | inc | dec => exact ⟨_, rfl, isStepCount_rmwCycles⟩
  | asl | lsr | rol | ror => exact ⟨_, rfl, fun h => isStepCount_execShift _ h s⟩
  | bcc | bcs | beq | bne | bmi | bpl | bvc | bvs => exact ⟨_, rfl, fun _ => isStepCount_branchCycles _ _ _⟩
  | jmp target =>
    cases target with
    | abs => exact ⟨_, rfl, fun _ => (by decide : isStepCount 3)⟩
    | ind => exact ⟨_, rfl, fun _ => (by decide : isStepCount 5)⟩
  | pha | php => exact ⟨_, rfl, fun _ => (by decide : isStepCount 3)⟩
  | pla | plp => exact ⟨_, rfl, fun _ => (by decide : isStepCount 4)⟩
  | jsr | rts | rti => exact ⟨_, rfl, fun _ => (by decide : isStepCount 6)⟩
  | brk => exact ⟨_, rfl, fun _ => (by decide : isStepCount 7)⟩
  | tax | tay | txa | tya | tsx | txs | inx | iny | dex | dey | clc | sec | cli | sei | cld | sed | clv | nop | nopStar =>
    exact ⟨_, rfl, fun _ => (by decide : isStepCount 2)⟩

theorem isStepCount_interruptEntry (vector : Word) (s : State) :
    isStepCount (interruptEntry vector s).loop.stepCycles :=
  (by decide : isStepCount 7)

/-- A CPU step completes: an entry takes seven cycles, and only well-formed instructions are fetched (60_exceptions.md
R300, R304). -/
theorem cpuStepWith_next (p : Config.Params) (s : State) :
    ∃ t, cpuStepWith p s = .next t ∧ isStepCount t.loop.stepCycles := by
  unfold cpuStepWith
  split
  · exact ⟨_, rfl, isStepCount_interruptEntry _ _⟩
  split
  · exact ⟨_, rfl, isStepCount_interruptEntry _ _⟩
  · obtain ⟨t, ht, hcount⟩ := exec_next (fetchInstrWith p s).1 (fetchInstrWith p s).2
    exact ⟨t, ht, hcount (fetchInstrWith_wf p s)⟩

/-- An iteration of the loop fails only where its CPU step does (60_exceptions.md R330). -/
theorem loopIteration_next (p : Config.Params) (s : State) : ∃ r, loopIteration p s = .next r := by
  obtain ⟨t, ht, -⟩ := cpuStepWith_next p { s with loop := { s.loop with nmiDelayArmed := false } }
  exact ⟨_, by rw [loopIteration, ht]⟩

theorem stepWith_next (p : Config.Params) (s : State) : ∃ t, stepWith p s = .next t := by
  obtain ⟨r, hr⟩ := loopIteration_next p s
  exact ⟨_, by rw [stepWith, hr]⟩

/-- Settles O5: every arm of `exec` answers a next state, and the counts of the forms that the decoder can give, and of an
interrupt entry, are 2 to 7. -/
theorem everyStepAnswersANextState : Obligations.EveryStepAnswersANextState := by
  intro s
  refine ⟨fun i => ?_, cpuStepWith_next Config.defaults s, stepWith_next Config.defaults s⟩
  obtain ⟨t, ht, -⟩ := exec_next i s
  exact ⟨t, ht⟩

end Sys2Proof.Machine
end

section
/-! PROOFS. What an instruction is made of (00_scope.md R11): accesses of the bus, changes of the CPU's registers, and the
count of its cycles. What holds of these holds of every instruction, every fetch and every interrupt entry. -/

namespace Sys2Proof.Machine

/-- `t` comes out of `s` by bus accesses, changes of the CPU and a count of cycles, in any order. -/
inductive State.Accesses (s : State) : State → Prop
  | refl : s.Accesses s
  | read {t : State} (h : s.Accesses t) (addr : Word) : s.Accesses (busRead addr t).2
  | write {t : State} (h : s.Accesses t) (addr : Word) (v : Byte) : s.Accesses (busWrite addr v t)
  | cpu {t : State} (h : s.Accesses t) (f : Cpu → Cpu) : s.Accesses (t.mapCpu f)
  | cycles {t : State} (h : s.Accesses t) (n : Nat) : s.Accesses (t.withCycles n)

theorem State.Accesses.trans {s t u : State} (h : s.Accesses t) (h' : t.Accesses u) : s.Accesses u := by
  induction h' with
  | refl => exact h
  | read _ addr ih => exact ih.read addr
  | write _ addr v ih => exact ih.write addr v
  | cpu _ f ih => exact ih.cpu f
  | cycles _ n ih => exact ih.cycles n

/-- Accesses leave all that no instruction can change. -/
theorem State.Accesses.outside {s t : State} (h : s.Accesses t) : s.sameOutside t := by
  induction h with
  | refl => exact s.sameOutside_refl
  | read _ addr ih => exact State.sameOutside_trans ih (busRead_busStep addr _).outside
  | write _ addr v ih => exact State.sameOutside_trans ih (busWrite_busStep addr v _).outside
  | cpu _ f ih => exact ih
  | cycles _ n ih => exact State.sameOutside_trans ih ⟨rfl, ⟨rfl, rfl⟩, rfl, rfl, Cartridge.sameImage_refl _⟩

theorem State.Accesses.devicesGood {s t : State} (h : s.Accesses t) (hs : s.DevicesGood) : t.DevicesGood := by
  induction h with
  | refl => exact hs
  | read _ addr ih => exact busRead_devicesGood ih addr
  | write _ addr v ih => exact busWrite_devicesGood ih addr v
  | cpu _ f ih => exact mapCpu_devicesGood ih f
  | cycles _ n ih => exact withCycles_devicesGood ih n

/-! ## The shared operations -/

section Shared
variable {s t : State} (h : s.Accesses t)
include h

theorem push_accesses (v : Byte) : s.Accesses (push v t) := (h.write _ v).cpu fun c => { c with sp := c.sp - 1#8 }

theorem push16_accesses (w : Word) : s.Accesses (push16 w t) := push_accesses (push_accesses h _) _

theorem pull_accesses : s.Accesses (pull t).2 := (h.cpu fun c => { c with sp := c.sp + 1#8 }).read _

theorem pull16_accesses : s.Accesses (pull16 t).2 := pull_accesses (pull_accesses h)

theorem readPair_accesses (a b : Word) : s.Accesses (readPair a b t).2 := (h.read a).read b

theorem fetch8_accesses : s.Accesses (fetch8 t).2 := (h.read _).cpu fun c => { c with pc := c.pc + 1#16 }

theorem fetchIf_accesses (needed : Bool) : s.Accesses (fetchIf needed t).2 := by
  cases needed with
  | false => exact h
  | true => exact fetch8_accesses h

end Shared

theorem takeException_accesses (ret : Word) (brk : Bool) (vector : Word) (s : State) :
    s.Accesses (takeException ret brk vector s) :=
  ((readPair_accesses ((push_accesses (push16_accesses .refl ret) _).cpu _) vector _).cpu _).cycles _

theorem returnFromException_accesses (s : State) : s.Accesses (returnFromException s) :=
  ((pull16_accesses ((pull_accesses .refl).cpu _)).cpu _).cycles _

theorem fetchInstr_accesses (s : State) : s.Accesses (fetchInstr s).2 :=
  fetchIf_accesses (fetchIf_accesses (fetch8_accesses .refl) _) _

theorem fetchInstrWith_accesses (p : Config.Params) (s : State) : s.Accesses (fetchInstrWith p s).2 := by
  unfold fetchInstrWith
  dsimp only
  exact (fetchInstr_accesses s).cpu _

/-! ## The shapes of the instructions -/

theorem after_accesses (src : Source) (s : State) : s.Accesses (src.after s) := by
  cases src with
  | imm v => exact .refl
  | mem m => exact .read .refl _

theorem execRead_accesses (f : Cpu → Byte → Cpu) (src : Source) (s : State) : s.Accesses (execRead f src s) := by
  rw [execRead_eq]
  exact ((after_accesses src s).cpu _).cycles _

theorem execStore_accesses (f : Cpu → Byte) (m : Addr) (s : State) : s.Accesses (execStore f m s) := by
  rw [execStore_eq]
  exact (State.Accesses.refl.write _ _).cycles _

theorem execModify_accesses (op : Byte → Bool → Byte × Bool) (flags : Cpu → Byte × Bool → Cpu) (m : Addr) (s : State) :
    s.Accesses (execModify op flags m s) := by
  rw [execModify_eq]
  exact (((State.Accesses.refl.read _).write _ _).cpu _).cycles _

theorem execImplied_accesses (f : Cpu → Cpu) (s : State) : s.Accesses (execImplied f s) :=
  (State.Accesses.refl.cpu f).cycles 2

theorem execShift_accesses (op : Byte → Bool → Byte × Bool) (opd : ShiftOperand) (s : State) :
    s.Accesses (execShift op opd s) := by
  cases opd with
  | acc => exact execImplied_accesses _ s
  | mem m => exact execModify_accesses _ _ m s

theorem execBranch_accesses (cond : Cpu → Bool) (off : Byte) (s : State) : s.Accesses (execBranch cond off s) :=
  (State.Accesses.refl.cpu _).cycles _

/-- Every instruction is made of accesses. -/
theorem exec_accesses (i : Instr) (s : State) : ∃ t, exec i s = .next t ∧ s.Accesses t := by
  cases i with
  | lda | ldx | ldy | adc | sbc | cmp | cpx | cpy | and | ora | eor | bit => exact ⟨_, rfl, execRead_accesses ..⟩
  | sta | stx | sty => exact ⟨_, rfl, execStore_accesses ..⟩
  | inc | dec => exact ⟨_, rfl, execModify_accesses ..⟩
  | asl | lsr | rol | ror => exact ⟨_, rfl, execShift_accesses ..⟩
  | tax | tay | txa | tya | tsx | txs | inx | iny | dex | dey | clc | sec | cli | sei | cld | sed | clv | nop =>
    exact ⟨_, rfl, execImplied_accesses ..⟩
  | bcc | bcs | beq | bne | bmi | bpl | bvc | bvs => exact ⟨_, rfl, execBranch_accesses ..⟩
  | pha | php => exact ⟨_, rfl, (push_accesses .refl _).cycles _⟩
  | pla | plp => exact ⟨_, rfl, ((pull_accesses .refl).cpu _).cycles _⟩
  | jmp target =>
    cases target with
    | abs => exact ⟨_, rfl, (State.Accesses.refl.cpu _).cycles _⟩
    | ind => exact ⟨_, rfl, ((readPair_accesses .refl _ _).cpu _).cycles _⟩
  | jsr => exact ⟨_, rfl, ((push16_accesses .refl _).cpu _).cycles _⟩
  | rts => exact ⟨_, rfl, ((pull16_accesses .refl).cpu _).cycles _⟩
  | rti => exact ⟨_, rfl, returnFromException_accesses s⟩
  | brk => exact ⟨_, rfl, takeException_accesses ..⟩
  | nopStar => exact ⟨_, rfl, State.Accesses.refl.cycles _⟩

theorem accesses_of_exec {i : Instr} {s t : State} (h : exec i s = .next t) : s.Accesses t := by
  obtain ⟨u, hu, ha⟩ := exec_accesses i s
  obtain rfl : u = t := Host.Outcome.next.inj (hu.symm.trans h)
  exact ha

end Sys2Proof.Machine
end

section
/-! PROOFS. What an instruction writes of the CPU (10_state.md R20-R29): the flags that each flag computation leaves, the
registers that each shape of instruction leaves, and from them the frame of every instruction. -/

namespace Sys2Proof.Machine

/-! ## Flags -/

theorem flagsKept_of_p {c d : Cpu} (h : d.p = c.p) (fs : List Flag) : flagsKept fs c d :=
  fun f _ => congrArg (getFlag · f) h

theorem flagsKept_withFlag (c : Cpu) (f : Flag) (b : Bool) : flagsKept [f] c (c.withFlag f b) := by
  intro g hg
  rw [flag_withFlag, if_neg (by simpa using hg)]

/-- `setZN` writes Z and N, on any registers that the instruction changed before. -/
theorem flagsKept_setZN {c d : Cpu} (h : d.p = c.p) (v : Byte) : flagsKept [.Z, .N] c (d.setZN v) := by
  intro g hg
  have hd : d.flag g = c.flag g := flagsKept_of_p h [] g (by simp)
  rw [flag_setZN]
  cases g with
  | Z | N => simp at hg
  | C | I | D | B | U | V => exact hd

theorem flagsKept_addWithCarry (c : Cpu) (m : Byte) : flagsKept [.C, .Z, .V, .N] c (c.addWithCarry m) := by
  intro g hg
  rw [flag_addWithCarry]
  cases g with
  | C | Z | V | N => simp at hg
  | I | D | B | U => rfl

theorem flagsKept_compare (c : Cpu) (r m : Byte) : flagsKept [.C, .Z, .N] c (c.compare r m) := by
  intro g hg
  rw [flag_compare]
  cases g with
  | C | Z | N => simp at hg
  | I | D | B | U | V => rfl

theorem flagsKept_testBits (c : Cpu) (m : Byte) : flagsKept [.Z, .V, .N] c (c.testBits m) := by
  intro g hg
  rw [flag_testBits]
  cases g with
  | Z | V | N => simp at hg
  | C | I | D | B | U => rfl

theorem flagsKept_shiftFlags (c : Cpu) (r : Byte × Bool) : flagsKept [.C, .Z, .N] c (c.shiftFlags r) := by
  intro g hg
  rw [flag_shiftFlags]
  cases g with
  | C | Z | N => simp at hg
  | I | D | B | U | V => rfl

/-- A pulled status keeps B alone (41_transfer_stack.md R169, 44_control_flow.md R223). -/
theorem flagsKept_pulledP {c d : Cpu} {v : Byte} (h : d.p = pulledP c.p v) :
    flagsKept [.C, .Z, .I, .D, .U, .V, .N] c d := by
  intro g hg
  rw [Cpu.flag, h, getFlag_pulledP]
  cases g with
  | B => rfl
  | C | Z | I | D | U | V | N => simp at hg

/-! ## Registers -/

end Sys2Proof.Machine

namespace Sys2Proof

open Sys2Proof.Machine

/-- The registers that `i` may not write, and both latches, are as they were. -/
structure Instr.leavesRegisters (i : Instr) (c d : Cpu) : Prop where
  a : i.writesA = false → d.a = c.a
  x : i.writesX = false → d.x = c.x
  y : i.writesY = false → d.y = c.y
  sp : i.writesSp = false → d.sp = c.sp
  pc : i.writesPc = false → d.pc = c.pc
  nmiPending : d.nmiPending = c.nmiPending
  irqPending : d.irqPending = c.irqPending

/-- `i` writes no flag and no register but its own (10_state.md R20-R28), and no latch. -/
structure Instr.writesOnlyItsOwn (i : Instr) (c d : Cpu) : Prop where
  flags : flagsKept i.flagsWritten c d
  registers : i.leavesRegisters c d

end Sys2Proof

namespace Sys2Proof.Machine

section LeavesRegisters
variable {i : Instr} {c : Cpu} {a x y sp p : Byte} {pc : Word}

theorem leavesRegisters_p : Instr.leavesRegisters i c { c with p := p } := by
  constructor <;> simp

theorem leavesRegisters_a (h : i.writesA = true) : Instr.leavesRegisters i c { c with a := a, p := p } := by
  constructor <;> simp [h]

theorem leavesRegisters_x (h : i.writesX = true) : Instr.leavesRegisters i c { c with x := x, p := p } := by
  constructor <;> simp [h]

theorem leavesRegisters_y (h : i.writesY = true) : Instr.leavesRegisters i c { c with y := y, p := p } := by
  constructor <;> simp [h]

theorem leavesRegisters_pc (h : i.writesPc = true) : Instr.leavesRegisters i c { c with pc := pc } := by
  constructor <;> simp [h]

theorem leavesRegisters_sp (h : i.writesSp = true) : Instr.leavesRegisters i c { c with sp := sp, p := p } := by
  constructor <;> simp [h]

theorem leavesRegisters_sp_a (h : i.writesSp = true) (h' : i.writesA = true) :
    Instr.leavesRegisters i c { c with a := a, sp := sp, p := p } := by
  constructor <;> simp [h, h']

theorem leavesRegisters_sp_pc (h : i.writesSp = true) (h' : i.writesPc = true) :
    Instr.leavesRegisters i c { c with sp := sp, p := p, pc := pc } := by
  constructor <;> simp [h, h']

end LeavesRegisters

/-! ## The CPU after each shape of instruction -/

@[simp] theorem push_cpu (v : Byte) (s : State) : (push v s).cpu = { s.cpu with sp := s.cpu.sp - 1#8 } := by
  rw [push_eq]

@[simp] theorem pull_cpu (s : State) : (pull s).2.cpu = { s.cpu with sp := s.cpu.sp + 1#8 } := by
  rw [pull_eq]

@[simp] theorem readPair_cpu (a b : Word) (s : State) : (readPair a b s).2.cpu = s.cpu := by
  simp [readPair]

theorem takeException_cpu (ret : Word) (brk : Bool) (vector : Word) (s : State) :
    (takeException ret brk vector s).cpu =
      { s.cpu with
        sp := s.cpu.sp - 1#8 - 1#8 - 1#8, p := putFlag s.cpu.p .I true, pc := (takeException ret brk vector s).cpu.pc } := by
  simp [takeException, read16, push16, Cpu.withFlag]

theorem execRead_cpu (f : Cpu → Byte → Cpu) (src : Source) (s : State) :
    (execRead f src s).cpu = f s.cpu (src.value s) := by
  rw [execRead_eq]
  rfl

theorem execStore_cpu (f : Cpu → Byte) (m : Addr) (s : State) : (execStore f m s).cpu = s.cpu := by
  rw [execStore_eq, withCycles_cpu, busWrite_cpu]

theorem execModify_cpu (op : Byte → Bool → Byte × Bool) (flags : Cpu → Byte × Bool → Cpu) (m : Addr) (s : State) :
    (execModify op flags m s).cpu = flags s.cpu (op (peek (m.ea s) s) (s.cpu.flag .C)) := by
  rw [execModify_eq]
  rfl

/-! ## The frame of every instruction -/

section Shapes
variable {i : Instr} {s : State}

theorem execRead_writesOnly {f : Cpu → Byte → Cpu} {src : Source}
    (h : ∀ m, i.writesOnlyItsOwn s.cpu (f s.cpu m)) : i.writesOnlyItsOwn s.cpu (execRead f src s).cpu := by
  rw [execRead_cpu]
  exact h _

theorem execStore_writesOnly {f : Cpu → Byte} {m : Addr} : i.writesOnlyItsOwn s.cpu (execStore f m s).cpu := by
  rw [execStore_cpu]
  exact ⟨flagsKept_of_p rfl _, leavesRegisters_p⟩

theorem execModify_writesOnly {op : Byte → Bool → Byte × Bool} {flags : Cpu → Byte × Bool → Cpu} {m : Addr}
    (h : ∀ r, i.writesOnlyItsOwn s.cpu (flags s.cpu r)) : i.writesOnlyItsOwn s.cpu (execModify op flags m s).cpu := by
  rw [execModify_cpu]
  exact h _

theorem execBranch_writesOnly {cond : Cpu → Bool} {off : Byte} (h : i.writesPc = true) :
    i.writesOnlyItsOwn s.cpu (execBranch cond off s).cpu :=
  ⟨flagsKept_of_p rfl _, leavesRegisters_pc h⟩

theorem push_writesOnly (h : i.writesSp = true) (v : Byte) (n : Nat) :
    i.writesOnlyItsOwn s.cpu ((push v s).withCycles n).cpu := by
  rw [withCycles_cpu, push_cpu]
  exact ⟨flagsKept_of_p rfl _, leavesRegisters_sp h⟩

end Shapes

/-- A shift of the accumulator writes `a`; a shift of memory writes the flags alone (43_logic_shift.md, common frame). -/
theorem execShift_writesOnly {mk : ShiftOperand → Instr} (op : Byte → Bool → Byte × Bool) (opd : ShiftOperand) (s : State)
    (hf : (mk opd).flagsWritten = [.C, .Z, .N]) (ha : (mk .acc).writesA = true) :
    (mk opd).writesOnlyItsOwn s.cpu (execShift op opd s).cpu := by
  cases opd with
  | acc => exact ⟨hf ▸ flagsKept_shiftFlags s.cpu _, leavesRegisters_a ha⟩
  | mem m => exact execModify_writesOnly fun r => ⟨hf ▸ flagsKept_shiftFlags s.cpu r, leavesRegisters_p⟩

/-- Every instruction writes only its own flags and registers. -/
theorem exec_writesOnly (i : Instr) (s : State) : ∃ t, exec i s = .next t ∧ i.writesOnlyItsOwn s.cpu t.cpu := by
  cases i with
  | lda | and | ora | eor =>
    exact ⟨_, rfl, execRead_writesOnly fun _ => ⟨flagsKept_setZN rfl _, leavesRegisters_a rfl⟩⟩
  | ldx => exact ⟨_, rfl, execRead_writesOnly fun _ => ⟨flagsKept_setZN rfl _, leavesRegisters_x rfl⟩⟩
  | ldy => exact ⟨_, rfl, execRead_writesOnly fun _ => ⟨flagsKept_setZN rfl _, leavesRegisters_y rfl⟩⟩
  | adc | sbc => exact ⟨_, rfl, execRead_writesOnly fun _ => ⟨flagsKept_addWithCarry _ _, leavesRegisters_a rfl⟩⟩
  | cmp | cpx | cpy => exact ⟨_, rfl, execRead_writesOnly fun _ => ⟨flagsKept_compare _ _ _, leavesRegisters_p⟩⟩
  | bit => exact ⟨_, rfl, execRead_writesOnly fun _ => ⟨flagsKept_testBits _ _, leavesRegisters_p⟩⟩
  | sta | stx | sty => exact ⟨_, rfl, execStore_writesOnly⟩
  | inc | dec => exact ⟨_, rfl, execModify_writesOnly fun _ => ⟨flagsKept_setZN rfl _, leavesRegisters_p⟩⟩
  | asl => exact ⟨_, rfl, execShift_writesOnly (mk := .asl) _ _ s rfl rfl⟩
  | lsr => exact ⟨_, rfl, execShift_writesOnly (mk := .lsr) _ _ s rfl rfl⟩
  | rol => exact ⟨_, rfl, execShift_writesOnly (mk := .rol) _ _ s rfl rfl⟩
  | ror => exact ⟨_, rfl, execShift_writesOnly (mk := .ror) _ _ s rfl rfl⟩
  | txa | tya => exact ⟨_, rfl, flagsKept_setZN rfl _, leavesRegisters_a rfl⟩
  | tax | tsx | inx | dex => exact ⟨_, rfl, flagsKept_setZN rfl _, leavesRegisters_x rfl⟩
  | tay | iny | dey => exact ⟨_, rfl, flagsKept_setZN rfl _, leavesRegisters_y rfl⟩
  | txs => exact ⟨_, rfl, flagsKept_of_p rfl _, leavesRegisters_sp rfl⟩
  | clc | sec | cli | sei | cld | sed | clv => exact ⟨_, rfl, flagsKept_withFlag _ _ _, leavesRegisters_p⟩
  | nop | nopStar => exact ⟨_, rfl, flagsKept_of_p rfl _, leavesRegisters_p⟩
  | pha | php => exact ⟨_, rfl, push_writesOnly rfl _ _⟩
  | pla =>
    refine ⟨_, rfl, ?_⟩
    rw [withCycles_cpu, mapCpu_cpu, pull_cpu]
    exact ⟨flagsKept_setZN rfl _, leavesRegisters_sp_a rfl rfl⟩
  | plp =>
    refine ⟨_, rfl, ?_⟩
    rw [withCycles_cpu, mapCpu_cpu, pull_cpu]
    exact ⟨flagsKept_pulledP rfl, leavesRegisters_sp rfl⟩
  | jmp target =>
    cases target with
    | abs => exact ⟨_, rfl, flagsKept_of_p rfl _, leavesRegisters_pc rfl⟩
    | ind =>
      refine ⟨_, rfl, ?_⟩
      rw [withCycles_cpu, mapCpu_cpu, jumpPointer, readPair_cpu]
      exact ⟨flagsKept_of_p rfl _, leavesRegisters_pc rfl⟩
  | bcc | bcs | beq | bne | bmi | bpl | bvc | bvs => exact ⟨_, rfl, execBranch_writesOnly rfl⟩
  | jsr =>
    refine ⟨_, rfl, ?_⟩
    rw [withCycles_cpu, mapCpu_cpu, push16, push_cpu, push_cpu]
    exact ⟨flagsKept_of_p rfl _, leavesRegisters_sp_pc rfl rfl⟩
  | rts =>
    refine ⟨_, rfl, ?_⟩
    rw [withCycles_cpu, mapCpu_cpu, pull16, pull_cpu, pull_cpu]
    exact ⟨flagsKept_of_p rfl _, leavesRegisters_sp_pc rfl rfl⟩
  | rti =>
    refine ⟨_, rfl, ?_⟩
    rw [returnFromException_eq]
    exact ⟨flagsKept_pulledP rfl, leavesRegisters_sp_pc rfl rfl⟩
  | brk =>
    refine ⟨_, rfl, ?_⟩
    rw [takeException_cpu]
    exact ⟨flagsKept_withFlag _ _ _, leavesRegisters_sp_pc rfl rfl⟩

theorem writesOnly_of_exec {i : Instr} {s t : State} (h : exec i s = .next t) : i.writesOnlyItsOwn s.cpu t.cpu := by
  obtain ⟨u, hu, hw⟩ := exec_writesOnly i s
  obtain rfl : u = t := Host.Outcome.next.inj (hu.symm.trans h)
  exact hw

/-- Settles O25: the frame that `exec_writesOnly` finds, arm by arm. -/
theorem instructionsWriteOnlyTheirRegisters : Obligations.InstructionsWriteOnlyTheirRegisters := by
  intro i s t h
  obtain ⟨hflags, hregs⟩ := writesOnly_of_exec h
  exact ⟨hflags, hregs.a, hregs.x, hregs.y, hregs.sp, hregs.pc⟩

/-- Settles O26: no instruction writes a latch, and what it is made of leaves all that is outside its reach. -/
theorem instructionsReachOnlyTheirOwn : Obligations.InstructionsReachOnlyTheirOwn := by
  intro i s t h
  have hregs := (writesOnly_of_exec h).registers
  exact ⟨hregs.nmiPending, hregs.irqPending, (accesses_of_exec h).outside⟩

end Sys2Proof.Machine
end

section
/-! PROOFS. A step keeps the good states (10_state.md R28; Safety.lean): first the CPU's step, whose accesses keep the
devices good and which writes U as 1 and B never, then what the loop does after it. -/

namespace Sys2Proof.Machine

/-! ## The status register -/

theorem statusOk_of_p {c d : Cpu} (h : c.statusOk) (hp : d.p = c.p) : d.statusOk := by
  rw [Cpu.statusOk, hp]
  exact h

/-- Only PLP and RTI write U, and they set it; B is written by none (10_state.md R28). -/
theorem flagsWritten_status (i : Instr) :
    .B ∉ i.flagsWritten ∧ (.U ∈ i.flagsWritten → i = .plp ∨ i = .rti) := by
  cases i <;> simp [Instr.flagsWritten]

theorem exec_pulled_U {i : Instr} (hi : i = .plp ∨ i = .rti) {s t : State} (h : exec i s = .next t) :
    t.cpu.flag .U = true := by
  obtain rfl | rfl := hi
  · obtain rfl := Host.Outcome.next.inj h
    exact getFlag_pulledP _ _ .U
  · obtain rfl : returnFromException s = t := Host.Outcome.next.inj h
    rw [returnFromException_eq]
    exact getFlag_pulledP _ _ .U

theorem exec_statusOk {i : Instr} {s t : State} (hs : s.cpu.statusOk) (h : exec i s = .next t) : t.cpu.statusOk := by
  obtain ⟨hU, hB⟩ := hs
  have hflags := (writesOnly_of_exec h).flags
  have hi := flagsWritten_status i
  refine ⟨?_, (hflags .B hi.1).trans hB⟩
  by_cases hw : .U ∈ i.flagsWritten
  · exact exec_pulled_U (hi.2 hw) h
  · exact (hflags .U hw).trans hU

theorem interruptEntry_statusOk {s : State} (hs : s.cpu.statusOk) (vector : Word) :
    (interruptEntry vector s).cpu.statusOk := by
  rw [interruptEntry, takeException_cpu]
  exact ⟨(getFlag_putFlag_other _ _ (by decide)).trans hs.1, (getFlag_putFlag_other _ _ (by decide)).trans hs.2⟩

/-! ## The CPU's step -/

@[simp] theorem fetch8_p (s : State) : (fetch8 s).2.cpu.p = s.cpu.p := by
  simp [fetch8]

@[simp] theorem fetchIf_p (needed : Bool) (s : State) : (fetchIf needed s).2.cpu.p = s.cpu.p := by
  cases needed <;> simp [fetchIf]

@[simp] theorem fetchInstrWith_p (p : Config.Params) (s : State) : (fetchInstrWith p s).2.cpu.p = s.cpu.p := by
  simp [fetchInstrWith, fetchInstr]

/-- What a CPU step can be: an interrupt entry, once a latch is cleared, or the fetched instruction (60_exceptions.md
R300). -/
theorem cpuStepWith_cases {p : Config.Params} {s t : State} (h : cpuStepWith p s = .next t) :
    (∃ (f : Cpu → Cpu) (vector : Word), (f s.cpu).p = s.cpu.p ∧ t = interruptEntry vector (s.mapCpu f))
      ∨ exec (fetchInstrWith p s).1 (fetchInstrWith p s).2 = .next t := by
  unfold cpuStepWith at h
  split at h
  · exact .inl ⟨_, _, rfl, (Host.Outcome.next.inj h).symm⟩
  split at h
  · exact .inl ⟨_, _, rfl, (Host.Outcome.next.inj h).symm⟩
  · exact .inr h

/-- A CPU step is made of accesses, as an instruction is. -/
theorem accesses_of_cpuStepWith {p : Config.Params} {s t : State} (h : cpuStepWith p s = .next t) : s.Accesses t := by
  obtain ⟨f, vector, -, rfl⟩ | h := cpuStepWith_cases h
  · exact (State.Accesses.refl.cpu f).trans (takeException_accesses ..)
  · exact (fetchInstrWith_accesses p s).trans (accesses_of_exec h)

theorem cpuStepWith_statusOk {p : Config.Params} {s t : State} (hs : s.cpu.statusOk) (h : cpuStepWith p s = .next t) :
    t.cpu.statusOk := by
  obtain ⟨f, vector, hp, rfl⟩ | h := cpuStepWith_cases h
  · exact interruptEntry_statusOk (s := s.mapCpu f) (statusOk_of_p hs hp) vector
  · exact exec_statusOk (statusOk_of_p hs (fetchInstrWith_p p s)) h

theorem cpuStepWith_good {p : Config.Params} {s t : State} (hs : s.good) (h : cpuStepWith p s = .next t) : t.good := by
  obtain ⟨hstatus, hdev⟩ := (good_iff s).1 hs
  exact (good_iff t).2 ⟨cpuStepWith_statusOk hstatus h, (accesses_of_cpuStepWith h).devicesGood hdev⟩

/-! ## What the loop does after it -/

theorem checkNmi_good {p : Ppu} (h : p.Good) : p.checkNmi.2.Good := by
  unfold Ppu.checkNmi
  split
  · exact ⟨h.grid, h.fields, h.sprites, h.memories⟩
  split
  · exact ⟨h.grid, h.fields, h.sprites, h.memories⟩
  · exact h

theorem checkFrameComplete_good {p : Ppu} (h : p.Good) : p.checkFrameComplete.2.Good :=
  ⟨h.grid, h.fields, h.sprites, h.memories⟩

/-- A dot and the polls after it (60_exceptions.md R332, R333). -/
theorem dotOnce_good {r : State × Bool} (h : r.1.good) : (dotOnce r).1.good := by
  obtain ⟨hstatus, hdev⟩ := (good_iff r.1).1 h
  have hv := dot_good hdev.video
  have hp := checkFrameComplete_good (checkNmi_good hv.ppu)
  unfold dotOnce
  exact (good_iff _).2 ⟨hstatus, ⟨hp, hv.cart⟩, hdev.apu, hdev.ram⟩

theorem runDots_good (k : Nat) : ∀ {r : State × Bool}, r.1.good → (runDots k r).1.good := by
  induction k with
  | zero => exact fun h => h
  | succ k ih =>
    intro r h
    rw [runDots]
    exact ih (dotOnce_good h)

theorem runApu_ok (alpha : F32) (k : Nat) : ∀ {a : Apu}, a.ok → (runApu alpha k a).ok := by
  induction k with
  | zero => exact fun h => h
  | succ k ih =>
    intro a h
    rw [runApu]
    exact ih (apuStep_ok alpha h)

theorem withApu_good {s : State} (h : s.good) {a : Apu} (ha : a.ok) : State.good { s with apu := a } := by
  obtain ⟨hstatus, hdev⟩ := (good_iff s).1 h
  exact (good_iff _).2 ⟨hstatus, withApu_devicesGood hdev ha⟩

theorem pollMapper_good {s : State} (h : s.good) : (pollMapper s).good := by
  obtain ⟨hstatus, hdev⟩ := (good_iff s).1 h
  unfold pollMapper
  split
  · exact (good_iff _).2 ⟨hstatus, ⟨hdev.video.ppu, irqClear_good hdev.video.cart⟩, hdev.apu, hdev.ram⟩
  · exact h

theorem pollApu_good (p : Config.Params) {s : State} (h : s.good) : (pollApu p s).good := h

theorem withLoop_good {s : State} (h : s.good) (l : Loop) : State.good { s with loop := l } := h

/-- The dots, the APU cycles and the polls of an iteration (60_exceptions.md R330-R334). -/
theorem catchUp_good (p : Config.Params) (armed : Bool) {s : State} (h : s.good) : (catchUp p armed s).1.good := by
  let s1 := { s with cpu := s.cpu.triggerNmi armed, bus := { s.bus with pendingDma := 0#16 } }
  have h1 : s1.good := h
  have hdots := runDots_good (Config.ppuDotsPerCpuCycle * iterationCycles s) (r := (s1, false)) h1
  have hapu := withApu_good hdots (runApu_ok p.lowpassAlpha (iterationCycles s) ((good_iff _).1 hdots).2.apu)
  exact withLoop_good (pollApu_good p (pollMapper_good hapu)) _

theorem endFrame_good {s : State} (h : s.good) : (endFrame s).good := h

theorem loopIteration_good {p : Config.Params} {s : State} {r : State × Bool} (hs : s.good)
    (h : loopIteration p s = .next r) : r.1.good := by
  obtain ⟨t, ht, -⟩ := cpuStepWith_next p { s with loop := { s.loop with nmiDelayArmed := false } }
  have hgood := cpuStepWith_good (withLoop_good hs _) ht
  rw [loopIteration, ht] at h
  obtain rfl := Host.Outcome.next.inj h
  exact catchUp_good p _ hgood

theorem stepWith_good {p : Config.Params} {s t : State} (hs : s.good) (h : stepWith p s = .next t) : t.good := by
  obtain ⟨r, hr⟩ := loopIteration_next p s
  have hgood := loopIteration_good hs hr
  rw [stepWith, hr] at h
  obtain rfl := Host.Outcome.next.inj h
  split
  · exact endFrame_good hgood
  · exact hgood

/-- Settles O32: the CPU's step keeps the good states, and so does everything the loop does after it. -/
theorem goodStatesAreKept : Obligations.GoodStatesAreKept := fun _ _ hs h => stepWith_good hs h

/-- Settles O33: the reset state is concrete, and its memories list no cell. -/
theorem resetStateIsGood : Obligations.ResetStateIsGood := by
  refine ⟨by decide, rfl, rfl, by decide, ⟨rfl, rfl, rfl⟩, ⟨rfl, rfl, rfl⟩, fun m hm => ?_⟩
  obtain rfl : m = [] := List.eq_of_mem_replicate (n := 7) hm
  exact ⟨rfl, fun _ => rfl⟩

end Sys2Proof.Machine
end

section
/-! PROOFS. The bus by address range (20_memory.md R61-R67): RAM and its mirrors, the PPU's registers, the addresses that no
device takes, and what no step changes of the cartridge. -/

namespace Sys2Proof.Machine

/-! ## Reads and writes by address range -/

section Ranges
variable {a : Word} (v : Byte) (s : State)

theorem busRead_ppuRegister (h : 0x2000 ≤ a.toNat) (h' : a.toNat ≤ 0x3FFF) :
    busRead a s = ((s.video.regRead (a.toNat % 8)).1, s.withVideo (s.video.regRead (a.toNat % 8)).2) := by
  unfold busRead
  rw [if_neg (by omega), if_pos h']

theorem busWrite_ppuRegister (h : 0x2000 ≤ a.toNat) (h' : a.toNat ≤ 0x3FFF) :
    busWrite a v s = s.withVideo (s.video.regWrite (a.toNat % 8) v) := by
  unfold busWrite
  rw [if_neg (by omega), if_pos h']

/-- The APU's registers below 0x4015 are write-only (20_memory.md R65, D14). -/
theorem busRead_apuRegister (h : 0x4000 ≤ a.toNat) (h' : a.toNat ≤ 0x4014) : busRead a s = (0#8, s) := by
  unfold busRead
  rw [if_neg (by omega), if_neg (by omega), if_neg (by omega), if_neg (by omega), if_neg (by omega), if_pos (by omega)]

theorem busRead_unmapped (h : 0x4018 ≤ a.toNat) (h' : a.toNat < 0x6000) : busRead a s = (0#8, s) :=
  Prod.ext (peek_unmapped h h' s) (busRead_quiet (.inr h) s)

theorem busWrite_unmapped (h : 0x4018 ≤ a.toNat) (h' : a.toNat ≤ 0x401F) : busWrite a v s = s := by
  unfold busWrite
  rw [if_neg (by omega), if_neg (by omega), if_neg (by omega), if_neg (by omega), if_neg (by omega), if_pos h']

theorem busWrite_cart (h : 0x4020 ≤ a.toNat) :
    busWrite a v s = { s with cart := s.cart.cpuWrite a.toNat v } := by
  unfold busWrite
  rw [if_neg (by omega), if_neg (by omega), if_neg (by omega), if_neg (by omega), if_neg (by omega), if_neg (by omega)]

end Ranges

/-! ## The device addresses -/

/-- The PPU's write-only registers read as 0 (61_ppu.md R419, D14). -/
theorem regRead_writeOnly (s : Video) {reg : Nat} (h : reg = 0 ∨ reg = 1 ∨ reg = 3 ∨ reg = 5 ∨ reg = 6) :
    s.regRead reg = (0#8, s) := by
  obtain rfl | rfl | rfl | rfl | rfl := h <;> rfl

/-- Only NINA-03/06, number 79, has registers below 0x6000 (63_cartridge_mappers.md R556, R584). -/
theorem writeLow_of_ne_79 {m : Mapper} (h : m.number ≠ 79) (a : Nat) (v : Byte) : m.writeLow a v = m := by
  cases m with
  | nina => exact absurd rfl h
  | _ => rfl

theorem cpuWrite_low {c : Cartridge} (h : c.mapper.number ≠ 79) {a : Nat} (ha : a < 0x6000) (v : Byte) :
    c.cpuWrite a v = c := by
  rw [Cartridge.cpuWrite, if_pos ha, writeLow_of_ne_79 h]

/-- Settles O37: each clause is the bus at one range of addresses. -/
theorem deviceAddresses : Obligations.DeviceAddresses := by
  intro a b v s
  refine ⟨fun ha ha' hb hb' hab => ?_, fun ha ha' hreg => ?_, fun ha ha' => busRead_apuRegister s ha ha',
    fun ha ha' => busRead_unmapped s ha (by omega), fun ha ha' => busWrite_unmapped v s ha ha', fun ha ha' hm => ?_,
    fun ha ha' hreg => ?_⟩
  · rw [busRead_ppuRegister s ha ha', busRead_ppuRegister s hb hb', busWrite_ppuRegister v s ha ha',
      busWrite_ppuRegister v s hb hb', hab]
    exact ⟨rfl, rfl⟩
  · rw [busRead_ppuRegister s ha ha', regRead_writeOnly s.video hreg]
    rfl
  · rw [busWrite_cart v s ha, cpuWrite_low hm (by omega)]
  · rw [busWrite_ppuRegister v s ha ha', hreg]
    rfl

/-! ## RAM -/

/-- Settles O36: below 0x2000 the bus is the 2048 bytes of RAM at the address modulo 2048. -/
theorem ramIsMirrored : Obligations.RamIsMirrored := by
  intro a b v s ha hb
  refine ⟨?_, fun hab => ?_, ?_, ?_⟩
  · rw [busRead_ramAddr hb, peek_ram hb]
  · rw [peek_ram ha, peek_ram hb, hab]
  · rw [peek_ram hb, peek_ram hb, busWrite_ramAddr ha, Memory.read_write]
    simp only [eq_comm]
  · rw [busWrite_ramAddr ha]

/-! ## The image -/

theorem dotOnce_sameImage (r : State × Bool) : r.1.cart.sameImage (dotOnce r).1.cart :=
  (dot_rendersTo r.1.video).image

theorem runDots_sameImage (k : Nat) : ∀ r : State × Bool, r.1.cart.sameImage (runDots k r).1.cart := by
  induction k with
  | zero => exact fun r => r.1.cart.sameImage_refl
  | succ k ih => exact fun r => Cartridge.sameImage_trans (dotOnce_sameImage r) (ih (dotOnce r))

theorem pollMapper_sameImage (s : State) : s.cart.sameImage (pollMapper s).cart := by
  unfold pollMapper
  split
  · exact irqClear_sameImage s.cart
  · exact s.cart.sameImage_refl

/-- What the loop does after the CPU's step keeps the image: the dots read the cartridge, a poll clears the mapper's flag
(60_exceptions.md R330-R334). -/
theorem catchUp_sameImage (p : Config.Params) (armed : Bool) (s : State) :
    s.cart.sameImage (catchUp p armed s).1.cart :=
  Cartridge.sameImage_trans (runDots_sameImage _ _) (pollMapper_sameImage _)

theorem loopIteration_sameImage {p : Config.Params} {s : State} {r : State × Bool} (h : loopIteration p s = .next r) :
    s.cart.sameImage r.1.cart := by
  obtain ⟨t, ht, -⟩ := cpuStepWith_next p { s with loop := { s.loop with nmiDelayArmed := false } }
  obtain ⟨-, -, -, -, himage⟩ := (accesses_of_cpuStepWith ht).outside
  rw [loopIteration, ht] at h
  obtain rfl := Host.Outcome.next.inj h
  exact Cartridge.sameImage_trans himage (catchUp_sameImage p _ t)

theorem stepWith_sameImage {p : Config.Params} {s t : State} (h : stepWith p s = .next t) : s.cart.sameImage t.cart := by
  obtain ⟨r, hr⟩ := loopIteration_next p s
  have himage := loopIteration_sameImage hr
  rw [stepWith, hr] at h
  obtain rfl := Host.Outcome.next.inj h
  split <;> exact himage

/-- Settles O35: the CPU's accesses, the dots and the polls keep the image; from 0x8000 on a write reaches the mapper's
registers alone. -/
theorem romNeverChanges : Obligations.RomNeverChanges := by
  refine ⟨fun _ _ h => stepWith_sameImage h, fun a v s ha => ?_⟩
  rw [busWrite_cart v s (by omega), Cartridge.cpuWrite, if_neg (by omega), if_neg (by omega)]

end Sys2Proof.Machine
end

section
/-! PROOFS. What an instruction leaves of the memory-like addresses (20_memory.md R62, R66, R67, R82-R84;
41_transfer_stack.md R170): reads leave all of them, a store or a push all but its own. -/

namespace Sys2Proof.Machine

/-! ## Reads -/

/-- Every quiet address reads in `t` as it does in `s`. -/
structure State.sameMemory (s t : State) : Prop where
  peek : ∀ a, quietAddr a → peek a t = peek a s

theorem State.sameMemory.refl (s : State) : s.sameMemory s := ⟨fun _ _ => rfl⟩

theorem State.sameMemory.trans {s t u : State} (h : s.sameMemory t) (h' : t.sameMemory u) : s.sameMemory u :=
  ⟨fun a ha => (h'.peek a ha).trans (h.peek a ha)⟩

theorem State.sameMemory.cpu {s t : State} (h : s.sameMemory t) (f : Cpu → Cpu) : s.sameMemory (t.mapCpu f) :=
  h.trans ⟨fun _ ha => peek_same ha rfl rfl⟩

theorem State.sameMemory.cycles {s t : State} (h : s.sameMemory t) (n : Nat) : s.sameMemory (t.withCycles n) :=
  h.trans ⟨fun _ ha => peek_same ha rfl rfl⟩

theorem execImplied_sameMemory (f : Cpu → Cpu) (s : State) : s.sameMemory (execImplied f s) :=
  ((State.sameMemory.refl s).cpu f).cycles 2

theorem execBranch_sameMemory (cond : Cpu → Bool) (off : Byte) (s : State) : s.sameMemory (execBranch cond off s) :=
  ((State.sameMemory.refl s).cpu _).cycles _

theorem busRead_sameMemory (addr : Word) (s : State) : s.sameMemory (busRead addr s).2 :=
  ⟨fun _ ha => peek_busRead ha addr s⟩

theorem readPair_sameMemory (a b : Word) (s : State) : s.sameMemory (readPair a b s).2 :=
  (busRead_sameMemory a s).trans (busRead_sameMemory b _)

theorem after_sameMemory (src : Source) (s : State) : s.sameMemory (src.after s) := by
  cases src with
  | imm v => exact .refl s
  | mem m => exact busRead_sameMemory _ s

theorem execRead_sameMemory (f : Cpu → Byte → Cpu) (src : Source) (s : State) : s.sameMemory (execRead f src s) := by
  rw [execRead_eq]
  exact ((after_sameMemory src s).cpu _).cycles _

theorem pull_sameMemory (s : State) : s.sameMemory (pull s).2 :=
  ((State.sameMemory.refl s).cpu fun c => { c with sp := c.sp + 1#8 }).trans (busRead_sameMemory _ _)

theorem pull16_sameMemory (s : State) : s.sameMemory (pull16 s).2 := (pull_sameMemory s).trans (pull_sameMemory _)

theorem returnFromException_sameMemory (s : State) : s.sameMemory (returnFromException s) :=
  ((((pull_sameMemory s).cpu _).trans (pull16_sameMemory _)).cpu _).cycles _

/-- A shift that stores nothing is the accumulator's. -/
theorem execShift_sameMemory {mk : ShiftOperand → Instr} (hmk : ∀ m, (mk (.mem m)).storesTo? = some m)
    {opd : ShiftOperand} (h : (mk opd).storesTo? = none) (op : Byte → Bool → Byte × Bool) (s : State) :
    s.sameMemory (execShift op opd s) := by
  cases opd with
  | acc => exact execImplied_sameMemory _ s
  | mem m => simp [hmk] at h

/-- An instruction that neither stores nor pushes only reads. -/
theorem exec_sameMemory {i : Instr} {s : State} (hstore : i.storesTo? = none) (hpush : i.pushesTo s.cpu.sp = []) :
    ∃ t, exec i s = .next t ∧ s.sameMemory t := by
  cases i with
  | lda | ldx | ldy | adc | sbc | cmp | cpx | cpy | and | ora | eor | bit => exact ⟨_, rfl, execRead_sameMemory ..⟩
  | sta | stx | sty | inc | dec => cases hstore
  | pha | php | jsr | brk => exact absurd hpush (List.cons_ne_nil _ _)
  | asl => exact ⟨_, rfl, execShift_sameMemory (mk := .asl) (fun _ => rfl) hstore _ s⟩
  | lsr => exact ⟨_, rfl, execShift_sameMemory (mk := .lsr) (fun _ => rfl) hstore _ s⟩
  | rol => exact ⟨_, rfl, execShift_sameMemory (mk := .rol) (fun _ => rfl) hstore _ s⟩
  | ror => exact ⟨_, rfl, execShift_sameMemory (mk := .ror) (fun _ => rfl) hstore _ s⟩
  | tax | tay | txa | tya | tsx | txs | inx | iny | dex | dey | clc | sec | cli | sei | cld | sed | clv | nop =>
    exact ⟨_, rfl, execImplied_sameMemory ..⟩
  | bcc | bcs | beq | bne | bmi | bpl | bvc | bvs => exact ⟨_, rfl, execBranch_sameMemory ..⟩
  | pla | plp => exact ⟨_, rfl, ((pull_sameMemory s).cpu _).cycles _⟩
  | jmp target =>
    cases target with
    | abs => exact ⟨_, rfl, ((State.sameMemory.refl s).cpu _).cycles _⟩
    | ind => exact ⟨_, rfl, ((readPair_sameMemory _ _ s).cpu _).cycles _⟩
  | rts => exact ⟨_, rfl, ((pull16_sameMemory s).cpu _).cycles _⟩
  | rti => exact ⟨_, rfl, returnFromException_sameMemory s⟩
  | nopStar => exact ⟨_, rfl, (State.sameMemory.refl s).cycles _⟩

/-- Settles O27: such an instruction is made of reads and register changes. -/
theorem readingFormsLeaveMemory : Obligations.ReadingFormsLeaveMemory := by
  intro i s t hstore hpush h
  obtain ⟨u, hu, hmem⟩ := exec_sameMemory hstore hpush
  obtain rfl : u = t := Host.Outcome.next.inj (hu.symm.trans h)
  exact hmem.peek

/-! ## One store -/

/-- `t` comes out of `s` by one store at `ea`, as far as the memory-like addresses go. -/
structure State.storesAt (ea : Word) (s t : State) : Prop where
  others : ∀ a, quietAddr a → a.toNat < 0x8000 → ¬sameByte a ea → peek a t = peek a s
  slots : ea.toNat < 0x4100 → ∀ k, t.cart.prgSlot k = s.cart.prgSlot k
  image : s.cart.sameImage t.cart

theorem State.busStep.image {s t : State} (h : s.busStep t) : s.cart.sameImage t.cart := by
  obtain ⟨-, -, -, -, himage⟩ := h.outside
  exact himage

/-- A byte of PRG ROM reads the same while its bank does. -/
theorem peek_prgRom_congr {s t : State} (hi : s.cart.sameImage t.cart) {a : Word} (ha : 0x8000 ≤ a.toNat)
    (hs : t.cart.prgSlot a.toNat = s.cart.prgSlot a.toNat) : peek a t = peek a s := by
  have hrom : t.cart.prgRom = s.cart.prgRom := by rw [hi.1]
  have hsize : t.cart.prgSize = s.cart.prgSize := by rw [hi.1]
  simp only [peek_prgRom ha, hs, Cartridge.prgByte, Cartridge.prgOffset, hrom, hsize]

/-- Below 0x4100, where no mapper has a register, the store's own byte is all that changes. -/
theorem State.storesAt.peek {ea : Word} {s t : State} (h : s.storesAt ea t) (hea : ea.toNat < 0x4100) {a : Word}
    (ha : quietAddr a) (hne : ¬sameByte a ea) : peek a t = peek a s := by
  obtain hlow | hhigh := Nat.lt_or_ge a.toNat 0x8000
  · exact h.others a ha hlow hne
  · exact peek_prgRom_congr h.image hhigh (h.slots hea _)

theorem busWrite_storesAt (ea : Word) (v : Byte) (s : State) : s.storesAt ea (busWrite ea v s) := by
  refine ⟨fun a ha hlow hne => ?_, (busWrite_prg ea v s).2, (busWrite_busStep ea v s).image⟩
  have hne' : a.toNat ≠ ea.toNat := fun h => hne (.inl (BitVec.eq_of_toNat_eq h))
  obtain hram | hunmapped | hprg : a.toNat ≤ 0x1FFF ∨ (0x4018 ≤ a.toNat ∧ a.toNat < 0x6000) ∨ 0x6000 ≤ a.toNat := by
    unfold quietAddr at ha
    omega
  · rw [peek_ram hram, peek_ram hram]
    exact busWrite_ram ea v s _ fun h => hne (.inr ⟨hram, h.1, h.2.symm⟩)
  · rw [peek_unmapped hunmapped.1 hunmapped.2, peek_unmapped hunmapped.1 hunmapped.2]
  · rw [peek_prgRam hprg hlow, peek_prgRam hprg hlow]
    exact (busWrite_prg ea v s).1 _ (by omega)

/-- Reads and register changes around the store leave its frame. -/
theorem State.storesAt.afterRead {ea addr : Word} {s t : State} (h : (busRead addr s).2.storesAt ea t) : s.storesAt ea t where
  others a ha hlow hne := (h.others a ha hlow hne).trans (peek_busRead ha addr s)
  slots hea k := (h.slots hea k).trans ((busRead_memory addr s).2.2 k)
  image := Cartridge.sameImage_trans (busRead_busStep addr s).image h.image

theorem State.storesAt.cpu {ea : Word} {s t : State} (h : s.storesAt ea t) (f : Cpu → Cpu) : s.storesAt ea (t.mapCpu f) where
  others a ha hlow hne := (((State.sameMemory.refl t).cpu f).peek a ha).trans (h.others a ha hlow hne)
  slots := h.slots
  image := h.image

theorem State.storesAt.cycles {ea : Word} {s t : State} (h : s.storesAt ea t) (n : Nat) :
    s.storesAt ea (t.withCycles n) where
  others a ha hlow hne := (((State.sameMemory.refl t).cycles n).peek a ha).trans (h.others a ha hlow hne)
  slots := h.slots
  image := h.image

theorem execStore_storesAt (f : Cpu → Byte) (m : Addr) (s : State) : s.storesAt (m.ea s) (execStore f m s) := by
  rw [execStore_eq]
  exact (busWrite_storesAt _ _ s).cycles _

theorem execModify_storesAt (op : Byte → Bool → Byte × Bool) (flags : Cpu → Byte × Bool → Cpu) (m : Addr) (s : State) :
    s.storesAt (m.ea s) (execModify op flags m s) := by
  rw [execModify_eq]
  exact ((State.storesAt.afterRead (busWrite_storesAt _ _ _)).cpu _).cycles _

theorem execShift_storesAt {mk : ShiftOperand → Instr} (hacc : (mk .acc).storesTo? = none)
    (hmk : ∀ m, (mk (.mem m)).storesTo? = some m) {opd : ShiftOperand} {m : Addr} (h : (mk opd).storesTo? = some m)
    (op : Byte → Bool → Byte × Bool) (s : State) : s.storesAt (m.ea s) (execShift op opd s) := by
  cases opd with
  | acc => simp [hacc] at h
  | mem n =>
    obtain rfl : n = m := Option.some.inj ((hmk n).symm.trans h)
    exact execModify_storesAt op _ n s

theorem exec_storesAt {i : Instr} {m : Addr} (hi : i.storesTo? = some m) (s : State) :
    ∃ t, exec i s = .next t ∧ s.storesAt (m.ea s) t := by
  cases i with
  | sta dst | stx dst | sty dst =>
    obtain rfl : dst = m := Option.some.inj hi
    exact ⟨_, rfl, execStore_storesAt ..⟩
  | inc dst | dec dst =>
    obtain rfl : dst = m := Option.some.inj hi
    exact ⟨_, rfl, execModify_storesAt ..⟩
  | asl => exact ⟨_, rfl, execShift_storesAt (mk := .asl) rfl (fun _ => rfl) hi _ s⟩
  | lsr => exact ⟨_, rfl, execShift_storesAt (mk := .lsr) rfl (fun _ => rfl) hi _ s⟩
  | rol => exact ⟨_, rfl, execShift_storesAt (mk := .rol) rfl (fun _ => rfl) hi _ s⟩
  | ror => exact ⟨_, rfl, execShift_storesAt (mk := .ror) rfl (fun _ => rfl) hi _ s⟩
  | _ => cases hi

/-! ## Pushes -/

/-- A push changes its own slot. -/
theorem peek_push {a : Word} (ha : quietAddr a) (v : Byte) {s : State} (h : ¬sameByte a (0x100 + zext16 s.cpu.sp)) :
    peek a (push v s) = peek a s := by
  have hstore : s.storesAt (stackAddr s.cpu.sp) (push v s) :=
    (busWrite_storesAt _ v s).cpu fun c => { c with sp := c.sp - 1#8 }
  have hsp := s.cpu.sp.isLt
  have hstack := stackAddr_toNat s.cpu.sp
  exact hstore.peek (by omega) ha h

theorem peek_push16 {a : Word} (ha : quietAddr a) (w : Word) {s : State} (h : ¬sameByte a (0x100 + zext16 s.cpu.sp))
    (h' : ¬sameByte a (0x100 + zext16 (s.cpu.sp - 1#8))) : peek a (push16 w s) = peek a s := by
  rw [push16, peek_push ha, peek_push ha _ h]
  rwa [push_cpu]

/-- After the three pushes an exception reads its vector and changes the CPU. -/
theorem peek_takeException {a : Word} (ha : quietAddr a) (ret : Word) (brk : Bool) (vector : Word) {s : State}
    (h : ¬sameByte a (0x100 + zext16 s.cpu.sp)) (h' : ¬sameByte a (0x100 + zext16 (s.cpu.sp - 1#8)))
    (h'' : ¬sameByte a (0x100 + zext16 (s.cpu.sp - 2#8))) : peek a (takeException ret brk vector s) = peek a s := by
  let s1 := push16 ret s
  let s2 := push (pushedP s1.cpu.p brk) s1
  have hsp : s1.cpu.sp = s.cpu.sp - 2#8 := by
    simp only [s1, push16, push_cpu]
    bv_omega
  have hread : s2.sameMemory (takeException ret brk vector s) :=
    ((((State.sameMemory.refl s2).cpu _).trans (readPair_sameMemory vector (vector + 1#16) _)).cpu _).cycles _
  rw [hread.peek a ha, peek_push ha _ (by rwa [hsp]), peek_push16 ha _ h h']

/-- A push instruction changes its own slots. -/
theorem exec_pushes {i : Instr} {s : State} (hi : i.pushesTo s.cpu.sp ≠ []) {a : Word} (ha : quietAddr a)
    (h : ∀ slot ∈ i.pushesTo s.cpu.sp, ¬sameByte a (0x100 + zext16 slot)) :
    ∃ t, exec i s = .next t ∧ peek a t = peek a s := by
  cases i with
  | pha | php =>
    refine ⟨_, rfl, (((State.sameMemory.refl _).cycles _).peek a ha).trans ?_⟩
    exact peek_push ha _ (h _ (.head _))
  | jsr =>
    refine ⟨_, rfl, ((((State.sameMemory.refl _).cpu _).cycles _).peek a ha).trans ?_⟩
    exact peek_push16 ha _ (h _ (.head _)) (h _ (.tail _ (.head _)))
  | brk =>
    exact ⟨_, rfl, peek_takeException ha _ _ _ (h _ (.head _)) (h _ (.tail _ (.head _)))
      (h _ (.tail _ (.tail _ (.head _))))⟩
  | _ => exact absurd rfl hi

/-- Settles O28: every store has the frame of one bus write, every push that of its slots. -/
theorem storingFormsLeaveOtherBytes : Obligations.StoringFormsLeaveOtherBytes := by
  intro i s t h
  refine ⟨fun m hi => ?_, fun hi a ha hslots => ?_⟩
  · obtain ⟨u, hu, hstore⟩ := exec_storesAt hi s
    obtain rfl : u = t := Host.Outcome.next.inj (hu.symm.trans h)
    exact ⟨hstore.others, fun a => peek_prgRom_congr hstore.image,
      fun hea a ha => peek_prgRom_congr hstore.image ha (hstore.slots hea _)⟩
  · obtain ⟨u, hu, hpeek⟩ := exec_pushes hi ha hslots
    obtain rfl : u = t := Host.Outcome.next.inj (hu.symm.trans h)
    exact hpeek

end Sys2Proof.Machine
end

section
/-! PROOFS. The controllers (20_memory.md R74-R76): what reads of a port's shift register give, then the two ports on the
bus. -/

namespace Sys2Proof.Machine

/-! ## One port -/

/-- A port after `k` reads (R76). -/
def Port.afterReads (p : Port) (strobe : Bool) (k : Nat) : Port := (fun q => (Port.read q strobe).2)^[k] p

theorem afterReads_succ (p : Port) (strobe : Bool) (k : Nat) :
    p.afterReads strobe (k + 1) = ((p.afterReads strobe k).read strobe).2 :=
  Function.iterate_succ_apply' ..

/-- A read gives bit 0 of the shift register, on the open bus's 0x40 (R76, D21). -/
theorem port_read_low (p : Port) : (p.read false).1 = if p.shift.getLsbD 0 then 0x41#8 else 0x40#8 := by
  simp only [Port.read, Bool.false_eq_true, if_false, BitVec.and_one_eq_setWidth_ofBool_getLsbD]
  cases p.shift.getLsbD 0 <;> rfl

/-- The bits move down and ones follow them (R76). -/
theorem afterReads_low_shift (p : Port) (k : Nat) : ∀ j, j < 8 →
    (p.afterReads false k).shift.getLsbD j = if j + k < 8 then p.shift.getLsbD (j + k) else true := by
  induction k with
  | zero =>
    intro j hj
    rw [if_pos (by omega)]
    rfl
  | succ k ih =>
    intro j hj
    have hbit : (p.afterReads false (k + 1)).shift.getLsbD j
        = ((p.afterReads false k).shift.getLsbD (1 + j) || (0x80#8).getLsbD j) := by
      simp [afterReads_succ, Port.read]
    rw [hbit]
    obtain rfl | hj7 : j = 7 ∨ 1 + j < 8 := by omega
    · rw [if_neg (by omega)]
      simp
    · have hj : j < 7 := by omega
      have htop : (0x80#8).getLsbD j = false := by
        interval_cases j <;> rfl
      rw [ih _ hj7, htop, Bool.or_false, show 1 + j + k = j + (k + 1) by omega]

theorem afterReads_state (p : Port) (strobe : Bool) (k : Nat) : (p.afterReads strobe k).state = p.state := by
  induction k with
  | zero => rfl
  | succ k ih => rw [afterReads_succ, port_read_state, ih]

theorem getLsbD_ite_zero (b : Bool) (m : Byte) (k : Nat) : (if b then m else 0#8).getLsbD k = (b && m.getLsbD k) := by
  cases b <;> simp

/-- The host's bits in the order A, B, Select, Start, Up, Down, Left, Right (R74). -/
theorem getLsbD_nesButtons (buttons : U32) {k : Nat} (hk : k < 8) :
    (nesButtons buttons).getLsbD k = buttons.getLsbD ([0, 1, 7, 6, 8, 9, 10, 11].getD k 0) := by
  simp only [nesButtons, BitVec.getLsbD_or, getLsbD_ite_zero]
  interval_cases k <;> simp

/-- The read after `k` reads of a port just loaded: button `k`, then ones. -/
theorem load_afterReads_read (p : Port) (k : Nat) : ((p.load.afterReads false k).read false).1 =
    if k < 8 ∧ p.state.getLsbD ([0, 1, 7, 6, 8, 9, 10, 11].getD k 0) = false then 0x40#8 else 0x41#8 := by
  rw [port_read_low, afterReads_low_shift _ _ _ (by decide), Nat.zero_add]
  by_cases hk : k < 8
  · rw [if_pos hk, show p.load.shift = nesButtons p.state from rfl, getLsbD_nesButtons _ hk]
    cases p.state.getLsbD ([0, 1, 7, 6, 8, 9, 10, 11].getD k 0) <;> simp [hk]
  · rw [if_neg hk, if_neg fun h : _ ∧ _ => hk h.1]
    rfl

/-- While the strobe is high a port is loaded before each read, which gives A. -/
theorem port_read_high (p : Port) : (p.read true).1 = if p.state.getLsbD 0 then 0x41#8 else 0x40#8 := by
  rw [show (p.read true).1 = (p.load.read false).1 from rfl, port_read_low,
    show p.load.shift = nesButtons p.state from rfl, getLsbD_nesButtons _ (by decide)]
  rfl

/-! ## The two ports on the bus -/

theorem reads_port0 (s : State) (k : Nat) :
    Nat.rec (motive := fun _ => State) s (fun _ t => (busRead 0x4016 t).2) k =
      { s with bus := { s.bus with port0 := s.bus.port0.afterReads s.bus.strobe k } } := by
  induction k with
  | zero => rfl
  | succ k ih =>
    rw [afterReads_succ]
    exact congrArg (fun t => (busRead 0x4016 t).2) ih

theorem reads_port1 (s : State) (k : Nat) :
    Nat.rec (motive := fun _ => State) s (fun _ t => (busRead 0x4017 t).2) k =
      { s with bus := { s.bus with port1 := s.bus.port1.afterReads s.bus.strobe k } } := by
  induction k with
  | zero => rfl
  | succ k ih =>
    rw [afterReads_succ]
    exact congrArg (fun t => (busRead 0x4017 t).2) ih

theorem peek_port0 (s : State) : peek 0x4016 s = (s.bus.port0.read s.bus.strobe).1 := rfl

theorem peek_port1 (s : State) : peek 0x4017 s = (s.bus.port1.read s.bus.strobe).1 := rfl

/-- A write while the strobe is high, or that raises it, loads both ports (R75, D21). -/
theorem busWrite_strobe {s : State} {v : Byte} (h : (s.bus.strobe || bitOf v 0) = true) : busWrite 0x4016 v s =
    { s with bus := { s.bus with strobe := bitOf v 0, port0 := s.bus.port0.load, port1 := s.bus.port1.load } } := by
  have hbus : s.bus.writeStrobe v =
      { s.bus with strobe := bitOf v 0, port0 := s.bus.port0.load, port1 := s.bus.port1.load } := by
    unfold Bus.writeStrobe
    rw [if_pos h]
  exact congrArg (fun b => { s with bus := b }) hbus

/-- Settles O39: both ports are loaded by the strobe, and the reads are those of one shift register. -/
theorem controllerReadsEightButtons : Obligations.ControllerReadsEightButtons := by
  intro s k
  have hone : bitOf 1 0 = true := rfl
  have hzero : bitOf 0 0 = false := rfl
  dsimp only
  rw [busWrite_strobe (s := s) (v := 1) (by rw [hone, Bool.or_true]), busWrite_strobe (v := 0) rfl]
  simp only [hone, hzero, reads_port0, reads_port1, peek_port0, peek_port1]
  refine ⟨load_afterReads_read _ k, load_afterReads_read _ k, ?_, ?_⟩ <;>
    · rw [port_read_high, afterReads_state]
      rfl

end Sys2Proof.Machine
end

section
/-! PROOFS. OAM DMA (20_memory.md R72, R73): 256 bus reads and OAM writes. -/

namespace Sys2Proof.Machine

/-! ## OAMADDR -/

theorem videoBusRead_oamAddr (s : Video) (addr : Word) : (s.busRead addr).2.ppu.oamAddr = s.ppu.oamAddr := by
  simp only [Video.busRead, apply_ite Prod.snd, apply_ite Video.ppu, ite_self]

theorem readStatus_oamAddr (p : Ppu) : p.readStatus.2.oamAddr = p.oamAddr := by
  simp only [Ppu.readStatus, apply_ite Ppu.oamAddr, ite_self]

/-- No register read moves OAMADDR: only writes of OAMADDR and OAMDATA do (61_ppu.md R413, R414). -/
theorem regRead_oamAddr (s : Video) (reg : Nat) : (s.regRead reg).2.ppu.oamAddr = s.ppu.oamAddr := by
  unfold Video.regRead
  split
  · exact readStatus_oamAddr s.ppu
  · rfl
  · unfold Video.readData
    dsimp only
    split
    · exact (videoBusRead_oamAddr _ _).trans (videoBusRead_oamAddr _ _)
    · exact videoBusRead_oamAddr _ _
  · rfl

theorem busRead_oamAddr (addr : Word) (s : State) : (busRead addr s).2.ppu.oamAddr = s.ppu.oamAddr := by
  unfold busRead
  dsimp only
  split
  · rfl
  split
  · exact regRead_oamAddr _ _
  repeat' split
  all_goals rfl

theorem dmaCopy_oamAddr (page : Byte) (k : Nat) :
    ∀ (i : Nat) (s : State), (dmaCopy page i s k).ppu.oamAddr = s.ppu.oamAddr := by
  induction k with
  | zero => exact fun _ _ => rfl
  | succ k ih => exact fun i s => (ih _ _).trans (busRead_oamAddr _ s)

/-! ## A page that reads without side effect -/

/-- The pages of RAM, and those from 0x41 on, have quiet addresses only. -/
theorem pageAddr_quiet {page : Byte} (h : page.toNat < 0x20 ∨ 0x41 ≤ page.toNat) (lo : Byte) :
    quietAddr (mkWord page lo) := by
  have hlo := lo.isLt
  have ha := mkWord_toNat page lo
  unfold quietAddr
  omega

section Copy
variable {page : Byte} (h : page.toNat < 0x20 ∨ 0x41 ≤ page.toNat)
include h

/-- One byte copied: the read has no side effect. -/
theorem dmaCopy_succ (i k : Nat) (s : State) : dmaCopy page i s (k + 1) =
    dmaCopy page (i + 1)
      { s with ppu := s.ppu.oamWrite ((s.ppu.oamAddr.toNat + i) % 256) (peek (mkWord page (BitVec.ofNat 8 i)) s) } k := by
  rw [dmaCopy, busRead_quiet (pageAddr_quiet h _)]
  rfl

/-- The copying changes OAM alone. -/
theorem dmaCopy_frame (k : Nat) : ∀ (i : Nat) (s : State),
    dmaCopy page i s k = { s with ppu := { s.ppu with oam := (dmaCopy page i s k).ppu.oam } } := by
  induction k with
  | zero => exact fun _ _ => rfl
  | succ k ih =>
    intro i s
    rw [dmaCopy_succ h, ih]
    rfl

/-- After `k` bytes from index `i` on, OAM holds those bytes of the page, and every other byte as before. -/
theorem dmaCopy_read {j : Nat} (hj : j < 256) (k : Nat) : ∀ (i : Nat) (s : State), i + k ≤ 256 →
    (dmaCopy page i s k).ppu.oam.read ((s.ppu.oamAddr.toNat + j) % 256) =
      if i ≤ j ∧ j < i + k then peek (mkWord page (BitVec.ofNat 8 j)) s
      else s.ppu.oam.read ((s.ppu.oamAddr.toNat + j) % 256) := by
  induction k with
  | zero =>
    intro i s _
    rw [if_neg (by omega)]
    rfl
  | succ k ih =>
    intro i s hik
    let s1 : State := { s with
      ppu := s.ppu.oamWrite ((s.ppu.oamAddr.toNat + i) % 256) (peek (mkWord page (BitVec.ofNat 8 i)) s) }
    have hpeek : peek (mkWord page (BitVec.ofNat 8 j)) s1 = peek (mkWord page (BitVec.ofNat 8 j)) s :=
      peek_same (pageAddr_quiet h _) rfl rfl
    have hread : s1.ppu.oam.read ((s.ppu.oamAddr.toNat + j) % 256) =
        if j = i then peek (mkWord page (BitVec.ofNat 8 i)) s else s.ppu.oam.read ((s.ppu.oamAddr.toNat + j) % 256) := by
      have hwrap : (s.ppu.oamAddr.toNat + j) % 256 = (s.ppu.oamAddr.toNat + i) % 256 ↔ j = i := by omega
      simp only [s1, Ppu.oamWrite, Memory.read_write, hwrap]
    rw [dmaCopy_succ h]
    refine (ih (i + 1) s1 (by omega)).trans ?_
    rw [hpeek]
    obtain rfl | hji := eq_or_ne j i
    · rw [if_neg (by omega), if_pos (by omega)]
      exact hread.trans (if_pos rfl)
    · have hrange : i + 1 ≤ j ∧ j < i + 1 + k ↔ i ≤ j ∧ j < i + (k + 1) := by omega
      simp only [hrange]
      exact congrArg _ (hread.trans (if_neg hji))

end Copy

/-- Settles O38: the copy, by induction on the bytes still to be copied. -/
theorem oamDmaCopiesAPage : Obligations.OamDmaCopiesAPage := by
  intro page s
  refine ⟨rfl, dmaCopy_oamAddr page 256 0 s, busWrite_cpu _ _ _, fun hpage => ⟨?_, fun i hi => ?_⟩⟩
  · exact congrArg (fun u : State => { u with bus := { u.bus with pendingDma := 513 } }) (dmaCopy_frame hpage 256 0 s)
  · exact (dmaCopy_read hpage hi 256 0 s (by omega)).trans (if_pos (by omega))

end Sys2Proof.Machine
end

section
/-! PROOFS. Savestates (70_reset_and_hazards.md R715, R716; 20_memory.md R66). -/

namespace Sys2Proof.Machine

/-- What a load that succeeds says of its blob and of the machine it gives. -/
theorem loadState_ok {b : SaveState} {t u : State} (h : loadState b t = .ok u) :
    ∃ m r x rest, b.blobs = .cpu u.cpu u.loop :: .ppu u.ppu :: .apu u.apu :: .bus u.bus :: .cartridge m r x :: rest
      ∧ t.cart.restore m r x = some u.cart := by
  unfold loadState at h
  split at h
  · cases h
  split at h
  · next hblobs =>
    split at h
    · next hcart =>
      obtain rfl := Except.ok.inj h
      exact ⟨_, _, _, _, hblobs, hcart⟩
    · cases h
  · cases h

/-- Under an equal CRC a load succeeds, or the blob is too short (entry 15). -/
theorem loadState_cases {b : SaveState} {t : State} (hcrc : b.romCrc = t.cart.crc32) :
    (∃ u, loadState b t = .ok u) ∨ loadState b t = .error .savestateTooShort := by
  unfold loadState
  rw [if_neg (not_not.2 hcrc)]
  split
  · split
    · exact .inl ⟨_, rfl⟩
    · exact .inr rfl
  · exact .inr rfl

/-- A machine with the same image takes the five blobs of a saved state, whatever follows them. -/
theorem loadState_saveState {s t : State} (h : s.cart.sameImage t.cart) (more : List Blob) :
    loadState { saveState s with blobs := (saveState s).blobs ++ more } t = .ok s := by
  have hcrc : s.cart.crc32 = t.cart.crc32 := by rw [h.1]
  unfold loadState saveState
  rw [if_neg (not_not.2 hcrc)]
  simp only [List.cons_append, restore_own h]

/-- Settles O60: a cartridge takes the blob of every machine with its image (`restore_own`), and a load that succeeds has all
five blobs and a cartridge that fits (`restore_none`). -/
theorem saveStatesRestore : Obligations.SaveStatesRestore := by
  refine ⟨fun s t more h => ⟨?_, loadState_saveState h more⟩, fun b t hcrc => ?_, fun b t hcrc hlen => ?_,
    fun b t m r x hcrc hblob hfit => ?_, fun b t u h => ?_⟩
  · simpa using loadState_saveState h []
  · rw [loadState, if_pos hcrc]
  · refine (loadState_cases hcrc).resolve_left fun ⟨u, hu⟩ => ?_
    obtain ⟨m, r, x, rest, hblobs, -⟩ := loadState_ok hu
    rw [hblobs] at hlen
    simp only [List.length_cons] at hlen
    omega
  · refine (loadState_cases hcrc).resolve_left fun ⟨u, hu⟩ => ?_
    obtain ⟨m', r', x', rest, hblobs, hcart⟩ := loadState_ok hu
    obtain ⟨rfl, rfl, rfl⟩ : m' = m ∧ r' = r ∧ x' = x := by simpa [hblobs] using hblob
    rw [restore_none.2 hfit.symm] at hcart
    cases hcart
  · obtain ⟨m, r, x, rest, -, hcart⟩ := loadState_ok h
    exact (restore_some hcart).1

end Sys2Proof.Machine
end

section
/-! PROOFS. Decoding and encoding (30_encoding.md R110, R111, R125, R127, R129): each undoes the other, row by row of the
table. -/

namespace Sys2Proof

open Sys2Proof.Machine Sys2Proof.Laws

/-! ## Decoding undoes encoding -/

/-- The bytes are read as `i`, and those after them are left over. -/
def readsAs (bs : List Byte) (i : Instr) : Prop := ∀ rest, decode (bs ++ rest) = .ok (i, rest)

/-- A row of one byte. -/
theorem readsAs_opcode {op : Byte} {i : Instr} (hn : operandCount op = 0) (hrow : ∀ lo hi, decodeRow op lo hi = i) :
    readsAs [op] i := by
  intro rest
  simp [decode, hn, hrow]

/-- A row with a one-byte operand. -/
theorem readsAs_form8 {op d : Byte} {i : Instr} (hn : operandCount op = 1) (hrow : ∀ hi, decodeRow op d hi = i) :
    readsAs (form8 op d) i := by
  intro rest
  simp [form8, decode, hn, hrow]

/-- A row with a two-byte operand, low byte first (20_memory.md R80). -/
theorem readsAs_form16 {op : Byte} {w : Word} {i : Instr} (hn : operandCount op = 2)
    (hrow : ∀ lo hi, mkWord hi lo = w → decodeRow op lo hi = i) : readsAs (form16 op w) i := by
  intro rest
  simp [form16, decode, hn, hrow]

/-- An unofficial byte has no row in R125's tables (R127). -/
theorem decodeRow_unofficial {op : Byte} (h : op.toNat ∈ unofficialOpcodes) (lo hi : Byte) :
    decodeRow op lo hi = .nopStar op := by
  have hrows : unofficialOpcodes.map (fun n => decodeRow (BitVec.ofNat 8 n) lo hi)
      = unofficialOpcodes.map (fun n => .nopStar (BitVec.ofNat 8 n)) := rfl
  simpa using List.map_inj_left.1 hrows op.toNat h

theorem operandCount_unofficial {op : Byte} (h : op.toNat ∈ unofficialOpcodes) : operandCount op = 0 := by
  rw [operandCount, decodeRow_unofficial h]
  rfl

theorem readsAs_unofficial {op : Byte} (h : op.toNat ∈ unofficialOpcodes) : readsAs [op] (.nopStar op) :=
  readsAs_opcode (operandCount_unofficial h) (decodeRow_unofficial h)

/-- The bytes of a well-formed instruction are read as it, form by form of R125. -/
theorem readsAs_encode {i : Instr} (h : i.wf = true) : readsAs (encode i) i := by
  cases i with
  | lda src | adc src | sbc src | cmp src | and src | ora src | eor src =>
    cases src with
    | imm => exact readsAs_form8 rfl fun _ => rfl
    | mem m =>
      cases m with
      | zp | zpx | izx | izy => exact readsAs_form8 rfl fun _ => rfl
      | abs | abx | aby => exact readsAs_form16 rfl fun _ _ hw => hw ▸ rfl
      | zpy => cases h
  | sta m =>
    cases m with
    | zp | zpx | izx | izy => exact readsAs_form8 rfl fun _ => rfl
    | abs | abx | aby => exact readsAs_form16 rfl fun _ _ hw => hw ▸ rfl
    | zpy => cases h
  | ldx src =>
    cases src with
    | imm => exact readsAs_form8 rfl fun _ => rfl
    | mem m =>
      cases m with
      | zp | zpy => exact readsAs_form8 rfl fun _ => rfl
      | abs | aby => exact readsAs_form16 rfl fun _ _ hw => hw ▸ rfl
      | zpx | abx | izx | izy => cases h
  | stx m =>
    cases m with
    | zp | zpy => exact readsAs_form8 rfl fun _ => rfl
    | abs => exact readsAs_form16 rfl fun _ _ hw => hw ▸ rfl
    | zpx | abx | aby | izx | izy => cases h
  | ldy src =>
    cases src with
    | imm => exact readsAs_form8 rfl fun _ => rfl
    | mem m =>
      cases m with
      | zp | zpx => exact readsAs_form8 rfl fun _ => rfl
      | abs | abx => exact readsAs_form16 rfl fun _ _ hw => hw ▸ rfl
      | zpy | aby | izx | izy => cases h
  | sty m =>
    cases m with
    | zp | zpx => exact readsAs_form8 rfl fun _ => rfl
    | abs => exact readsAs_form16 rfl fun _ _ hw => hw ▸ rfl
    | zpy | abx | aby | izx | izy => cases h
  | cpx src | cpy src =>
    cases src with
    | imm => exact readsAs_form8 rfl fun _ => rfl
    | mem m =>
      cases m with
      | zp => exact readsAs_form8 rfl fun _ => rfl
      | abs => exact readsAs_form16 rfl fun _ _ hw => hw ▸ rfl
      | zpx | zpy | abx | aby | izx | izy => cases h
  | bit m =>
    cases m with
    | zp => exact readsAs_form8 rfl fun _ => rfl
    | abs => exact readsAs_form16 rfl fun _ _ hw => hw ▸ rfl
    | zpx | zpy | abx | aby | izx | izy => cases h
  | inc m | dec m =>
    cases m with
    | zp | zpx => exact readsAs_form8 rfl fun _ => rfl
    | abs | abx => exact readsAs_form16 rfl fun _ _ hw => hw ▸ rfl
    | zpy | aby | izx | izy => cases h
  | asl opd | lsr opd | rol opd | ror opd =>
    cases opd with
    | acc => exact readsAs_opcode rfl fun _ _ => rfl
    | mem m =>
      cases m with
      | zp | zpx => exact readsAs_form8 rfl fun _ => rfl
      | abs | abx => exact readsAs_form16 rfl fun _ _ hw => hw ▸ rfl
      | zpy | aby | izx | izy => cases h
  | jmp target => cases target <;> exact readsAs_form16 rfl fun _ _ hw => hw ▸ rfl
  | jsr => exact readsAs_form16 rfl fun _ _ hw => hw ▸ rfl
  | bcc | bcs | beq | bne | bmi | bpl | bvc | bvs => exact readsAs_form8 rfl fun _ => rfl
  | nopStar op => exact readsAs_unofficial (List.contains_iff_mem.1 h)
  | tax | tay | txa | tya | tsx | txs | pha | php | pla | plp | inx | iny | dex | dey | rts | rti | brk | clc | sec | cli
    | sei | cld | sed | clv | nop =>
    exact readsAs_opcode rfl fun _ _ => rfl

/-- A well-formed instruction is encoded in as many bytes as it is long (R110). -/
theorem encode_length {i : Instr} (h : i.wf = true) : (encode i).length = i.length := by
  cases i with
  | lda | adc | sbc | cmp | and | ora | eor => exact EncodeLength.source_length (fun _ => EncodeLength.accumulator_length) h
  | ldx => exact EncodeLength.source_length (fun _ => EncodeLength.ldx_length) h
  | ldy => exact EncodeLength.source_length (fun _ => EncodeLength.rmw_length) h
  | cpx | cpy => exact EncodeLength.source_length (fun _ => EncodeLength.plain_length) h
  | sta => exact EncodeLength.accumulator_length h
  | stx => exact EncodeLength.stx_length h
  | sty m => exact EncodeLength.sty m h
  | bit => exact EncodeLength.plain_length h
  | inc | dec => exact EncodeLength.rmw_length h
  | asl | lsr | rol | ror => exact EncodeLength.shift_length h
  | jmp target => exact EncodeLength.jmp target h
  | _ => rfl

/-- Settles O1: each form is read back from its own row, and its bytes are as many as it is long. -/
theorem decodeUndoesEncode : Obligations.DecodeUndoesEncode :=
  fun _ rest h => ⟨readsAs_encode h rest, encode_length h⟩

/-- Well-formed instructions with the same bytes are the same. -/
theorem encode_injective {i j : Instr} (hi : i.wf = true) (hj : j.wf = true) (h : encode i = encode j) : i = j := by
  have hread := readsAs_encode hi []
  rw [h, readsAs_encode hj []] at hread
  exact (Prod.mk.inj (Except.ok.inj hread)).1.symm

/-! ## Encoding undoes decoding -/

/-- The bytes of a row with `n` operand bytes, its operand as a byte and as a word. -/
def rowBytes (op lo : Byte) (w : Word) : Nat → List Byte
  | 0 => [op]
  | 1 => form8 op lo
  | _ => form16 op w

theorem rowBytes_mkWord (op lo hi : Byte) (n : Nat) : rowBytes op lo (mkWord hi lo) n = [op, lo, hi].take (n + 1) := by
  match n with
  | 0 | 1 => rfl
  | n + 2 => simp [rowBytes, form16]

/-- The bytes of each of the 256 rows, by row and column of the table (30_encoding.md R125, R127). -/
theorem encode_decodeRow_nibbles (lo hi : Byte) (h l : Fin 16) :
    let op := BitVec.ofNat 8 (16 * h + l)
    encode (decodeRow op lo hi) = rowBytes op lo (mkWord hi lo) (operandCount op) := by
  fin_cases h <;> fin_cases l <;> rfl

/-- An instruction encodes to the bytes it was read from, as many as its opcode byte asks for (R111). -/
theorem encode_decodeRow (op lo hi : Byte) : encode (decodeRow op lo hi) = [op, lo, hi].take (operandCount op + 1) := by
  have hop : BitVec.ofNat 8 (16 * (op.toNat / 16) + op.toNat % 16) = op := by
    rw [Nat.div_add_mod, BitVec.ofNat_toNat, BitVec.setWidth_eq]
  have h := encode_decodeRow_nibbles lo hi ⟨op.toNat / 16, by omega⟩ ⟨op.toNat % 16, by omega⟩
  dsimp only at h
  rwa [hop, rowBytes_mkWord] at h

/-- The opcode byte alone fixes the length (R111). -/
theorem decodeRow_length (op lo hi : Byte) : (decodeRow op lo hi).length = min (operandCount op + 1) 3 := by
  rw [← encode_length (decodeRow_wf op lo hi), encode_decodeRow, List.length_take]
  rfl

/-- The operand bytes that a row does not have are ignored (R111). -/
theorem decodeRow_congr {op lo hi lo' hi' : Byte}
    (h : [op, lo, hi].take (operandCount op + 1) = [op, lo', hi'].take (operandCount op + 1)) :
    decodeRow op lo hi = decodeRow op lo' hi' := by
  apply encode_injective (decodeRow_wf ..) (decodeRow_wf ..)
  rw [encode_decodeRow, encode_decodeRow, h]

/-- Settles O2: the bytes of each of the 256 rows, and from them its length. -/
theorem everyByteIsOneInstruction : Obligations.EveryByteIsOneInstruction := by
  intro op lo hi
  have hlen := decodeRow_length op lo hi
  refine ⟨decodeRow_wf op lo hi, ?_, by omega, by omega, fun lo' hi' => ?_⟩
  · rw [encode_decodeRow, hlen, List.take_eq_take_iff, List.length_cons, List.length_cons, List.length_singleton]
    omega
  · rw [hlen, decodeRow_length]

/-! ## Words of the table, and the unofficial bytes -/

/-- Settles O3: the decoder evaluates to the instruction on each of the twelve words. -/
theorem sampleWordsDecode : Obligations.SampleWordsDecode :=
  ⟨rfl, rfl, rfl, rfl, rfl, rfl, rfl, rfl, rfl, rfl, rfl, rfl⟩

/-- Settles O24: an unofficial byte is read as NOP*, whose meaning is its two cycles. -/
theorem unofficialOpcodesDoNothing : Obligations.UnofficialOpcodesDoNothing :=
  ⟨rfl, fun _ _ h => ⟨⟨readsAs_unofficial h [], rfl⟩, rfl⟩⟩

end Sys2Proof
end

section
/-! PROOFS. The addressing modes by plain arithmetic (30_encoding.md R115-R120, R122, R123). -/

namespace Sys2Proof.Machine

/-- The page of a word is its high byte (R119). -/
theorem hi8_bne (a b : Word) : (hi8 a != hi8 b) = decide (a.toNat / 256 ≠ b.toNat / 256) := by
  simp only [bne, beq_eq_decide, ← decide_not, ← BitVec.toNat_inj, hi8_toNat, ne_eq]

/-- A base and an index, modulo 65536, and the change of page (R119, R120, R123). -/
theorem resolvedIndexed_toNat (base : Word) (index : Byte) (s : State) :
    (resolvedIndexed base index s).ea.toNat = (base.toNat + index.toNat) % 65536
      ∧ (resolvedIndexed base index s).cross
        = decide ((base.toNat + index.toNat) % 65536 / 256 ≠ base.toNat / 256)
      ∧ (resolvedIndexed base index s).state = s := by
  have hea : (base + zext16 index).toNat = (base.toNat + index.toNat) % 65536 := by
    rw [BitVec.toNat_add, zext16_toNat]
  exact ⟨hea, hea ▸ hi8_bne _ _, rfl⟩

/-- The pointer in page zero at `z`: its second byte wraps (R122, R123). -/
theorem read16zp_toNat (z : Byte) (s : State) : (read16zp z s).1.toNat =
    (s.bus.ram.read (z.toNat % 256)).toNat + 256 * (s.bus.ram.read ((z.toNat + 1) % 256)).toNat := by
  have hnext : (z + 1#8).toNat = (z.toNat + 1) % 256 := BitVec.toNat_add ..
  rw [read16zp_eq, mkWord_toNat, hnext, Nat.mod_eq_of_lt z.isLt]
  omega

/-- (indirect),Y indexes the pointer: reading it changes nothing (R123). -/
theorem resolve_izy (z : Byte) (s : State) :
    resolve (.izy z) s = resolvedIndexed (read16zp z s).1 s.cpu.y s := by
  simp only [resolve, read16zp_eq]

/-- Settles O6: an index in page zero is added modulo 256 before the byte is made an address, elsewhere modulo 65536, to the
operand or to the pointer that page zero holds. -/
theorem addressingModes : Obligations.AddressingModes := by
  intro s z w
  have hzx : (z + s.cpu.x).toNat = (z.toNat + s.cpu.x.toNat) % 256 := BitVec.toNat_add ..
  have hzy : (z + s.cpu.y).toNat = (z.toNat + s.cpu.y.toNat) % 256 := BitVec.toNat_add ..
  have hpointer := read16zp_toNat (z + s.cpu.x) s
  rw [hzx, Nat.mod_mod, Nat.mod_add_mod] at hpointer
  have hizy := resolvedIndexed_toNat (read16zp z s).1 s.cpu.y s
  rw [← resolve_izy, read16zp_toNat] at hizy
  exact ⟨⟨zext16_toNat z, rfl, rfl⟩, ⟨(zext16_toNat _).trans hzx, rfl, rfl⟩, ⟨(zext16_toNat _).trans hzy, rfl, rfl⟩,
    ⟨rfl, rfl, rfl⟩, resolvedIndexed_toNat w s.cpu.x s, resolvedIndexed_toNat w s.cpu.y s,
    ⟨hpointer, rfl, resolve_state _ s⟩, hizy⟩

end Sys2Proof.Machine
end

section
/-! PROOFS. The cycle counts (30_encoding.md R125, R128, 44_control_flow.md R226, 60_exceptions.md R303): what each shape of
instruction counts is what the table's row says. -/

namespace Sys2Proof

open Sys2Proof.Machine

/-- The row of the table that an instruction's opcode byte names (R111). -/
def Instr.row (i : Instr) : Nat := ((encode i).headD 0#8).toNat

/-- A memory form takes its row's base count, and one more for a page cross in a `+` row (R128). -/
theorem cycles_memory {i : Instr} {m : Addr} {s : State} (hb : i.branch? = none) (hm : i.address? = some m) :
    i.cycles s = baseCycles.getD i.row 0 + (plusRows.contains i.row && (resolve m s).cross).toNat := by
  simp only [Instr.cycles, hb, hm, Bool.toNat, Bool.cond_eq_ite, Bool.and_eq_true, List.contains_iff_mem]
  rfl

/-- A branch takes two cycles, one more if taken and one more again into another page (44_control_flow.md R226). -/
theorem cycles_branch {i : Instr} {f : Flag} {b : Bool} {off : Byte} {s : State} {cond : Cpu → Bool}
    (hb : i.branch? = some (f, b, off)) (hbase : baseCycles.getD i.row 0 = 2) (hcond : cond s.cpu = (s.cpu.flag f == b)) :
    i.cycles s = (execBranch cond off s).loop.stepCycles := by
  rw [Instr.row] at hbase
  simp only [Instr.cycles, hb, hbase, execBranch, withCycles_stepCycles, branchCycles, hcond, beq_iff_eq]
  by_cases hpage : hi8 (s.cpu.pc + sext16 off) = hi8 s.cpu.pc <;> simp [hpage, bne, beq_eq_decide]

/-- An unofficial byte takes two cycles in the table too (R127). -/
theorem baseCycles_unofficial : ∀ n ∈ unofficialOpcodes, baseCycles.getD n 0 = 2 := by decide +kernel

/-- Every well-formed instruction answers a next state with the table's count: a row without an address has its base count, a
memory form adds the page cross, a branch its own rule. -/
theorem exec_cycles {i : Instr} (h : i.wf = true) (s : State) :
    ∃ t, exec i s = .next t ∧ i.cycles s = t.loop.stepCycles := by
  cases i with
  | lda src | adc src | sbc src | cmp src | and src | ora src | eor src =>
    cases src with
    | imm => exact ⟨_, rfl, rfl⟩
    | mem m =>
      cases m with
      | zpy => cases h
      | zp | zpx | abs | abx | aby | izx | izy => exact ⟨_, rfl, cycles_memory rfl rfl⟩
  | ldx src =>
    cases src with
    | imm => exact ⟨_, rfl, rfl⟩
    | mem m =>
      cases m with
      | zpx | abx | izx | izy => cases h
      | zp | zpy | abs | aby => exact ⟨_, rfl, cycles_memory rfl rfl⟩
  | ldy src =>
    cases src with
    | imm => exact ⟨_, rfl, rfl⟩
    | mem m =>
      cases m with
      | zpy | aby | izx | izy => cases h
      | zp | zpx | abs | abx => exact ⟨_, rfl, cycles_memory rfl rfl⟩
  | cpx src | cpy src =>
    cases src with
    | imm => exact ⟨_, rfl, rfl⟩
    | mem m =>
      cases m with
      | zpx | zpy | abx | aby | izx | izy => cases h
      | zp | abs => exact ⟨_, rfl, cycles_memory rfl rfl⟩
  | bit m =>
    cases m with
    | zpx | zpy | abx | aby | izx | izy => cases h
    | zp | abs => exact ⟨_, rfl, cycles_memory rfl rfl⟩
  | sta m =>
    cases m with
    | zpy => cases h
    | zp | zpx | abs | abx | aby | izx | izy => exact ⟨_, rfl, cycles_memory rfl rfl⟩
  | stx m =>
    cases m with
    | zpx | abx | aby | izx | izy => cases h
    | zp | zpy | abs => exact ⟨_, rfl, cycles_memory rfl rfl⟩
  | sty m =>
    cases m with
    | zpy | abx | aby | izx | izy => cases h
    | zp | zpx | abs => exact ⟨_, rfl, cycles_memory rfl rfl⟩
  | inc m | dec m =>
    cases m with
    | zpy | aby | izx | izy => cases h
    | zp | zpx | abs | abx => exact ⟨_, rfl, cycles_memory rfl rfl⟩
  | asl opd | lsr opd | rol opd | ror opd =>
    cases opd with
    | acc => exact ⟨_, rfl, rfl⟩
    | mem m =>
      cases m with
      | zpy | aby | izx | izy => cases h
      | zp | zpx | abs | abx => exact ⟨_, rfl, cycles_memory rfl rfl⟩
  | bcc | bne | bpl | bvc => exact ⟨_, rfl, cycles_branch rfl rfl (beq_false _).symm⟩
  | bcs | beq | bmi | bvs => exact ⟨_, rfl, cycles_branch rfl rfl (beq_true _).symm⟩
  | jmp target => cases target <;> exact ⟨_, rfl, rfl⟩
  | jsr | rts | rti | brk | pha | php | pla | plp | tax | tay | txa | tya | tsx | txs | inx | iny | dex | dey | clc | sec
    | cli | sei | cld | sed | clv | nop =>
    exact ⟨_, rfl, rfl⟩
  | nopStar op => exact ⟨_, rfl, baseCycles_unofficial _ (List.contains_iff_mem.1 h)⟩

/-- Settles O7: what each shape of instruction counts, form by form; an interrupt entry counts seven. -/
theorem cyclesFollowTheTable : Obligations.CyclesFollowTheTable := by
  refine ⟨fun i s t hwf h => ?_, fun _ _ => rfl⟩
  obtain ⟨u, hu, hcycles⟩ := exec_cycles hwf s
  obtain rfl : u = t := Host.Outcome.next.inj (hu.symm.trans h)
  exact hcycles.symm

end Sys2Proof
end

section
/-! PROOFS. Fetching (60_exceptions.md R300; 30_encoding.md R110, R111) and the step that runs what was fetched (R330). -/

namespace Sys2Proof.Machine

/-! ## Fetching -/

/-- The state with `pc` at `w`. -/
def State.atPc (s : State) (w : Word) : State := s.mapCpu fun c => { c with pc := w }

/-- A fetch is a bus read at `pc`, which moves on. -/
theorem fetch8_atPc (s : State) (w : Word) : fetch8 (s.atPc w) = ((busRead w s).1, (busRead w s).2.atPc (w + 1#16)) := by
  simp only [fetch8, State.atPc, mapCpu_cpu, busRead_mapCpu]
  rfl

theorem operandCount_le (op : Byte) : operandCount op ≤ 2 := by
  have hlen := decodeRow_length op 0#8 0#8
  rw [operandCount]
  omega

theorem atPc_of_cpu {s t : State} (h : t.cpu = s.cpu) (w : Word) : t.atPc w = { t with cpu := { s.cpu with pc := w } } := by
  rw [← h]
  rfl

/-- Fetching reads as many bytes as the instruction is long, in order, decodes them and leaves `pc` after them. -/
theorem fetchInstr_eq (s : State) :
    let op := busRead s.cpu.pc s
    let lo := busRead (s.cpu.pc + 1) op.2
    let hi := busRead (s.cpu.pc + 2) lo.2
    let i := decodeRow op.1 lo.1 hi.1
    let read := ([op, lo, hi].getD (i.length - 1) hi).2
    fetchInstr s = (i, { read with cpu := { s.cpu with pc := s.cpu.pc + BitVec.ofNat 16 i.length } }) := by
  intro op lo hi i
  have hop : fetch8 s = (op.1, op.2.atPc (s.cpu.pc + 1#16)) := fetch8_atPc s s.cpu.pc
  have hlo : fetch8 (op.2.atPc (s.cpu.pc + 1#16)) = (lo.1, lo.2.atPc (s.cpu.pc + 2#16)) := by
    rw [fetch8_atPc, BitVec.add_assoc]
    rfl
  have hhi : fetch8 (lo.2.atPc (s.cpu.pc + 2#16)) = (hi.1, hi.2.atPc (s.cpu.pc + 3#16)) := by
    rw [fetch8_atPc, BitVec.add_assoc]
    rfl
  have hcpu1 : op.2.cpu = s.cpu := busRead_cpu _ s
  have hcpu2 : lo.2.cpu = s.cpu := (busRead_cpu _ _).trans hcpu1
  have hcpu3 : hi.2.cpu = s.cpu := (busRead_cpu _ _).trans hcpu2
  have hlen : i.length = min (operandCount op.1 + 1) 3 := decodeRow_length ..
  have hle := operandCount_le op.1
  rw [hlen, fetchInstr]
  obtain h | h | h : operandCount op.1 = 0 ∨ operandCount op.1 = 1 ∨ operandCount op.1 = 2 := by omega
  · have hrow : i = decodeRow op.1 0#8 0#8 := decodeRow_congr (by rw [h]; rfl)
    simp [fetchIf, h, hop, hrow, atPc_of_cpu hcpu1]
  · have hrow : i = decodeRow op.1 lo.1 0#8 := decodeRow_congr (by rw [h]; rfl)
    simp [fetchIf, h, hop, hlo, hrow, atPc_of_cpu hcpu2]
  · simp [fetchIf, h, hop, hlo, hhi, i, atPc_of_cpu hcpu3]

/-- Three bytes are enough for every opcode byte (30_encoding.md R111). -/
theorem decode_three (op lo hi : Byte) :
    decode [op, lo, hi] = .ok (decodeRow op lo hi, [lo, hi].drop (operandCount op)) := by
  have hle : ¬[lo, hi].length < operandCount op := Nat.not_lt.2 (operandCount_le op)
  rw [decode, if_neg hle]
  rfl

/-- A read of a quiet address gives the byte and changes nothing (20_memory.md R83). -/
theorem busRead_eq_peek {a : Word} (h : quietAddr a) (s : State) : busRead a s = (peek a s, s) :=
  Prod.ext rfl (busRead_quiet h s)

/-- At memory-like addresses fetching changes `pc` alone. -/
theorem fetchInstr_quiet {s : State} {i : Instr} {rest : List Byte} (h0 : quietAddr s.cpu.pc)
    (h1 : quietAddr (s.cpu.pc + 1)) (h2 : quietAddr (s.cpu.pc + 2))
    (hdec : decode [peek s.cpu.pc s, peek (s.cpu.pc + 1) s, peek (s.cpu.pc + 2) s] = .ok (i, rest)) :
    fetchInstr s = (i, s.atPc (s.cpu.pc + BitVec.ofNat 16 i.length)) := by
  have hread (a b c : Byte) (n : Nat) : ([(a, s), (b, s), (c, s)].getD n (c, s)).2 = s :=
    match n with
    | 0 | 1 | 2 | _ + 3 => rfl
  rw [decode_three] at hdec
  obtain ⟨rfl, -⟩ := Prod.mk.inj (Except.ok.inj hdec)
  have h := fetchInstr_eq s
  simp only [busRead_eq_peek h0, busRead_eq_peek h1, busRead_eq_peek h2, hread] at h
  exact h

/-! ## The step -/

/-- Without an interrupt the CPU's step is the fetched instruction (60_exceptions.md R300). -/
theorem cpuStep_of_noInterrupt {s : State} (hnmi : s.cpu.nmiPending = false)
    (hirq : s.cpu.irqPending = false ∨ s.cpu.flag .I = true) : cpuStep s = exec (fetchInstr s).1 (fetchInstr s).2 := by
  have hirq' : (s.cpu.irqPending && !s.cpu.flag .I) = false := by
    obtain h | h := hirq <;> simp [h]
  rw [cpuStep_eq, hnmi, hirq']
  rfl

/-- A step is the CPU's step, the loop's catching up, and the end of the frame when it is done (R330, R335). -/
theorem step_of_cpuStep {s t : State}
    (h : cpuStep { s with loop := { s.loop with nmiDelayArmed := false } } = .next t) :
    step s = .next (if (catchUp Config.defaults s.loop.nmiDelayArmed t).2
      then endFrame (catchUp Config.defaults s.loop.nmiDelayArmed t).1
      else (catchUp Config.defaults s.loop.nmiDelayArmed t).1) := by
  rw [cpuStep] at h
  rw [step, stepWith, loopIteration, h]

/-- Settles O4: fetching by `fetchInstr_eq`; the step by the loop around the CPU's step, which without an interrupt is the
fetched instruction. -/
theorem stepRunsTheDecodedInstruction : Obligations.StepRunsTheDecodedInstruction := by
  intro s s0 caughtUp
  have hrun (hnmi : s.cpu.nmiPending = false) (hirq : s.cpu.irqPending = false ∨ s.cpu.flag .I = true) (t : State)
      (h : exec (fetchInstr s0).1 (fetchInstr s0).2 = .next t) : step s = .next (caughtUp t) :=
    step_of_cpuStep ((cpuStep_of_noInterrupt (s := s0) hnmi hirq).trans h)
  refine ⟨fetchInstr_eq s0, fun hnmi hirq => ⟨hrun hnmi hirq, fun i rest h0 h1 h2 hdec t h => hrun hnmi hirq t ?_⟩⟩
  have hpeek {a : Word} (ha : quietAddr a) : peek a s0 = peek a s := peek_same ha rfl rfl
  rw [← hpeek h0, ← hpeek h1, ← hpeek h2] at hdec
  rw [fetchInstr_quiet (s := s0) h0 h1 h2 hdec]
  exact h

end Sys2Proof.Machine
end

section
/-! PROOFS. The rows of the table that a statement lists by opcode byte (30_encoding.md R110, R125). -/

namespace Sys2Proof

open Sys2Proof.Machine

theorem encodes_form8 {op d : Byte} {i : Instr} (hn : operandCount op = 1) (hrow : ∀ hi, decodeRow op d hi = i) :
    encodes [op, d] i := by
  refine ⟨readsAs_form8 hn hrow [], ?_⟩
  rw [← hrow 0#8, encode_decodeRow, hn]
  rfl

theorem encodes_form16 {op lo hi : Byte} {i : Instr} (hn : operandCount op = 2) (hrow : decodeRow op lo hi = i) :
    encodes [op, lo, hi] i := by
  have hdec := decode_three op lo hi
  rw [hn, hrow] at hdec
  refine ⟨hdec, ?_⟩
  rw [← hrow, encode_decodeRow, hn]
  rfl

/-- Two-byte forms are encoded as listed when the decoder's rows, evaluated on any operand, are the listed ones. -/
theorem forms8_of_rows {fs : List (Byte × (Byte → Instr))}
    (h : ∀ d hi, fs.map (fun f => (operandCount f.1, decodeRow f.1 d hi)) = fs.map fun f => (1, f.2 d)) : forms8 fs := by
  intro f hf d
  have hrow (hi : Byte) := Prod.mk.inj (List.map_inj_left.1 (h d hi) f hf)
  exact encodes_form8 (hrow 0#8).1 fun hi => (hrow hi).2

/-- Three-byte forms are encoded as listed when the decoder's rows, evaluated on any operand, are the listed ones. -/
theorem forms16_of_rows {fs : List (Byte × (Word → Instr))}
    (h : ∀ lo hi, fs.map (fun f => (operandCount f.1, decodeRow f.1 lo hi)) = fs.map fun f => (2, f.2 (mkWord hi lo))) :
    forms16 fs := by
  intro f hf lo hi
  obtain ⟨hn, hrow⟩ := Prod.mk.inj (List.map_inj_left.1 (h lo hi) f hf)
  exact encodes_form16 hn hrow

end Sys2Proof
end

section
/-! PROOFS. Loads and stores (40_load_store.md), and the completion of the two shapes they have: a read of the operand, then
the CPU's registers; a write, then nothing. -/

namespace Sys2Proof.Machine

/-! ## Completion -/

/-- A well-formed instruction that changes the CPU alone after `base`, and counts its cycles, completes: the count can only be
the table's. -/
theorem completes_of_exec {i : Instr} {s base t : State} {n : Nat} {P : Cpu → Prop} (hwf : i.wf = true)
    (hexec : exec i s = .next (t.withCycles n)) (hbase : t = { base with cpu := t.cpu }) (hP : P t.cpu) :
    completes i s base P := by
  have hn : n = i.cycles s := cyclesFollowTheTable.1 i s _ hwf hexec
  refine ⟨_, hexec, ?_, hP⟩
  rw [← hn, hbase]
  rfl

/-- A reading form completes after its data read. -/
theorem execRead_completes {i : Instr} {s : State} {f : Cpu → Byte → Cpu} {src : Source} {P : Cpu → Prop} (hwf : i.wf = true)
    (hexec : exec i s = .next (execRead f src s)) (hP : P (f s.cpu (src.value s))) : completes i s (src.after s) P := by
  rw [execRead_eq] at hexec
  exact completes_of_exec hwf hexec rfl hP

/-- A storing form completes after its write, with the CPU as it was. -/
theorem execStore_completes {i : Instr} {s : State} {f : Cpu → Byte} {m : Addr} (hwf : i.wf = true)
    (hexec : exec i s = .next (execStore f m s)) :
    completes i s (busWrite (m.ea s) (f s.cpu) s) fun d => d = s.cpu := by
  rw [execStore_eq] at hexec
  exact completes_of_exec hwf hexec rfl (busWrite_cpu ..)

/-! ## Loads and stores -/

theorem setsZN_setZN (c : Cpu) (v : Byte) : setsZN v (c.setZN v) := by
  constructor
  · rw [flag_setZN, beq_eq_decide]
  · rw [flag_setZN]
    rfl

/-- Settles O8: the rows of the three loads, and for each the completion of a reading form that puts the byte into one register
and sets Z and N from it. -/
theorem loadsReplaceOneRegister : Obligations.LoadsReplaceOneRegister := by
  refine ⟨⟨forms8_of_rows fun _ _ => rfl, forms16_of_rows fun _ _ => rfl⟩, forms8_of_rows fun _ _ => rfl,
    forms16_of_rows fun _ _ => rfl, forms8_of_rows fun _ _ => rfl, forms16_of_rows fun _ _ => rfl, fun src s => ⟨?_, ?_, ?_⟩⟩
  all_goals
    intro hwf
    exact execRead_completes hwf rfl ⟨rfl, setsZN_setZN _ _, flagsKept_setZN rfl _⟩

/-- Settles O9: the rows of the three stores, and for each the completion of a storing form. -/
theorem storesWriteOneByte : Obligations.StoresWriteOneByte :=
  ⟨forms8_of_rows fun _ _ => rfl, forms16_of_rows fun _ _ => rfl, forms8_of_rows fun _ _ => rfl,
    forms16_of_rows fun _ _ => rfl, forms8_of_rows fun _ _ => rfl, forms16_of_rows fun _ _ => rfl,
    fun _ _ => ⟨fun hwf => execStore_completes hwf rfl, fun hwf => execStore_completes hwf rfl,
      fun hwf => execStore_completes hwf rfl⟩⟩

end Sys2Proof.Machine
end

section
/-! PROOFS. The register transfers and the stack instructions (41_transfer_stack.md), and the completion of the three shapes
they have: registers alone; one push; one pull, then the CPU's registers. -/

namespace Sys2Proof

open Sys2Proof.Machine

/-- A well-formed instruction's bytes are its encoding (30_encoding.md R110, R125). -/
theorem encodes_of_wf {bs : List Byte} {i : Instr} (hwf : i.wf = true) (hbs : encode i = bs) : encodes bs i := by
  have hread := readsAs_encode hwf []
  rw [hbs, List.append_nil] at hread
  exact ⟨hread, hbs⟩

end Sys2Proof

namespace Sys2Proof.Machine

/-! ## Completion -/

/-- An instruction on registers and flags alone completes with every memory and device as it was. -/
theorem execImplied_completes {i : Instr} {s : State} {f : Cpu → Cpu} {P : Cpu → Prop} (hwf : i.wf = true)
    (hexec : exec i s = .next (execImplied f s)) (hP : P (f s.cpu)) : completes i s s P :=
  completes_of_exec (t := s.mapCpu f) hwf hexec rfl hP

/-- A pushing instruction completes with one byte of the stack replaced and `sp` one lower (00_scope.md R11). -/
theorem push_completes {i : Instr} {s : State} {v : Byte} {n : Nat} (hwf : i.wf = true)
    (hexec : exec i s = .next ((push v s).withCycles n)) :
    completes i s (s.setRam (0x100 + s.cpu.sp.toNat) v) fun d => d = { s.cpu with sp := s.cpu.sp - 1 } := by
  rw [push_eq] at hexec
  exact completes_of_exec hwf hexec rfl rfl

/-- A pulling instruction completes with `sp` one higher and what it makes of the byte there (00_scope.md R11). -/
theorem pull_completes {i : Instr} {s : State} (f : Byte → Cpu → Cpu) {n : Nat} {P : Cpu → Prop} (hwf : i.wf = true)
    (hexec : exec i s = .next (((pull s).2.mapCpu (f (pull s).1)).withCycles n))
    (hP : P (f (s.stackByte (s.cpu.sp + 1)) { s.cpu with sp := s.cpu.sp + 1 })) : completes i s s P := by
  rw [pull_eq] at hexec
  exact completes_of_exec hwf hexec rfl hP

/-! ## Transfers and stack instructions -/

/-- Settles O10: each transfer is an instruction on registers alone; all but TXS set Z and N from the byte moved. -/
theorem transfersMoveOneRegister : Obligations.TransfersMoveOneRegister := by
  refine ⟨encodes_of_wf rfl rfl, encodes_of_wf rfl rfl, encodes_of_wf rfl rfl, encodes_of_wf rfl rfl, encodes_of_wf rfl rfl,
    encodes_of_wf rfl rfl, fun s => ⟨?tax, ?tay, ?txa, ?tya, ?tsx, ?txs⟩⟩
  case txs => exact execImplied_completes rfl rfl rfl
  all_goals exact execImplied_completes rfl rfl ⟨rfl, setsZN_setZN _ _, flagsKept_setZN rfl _⟩

/-- The status byte PHP pushes: B and U are set (R167). -/
theorem pushedP_true (p : Byte) : pushedP p true = p ||| 0x30#8 := by
  apply status_ext
  intro f
  rw [getFlag_pushedP]
  cases f <;> simp [getFlag, Flag.index]

/-- Settles O11: PHA and PHP are one push, PLA and PLP one pull; the flags PLP leaves are those of the pulled status. -/
theorem stackBytes : Obligations.StackBytes := by
  refine ⟨encodes_of_wf rfl rfl, encodes_of_wf rfl rfl, encodes_of_wf rfl rfl, encodes_of_wf rfl rfl,
    fun s => ⟨?pha, ?php, ?pla, ?plp⟩⟩
  case pha => exact push_completes rfl rfl
  case php =>
    have h := push_completes (i := .php) (s := s) (v := pushedP s.cpu.p true) rfl rfl
    rw [pushedP_true] at h
    exact h
  case pla =>
    exact pull_completes (fun v c => Cpu.setZN { c with a := v } v) rfl rfl
      ⟨rfl, setsZN_setZN _ _, flagsKept_setZN rfl _⟩
  case plp =>
    refine pull_completes (fun v c => { c with p := pulledP c.p v }) rfl rfl
      ⟨rfl, fun f hf => ?_, getFlag_pulledP _ _ .B, getFlag_pulledP _ _ .U⟩
    refine (getFlag_pulledP _ _ f).trans ?_
    cases f with
    | B | U => simp at hf
    | C | Z | I | D | V | N => rfl

end Sys2Proof.Machine
end

section
/-! PROOFS. ADC and SBC (42_arithmetic.md R180, R181): the sum as a number, the overflow as the signed sum that leaves
-128..127, and SBC as the sum of `a` and the operand's complement. -/

namespace Sys2Proof.Machine

/-! ## The sum -/

/-- The carry is the ninth bit of the sum (R180). -/
theorem addWithCarry_toNat (c : Cpu) (m : Byte) :
    (c.addWithCarry m).a.toNat + 256 * ((c.addWithCarry m).flag .C).toNat = c.a.toNat + m.toNat + (c.flag .C).toNat := by
  have hcarry := (c.flag .C).toNat_le
  have hC : (c.addWithCarry m).flag .C = decide (255 < sumWithCarry c.a m (c.flag .C)) := flag_addWithCarry ..
  rw [hC, addWithCarry_a, BitVec.toNat_ofNat, sumWithCarry]
  by_cases hover : 255 < c.a.toNat + m.toNat + (c.flag .C).toNat
  · rw [decide_eq_true hover, Bool.toNat_true]
    omega
  · rw [decide_eq_false hover, Bool.toNat_false]
    omega

/-- Bit 7 of the overflow formula: `a` and `m` agree in sign, and the result's sign differs from theirs (R180). -/
theorem overflowed_eq_msb (a m r : Byte) : overflowed a m r = ((a.msb == m.msb) && (r.msb != a.msb)) := by
  have hbit7 : ∀ v : Byte, (v &&& 0x80#8 != 0#8) = v.msb := by decide
  have hxor : ∀ x y z : Bool, (!(x ^^ y) && (x ^^ z)) = ((x == y) && (z != x)) := by decide
  rw [overflowed, hbit7, BitVec.msb_and, BitVec.msb_not, BitVec.msb_xor, BitVec.msb_xor]
  exact hxor _ _ _

/-- A sum's sign is wrong exactly when the signed sum leaves -128..127. -/
theorem msb_overflow_eq_range {a m r : Byte} {c carry : Bool}
    (h : r.toNat + 256 * carry.toNat = a.toNat + m.toNat + c.toNat) :
    ((a.msb == m.msb) && (r.msb != a.msb))
      = decide (¬(-128 ≤ a.toInt + m.toInt + c.toNat ∧ a.toInt + m.toInt + c.toNat ≤ 127)) := by
  have hc := c.toNat_le
  have hcarry := carry.toNat_le
  have ha := a.isLt
  have hm := m.isLt
  have hr := r.isLt
  rw [Bool.eq_iff_iff]
  simp only [BitVec.msb_eq_decide, BitVec.toInt_eq_toNat_cond, Bool.and_eq_true, beq_iff_eq, bne_iff_ne, ne_eq,
    decide_eq_decide, decide_eq_true_eq]
  omega

theorem addWithCarry_overflow_msb (c : Cpu) (m : Byte) :
    (c.addWithCarry m).flag .V = ((c.a.msb == m.msb) && ((c.addWithCarry m).a.msb != c.a.msb)) := by
  rw [flag_addWithCarry]
  exact overflowed_eq_msb ..

theorem addWithCarry_overflow_range (c : Cpu) (m : Byte) :
    (c.addWithCarry m).flag .V
      = decide (¬(-128 ≤ c.a.toInt + m.toInt + (c.flag .C).toNat ∧ c.a.toInt + m.toInt + (c.flag .C).toNat ≤ 127)) :=
  (addWithCarry_overflow_msb c m).trans (msb_overflow_eq_range (addWithCarry_toNat c m))

theorem setsZN_addWithCarry (c : Cpu) (m : Byte) : setsZN (c.addWithCarry m).a (c.addWithCarry m) := setsZN_setZN _ _

/-- Settles O12: a reading form whose sum, carry and overflow the lemmas above give. -/
theorem adcAddsWithCarry : Obligations.AdcAddsWithCarry :=
  ⟨⟨forms8_of_rows fun _ _ => rfl, forms16_of_rows fun _ _ => rfl⟩, fun _ _ hwf =>
    execRead_completes hwf rfl ⟨addWithCarry_frame _ _, addWithCarry_toNat _ _, addWithCarry_overflow_msb _ _,
      addWithCarry_overflow_range _ _, setsZN_addWithCarry _ _, flagsKept_addWithCarry _ _⟩⟩

/-! ## The difference -/

/-- The borrow is one less the carry (R181). -/
theorem toNat_not_add_toNat (b : Bool) : (!b).toNat + b.toNat = 1 := by cases b <;> rfl

/-- SBC adds the complement (R181). -/
theorem subWithBorrow_eq (c : Cpu) (m : Byte) : c.subWithBorrow m = c.addWithCarry (~~~m) := by
  rw [Cpu.subWithBorrow, show (0xFF#8 : Byte) = BitVec.allOnes 8 from rfl, BitVec.xor_allOnes]

/-- The complement of `m` is `255 - m`, and the borrow is one less the carry, before and after. -/
theorem subWithBorrow_toNat (c : Cpu) (m : Byte) :
    (c.subWithBorrow m).a.toNat + m.toNat + (!c.flag .C).toNat
      = c.a.toNat + 256 * (!(c.subWithBorrow m).flag .C).toNat := by
  have h := addWithCarry_toNat c (~~~m)
  have hm := m.isLt
  have hin := toNat_not_add_toNat (c.flag .C)
  have hout := toNat_not_add_toNat ((c.addWithCarry (~~~m)).flag .C)
  rw [BitVec.toNat_not] at h
  rw [subWithBorrow_eq]
  omega

theorem subWithBorrow_overflow_msb (c : Cpu) (m : Byte) :
    (c.subWithBorrow m).flag .V = ((c.a.msb != m.msb) && ((c.subWithBorrow m).a.msb != c.a.msb)) := by
  have hdiffer : ∀ x y : Bool, (x == !y) = (x != y) := by decide
  rw [subWithBorrow_eq, addWithCarry_overflow_msb, BitVec.msb_not]
  exact congrArg (· && _) (hdiffer _ _)

/-- As a signed number the complement of `m` is `-m - 1`, and `C - 1` is less the borrow. -/
theorem subWithBorrow_overflow_range (c : Cpu) (m : Byte) :
    (c.subWithBorrow m).flag .V
      = decide (¬(-128 ≤ c.a.toInt - m.toInt - (!c.flag .C).toNat ∧ c.a.toInt - m.toInt - (!c.flag .C).toNat ≤ 127)) := by
  have hcomplement : (~~~m).toInt = -m.toInt - 1 := by
    have hm := m.isLt
    rw [BitVec.toInt_eq_toNat_cond, BitVec.toInt_eq_toNat_cond, BitVec.toNat_not]
    omega
  have hsum : c.a.toInt + (~~~m).toInt + (c.flag .C).toNat = c.a.toInt - m.toInt - (!c.flag .C).toNat := by
    have hborrow := toNat_not_add_toNat (c.flag .C)
    omega
  rw [subWithBorrow_eq, addWithCarry_overflow_range, hsum]

/-- Settles O13: SBC is the sum of the complement, read as a difference. -/
theorem sbcSubtractsWithBorrow : Obligations.SbcSubtractsWithBorrow :=
  ⟨⟨forms8_of_rows fun _ _ => rfl, forms16_of_rows fun _ _ => rfl⟩, fun _ _ hwf =>
    execRead_completes hwf rfl ⟨addWithCarry_frame _ _, subWithBorrow_toNat _ _, subWithBorrow_overflow_msb _ _,
      subWithBorrow_overflow_range _ _, setsZN_addWithCarry _ _, flagsKept_addWithCarry _ _⟩⟩

end Sys2Proof.Machine
end

section
/-! PROOFS. A change of the CPU that no addressing mode sees and that commutes with a reading form's effect commutes with the
instruction; replacing D is such a change for ADC and SBC (42_arithmetic.md R180, R181). -/

namespace Sys2Proof.Machine

section Commuting
variable {f : Cpu → Cpu} (hx : ∀ c, (f c).x = c.x) (hy : ∀ c, (f c).y = c.y)
include hx hy

/-- The addressing modes read no register but the two indices (30_encoding.md R115-R123). -/
theorem resolve_mapCpu (m : Addr) (s : State) :
    resolve m (s.mapCpu f) = { resolve m s with state := (resolve m s).state.mapCpu f } := by
  cases m <;> simp [resolve, resolvedAt, resolvedIndexed, read16zp_eq, hx, hy]

theorem readSource_mapCpu (src : Source) (s : State) :
    readSource src (s.mapCpu f) = { readSource src s with state := (readSource src s).state.mapCpu f } := by
  cases src with
  | imm v => rfl
  | mem m => simp only [readSource, resolve_mapCpu hx hy, busRead_mapCpu]

theorem execRead_mapCpu {g : Cpu → Byte → Cpu} (hcomm : ∀ c v, g (f c) v = f (g c v)) (src : Source) (s : State) :
    execRead g src (s.mapCpu f) = (execRead g src s).mapCpu f := by
  simp only [execRead, readSource_mapCpu hx hy, mapCpu_mapCpu, hcomm]
  rfl

end Commuting

/-- The sum reads no flag but C and does not write D. -/
theorem addWithCarry_withFlag_D (c : Cpu) (m : Byte) (b : Bool) :
    (c.withFlag .D b).addWithCarry m = (c.addWithCarry m).withFlag .D b := by
  have ha : ((c.withFlag .D b).addWithCarry m).a = (c.addWithCarry m).a := by simp
  have hflags (g : Flag) : ((c.withFlag .D b).addWithCarry m).flag g = ((c.addWithCarry m).withFlag .D b).flag g := by
    rw [flag_withFlag, flag_addWithCarry, flag_addWithCarry, ha]
    cases g <;> simp
  have hp : ((c.withFlag .D b).addWithCarry m).p = ((c.addWithCarry m).withFlag .D b).p := status_ext hflags
  rw [addWithCarry_frame, ha, hp]
  rfl

theorem subWithBorrow_withFlag_D (c : Cpu) (m : Byte) (b : Bool) :
    (c.withFlag .D b).subWithBorrow m = (c.subWithBorrow m).withFlag .D b := addWithCarry_withFlag_D c _ b

/-- A reading form whose effect commutes with a change of D does not read D. -/
theorem execRead_ignores_D {g : Cpu → Byte → Cpu} (hcomm : ∀ c v b, g (c.withFlag .D b) v = (g c v).withFlag .D b)
    {i : Instr} {src : Source} (hexec : ∀ s, exec i s = .next (execRead g src s)) {s t : State} {b : Bool}
    (h : exec i s = .next t) :
    exec i (s.mapCpu fun c => c.withFlag .D b) = .next (t.mapCpu fun c => c.withFlag .D b) := by
  obtain rfl : execRead g src s = t := Host.Outcome.next.inj ((hexec s).symm.trans h)
  rw [hexec, execRead_mapCpu (f := fun c => c.withFlag .D b) (fun _ => rfl) (fun _ => rfl) fun c v => hcomm c v b]

/-- Settles O14: both are reading forms whose sum commutes with a change of D. -/
theorem adcAndSbcIgnoreDecimal : Obligations.AdcAndSbcIgnoreDecimal := fun _ _ _ _ =>
  ⟨execRead_ignores_D addWithCarry_withFlag_D fun _ => rfl, execRead_ignores_D subWithBorrow_withFlag_D fun _ => rfl⟩

end Sys2Proof.Machine
end

section
/-! PROOFS. The compares (42_arithmetic.md R182-R184), the increments and decrements (R185-R190), and the completion of the
read-modify-write shape. -/

namespace Sys2Proof.Machine

/-! ## Compares -/

/-- C, Z and N of a comparison, and the frame (R182). -/
theorem compare_spec (c : Cpu) (r m : Byte) :
    c.compare r m = { c with p := (c.compare r m).p }
      ∧ (c.compare r m).flag .C = decide (m.toNat ≤ r.toNat) ∧ (c.compare r m).flag .Z = decide (r = m)
      ∧ (c.compare r m).flag .N = (r - m).getLsbD 7 ∧ flagsKept [.C, .Z, .N] c (c.compare r m) := by
  have hzero : r - m = 0#8 ↔ r = m := sub_eq_zero
  refine ⟨rfl, ?_, ?_, ?_, flagsKept_compare c r m⟩
  · rw [flag_compare]
    rfl
  · rw [flag_compare, beq_eq_decide, decide_eq_decide]
    exact hzero
  · rw [flag_compare]
    rfl

/-- Settles O15: the rows of the three compares, and for each a reading form whose effect is the comparison. -/
theorem comparesSetOnlyFlags : Obligations.ComparesSetOnlyFlags :=
  ⟨⟨forms8_of_rows fun _ _ => rfl, forms16_of_rows fun _ _ => rfl⟩,
    ⟨forms8_of_rows fun _ _ => rfl, forms16_of_rows fun _ _ => rfl⟩,
    ⟨forms8_of_rows fun _ _ => rfl, forms16_of_rows fun _ _ => rfl⟩,
    fun _ _ => ⟨fun hwf => execRead_completes hwf rfl (compare_spec ..),
      fun hwf => execRead_completes hwf rfl (compare_spec ..), fun hwf => execRead_completes hwf rfl (compare_spec ..)⟩⟩

/-! ## Increments and decrements -/

/-- A read-modify-write completes after one read and one write of the same address, with the flags it sets. -/
theorem execModify_completes {i : Instr} {s : State} {op : Byte → Bool → Byte × Bool} {flags : Cpu → Byte × Bool → Cpu}
    {m : Addr} {r : Byte} {carry : Bool} {P : Cpu → Prop} (hwf : i.wf = true)
    (hexec : exec i s = .next (execModify op flags m s))
    (hop : op (peek (m.ea s) s) (s.cpu.flag .C) = (r, carry)) (hP : P (flags s.cpu (r, carry))) :
    completes i s (busWrite (m.ea s) r (busRead (m.ea s) s).2) P := by
  rw [execModify_eq, hop] at hexec
  exact completes_of_exec hwf hexec rfl hP

theorem add_one_eq_ofNat (v : Byte) : v + 1#8 = BitVec.ofNat 8 (v.toNat + 1) :=
  BitVec.eq_of_toNat_eq rfl

theorem sub_one_eq_ofNat (v : Byte) : v - 1#8 = BitVec.ofNat 8 (v.toNat + 255) := by
  apply BitVec.eq_of_toNat_eq
  rw [BitVec.toNat_sub, BitVec.toNat_ofNat, Nat.add_comm]
  rfl

/-- Settles O16: four instructions on registers alone and two read-modify-writes; one up and one down are the sums with 1 and
255. -/
theorem incrementsAndDecrements : Obligations.IncrementsAndDecrements := by
  refine ⟨⟨forms8_of_rows fun _ _ => rfl, forms16_of_rows fun _ _ => rfl⟩,
    ⟨forms8_of_rows fun _ _ => rfl, forms16_of_rows fun _ _ => rfl⟩, encodes_of_wf rfl rfl, encodes_of_wf rfl rfl,
    encodes_of_wf rfl rfl, encodes_of_wf rfl rfl, fun s => ?_⟩
  simp only [← add_one_eq_ofNat, ← sub_one_eq_ofNat]
  refine ⟨?inx, ?iny, ?dex, ?dey, fun m => ⟨fun hwf => ?inc, fun hwf => ?dec⟩⟩
  case inc | dec => exact execModify_completes hwf rfl rfl ⟨rfl, setsZN_setZN _ _, flagsKept_setZN rfl _⟩
  all_goals exact execImplied_completes rfl rfl ⟨rfl, setsZN_setZN _ _, flagsKept_setZN rfl _⟩

end Sys2Proof.Machine
end

section
/-! PROOFS. AND, ORA, EOR and BIT (43_logic_shift.md R200-R203), and the shifts and rotates (R204-R207): each result as a number,
and the completion of the shift shape on the accumulator and on memory. -/

namespace Sys2Proof.Machine

/-! ## Logic -/

/-- Z, N and V of a bit test, and the frame (R203). -/
theorem testBits_spec (c : Cpu) (m : Byte) :
    c.testBits m = { c with p := (c.testBits m).p }
      ∧ (c.testBits m).flag .Z = decide (c.a &&& m = 0) ∧ (c.testBits m).flag .N = m.getLsbD 7
      ∧ (c.testBits m).flag .V = m.getLsbD 6 ∧ flagsKept [.Z, .N, .V] c (c.testBits m) := by
  refine ⟨rfl, ?_, ?_, ?_, fun g hg => flagsKept_testBits c m g fun hmem => hg ?_⟩
  · rw [flag_testBits, beq_eq_decide]
    rfl
  · rw [flag_testBits]
    rfl
  · rw [flag_testBits]
    rfl
  · simpa [or_comm] using hmem

/-- Settles O17: AND, ORA and EOR are reading forms that put a byte into `a` and set Z and N from it, BIT is one whose effect is
the bit test. -/
theorem logicAndBitTest : Obligations.LogicAndBitTest := by
  refine ⟨⟨forms8_of_rows fun _ _ => rfl, forms16_of_rows fun _ _ => rfl⟩,
    ⟨forms8_of_rows fun _ _ => rfl, forms16_of_rows fun _ _ => rfl⟩,
    ⟨forms8_of_rows fun _ _ => rfl, forms16_of_rows fun _ _ => rfl⟩,
    forms8_of_rows fun _ _ => rfl, forms16_of_rows fun _ _ => rfl,
    fun _ _ => ⟨fun hwf => ?and, fun hwf => ?ora, fun hwf => ?eor⟩, fun m _ hwf => ?bit⟩
  case bit => exact execRead_completes (src := .mem m) hwf rfl (testBits_spec ..)
  all_goals exact execRead_completes hwf rfl ⟨rfl, setsZN_setZN _ _, flagsKept_setZN rfl _⟩

/-! ## The results of the shifts -/

theorem eq_ofNat_of_toNat_eq {v : Byte} {n : Nat} (h : v.toNat = n) : v = BitVec.ofNat 8 n := by
  rw [← h, BitVec.ofNat_toNat, BitVec.setWidth_eq]

theorem toNat_bit8 (b : Bool) : (bit8 b).toNat = b.toNat := by cases b <;> rfl

theorem toNat_shiftLeft_one (v : Byte) : (v <<< 1).toNat = 2 * v.toNat % 256 := by
  rw [BitVec.toNat_shiftLeft, Nat.shiftLeft_eq, Nat.mul_comm]

theorem toNat_ushiftRight_one (v : Byte) : (v >>> 1).toNat = v.toNat / 2 := by
  rw [BitVec.toNat_ushiftRight, Nat.shiftRight_eq_div_pow]

theorem shiftAsl_eq (v : Byte) (c : Bool) : shiftAsl v c = (BitVec.ofNat 8 (2 * v.toNat % 256), v.getLsbD 7) :=
  congrArg (·, bitOf v 7) (eq_ofNat_of_toNat_eq (toNat_shiftLeft_one v))

theorem shiftLsr_eq (v : Byte) (c : Bool) : shiftLsr v c = (BitVec.ofNat 8 (v.toNat / 2), v.getLsbD 0) :=
  congrArg (·, bitOf v 0) (eq_ofNat_of_toNat_eq (toNat_ushiftRight_one v))

/-- The carry enters at bit 0, which the shift left clears (R206). -/
theorem shiftRol_eq (v : Byte) (c : Bool) : shiftRol v c = (BitVec.ofNat 8 (2 * v.toNat % 256 + c.toNat), v.getLsbD 7) := by
  have hcarry : c.toNat < 2 ^ 1 := c.toNat_lt
  have hsum : (v <<< 1 ||| bit8 c).toNat = 2 * v.toNat % 256 + c.toNat := by
    rw [BitVec.toNat_or, toNat_bit8, toNat_shiftLeft_one, show 2 * v.toNat % 256 = 2 ^ 1 * (v.toNat % 128) by omega,
      Nat.two_pow_add_eq_or_of_lt hcarry]
  exact congrArg (·, bitOf v 7) (eq_ofNat_of_toNat_eq hsum)

/-- The carry enters at bit 7, which the shift right clears (R207). -/
theorem shiftRor_eq (v : Byte) (c : Bool) : shiftRor v c = (BitVec.ofNat 8 (v.toNat / 2 + 128 * c.toNat), v.getLsbD 0) := by
  have hhalf : v.toNat / 2 < 2 ^ 7 := by
    have := v.isLt
    omega
  have hcarry : (bit8 c <<< 7).toNat = 2 ^ 7 * c.toNat := by cases c <;> rfl
  have hsum : (v >>> 1 ||| bit8 c <<< 7).toNat = v.toNat / 2 + 128 * c.toNat := by
    rw [BitVec.toNat_or, hcarry, toNat_ushiftRight_one, Nat.or_comm, ← Nat.two_pow_add_eq_or_of_lt hhalf, Nat.add_comm]
  exact congrArg (·, bitOf v 0) (eq_ofNat_of_toNat_eq hsum)

/-! ## The completion of the shifts -/

/-- C, Z and N after a shift, and the frame (43_logic_shift.md, common frame). -/
theorem shiftFlags_spec (c : Cpu) (r : Byte) (carry : Bool) :
    c.shiftFlags (r, carry) = { c with p := (c.shiftFlags (r, carry)).p }
      ∧ (c.shiftFlags (r, carry)).flag .C = carry ∧ setsZN r (c.shiftFlags (r, carry))
      ∧ flagsKept [.C, .Z, .N] c (c.shiftFlags (r, carry)) :=
  ⟨rfl, flag_shiftFlags c (r, carry) .C, setsZN_setZN _ _, flagsKept_shiftFlags _ _⟩

/-- A shift of the accumulator completes with the result in `a` and no bus access, a shift of memory after one read and one write
of the same address (43_logic_shift.md, common frame). -/
theorem execShift_completes {mk : ShiftOperand → Instr} {op : Byte → Bool → Byte × Bool} {s : State} (result : Nat → Nat)
    (out : Nat) (hexec : ∀ opd, exec (mk opd) s = .next (execShift op opd s))
    (hop : ∀ v, op v (s.cpu.flag .C) = (BitVec.ofNat 8 (result v.toNat), v.getLsbD out)) (hacc : (mk .acc).wf = true) :
    (completes (mk .acc) s s fun d =>
      d = { s.cpu with a := BitVec.ofNat 8 (result s.cpu.a.toNat), p := d.p } ∧ d.flag .C = s.cpu.a.getLsbD out
        ∧ setsZN (BitVec.ofNat 8 (result s.cpu.a.toNat)) d ∧ flagsKept [.C, .Z, .N] s.cpu d)
    ∧ ∀ m : Addr, (mk (.mem m)).wf = true →
      completes (mk (.mem m)) s
        (busWrite (m.ea s) (BitVec.ofNat 8 (result (peek (m.ea s) s).toNat)) (busRead (m.ea s) s).2) fun d =>
          d = { s.cpu with p := d.p } ∧ d.flag .C = (peek (m.ea s) s).getLsbD out
            ∧ setsZN (BitVec.ofNat 8 (result (peek (m.ea s) s).toNat)) d ∧ flagsKept [.C, .Z, .N] s.cpu d := by
  refine ⟨?acc, fun m hwf => ?mem⟩
  case acc =>
    refine execImplied_completes (f := fun c => { c.shiftFlags (op c.a (c.flag .C)) with a := (op c.a (c.flag .C)).1 })
      hacc (hexec .acc) ?_
    rw [hop]
    exact ⟨rfl, (shiftFlags_spec ..).2⟩
  case mem => exact execModify_completes hwf (hexec (.mem m)) (hop _) (shiftFlags_spec ..)

/-- Settles O18: the rows of the four shifts, and for each the shift shape with its result as a number. -/
theorem shiftsAndRotates : Obligations.ShiftsAndRotates := by
  refine ⟨⟨encodes_of_wf rfl rfl, forms8_of_rows fun _ _ => rfl, forms16_of_rows fun _ _ => rfl⟩,
    ⟨encodes_of_wf rfl rfl, forms8_of_rows fun _ _ => rfl, forms16_of_rows fun _ _ => rfl⟩,
    ⟨encodes_of_wf rfl rfl, forms8_of_rows fun _ _ => rfl, forms16_of_rows fun _ _ => rfl⟩,
    ⟨encodes_of_wf rfl rfl, forms8_of_rows fun _ _ => rfl, forms16_of_rows fun _ _ => rfl⟩,
    fun s => ⟨?asl, ?lsr, ?rol, ?ror⟩⟩
  case asl => exact execShift_completes (mk := .asl) (fun v => 2 * v % 256) 7 (fun _ => rfl) (shiftAsl_eq · _) rfl
  case lsr => exact execShift_completes (mk := .lsr) (fun v => v / 2) 0 (fun _ => rfl) (shiftLsr_eq · _) rfl
  case rol =>
    exact execShift_completes (mk := .rol) (fun v => 2 * v % 256 + (s.cpu.flag .C).toNat) 7 (fun _ => rfl) (shiftRol_eq · _) rfl
  case ror =>
    exact execShift_completes (mk := .ror) (fun v => v / 2 + 128 * (s.cpu.flag .C).toNat) 0 (fun _ => rfl) (shiftRor_eq · _) rfl

end Sys2Proof.Machine
end

section
/-! PROOFS. The stack as the control-flow instructions use it (00_scope.md R11, 10_state.md R23): words pushed and pulled, the
three bytes of an exception, and what a slot holds after them. -/

namespace Sys2Proof.Machine

/-! ## Slots -/

/-- A slot holds the byte written to it last; every other slot is as it was. -/
@[simp] theorem stackByte_setRam (s : State) (sp slot : Byte) (v : Byte) :
    (s.setRam (0x100 + sp.toNat) v).stackByte slot = if slot = sp then v else s.stackByte slot := by
  have hslot : 0x100 + slot.toNat = 0x100 + sp.toNat ↔ slot = sp := by
    rw [Nat.add_left_cancel_iff, BitVec.toNat_inj]
  rw [State.stackByte, State.setRam, Memory.read_write]
  simp only [hslot]
  rfl

@[simp] theorem stackByte_mapCpu (s : State) (f : Cpu → Cpu) (slot : Byte) :
    (s.mapCpu f).stackByte slot = s.stackByte slot := rfl

@[simp] theorem stackByte_withCycles (s : State) (n : Nat) (slot : Byte) :
    (s.withCycles n).stackByte slot = s.stackByte slot := rfl

theorem stackByte_congr {s t : State} (h : t.bus.ram = s.bus.ram) (slot : Byte) : t.stackByte slot = s.stackByte slot :=
  congrArg (fun m => Memory.read m (0x100 + slot.toNat)) h

@[simp] theorem setRam_cpu (s : State) (k : Nat) (v : Byte) : (s.setRam k v).cpu = s.cpu := rfl

theorem setRam_mapCpu (s : State) (f : Cpu → Cpu) (k : Nat) (v : Byte) :
    (s.mapCpu f).setRam k v = (s.setRam k v).mapCpu f := rfl

theorem push_setRam (v : Byte) (s : State) :
    push v s = (s.setRam (0x100 + s.cpu.sp.toNat) v).mapCpu fun c => { c with sp := c.sp - 1#8 } := push_eq v s

theorem pull_stackByte (s : State) :
    pull s = (s.stackByte (s.cpu.sp + 1#8), s.mapCpu fun c => { c with sp := c.sp + 1#8 }) := pull_eq s

/-! ## Words on the stack -/

/-- A pushed word: its high byte in the slot at `sp`, its low byte in the one below (R11). -/
theorem push16_eq (w : Word) (s : State) : push16 w s =
    ((s.setRam (0x100 + s.cpu.sp.toNat) (hi8 w)).setRam (0x100 + (s.cpu.sp - 1#8).toNat) (lo8 w)).mapCpu
      fun c => { c with sp := c.sp - 2#8 } := by
  simp only [push16, push_setRam, setRam_mapCpu, mapCpu_mapCpu, mapCpu_cpu, setRam_cpu, sub_sub]
  rfl

/-- A pulled word: its low byte from the slot above `sp`, its high byte from the next (R11). -/
theorem pull16_eq (s : State) : pull16 s =
    (mkWord (s.stackByte (s.cpu.sp + 2#8)) (s.stackByte (s.cpu.sp + 1#8)),
      s.mapCpu fun c => { c with sp := c.sp + 2#8 }) := by
  simp only [pull16, pull_stackByte, mapCpu_mapCpu, mapCpu_cpu, add_assoc]
  rfl

/-! ## Exceptions -/

/-- An exception's frame on the stack: the return address, high byte first, then a status byte (60_exceptions.md R304). -/
def State.pushFrame (s : State) (ret : Word) (status : Byte) : State :=
  ((s.setRam (0x100 + s.cpu.sp.toNat) (hi8 ret)).setRam (0x100 + (s.cpu.sp - 1#8).toNat) (lo8 ret)).setRam
    (0x100 + (s.cpu.sp - 2#8).toNat) status

/-- Three pushes reach three different slots, whatever `sp` is. -/
theorem stackByte_pushFrame (s : State) (ret : Word) (status : Byte) :
    (s.pushFrame ret status).stackByte s.cpu.sp = hi8 ret
      ∧ (s.pushFrame ret status).stackByte (s.cpu.sp - 1#8) = lo8 ret
      ∧ (s.pushFrame ret status).stackByte (s.cpu.sp - 2#8) = status := by
  have h01 : s.cpu.sp ≠ s.cpu.sp - 1#8 := by bv_omega
  have h02 : s.cpu.sp ≠ s.cpu.sp - 2#8 := by bv_omega
  have h12 : s.cpu.sp - 1#8 ≠ s.cpu.sp - 2#8 := by bv_omega
  simp only [State.pushFrame, stackByte_setRam, if_neg h01, if_neg h02, if_neg h12, if_true, and_self]

/-- The pushes of an exception are its frame and the stack pointer. -/
theorem push_push16_eq (ret : Word) (brk : Bool) (s : State) :
    push (pushedP (push16 ret s).cpu.p brk) (push16 ret s) =
      (s.pushFrame ret (pushedP s.cpu.p brk)).mapCpu fun c => { c with sp := c.sp - 3#8 } := by
  simp only [push16_eq, push_setRam, setRam_mapCpu, mapCpu_mapCpu, mapCpu_cpu, setRam_cpu, sub_sub]
  rfl

/-- The vector's read leaves RAM, whatever the vector is. -/
theorem takeException_ram (ret : Word) (brk : Bool) (vector : Word) (s : State) :
    (takeException ret brk vector s).bus.ram = (s.pushFrame ret (pushedP s.cpu.p brk)).bus.ram := by
  simp [takeException, push_push16_eq, read16, readPair]

/-- ROM reads as it did before the pushes. -/
theorem peek_pushFrame {a : Word} (ha : 0x8000 ≤ a.toNat) (s : State) (ret : Word) (status : Byte) (f : Cpu → Cpu) :
    peek a ((s.pushFrame ret status).mapCpu f) = peek a s :=
  peek_prgRom_congr (t := (s.pushFrame ret status).mapCpu f) s.cart.sameImage_refl ha rfl

/-- An exception whose vector is in ROM: its frame on the stack, `sp`, I, `pc` and seven cycles. -/
theorem takeException_rom (ret : Word) (brk : Bool) {vector : Word} (h : 0x8000 ≤ vector.toNat)
    (h' : 0x8000 ≤ (vector + 1#16).toNat) (s : State) : takeException ret brk vector s =
      ((s.pushFrame ret (pushedP s.cpu.p brk)).mapCpu fun c =>
        { c with sp := c.sp - 3#8, p := putFlag c.p .I true, pc := mkWord (peek (vector + 1#16) s) (peek vector s) }).withCycles
        7 := by
  have hquiet {a : Word} (ha : 0x8000 ≤ a.toNat) : quietAddr a := .inr (by omega)
  simp only [takeException, push_push16_eq, read16, readPair_quiet (hquiet h) (hquiet h'), mapCpu_mapCpu, peek_pushFrame h,
    peek_pushFrame h']
  rfl

end Sys2Proof.Machine
end

section
/-! PROOFS. Jumps, subroutines, BRK and RTI (44_control_flow.md R220-R225), the branches (R226-R234), and the returns that undo
their entries (R222, R223, R225; 60_exceptions.md R304). -/

namespace Sys2Proof.Machine

/-! ## Jumps and subroutines -/

theorem mkWord_eq_ofNat (h l : Byte) : mkWord h l = BitVec.ofNat 16 (h.toNat * 256 + l.toNat) := by
  rw [← mkWord_toNat, BitVec.ofNat_toNat, BitVec.setWidth_eq]

/-- The high byte of an indirect jump comes from the pointer's own page (R221). -/
theorem nextInPage_eq (w : Word) :
    mkWord (hi8 w) (lo8 w + 1#8) = BitVec.ofNat 16 (w.toNat / 256 * 256 + (w.toNat + 1) % 256) := by
  have hlow : (lo8 w + 1#8).toNat = (w.toNat + 1) % 256 := by
    rw [BitVec.toNat_add, lo8_toNat]
    exact Nat.mod_add_mod ..
  rw [mkWord_eq_ofNat, hi8_toNat, hlow]

/-- RTS goes one past the pulled word (R225). -/
theorem mkWord_add_one (h l : Byte) :
    mkWord h l + 1#16 = BitVec.ofNat 16 ((h.toNat * 256 + l.toNat + 1) % 65536) := by
  apply BitVec.eq_of_toNat_eq
  rw [BitVec.toNat_add, mkWord_toNat, BitVec.toNat_ofNat]
  exact (Nat.mod_mod ..).symm

theorem jmpInd_completes (w : Word) (s : State) :
    completes (.jmp (.ind w)) s (jumpPointer w s).2 fun d => d = { s.cpu with pc := (jumpPointer w s).1 } := by
  refine completes_of_exec (t := (jumpPointer w s).2.mapCpu _) rfl rfl rfl ?_
  rw [mapCpu_cpu, jumpPointer, readPair_cpu]

theorem rts_completes (s : State) :
    completes .rts s s fun d => d = { s.cpu with
      sp := s.cpu.sp + 2#8, pc := mkWord (s.stackByte (s.cpu.sp + 2#8)) (s.stackByte (s.cpu.sp + 1#8)) + 1#16 } := by
  have hexec : exec .rts s = .next (((pull16 s).2.mapCpu fun c => { c with pc := (pull16 s).1 + 1#16 }).withCycles 6) := rfl
  rw [pull16_eq] at hexec
  exact completes_of_exec rfl hexec rfl rfl

theorem exec_jsr (w : Word) (s : State) : exec (.jsr w) s =
    .next ((((s.setRam (0x100 + s.cpu.sp.toNat) (hi8 (s.cpu.pc - 1#16))).setRam (0x100 + (s.cpu.sp - 1#8).toNat)
      (lo8 (s.cpu.pc - 1#16))).mapCpu fun c => { c with sp := c.sp - 2#8, pc := w }).withCycles 6) := by
  have hexec : exec (.jsr w) s =
      .next (((push16 (s.cpu.pc - 1#16) s).mapCpu fun c => { c with pc := w }).withCycles 6) := rfl
  rw [hexec, push16_eq]
  rfl

/-- Settles O19: JMP reads its target from the instruction or through the pointer, RTS from the stack. -/
theorem jumpsAndRts : Obligations.JumpsAndRts := by
  refine ⟨forms16_of_rows fun _ _ => rfl, encodes_of_wf rfl rfl, fun w s => ⟨?abs, ?ind, ?rts⟩⟩
  case abs => exact completes_of_exec (t := s.mapCpu fun c => { c with pc := w }) rfl rfl rfl rfl
  case ind =>
    have h := jmpInd_completes w s
    simp only [jumpPointer, readPair, nextInPage_eq, mkWord_eq_ofNat (busRead _ _).1] at h
    exact h
  case rts =>
    have h := rts_completes s
    rw [mkWord_add_one] at h
    exact h

/-- Settles O20: the address before `pc`, which fetching left after the three bytes, is pushed as a word. -/
theorem jsrPushesItsLastByte : Obligations.JsrPushesItsLastByte :=
  ⟨forms16_of_rows fun _ _ => rfl, fun w s => completes_of_exec rfl (exec_jsr w s) rfl rfl⟩

/-! ## BRK and RTI -/

theorem exec_rti (s : State) : exec .rti s =
    .next ((s.mapCpu fun c => { c with
      sp := c.sp + 3#8
      p := pulledP c.p (s.stackByte (c.sp + 1#8))
      pc := mkWord (s.stackByte (c.sp + 3#8)) (s.stackByte (c.sp + 2#8)) }).withCycles 6) := by
  have hexec : exec .rti s = .next (returnFromException s) := rfl
  simp only [hexec, returnFromException, pull_stackByte, pull16_eq, mapCpu_mapCpu, mapCpu_cpu, stackByte_mapCpu, add_assoc]
  rfl

/-- Settles O21: BRK is an exception whose vector is in ROM, RTI the return from one. -/
theorem brkAndRti : Obligations.BrkAndRti := by
  refine ⟨encodes_of_wf rfl rfl, encodes_of_wf rfl rfl, fun s => ⟨?brk, ?rti⟩⟩
  case brk =>
    have hexec : exec .brk s = .next (takeException (s.cpu.pc + 1#16) true 0xFFFE#16 s) := rfl
    rw [takeException_rom _ _ (by decide) (by decide), pushedP_true] at hexec
    exact completes_of_exec rfl hexec rfl
      ⟨rfl, getFlag_putFlag_self _ _ _, fun _ hf => flagsKept_withFlag s.cpu .I true _ hf⟩
  case rti => exact completes_of_exec rfl (exec_rti s) rfl rfl

/-! ## Branches -/

/-- A signed offset is added modulo 65536 (30_encoding.md R124). -/
theorem add_sext16 (w : Word) (off : Byte) : w + sext16 off = BitVec.ofInt 16 (w.toNat + off.toInt) := by
  rw [BitVec.ofInt_add, BitVec.ofInt_natCast, BitVec.ofNat_toNat, BitVec.setWidth_eq]
  rfl

theorem branchCycles_eq (taken : Bool) (next target : Word) : branchCycles taken next target =
    if taken = true then (if target.toNat / 256 = next.toNat / 256 then 3 else 4) else 2 := by
  rw [branchCycles, hi8_bne]
  by_cases hpage : target.toNat / 256 = next.toNat / 256 <;> simp [hpage]

/-- The common branch rule (R226): the flag decides, and `pc` and the cycle count are all that changes. -/
theorem branch_completes {i : Instr} {off : Byte} {s : State} {f : Flag} {b : Bool} {cond : Cpu → Bool}
    (hexec : exec i s = .next (execBranch cond off s)) (hcond : cond s.cpu = (s.cpu.flag f == b)) :
    let target := BitVec.ofInt 16 (s.cpu.pc.toNat + off.toInt)
    ∃ t, exec i s = .next t
      ∧ t = { s with
          cpu := { s.cpu with pc := if s.cpu.flag f = b then target else s.cpu.pc }
          loop := { s.loop with stepCycles := t.loop.stepCycles } }
      ∧ t.loop.stepCycles =
          if s.cpu.flag f = b then (if target.toNat / 256 = s.cpu.pc.toNat / 256 then 3 else 4) else 2 := by
  intro target
  have htaken : cond s.cpu = true ↔ s.cpu.flag f = b := by rw [hcond, beq_iff_eq]
  refine ⟨_, hexec, ?_, ?_⟩
  · simp only [execBranch, htaken, add_sext16]
    rfl
  · simp only [execBranch, withCycles_stepCycles, branchCycles_eq, htaken, add_sext16, target]

/-- Settles O22: each branch is the common rule on its flag. -/
theorem branchesFollowOneFlag : Obligations.BranchesFollowOneFlag := by
  refine ⟨⟨forms8_of_rows fun _ _ => rfl, fun off s => ?bcc⟩, ⟨forms8_of_rows fun _ _ => rfl, fun off s => ?bcs⟩,
    ⟨forms8_of_rows fun _ _ => rfl, fun off s => ?beq⟩, ⟨forms8_of_rows fun _ _ => rfl, fun off s => ?bne⟩,
    ⟨forms8_of_rows fun _ _ => rfl, fun off s => ?bmi⟩, ⟨forms8_of_rows fun _ _ => rfl, fun off s => ?bpl⟩,
    ⟨forms8_of_rows fun _ _ => rfl, fun off s => ?bvc⟩, ⟨forms8_of_rows fun _ _ => rfl, fun off s => ?bvs⟩⟩
  case bcc | bne | bpl | bvc => exact branch_completes rfl (beq_false _).symm
  case bcs | beq | bmi | bvs => exact branch_completes rfl (beq_true _).symm

/-! ## Returns undo entries -/

/-- Of the status before it, a pull keeps B alone; I in particular does not matter. -/
theorem pulledP_putFlag_I (p v : Byte) (b : Bool) : pulledP (putFlag p .I b) v = pulledP p v := by
  apply status_ext
  intro f
  rw [getFlag_pulledP, getFlag_pulledP, getFlag_putFlag_other (f := .I) (g := .B) p b (by decide)]

/-- RTI undoes an exception, BRK's too, and goes to the address it pushed. -/
theorem rti_takeException {s : State} (hs : s.cpu.statusOk) (ret : Word) (brk : Bool) (vector : Word) :
    ∃ t, exec .rti (takeException ret brk vector s) = .next t ∧ t.cpu = { s.cpu with pc := ret } := by
  obtain ⟨hU, hB⟩ := hs
  obtain ⟨hhigh, hlow, hstatus⟩ := stackByte_pushFrame s ret (pushedP s.cpu.p brk)
  have h1 : s.cpu.sp - 1#8 - 1#8 - 1#8 + 1#8 = s.cpu.sp - 2#8 := by bv_omega
  have h2 : s.cpu.sp - 1#8 - 1#8 - 1#8 + 2#8 = s.cpu.sp - 1#8 := by bv_omega
  have h3 : s.cpu.sp - 1#8 - 1#8 - 1#8 + 3#8 = s.cpu.sp := by bv_omega
  refine ⟨_, exec_rti _, ?_⟩
  simp only [withCycles_cpu, mapCpu_cpu, stackByte_congr (takeException_ram ret brk vector s)]
  rw [takeException_cpu]
  simp only [h1, h2, h3, hhigh, hlow, hstatus, mkWord_hi8_lo8, pulledP_putFlag_I, pulledP_pushedP _ _ hU hB]

/-- RTS undoes JSR: it goes one past the pushed address. -/
theorem rts_jsr (w : Word) (s : State) : ∃ u t, exec (.jsr w) s = .next u ∧ exec .rts u = .next t ∧ t.cpu = s.cpu := by
  have hne : s.cpu.sp ≠ s.cpu.sp - 1#8 := by bv_omega
  have hlow : s.cpu.sp - 2#8 + 1#8 = s.cpu.sp - 1#8 := by bv_omega
  have hhigh : s.cpu.sp - 2#8 + 2#8 = s.cpu.sp := sub_add_cancel ..
  obtain ⟨t, ht, -, hcpu⟩ := rts_completes _
  refine ⟨_, t, exec_jsr w s, ht, hcpu.trans ?_⟩
  simp only [withCycles_cpu, mapCpu_cpu, setRam_cpu, stackByte_withCycles, stackByte_mapCpu, stackByte_setRam, hlow, hhigh,
    if_neg hne, if_true, mkWord_hi8_lo8, sub_add_cancel]

/-- Settles O31: the pulled slots are the pushed ones, whatever `sp` is, and hold what was pushed. -/
theorem returnsUndoEntries : Obligations.ReturnsUndoEntries := fun s =>
  ⟨fun hs vector => rti_takeException hs s.cpu.pc false vector, fun w => rts_jsr w s⟩

end Sys2Proof.Machine
end

section
/-! PROOFS. The flag instructions and NOP (45_flags_nop.md R240-R247): instructions on registers alone that write one flag, or
nothing. -/

namespace Sys2Proof.Machine

/-- An instruction on registers alone whose effect is `withFlag` completes with that flag written and no other. -/
theorem withFlag_completes {i : Instr} {s : State} {f : Flag} {b : Bool} (hwf : i.wf = true)
    (hexec : exec i s = .next (execImplied (fun c => c.withFlag f b) s)) :
    completes i s s fun d => d = { s.cpu with p := d.p } ∧ d.flag f = b ∧ flagsKept [f] s.cpu d :=
  execImplied_completes hwf hexec ⟨rfl, getFlag_putFlag_self _ _ _, flagsKept_withFlag _ _ _⟩

/-- Settles O23: each flag instruction is `withFlag` on its flag, and NOP the identity. -/
theorem flagInstructionsWriteOneFlag : Obligations.FlagInstructionsWriteOneFlag := by
  refine ⟨⟨encodes_of_wf rfl rfl, fun s => ?clc⟩, ⟨encodes_of_wf rfl rfl, fun s => ?sec⟩,
    ⟨encodes_of_wf rfl rfl, fun s => ?cli⟩, ⟨encodes_of_wf rfl rfl, fun s => ?sei⟩,
    ⟨encodes_of_wf rfl rfl, fun s => ?cld⟩, ⟨encodes_of_wf rfl rfl, fun s => ?sed⟩,
    ⟨encodes_of_wf rfl rfl, fun s => ?clv⟩, encodes_of_wf rfl rfl, fun s => ?nop⟩
  case nop => exact execImplied_completes rfl rfl rfl
  all_goals exact withFlag_completes rfl rfl

end Sys2Proof.Machine
end

section
/-! PROOFS. Interrupts (60_exceptions.md R300-R305, R313): the entry as one state, and the order in which a CPU step looks at
the latches. -/

namespace Sys2Proof.Machine

/-! ## The entry -/

/-- The status byte an interrupt entry pushes: B clear, U set (R304). -/
theorem pushedP_false (p : Byte) : pushedP p false = p &&& 0xCF#8 ||| 0x20#8 := BitVec.or_zero

theorem putFlag_I_true (p : Byte) : putFlag p .I true = p ||| 0x04#8 := by
  revert p
  decide

/-- An entry whose vector is in ROM: its frame on the stack, `sp`, I, `pc` and seven cycles (R303-R305). -/
theorem interruptEntry_rom {vector : Word} (h : 0x8000 ≤ vector.toNat) (h' : 0x8000 ≤ (vector + 1#16).toNat) (s : State) :
    interruptEntry vector s =
      ((s.pushFrame s.cpu.pc (s.cpu.p &&& 0xCF#8 ||| 0x20#8)).mapCpu fun c =>
        { c with sp := c.sp - 3#8, p := c.p ||| 0x04#8, pc := mkWord (peek (vector + 1#16) s) (peek vector s) }).withCycles 7 := by
  rw [interruptEntry, takeException_rom _ _ h h', pushedP_false]
  simp only [putFlag_I_true]

/-! ## The order of the latches -/

theorem cpuStep_nmi {s : State} (h : s.cpu.nmiPending = true) :
    cpuStep s = .next (interruptEntry Config.nmiVector (s.mapCpu fun c => { c with nmiPending := false })) := by
  rw [cpuStep_eq, if_pos h]

theorem cpuStep_irq {s : State} (hnmi : s.cpu.nmiPending = false) (hirq : s.cpu.irqPending = true)
    (hI : s.cpu.flag .I = false) :
    cpuStep s = .next (interruptEntry Config.irqVector (s.mapCpu fun c => { c with irqPending := false })) := by
  simp [cpuStep_eq, hnmi, hirq, hI]

/-- Settles O29: an entry whose vector is in ROM, once the latch is cleared. -/
theorem interruptEntrySavesPcAndStatus : Obligations.InterruptEntrySavesPcAndStatus := by
  intro s entry
  refine ⟨fun hnmi => ?_, fun hnmi hirq hI => ?_⟩
  · rw [cpuStep_nmi hnmi, interruptEntry_rom (by decide) (by decide)]
    rfl
  · rw [cpuStep_irq hnmi hirq hI, interruptEntry_rom (by decide) (by decide)]
    rfl

/-- An interrupt entry sets I and leaves both latches. -/
theorem interruptEntry_flags (vector : Word) (s : State) :
    (interruptEntry vector s).cpu.flag .I = true
      ∧ (interruptEntry vector s).cpu.nmiPending = s.cpu.nmiPending
      ∧ (interruptEntry vector s).cpu.irqPending = s.cpu.irqPending := by
  rw [interruptEntry, takeException_cpu]
  exact ⟨getFlag_putFlag_self _ _ _, rfl, rfl⟩

/-- Neither fetching nor an instruction writes a latch (10_state.md R29, R30). -/
theorem latches_of_fetched {s t : State} (h : exec (fetchInstr s).1 (fetchInstr s).2 = .next t) :
    t.cpu.nmiPending = s.cpu.nmiPending ∧ t.cpu.irqPending = s.cpu.irqPending := by
  have hregs := (writesOnly_of_exec h).registers
  have hfetch : (fetchInstr s).2.cpu.nmiPending = s.cpu.nmiPending ∧ (fetchInstr s).2.cpu.irqPending = s.cpu.irqPending := by
    rw [fetchInstr_eq]
    exact ⟨rfl, rfl⟩
  exact ⟨hregs.nmiPending.trans hfetch.1, hregs.irqPending.trans hfetch.2⟩

/-- Settles O30: the three branches of the CPU's step; an entry sets I, and neither it nor an instruction touches the other
latch. -/
theorem latchesAreCheckedFirst : Obligations.LatchesAreCheckedFirst := by
  intro s t h
  have hfetched (hnmi : s.cpu.nmiPending = false) (hmasked : s.cpu.irqPending = false ∨ s.cpu.flag .I = true) :
      exec (fetchInstr s).1 (fetchInstr s).2 = .next t := by
    rwa [cpuStep_of_noInterrupt hnmi hmasked] at h
  refine ⟨fun hnmi => ?nmi, fun hnmi hirq hI => ?waits, fun hnmi hirq hI => ?irq, fun hnmi hirq => ?none⟩
  case nmi =>
    obtain rfl := Host.Outcome.next.inj ((cpuStep_nmi hnmi).symm.trans h)
    obtain ⟨hset, hnmi', hirq'⟩ := interruptEntry_flags Config.nmiVector (s.mapCpu fun c => { c with nmiPending := false })
    exact ⟨hnmi', hirq', hset⟩
  case waits =>
    have hexec := hfetched hnmi (.inr hI)
    exact ⟨(latches_of_fetched hexec).2.trans hirq, hexec⟩
  case irq =>
    obtain rfl := Host.Outcome.next.inj ((cpuStep_irq hnmi hirq hI).symm.trans h)
    obtain ⟨hset, -, hirq'⟩ := interruptEntry_flags Config.irqVector (s.mapCpu fun c => { c with irqPending := false })
    exact ⟨hirq', hset⟩
  case none =>
    have hexec := hfetched hnmi (.inl hirq)
    obtain ⟨hnmi', hirq'⟩ := latches_of_fetched hexec
    exact ⟨hexec, hnmi'.trans hnmi, hirq'.trans hirq⟩

end Sys2Proof.Machine
end

section
/-! PROOFS. What a dot of the PPU does to its position and its NMI (61_ppu.md R403, R420, R440-R442): the rendering work
touches the pipeline alone, so the position is advanced from where it was, and the events follow from it. -/

namespace Sys2Proof.Machine

/-! ## The rendering work touches the pipeline alone -/

/-- `q` is `p` but for the rendering pipeline: `v`, the status, the fetched tile and the shifters, the sprite slots and what was
evaluated for them, and the picture (61_ppu.md R400, R421). -/
abbrev Ppu.pipelineStep (p q : Ppu) : Prop :=
  q = { p with
    v := q.v, status := q.status, bgPatternLo := q.bgPatternLo, bgPatternHi := q.bgPatternHi, bgAttrLo := q.bgAttrLo
    bgAttrHi := q.bgAttrHi, nextTileId := q.nextTileId, nextTileAttr := q.nextTileAttr, nextTileLo := q.nextTileLo
    nextTileHi := q.nextTileHi, slots := q.slots, spriteCount := q.spriteCount, spriteZeroIndex := q.spriteZeroIndex
    spriteZeroHitPossible := q.spriteZeroHitPossible, spriteZeroRendering := q.spriteZeroRendering
    framebuffer := q.framebuffer }

theorem Ppu.pipelineStep_trans {p q r : Ppu} (h : p.pipelineStep q) (h' : q.pipelineStep r) : p.pipelineStep r := by
  unfold Ppu.pipelineStep at *
  rw [h']
  congr 1 <;> rw [h]

/-- What the rendering work of a dot does: it moves the pipeline, and withdraws no IRQ of the mapper. -/
structure Video.workStep (s t : Video) : Prop where
  ppu : s.ppu.pipelineStep t.ppu
  irq : s.cart.irqPending = true → t.cart.irqPending = true

theorem Video.workStep.refl (s : Video) : s.workStep s := ⟨rfl, id⟩

theorem Video.workStep.trans {s t u : Video} (h : s.workStep t) (h' : t.workStep u) : s.workStep u :=
  ⟨Ppu.pipelineStep_trans h.ppu h'.ppu, h'.irq ∘ h.irq⟩

theorem Video.workStep.ofPpu {s : Video} {p : Ppu} (h : s.ppu.pipelineStep p) : s.workStep { s with ppu := p } := ⟨h, id⟩

theorem Video.workStep.withPpu {s t : Video} (h : s.workStep t) {p : Ppu} (hp : t.ppu.pipelineStep p) :
    s.workStep { t with ppu := p } := h.trans (.ofPpu hp)

/-- MMC3's counter raises the IRQ flag and never clears it (63_cartridge_mappers.md R596). -/
theorem clockCounter_irqFlag {m : Mmc3} (h : m.irqFlag = true) (fc : Nat) : (m.clockCounter fc).irqFlag = true := by
  simp only [Mmc3.clockCounter, apply_ite Mmc3.irqFlag, h, ite_self]

theorem addressBus_irqFlag {m : Mmc3} (h : m.irqFlag = true) (addr : Word) (fc : Nat) :
    (m.addressBus addr fc).irqFlag = true := by
  have h1 : (if m.lastA12 && !addr.getLsbD 12 then { m with lastA12Cycle := fc } else m).irqFlag = true := by
    rw [apply_ite Mmc3.irqFlag, h, ite_self]
  simp only [Mmc3.addressBus, apply_ite Mmc3.irqFlag, clockCounter_irqFlag h1, ite_self]
  rw [h, ite_self]

theorem notifyAddressBus_irqPending {c : Cartridge} (h : c.irqPending = true) (addr : Word) (fc : Nat) :
    (c.notifyAddressBus addr fc).irqPending = true := by
  cases hm : c.mapper with
  | mmc3 m =>
    rw [Cartridge.irqPending, hm] at h
    rw [Cartridge.notifyAddressBus, hm]
    exact addressBus_irqFlag h addr fc
  | _ => simp [Cartridge.irqPending, hm] at h

@[simp] theorem chrRead_irqPending (c : Cartridge) (a : Nat) : (c.chrRead a).2.irqPending = c.irqPending := by
  cases hm : c.mapper <;> simp [Cartridge.chrRead, Cartridge.irqPending, Mapper.afterChrRead, hm]

@[simp] theorem notifyFrameStart_irqPending (c : Cartridge) : c.notifyFrameStart.irqPending = c.irqPending := by
  cases hm : c.mapper <;> simp [Cartridge.notifyFrameStart, Cartridge.irqPending, hm]

theorem fetch_workStep (s : Video) (addr : Word) : s.workStep (s.fetch addr).2 := by
  refine Video.workStep.trans (t := { s with cart := s.cart.notifyAddressBus addr s.ppu.frameCycle })
    ⟨rfl, fun h => notifyAddressBus_irqPending h _ _⟩ ?_
  unfold Video.fetch Video.busRead
  dsimp only
  split
  · exact ⟨rfl, fun h => (chrRead_irqPending ..).trans h⟩
  · split <;> exact .refl _

theorem fetchTileId_workStep (s : Video) : s.workStep s.fetchTileId := (fetch_workStep s _).withPpu rfl

theorem backgroundFetch_workStep (s : Video) (k : Nat) : s.workStep (s.backgroundFetch k) := by
  unfold Video.backgroundFetch
  split
  · exact (Video.workStep.ofPpu rfl).trans (fetchTileId_workStep _)
  · exact (fetch_workStep s _).withPpu rfl
  · exact (fetch_workStep s _).withPpu rfl
  · exact (fetch_workStep s _).withPpu rfl
  · exact .ofPpu rfl
  · exact .refl s

theorem evaluateFrom_pipelineStep (k : Nat) : ∀ (p : Ppu) (n : Nat), p.pipelineStep (evaluateFrom p n k) := by
  induction k with
  | zero => exact fun _ _ => rfl
  | succ k ih =>
    intro p n
    unfold evaluateFrom
    dsimp only
    split
    · split
      · exact Ppu.pipelineStep_trans (q := p.takeSprite n) rfl (ih _ _)
      · rfl
    · exact ih _ _

theorem evaluateSprites_pipelineStep (p : Ppu) : p.pipelineStep p.evaluateSprites := by
  unfold Ppu.evaluateSprites
  dsimp only
  split
  · rfl
  · exact Ppu.pipelineStep_trans rfl (evaluateFrom_pipelineStep 64 _ 0)

theorem spriteFetch_workStep (s : Video) (c : Nat) : s.workStep (s.spriteFetch c) := by
  unfold Video.spriteFetch
  dsimp only
  split
  · exact fetch_workStep _ _
  · exact fetch_workStep _ _
  · exact (fetch_workStep s _).withPpu rfl
  · exact (fetch_workStep s _).withPpu rfl
  · exact .refl s

theorem shiftDot_pipelineStep (p : Ppu) (c : Nat) : p.pipelineStep (p.shiftDot c) := by
  unfold Ppu.shiftDot Ppu.shiftBackground Ppu.advanceSprites Ppu.pipelineStep
  dsimp only
  repeat' split
  all_goals rfl

theorem lineEndDot_pipelineStep (p : Ppu) (c : Nat) : p.pipelineStep (p.lineEndDot c) := by
  unfold Ppu.lineEndDot
  split
  · rfl
  split
  · exact Ppu.pipelineStep_trans (q := { p with v := copyHorizontal p.v p.t }) rfl (evaluateSprites_pipelineStep _)
  · rfl

theorem tailDot_workStep (s : Video) (c : Nat) : s.workStep (s.tailDot c) := by
  unfold Video.tailDot
  split
  · exact spriteFetch_workStep s c
  split
  · exact (Video.workStep.ofPpu rfl).trans (fetchTileId_workStep _)
  split
  · exact fetchTileId_workStep s
  · exact .refl s

theorem fetchDot_workStep (s : Video) (c : Nat) : s.workStep (s.fetchDot c) := by
  unfold Video.fetchDot
  split
  · exact backgroundFetch_workStep s _
  · exact .refl s

theorem renderDot_workStep (s : Video) (c : Nat) : s.workStep (s.renderDot c) := by
  have h1 := (Video.workStep.ofPpu (shiftDot_pipelineStep s.ppu c)).trans (fetchDot_workStep _ c)
  unfold Video.renderDot
  generalize Video.fetchDot { s with ppu := s.ppu.shiftDot c } c = s1 at h1 ⊢
  have h2 := (h1.withPpu (lineEndDot_pipelineStep s1.ppu c)).trans (tailDot_workStep _ c)
  dsimp only
  generalize Video.tailDot { s1 with ppu := s1.ppu.lineEndDot c } c = s2 at h2 ⊢
  refine h2.trans ?_
  split <;> split <;> exact .ofPpu rfl

theorem work_workStep (s : Video) : s.workStep s.work := by
  unfold Video.work
  split
  · split
    · exact renderDot_workStep s _
    split
    · exact .ofPpu rfl
    · exact .refl s
  · exact .refl s

/-! ## The position -/

/-- Where the PPU is on its grid and what decides where it goes next (61_ppu.md R403, R448, R449). -/
structure Grid where
  scanline : Nat
  cycle : Nat
  frame : U64
  oddFrame : Bool
  mask : Byte
  maskWriteCycle : Nat
  maskPrev : Byte

/-- The PPU's own position. -/
def Ppu.grid (p : Ppu) : Grid :=
  ⟨p.scanline, p.cycle, p.frame, p.oddFrame, p.mask, p.maskWriteCycle, p.maskPrev⟩

theorem grid_of_pipelineStep {p q : Ppu} (h : p.pipelineStep q) : q.grid = p.grid := by
  rw [Ppu.pipelineStep] at h
  rw [h]
  rfl

theorem frameEnds_congr {p q : Ppu} (h : q.grid = p.grid) : q.frameEnds = p.frameEnds := by
  cases p
  cases q
  cases h
  rfl

/-- Where the PPU goes depends on `Ppu.grid` alone. -/
theorem advance_grid_congr {v w : Video} (h : w.ppu.grid = v.ppu.grid) : w.advance.ppu.grid = v.advance.ppu.grid := by
  have hends := frameEnds_congr h
  simp only [Ppu.grid, Grid.mk.injEq] at h
  obtain ⟨hline, hcycle, hframe, hodd, hmask, hwrite, hprev⟩ := h
  simp only [Video.advance, hends, hcycle]
  split
  · simp only [Ppu.grid, hframe, hodd, hmask, hwrite]
  · split <;> simp only [Ppu.grid, hline, hframe, hodd, hmask, hwrite, hprev]

theorem countNmi_grid (p : Ppu) : p.countNmi.grid = p.grid := by
  unfold Ppu.countNmi
  dsimp only
  split
  · split <;> rfl
  · rfl

theorem startVblank_grid (p : Ppu) : p.startVblank.grid = p.grid := by
  unfold Ppu.startVblank
  dsimp only
  split
  · rfl
  · split <;> rfl

theorem events_grid (p : Ppu) : p.events.grid = p.grid := by
  unfold Ppu.events
  split
  · exact startVblank_grid p
  · split <;> rfl

/-- Of a dot's four phases only the second moves the position (R420). -/
theorem dot_grid (v : Video) : v.dot.ppu.grid = v.advance.ppu.grid :=
  calc v.dot.ppu.grid = v.work.advance.ppu.countNmi.grid := events_grid _
    _ = v.work.advance.ppu.grid := countNmi_grid _
    _ = v.advance.ppu.grid := advance_grid_congr (grid_of_pipelineStep (work_workStep v).ppu)

theorem dot_grid_congr {v w : Video} (h : w.ppu.grid = v.ppu.grid) : w.dot.ppu.grid = v.dot.ppu.grid := by
  rw [dot_grid, dot_grid, advance_grid_congr h]

/-- The grid from left to right, line by line; from the last line's last dots, to its start (R403, R448). -/
theorem advance_position {v : Video} (h : v.ppu.onGrid) :
    let q := v.advance.ppu
    (v.ppu.cycle < 340 ∧ q.scanline = v.ppu.scanline ∧ q.cycle = v.ppu.cycle + 1)
      ∨ (v.ppu.cycle = 340 ∧ v.ppu.scanline < 261 ∧ q.scanline = v.ppu.scanline + 1 ∧ q.cycle = 0)
      ∨ (v.ppu.scanline = 261 ∧ 339 ≤ v.ppu.cycle ∧ q.scanline = 0 ∧ q.cycle = 0) := by
  obtain ⟨hline, hcycle⟩ := h
  have hends : v.ppu.frameEnds = true → v.ppu.scanline = 261 ∧ 339 ≤ v.ppu.cycle := by
    simp only [Ppu.frameEnds, Config.preRenderLine, Bool.and_eq_true, Bool.or_eq_true, beq_iff_eq]
    omega
  have hlast : v.ppu.scanline = 261 → v.ppu.cycle = 340 → v.ppu.frameEnds = true := by
    intro hl hc
    simp [Ppu.frameEnds, Config.preRenderLine, hl, hc]
  dsimp only
  unfold Video.advance
  split
  · next he => exact .inr (.inr ⟨(hends he).1, (hends he).2, rfl, rfl⟩)
  · next he =>
    have hne : v.ppu.scanline = 261 → v.ppu.cycle ≠ 340 := fun hl hc => he (hlast hl hc)
    split
    · next hc => exact .inl ⟨hc, rfl, rfl⟩
    · exact .inr (.inl ⟨by omega, by omega, rfl, rfl⟩)

theorem dot_position (v : Video) :
    v.dot.ppu.scanline = v.advance.ppu.scanline ∧ v.dot.ppu.cycle = v.advance.ppu.cycle :=
  ⟨congrArg Grid.scanline (dot_grid v), congrArg Grid.cycle (dot_grid v)⟩

/-! ## The end of the frame -/

/-- The dots to the next arrival at (241, 1), where the frame is complete (R403, R440), if no dot is skipped: at (241, 1)
itself a whole frame. -/
def Ppu.dotsToVblank (p : Ppu) : Nat :=
  (241 * Config.dotsPerLine + Config.dotsPerFrame - p.frameCycle) % Config.dotsPerFrame + 1

theorem dotsToVblank_bounds (p : Ppu) : 1 ≤ p.dotsToVblank ∧ p.dotsToVblank ≤ 89342 :=
  ⟨Nat.le_add_left 1 _, Nat.mod_lt _ (by decide)⟩

/-- On arrival at (241, 1) the frame is complete (R440). -/
theorem dot_frameComplete {v : Video} (hline : v.dot.ppu.scanline = 241) (hcycle : v.dot.ppu.cycle = 1) :
    v.dot.ppu.frameComplete = true := by
  let p := v.work.advance.ppu.countNmi
  have hgrid : p.events.grid = p.grid := events_grid p
  have hat : p.scanline = 241 ∧ p.cycle = 1 :=
    ⟨(congrArg Grid.scanline hgrid).symm.trans hline, (congrArg Grid.cycle hgrid).symm.trans hcycle⟩
  show p.events.frameComplete = true
  rw [Ppu.events, if_pos hat, Ppu.startVblank]
  dsimp only
  split
  · rfl
  · split <;> rfl

/-- A dot stays on the grid, and completes the frame or comes nearer to it. -/
theorem dot_nears_vblank {v : Video} (h : v.ppu.onGrid) :
    v.dot.ppu.onGrid ∧ (v.dot.ppu.frameComplete = true ∨ v.dot.ppu.dotsToVblank + 1 ≤ v.ppu.dotsToVblank) := by
  have hadvance := advance_position h
  obtain ⟨hline, hcycle⟩ := dot_position v
  dsimp only at hadvance
  rw [← hline, ← hcycle] at hadvance
  obtain ⟨hl, hc⟩ := h
  refine ⟨⟨by omega, by omega⟩, ?_⟩
  by_cases hat : v.dot.ppu.scanline = 241 ∧ v.dot.ppu.cycle = 1
  · exact .inl (dot_frameComplete hat.1 hat.2)
  · right
    simp only [Ppu.dotsToVblank, Ppu.frameCycle, Config.dotsPerLine, Config.dotsPerFrame]
    omega

/-! ## The delayed NMI -/

theorem work_nmi (v : Video) : v.work.ppu.nmiTriggered = v.ppu.nmiTriggered ∧ v.work.ppu.nmiLatched = v.ppu.nmiLatched
    ∧ v.work.ppu.nmiTriggeredDelayed = v.ppu.nmiTriggeredDelayed := by
  rw [(work_workStep v).ppu]
  exact ⟨rfl, rfl, rfl⟩

theorem advance_nmi (v : Video) : v.advance.ppu.nmiTriggered = v.ppu.nmiTriggered
    ∧ v.advance.ppu.nmiLatched = v.ppu.nmiLatched
    ∧ v.advance.ppu.nmiTriggeredDelayed = v.ppu.nmiTriggeredDelayed := by
  unfold Video.advance
  split
  · exact ⟨rfl, rfl, rfl⟩
  · split <;> exact ⟨rfl, rfl, rfl⟩

theorem events_nmi (p : Ppu) : p.events.nmiTriggered = p.nmiTriggered
    ∧ p.events.nmiTriggeredDelayed = p.nmiTriggeredDelayed := by
  unfold Ppu.events Ppu.startVblank Ppu.endVblank
  dsimp only
  repeat' split
  all_goals exact ⟨rfl, rfl⟩

/-- With no NMI latched a dot reports none of its own and keeps a delayed one (R442, R446). -/
theorem dot_nmi_of_not_latched {v : Video} (h : v.ppu.nmiLatched = false) :
    v.dot.ppu.nmiTriggered = v.ppu.nmiTriggered ∧ v.dot.ppu.nmiTriggeredDelayed = v.ppu.nmiTriggeredDelayed := by
  obtain ⟨ht, hl, hd⟩ := work_nmi v
  obtain ⟨ht', hl', hd'⟩ := advance_nmi v.work
  have hcount : v.work.advance.ppu.countNmi = v.work.advance.ppu := by
    rw [Ppu.countNmi, hl', hl, h]
    rfl
  obtain ⟨ht'', hd''⟩ := events_nmi v.work.advance.ppu
  rw [Video.dot, hcount]
  exact ⟨ht''.trans (ht'.trans ht), hd''.trans (hd'.trans hd)⟩

end Sys2Proof.Machine
end

section
/-! PROOFS. One iteration of the frame loop (60_exceptions.md R330-R334): its dots one after another, its APU cycles, its polls,
and what they leave of the state that the CPU's step gave. -/

namespace Sys2Proof.Machine

/-! ## The dots -/

theorem runDots_add (j k : Nat) : ∀ r : State × Bool, runDots (j + k) r = runDots k (runDots j r) := by
  induction j with
  | zero => exact fun r => by rw [Nat.zero_add, runDots]
  | succ j ih => exact fun r => by rw [Nat.succ_add, runDots, runDots, ih]

theorem runDots_succ (k : Nat) (r : State × Bool) : runDots (k + 1) r = dotOnce (runDots k r) := runDots_add k 1 r

theorem checkNmi_grid (p : Ppu) : p.checkNmi.2.grid = p.grid := by
  unfold Ppu.checkNmi
  split
  · rfl
  · split <;> rfl

theorem checkNmi_frameComplete (p : Ppu) : p.checkNmi.2.frameComplete = p.frameComplete := by
  unfold Ppu.checkNmi
  split
  · rfl
  · split <;> rfl

/-- The polls after a dot do not move the position. -/
theorem dotOnce_grid (r : State × Bool) : (dotOnce r).1.ppu.grid = r.1.video.dot.ppu.grid := checkNmi_grid _

theorem dotOnce_done (r : State × Bool) : (dotOnce r).2 = (r.2 || r.1.video.dot.ppu.frameComplete) :=
  congrArg (r.2 || ·) (checkNmi_frameComplete _)

/-- The one-shots that the loop clears do not change where the PPU goes. -/
theorem runDots_grid (k : Nat) (r : State × Bool) : (runDots k r).1.ppu.grid = (r.1.video.dots k).ppu.grid := by
  induction k with
  | zero => rfl
  | succ k ih =>
    rw [runDots_succ, dotOnce_grid]
    exact dot_grid_congr ih

/-- What dots change beside the PPU and the cartridge: they set the NMI latch and arm the NMI, and withdraw neither, nor a
mapper's IRQ. -/
structure State.dotStep (s t : State) : Prop where
  bus : t.bus = s.bus
  apu : t.apu = s.apu
  cpu : t.cpu = { s.cpu with nmiPending := t.cpu.nmiPending }
  loop : t.loop = { s.loop with nmiDelayArmed := t.loop.nmiDelayArmed }
  nmiPending : s.cpu.nmiPending = true → t.cpu.nmiPending = true
  nmiDelayArmed : s.loop.nmiDelayArmed = true → t.loop.nmiDelayArmed = true
  cartIrq : s.cart.irqPending = true → t.cart.irqPending = true

theorem State.dotStep.refl (s : State) : s.dotStep s := ⟨rfl, rfl, rfl, rfl, id, id, id⟩

theorem State.dotStep.trans {s t u : State} (h : s.dotStep t) (h' : t.dotStep u) : s.dotStep u where
  bus := h'.bus.trans h.bus
  apu := h'.apu.trans h.apu
  cpu := by rw [h'.cpu, h.cpu]
  loop := by rw [h'.loop, h.loop]
  nmiPending := h'.nmiPending ∘ h.nmiPending
  nmiDelayArmed := h'.nmiDelayArmed ∘ h.nmiDelayArmed
  cartIrq := h'.cartIrq ∘ h.cartIrq

theorem advance_irqPending (v : Video) : v.advance.cart.irqPending = v.cart.irqPending := by
  unfold Video.advance
  split
  · exact notifyFrameStart_irqPending _
  · split <;> rfl

theorem dot_irqPending {v : Video} (h : v.cart.irqPending = true) : v.dot.cart.irqPending = true :=
  (advance_irqPending _).trans ((work_workStep v).irq h)

theorem dotOnce_dotStep (r : State × Bool) : r.1.dotStep (dotOnce r).1 where
  bus := rfl
  apu := rfl
  cpu := rfl
  loop := rfl
  nmiPending h := by
    show (r.1.cpu.nmiPending || _) = true
    rw [h, Bool.true_or]
  nmiDelayArmed h := by
    show (r.1.loop.nmiDelayArmed || _) = true
    rw [h, Bool.true_or]
  cartIrq h := dot_irqPending (v := r.1.video) h

theorem runDots_dotStep (k : Nat) (r : State × Bool) : r.1.dotStep (runDots k r).1 := by
  induction k with
  | zero => exact .refl _
  | succ k ih =>
    rw [runDots_succ]
    exact ih.trans (dotOnce_dotStep _)

/-- An immediate NMI is latched (R332). -/
theorem dotOnce_immediate {r : State × Bool} (h : r.1.video.dot.ppu.nmiTriggered = true) :
    (dotOnce r).1.cpu.nmiPending = true := by
  show (r.1.cpu.nmiPending || r.1.video.dot.ppu.checkNmi.1 == .immediate) = true
  rw [Ppu.checkNmi, if_pos h]
  exact Bool.or_true _

/-- A delayed NMI arms (R333). -/
theorem dotOnce_delayed {r : State × Bool} (h : r.1.video.dot.ppu.nmiTriggered = false)
    (h' : r.1.video.dot.ppu.nmiTriggeredDelayed = true) : (dotOnce r).1.loop.nmiDelayArmed = true := by
  show (r.1.loop.nmiDelayArmed || r.1.video.dot.ppu.checkNmi.1 == .delayed) = true
  rw [Ppu.checkNmi, if_neg (by simp [h]), if_pos h']
  exact Bool.or_true _

/-- What the dot after the first `k` leaves stands after all of them. -/
theorem dotStep_of_lt {k n : Nat} (h : k < n) (r : State × Bool) :
    (dotOnce (runDots k r)).1.dotStep (runDots n r).1 := by
  obtain ⟨j, rfl⟩ := Nat.exists_eq_add_of_le (Nat.succ_le_of_lt h)
  rw [runDots_add, runDots_succ]
  exact runDots_dotStep j _

/-! ## The APU's cycles -/

theorem sequencerStep_cycle (a : Apu) : a.sequencerStep.cycle = a.cycle := by
  unfold Apu.sequencerStep
  dsimp only
  split <;> rfl

theorem clockFrameCounter_cycle (a : Apu) : a.clockFrameCounter.cycle = a.cycle := by
  unfold Apu.clockFrameCounter
  split
  · exact sequencerStep_cycle _
  · rfl

theorem clockTimers_cycle (a : Apu) : a.clockTimers.cycle = a.cycle := by
  unfold Apu.clockTimers
  dsimp only
  split <;> rfl

@[simp] theorem putSample_cycle (a : Apu) (y : F32) : (a.putSample y).cycle = a.cycle := rfl

theorem emitSample_cycle (alpha : F32) (a : Apu) (m : F32) : (a.emitSample alpha m).cycle = a.cycle := by
  unfold Apu.emitSample
  split
  · rw [putSample_cycle]
  · rfl

theorem apuStep_cycle (alpha : F32) (a : Apu) : (a.step alpha).cycle = a.cycle + 1#64 := by
  rw [Apu.step, emitSample_cycle, clockTimers_cycle, clockFrameCounter_cycle]

theorem runApu_cycle (alpha : F32) (k : Nat) : ∀ a : Apu, (runApu alpha k a).cycle = a.cycle + BitVec.ofNat 64 k := by
  induction k with
  | zero => exact fun a => (BitVec.add_zero _).symm
  | succ k ih =>
    intro a
    rw [runApu, ih, apuStep_cycle, BitVec.add_assoc, BitVec.add_comm 1#64, BitVec.ofNat_add]

/-! ## The polls -/

theorem irqClear_of_not_irqPending {c : Cartridge} (h : c.irqPending = false) : c.irqClear = c := by
  unfold Cartridge.irqClear
  split
  · next m hm =>
    rw [Cartridge.irqPending, hm] at h
    rw [← h, ← hm]
  · rfl

/-- The mapper's IRQ, handed over when there is one (R334). -/
theorem pollMapper_eq (s : State) :
    pollMapper s = { s with cpu := s.cpu.triggerIrq s.cart.irqPending, cart := s.cart.irqClear } := by
  unfold pollMapper
  split
  · next h => rw [h]
  · next h =>
    have h : s.cart.irqPending = false := Bool.eq_false_of_not_eq_true h
    rw [irqClear_of_not_irqPending h, h, Cpu.triggerIrq, Bool.or_false]

theorem irqClear_irqPending (c : Cartridge) : c.irqClear.irqPending = false := by
  unfold Cartridge.irqClear
  split
  · rfl
  · next hm =>
    unfold Cartridge.irqPending
    split
    · next m hm' => exact absurd hm' (hm m)
    · rfl

theorem mmc3_of_number {m : Mapper} (h : m.number = 4) : ∃ r, m = .mmc3 r := by
  cases m with
  | mmc3 r => exact ⟨r, rfl⟩
  | _ => cases h

/-- Only MMC3 has an IRQ (63_cartridge_mappers.md R550). -/
theorem irqPending_of_not_mmc3 {c : Cartridge} (h : c.mapper.number ≠ 4) : c.irqPending = false := by
  cases hm : c.mapper with
  | mmc3 m => exact absurd (by rw [hm]; rfl) h
  | _ => rw [Cartridge.irqPending, hm]

/-! ## The iteration -/

/-- The state an iteration's dots start from: the armed NMI latched, the DMA's cycles taken (R331, R333). -/
def State.beforeDots (s : State) (armed : Bool) : State :=
  { s with cpu := s.cpu.triggerNmi armed, bus := { s.bus with pendingDma := 0#16 } }

/-- The state after an iteration's dots, and whether the frame is done. -/
def State.afterDots (s : State) (armed : Bool) : State × Bool := runDots (3 * iterationCycles s) (s.beforeDots armed, false)

/-- The dots leave the bus, the APU, the registers and the counters that they start from. -/
theorem afterDots_dotStep (s : State) (armed : Bool) : (s.beforeDots armed).dotStep (s.afterDots armed).1 :=
  runDots_dotStep _ (s.beforeDots armed, false)

/-- What the loop's catching up makes of the state `t` that the CPU's step gave: its dots, the APU's cycles, the polls of both
IRQ lines, and the cycle counter (R330-R334, R312). -/
structure State.caughtUp (p : Config.Params) (armed : Bool) (t u : State) : Prop where
  bus : u.bus = { t.bus with pendingDma := 0#16 }
  ppu : u.ppu = (t.afterDots armed).1.ppu
  apu : u.apu = runApu p.lowpassAlpha (iterationCycles t) t.apu
  cart : u.cart = (t.afterDots armed).1.cart.irqClear
  cpu : u.cpu = { t.cpu with
    nmiPending := (t.afterDots armed).1.cpu.nmiPending
    irqPending := (t.cpu.irqPending || (t.afterDots armed).1.cart.irqPending) || (p.apuIrqRouted && u.apu.frameIrq) }
  loop : u.loop = { t.loop with
    cycleCount := t.loop.cycleCount + BitVec.ofNat 64 (iterationCycles t)
    nmiDelayArmed := (t.afterDots armed).1.loop.nmiDelayArmed }

theorem catchUp_caughtUp (p : Config.Params) (armed : Bool) (t : State) : t.caughtUp p armed (catchUp p armed t).1 := by
  have hd := afterDots_dotStep t armed
  unfold catchUp
  simp only [pollMapper_eq]
  constructor
  case bus => exact hd.bus
  case ppu => rfl
  case apu => exact congrArg (runApu p.lowpassAlpha (iterationCycles t)) hd.apu
  case cart => rfl
  case cpu => exact congrArg (fun c : Cpu => (c.triggerIrq _).triggerIrq _) hd.cpu
  case loop =>
    exact congrArg (fun l : Loop => { l with cycleCount := l.cycleCount + BitVec.ofNat 64 (iterationCycles t) }) hd.loop

section CaughtUp
variable {p : Config.Params} {armed : Bool} {t u : State} (h : t.caughtUp p armed u)
include h

theorem State.caughtUp.nmiPending : u.cpu.nmiPending = (t.afterDots armed).1.cpu.nmiPending := by rw [h.cpu]

theorem State.caughtUp.irqPending : u.cpu.irqPending =
    ((t.cpu.irqPending || (t.afterDots armed).1.cart.irqPending) || (p.apuIrqRouted && u.apu.frameIrq)) := by rw [h.cpu]

theorem State.caughtUp.nmiDelayArmed : u.loop.nmiDelayArmed = (t.afterDots armed).1.loop.nmiDelayArmed := by rw [h.loop]

end CaughtUp

/-- An iteration is a CPU step of at least two cycles and the loop's catching up (R330). -/
theorem loopIteration_cases {p : Config.Params} {s : State} {r : State × Bool} (h : loopIteration p s = .next r) :
    ∃ t, cpuStepWith p { s with loop := { s.loop with nmiDelayArmed := false } } = .next t
      ∧ isStepCount t.loop.stepCycles
      ∧ t.caughtUp p s.loop.nmiDelayArmed r.1 ∧ r.2 = (t.afterDots s.loop.nmiDelayArmed).2 := by
  obtain ⟨t, ht, hcount⟩ := cpuStepWith_next p { s with loop := { s.loop with nmiDelayArmed := false } }
  rw [loopIteration, ht] at h
  obtain rfl := Host.Outcome.next.inj h
  exact ⟨t, ht, hcount, catchUp_caughtUp p _ t, rfl⟩

/-- What an iteration leaves of the loop and the buttons. -/
theorem loopIteration_frame {p : Config.Params} {s : State} {r : State × Bool} (h : loopIteration p s = .next r) :
    r.1.loop = { s.loop with
      cycleCount := r.1.loop.cycleCount, stepCycles := r.1.loop.stepCycles, nmiDelayArmed := r.1.loop.nmiDelayArmed }
    ∧ r.1.bus.port0.state = s.bus.port0.state ∧ r.1.bus.port1.state = s.bus.port1.state := by
  obtain ⟨t, ht, -, hu, -⟩ := loopIteration_cases h
  obtain ⟨hloop, ⟨hport0, hport1⟩, -⟩ := (accesses_of_cpuStepWith ht).outside
  rw [hu.loop, hu.bus, hloop]
  exact ⟨rfl, hport0, hport1⟩

/-- Settles O40: the counters and the DMA by what the catching up does, the position by that of the same dots on their own. -/
theorem iterationRunsThreeDotsPerCycle : Obligations.IterationRunsThreeDotsPerCycle := by
  intro p s u done h
  obtain ⟨t, ht, -, hu, -⟩ := loopIteration_cases h
  obtain ⟨hloop, hport0, hport1⟩ := loopIteration_frame h
  obtain ⟨hcpuLoop, -, -, hcpuApu, -⟩ := (accesses_of_cpuStepWith ht).outside
  refine ⟨t, ht, ?cycles, ?apu, ?dma, ?position, hport0, hport1, ?frames⟩
  case cycles =>
    rw [hu.loop, hcpuLoop]
    rfl
  case apu =>
    rw [hu.apu, runApu_cycle, hcpuApu]
    rfl
  case dma =>
    rw [hu.bus]
    rfl
  case frames => rw [hloop]
  case position =>
    rw [hu.ppu]
    exact congrArg (fun g : Grid => (g.scanline, g.cycle, g.frame)) (runDots_grid _ _)

/-- The mapper that is polled is the one the iteration began with (63_cartridge_mappers.md R560). -/
theorem afterDots_mapper {p : Config.Params} {s t : State} (ht : cpuStepWith p s = .next t) (armed : Bool) :
    (t.afterDots armed).1.cart.mapper.number = s.cart.mapper.number := by
  obtain ⟨-, -, -, -, himage⟩ := (accesses_of_cpuStepWith ht).outside
  obtain ⟨-, -, hnumber⟩ := Cartridge.sameImage_trans himage (runDots_sameImage _ (t.beforeDots armed, false))
  exact hnumber

/-- Settles O42: the armed NMI is latched before the dots and each dot's NMI after it, and no later dot withdraws either; the
polls after the dots only set the IRQ latch. -/
theorem loopHandsOverInterrupts : Obligations.LoopHandsOverInterrupts := by
  intro p s u done h
  obtain ⟨t, ht, hcount, hu, -⟩ := loopIteration_cases h
  have hd := afterDots_dotStep t s.loop.nmiDelayArmed
  have hafter {k : Nat} (hk : k < 3 * iterationCycles t) :
      (dotOnce (runDots k (t.beforeDots s.loop.nmiDelayArmed, false))).1.dotStep (t.afterDots s.loop.nmiDelayArmed).1 :=
    dotStep_of_lt hk _
  refine ⟨fun harmed => hu.nmiPending.trans (hd.nmiPending ?armed), ?cleared, t, ht, fun hlatch => ?kept, fun hcart => ?mapper, ?cpu,
    fun hrouted hmmc3 => ?notRouted, fun hrouted hframe => ?routed, fun htrig hlatched hdelayed => ?delayed,
    fun k hk => ⟨fun htrig => ?immediate, fun htrig hdelayed => ?arms⟩⟩
  case armed =>
    rw [State.beforeDots, harmed]
    exact Bool.or_true _
  case cleared =>
    rw [hu.cart]
    exact irqClear_irqPending _
  case kept => rw [hu.irqPending, hlatch, Bool.true_or, Bool.true_or]
  case mapper => rw [hu.irqPending, hd.cartIrq hcart, Bool.or_true, Bool.true_or]
  case cpu => rw [hu.cpu]
  case notRouted =>
    have hnumber : s.cart.mapper.number ≠ 4 := fun h4 =>
      have ⟨m, hm⟩ := mmc3_of_number h4
      hmmc3 m hm
    have hnone : (t.afterDots s.loop.nmiDelayArmed).1.cart.irqPending = false :=
      irqPending_of_not_mmc3 (by rwa [afterDots_mapper ht])
    rw [hu.irqPending, hnone, hrouted, Bool.or_false, Bool.false_and, Bool.or_false]
  case routed => rw [hu.irqPending, hrouted, hframe, Bool.and_true, Bool.or_true]
  case delayed =>
    obtain ⟨htrig', hdelayed'⟩ := dot_nmi_of_not_latched (v := t.video) hlatched
    have hpos : 0 < 3 * iterationCycles t := by
      have hle : t.loop.stepCycles ≤ iterationCycles t := Nat.le_add_right _ _
      omega
    exact hu.nmiDelayArmed.trans ((hafter hpos).nmiDelayArmed (dotOnce_delayed (htrig'.trans htrig) (hdelayed'.trans hdelayed)))
  case immediate => exact hu.nmiPending.trans ((hafter hk).nmiPending (dotOnce_immediate htrig))
  case arms => exact hu.nmiDelayArmed.trans ((hafter hk).nmiDelayArmed (dotOnce_delayed htrig hdelayed))

end Sys2Proof.Machine
end

section
/-! PROOFS. A frame ends (60_exceptions.md R330, R335, R336): every dot brings the PPU nearer to (241, 1), every iteration runs at
least six dots, and the fuel is enough for the longest way. -/

namespace Sys2Proof.Machine

/-! ## The way to (241, 1) -/

section Position
variable {p q : Ppu} (hline : q.scanline = p.scanline) (hcycle : q.cycle = p.cycle)
include hline hcycle

theorem onGrid_congr (h : p.onGrid) : q.onGrid := by
  rwa [Ppu.onGrid, hline, hcycle]

theorem dotsToVblank_congr : q.dotsToVblank = p.dotsToVblank := by
  simp only [Ppu.dotsToVblank, Ppu.frameCycle, hline, hcycle]

end Position

/-- A dot and its polls stay on the grid, and complete the frame or come a dot nearer to it. -/
theorem dotOnce_nears_vblank {r : State × Bool} (h : r.1.ppu.onGrid) :
    (dotOnce r).1.ppu.onGrid
      ∧ ((dotOnce r).2 = true ∨ (dotOnce r).1.ppu.dotsToVblank + 1 ≤ r.1.ppu.dotsToVblank) := by
  obtain ⟨hgrid, hnear⟩ := dot_nears_vblank (v := r.1.video) h
  have hline : (dotOnce r).1.ppu.scanline = r.1.video.dot.ppu.scanline := congrArg Grid.scanline (dotOnce_grid r)
  have hcycle : (dotOnce r).1.ppu.cycle = r.1.video.dot.ppu.cycle := congrArg Grid.cycle (dotOnce_grid r)
  rw [dotOnce_done, dotsToVblank_congr hline hcycle]
  refine ⟨onGrid_congr hline hcycle hgrid, hnear.imp_left fun hcomplete => ?_⟩
  rw [hcomplete, Bool.or_true]

/-- `k` dots stay on the grid, and complete the frame or come `k` dots nearer to it. -/
theorem runDots_nears_vblank (k : Nat) {r : State × Bool} (h : r.1.ppu.onGrid) :
    (runDots k r).1.ppu.onGrid
      ∧ ((runDots k r).2 = true ∨ (runDots k r).1.ppu.dotsToVblank + k ≤ r.1.ppu.dotsToVblank) := by
  induction k with
  | zero => exact ⟨h, .inr le_rfl⟩
  | succ k ih =>
    obtain ⟨hgrid, hk⟩ := ih
    obtain ⟨hgrid', hnear⟩ := dotOnce_nears_vblank hgrid
    rw [runDots_succ]
    refine ⟨hgrid', ?_⟩
    obtain hdone | hk := hk
    · exact .inl (by rw [dotOnce_done, hdone, Bool.true_or])
    · exact hnear.imp_right fun hnear => by omega

/-! ## The loop -/

/-- The CPU's accesses do not move the PPU (61_ppu.md R402). -/
theorem accesses_position {s t : State} (h : s.Accesses t) :
    t.ppu.scanline = s.ppu.scanline ∧ t.ppu.cycle = s.ppu.cycle := by
  obtain ⟨-, -, hppu, -⟩ := h.outside
  rw [hppu]
  exact ⟨rfl, rfl⟩

/-- An iteration stays on the grid, and completes the frame or comes six dots nearer to it (R336). -/
theorem loopIteration_nears_vblank {p : Config.Params} {s : State} {r : State × Bool} (hs : s.ppu.onGrid)
    (h : loopIteration p s = .next r) :
    r.1.ppu.onGrid ∧ (r.2 = true ∨ r.1.ppu.dotsToVblank + 6 ≤ s.ppu.dotsToVblank) := by
  obtain ⟨t, ht, ⟨hcount, -⟩, hu, hdone⟩ := loopIteration_cases h
  obtain ⟨hline, hcycle⟩ := accesses_position (accesses_of_cpuStepWith ht)
  obtain ⟨hgrid, hnear⟩ := runDots_nears_vblank (3 * iterationCycles t) (r := (t.beforeDots s.loop.nmiDelayArmed, false))
    (onGrid_congr hline hcycle hs)
  have hdist : (t.beforeDots s.loop.nmiDelayArmed).ppu.dotsToVblank = s.ppu.dotsToVblank := dotsToVblank_congr hline hcycle
  have hcycles : t.loop.stepCycles ≤ iterationCycles t := Nat.le_add_right _ _
  rw [hdist] at hnear
  rw [hu.ppu, hdone]
  exact ⟨hgrid, hnear.imp_right fun hnear => (Nat.add_le_add_left (by omega) _).trans hnear⟩

/-- What a frame that began in `s` leaves: the frame counted, and the inputs given to it as the buttons (R335, 20_memory.md
R78). -/
structure State.frameEnded (s t : State) : Prop where
  grid : t.ppu.onGrid
  frameCount : t.loop.frameCount = s.loop.frameCount + 1
  port0 : t.bus.port0.state = s.loop.input1
  port1 : t.bus.port1.state = s.loop.input2

/-- An iteration changes no input and counts no frame, so a frame's end is the same from before it. -/
theorem frameEnded_of_loopIteration {p : Config.Params} {s t : State} {r : State × Bool} (h : loopIteration p s = .next r)
    (hr : r.1.frameEnded t) : s.frameEnded t := by
  obtain ⟨hloop, -⟩ := loopIteration_frame h
  obtain ⟨hgrid, hcount, hport0, hport1⟩ := hr
  rw [hloop] at hcount hport0 hport1
  exact ⟨hgrid, hcount, hport0, hport1⟩

/-- The loop ends when its fuel is enough for the way at six dots an iteration. -/
theorem frameLoop_ends (p : Config.Params) (fuel : Nat) :
    ∀ s : State, s.ppu.onGrid → s.ppu.dotsToVblank ≤ 6 * fuel → ∃ t, frameLoop p fuel s = some t ∧ s.frameEnded t := by
  induction fuel with
  | zero =>
    intro s _ hfuel
    have := (dotsToVblank_bounds s.ppu).1
    omega
  | succ fuel ih =>
    intro s hs hfuel
    obtain ⟨r, hr⟩ := loopIteration_next p s
    obtain ⟨hgrid, hnear⟩ := loopIteration_nears_vblank hs hr
    rw [frameLoop, hr]
    dsimp only
    split
    · exact ⟨_, rfl, frameEnded_of_loopIteration hr ⟨hgrid, rfl, rfl, rfl⟩⟩
    · next hdone =>
      obtain ⟨t, ht, hended⟩ := ih r.1 hgrid (by have := hnear.resolve_left hdone; omega)
      exact ⟨t, ht, frameEnded_of_loopIteration hr hended⟩

/-- From every state on the grid `run_frame` ends: 15000 iterations are more than the 89342 dots of a frame (R336). -/
theorem runFrame_ends (p : Config.Params) (input1 input2 : U32) {s : State} (h : s.ppu.onGrid) :
    ∃ t, runFrame p input1 input2 s = some t ∧ t.ppu.onGrid ∧ t.loop.frameCount = s.loop.frameCount + 1
      ∧ t.bus.port0.state = input1 ∧ t.bus.port1.state = input2 := by
  have hfuel : s.ppu.dotsToVblank ≤ 6 * frameFuel := (dotsToVblank_bounds s.ppu).2.trans (by decide)
  obtain ⟨t, ht, hgrid, hcount, hport0, hport1⟩ :=
    frameLoop_ends p frameFuel { s with loop := { s.loop with input1 := input1, input2 := input2 } } h hfuel
  exact ⟨t, ht, hgrid, hcount, hport0, hport1⟩

/-- Settles O41: `runFrame_ends`, and with one input the second is 0. -/
theorem frameAlwaysEnds : Obligations.FrameAlwaysEnds := by
  intro p input1 input2 s hs
  obtain ⟨t, ht, hgrid, hcount, hport0, hport1⟩ := runFrame_ends p input1 input2 hs
  obtain ⟨u, hu, -, -, huport0, huport1⟩ := runFrame_ends p input1 0 hs
  exact ⟨t, ht, hgrid, hcount, hport0, hport1, u, hu, huport0, huport1⟩

end Sys2Proof.Machine
end

section
/-! PROOFS. The rate conversion (62_apu.md R530, R532): the accumulator is a division with remainder carried from cycle to cycle,
and the ring only grows at its end. -/

namespace Sys2Proof.Machine

/-! ## One cycle -/

theorem apuStep_outAcc (alpha : F32) {a : Apu} (h : a.outAcc < Config.cpuFreq) :
    (a.step alpha).outAcc.toNat = (a.outAcc.toNat + 44100) % 1789773 := by
  have hacc : (Apu.clockFrameCounter { a with cycle := a.cycle + 1#64 }).clockTimers.outAcc = a.outAcc :=
    (clockTimers_fields _).2.2.trans (clockFrameCounter_fields _).2
  rw [Apu.step, emitSample_outAcc _ _ (by rwa [hacc]), hacc]

/-- A pair goes to the end of the ring, if there is room (R532, D42). -/
theorem pushPair_grows {ring : List (F32 × F32)} (h : ring.length ≤ 8192) (y : F32) :
    ring <+: pushPair ring y ∧ (pushPair ring y).length = min 8192 (ring.length + 1) := by
  unfold pushPair
  rw [Config.audioRingPairs]
  split
  · refine ⟨List.prefix_append _ _, ?_⟩
    rw [List.length_append, List.length_singleton]
    omega
  · exact ⟨List.prefix_rfl, by omega⟩

/-- A sample is put out when the accumulator reaches the CPU's frequency (R530). -/
theorem emitSample_grows (alpha m : F32) {a : Apu} (h : a.outAcc < Config.cpuFreq) (hr : a.ring.length ≤ 8192) :
    a.ring <+: (a.emitSample alpha m).ring
      ∧ (a.emitSample alpha m).ring.length = min 8192 (a.ring.length + (a.outAcc.toNat + 44100) / 1789773) := by
  have hdue : Config.cpuFreq ≤ a.outAcc + Config.sampleRate ↔ 1789773 ≤ a.outAcc.toNat + 44100 := by
    simp only [Config.cpuFreq, Config.sampleRate] at h ⊢
    bv_omega
  have hlt : a.outAcc.toNat < 1789773 := h
  unfold Apu.emitSample
  split
  · next hd =>
    obtain ⟨hp, hl⟩ := pushPair_grows hr (lowpass alpha a.filterState (a.average m))
    refine ⟨hp, ?_⟩
    rw [putSample_ring, hl]
    have := hdue.1 hd
    omega
  · next hd =>
    have := mt hdue.2 hd
    exact ⟨List.prefix_rfl, by show a.ring.length = _; omega⟩

theorem apuStep_grows (alpha : F32) {a : Apu} (h : a.outAcc < Config.cpuFreq) (hr : a.ring.length ≤ 8192) :
    a.ring <+: (a.step alpha).ring
      ∧ (a.step alpha).ring.length = min 8192 (a.ring.length + (a.outAcc.toNat + 44100) / 1789773) := by
  rw [Apu.step]
  obtain ⟨hring, hacc⟩ := clockFrameCounter_fields { a with cycle := a.cycle + 1#64 }
  generalize Apu.clockFrameCounter { a with cycle := a.cycle + 1#64 } = b at hring hacc ⊢
  obtain ⟨hring', -, hacc'⟩ := clockTimers_fields b
  rw [hring] at hring'
  rw [hacc] at hacc'
  have hgrows := emitSample_grows alpha b.clockTimers.mix (a := b.clockTimers) (hacc' ▸ h) (hring' ▸ hr)
  rwa [hring', hacc'] at hgrows

theorem apuStep_outAcc_lt (alpha : F32) {a : Apu} (h : a.outAcc < Config.cpuFreq) :
    (a.step alpha).outAcc < Config.cpuFreq := by
  rw [BitVec.lt_def, apuStep_outAcc alpha h]
  exact Nat.mod_lt _ (by decide)

/-! ## Any number of cycles -/

theorem runApu_outAcc (alpha : F32) (n : Nat) : ∀ {a : Apu}, a.outAcc < Config.cpuFreq →
    (runApu alpha n a).outAcc.toNat = (44100 * n + a.outAcc.toNat) % 1789773 := by
  induction n with
  | zero =>
    intro a h
    rw [runApu, Nat.mul_zero, Nat.zero_add]
    exact (Nat.mod_eq_of_lt h).symm
  | succ n ih =>
    intro a h
    rw [runApu, ih (apuStep_outAcc_lt alpha h), apuStep_outAcc alpha h]
    omega

/-- The samples of a span are those of its first cycle and those of the rest, whose accumulator is the remainder. -/
theorem runApu_grows (alpha : F32) (n : Nat) : ∀ {a : Apu}, a.outAcc < Config.cpuFreq → a.ring.length ≤ 8192 →
    a.ring <+: (runApu alpha n a).ring
      ∧ (runApu alpha n a).ring.length = min 8192 (a.ring.length + (44100 * n + a.outAcc.toNat) / 1789773) := by
  induction n with
  | zero =>
    intro a h hr
    have hlt : a.outAcc.toNat < 1789773 := h
    exact ⟨List.prefix_rfl, by rw [runApu]; omega⟩
  | succ n ih =>
    intro a h hr
    have hacc := apuStep_outAcc alpha h
    obtain ⟨hprefix, hlength⟩ := apuStep_grows alpha h hr
    obtain ⟨hprefix', hlength'⟩ := ih (a := a.step alpha) (apuStep_outAcc_lt alpha h) (by omega)
    rw [runApu]
    exact ⟨hprefix.trans hprefix', by omega⟩

/-- Settles O54, by induction over the cycles: each hands the remainder of its division to the next. -/
theorem sampleRateDoesNotDrift : Obligations.SampleRateDoesNotDrift := by
  intro alpha n a h
  refine ⟨runApu_outAcc alpha n h, runApu_cycle alpha n a, fun hr => ?_⟩
  obtain ⟨hprefix, hlength⟩ := runApu_grows alpha n h hr
  exact ⟨hlength, (List.prefix_iff_eq_take.1 hprefix).symm⟩

end Sys2Proof.Machine
end

section
/-! PROOFS. The APU's registers (62_apu.md R512, R517, R518) and its frame sequencer (R503, R525). -/

namespace Sys2Proof.Machine

/-! ## 0x4015 -/

/-- The status byte as a number: one bit for each length that is not 0, and one for the frame IRQ (R517). -/
theorem readStatus_toNat (a : Apu) :
    a.readStatus.1.toNat = (if a.pulse0.length = 0#8 then 0 else 1) + (if a.pulse1.length = 0#8 then 0 else 2)
      + (if a.tri.length = 0#8 then 0 else 4) + (if a.noise.length = 0#8 then 0 else 8) + (if a.frameIrq then 64 else 0) := by
  simp only [Apu.readStatus, ite_not]
  split_ifs <;> rfl

/-- Settles O51: the bus hands 0x4015 to the APU's status read and its enable write. -/
theorem apuStatusAndEnable : Obligations.ApuStatusAndEnable := fun _ s =>
  ⟨⟨rfl, readStatus_toNat s.apu⟩, rfl, rfl, rfl, rfl, rfl, rfl⟩

/-! ## The timer registers of a pulse channel -/

theorem getLsbD_mkWord (h l : Byte) (i : Nat) :
    (mkWord h l).getLsbD i = if i < 8 then l.getLsbD i else h.getLsbD (i - 8) :=
  BitVec.getLsbD_append

/-- The two writes leave nothing of the old period (R512). -/
theorem periodHigh_periodLow (p : Word) (lo hi : Byte) :
    periodHigh (periodLow p lo) hi = BitVec.ofNat 16 (hi.toNat % 8 * 256 + lo.toNat) := by
  have hlow : (hi &&& 0x07#8).toNat = hi.toNat % 8 := by
    rw [BitVec.toNat_and]
    exact Nat.and_two_pow_sub_one_eq_mod _ 3
  rw [← hlow, ← mkWord_eq_ofNat]
  apply BitVec.eq_of_getLsbD_eq
  intro i hi
  rw [getLsbD_mkWord]
  interval_cases i <;> simp [periodHigh, periodLow, zext16]

theorem pulse_timerWrites (p : Pulse) (lo hi : Byte) :
    (p.write 2 lo).write 3 hi = { p with
      period := BitVec.ofNat 16 (hi.toNat % 8 * 256 + lo.toNat)
      length := if p.enabled then lengthTable (hi.toNat / 8) else p.length
      seq := 0
      env := { p.env with start := true } } := by
  have hindex : (hi >>> 3).toNat = hi.toNat / 8 := by
    rw [BitVec.toNat_ushiftRight, Nat.shiftRight_eq_div_pow]
  rw [← periodHigh_periodLow p.period lo hi, ← hindex]
  rfl

/-- Settles O52: each channel's registers reach that channel alone. -/
theorem pulseTimerTakesTwoWrites : Obligations.PulseTimerTakesTwoWrites := fun lo hi a =>
  ⟨congrArg (fun p => { a with pulse0 := p }) (pulse_timerWrites a.pulse0 lo hi),
    congrArg (fun p => { a with pulse1 := p }) (pulse_timerWrites a.pulse1 lo hi)⟩

/-! ## What the frame sequencer reads and moves -/

/-- The APU but for what its frame sequencer reads and moves (R503, R525): everything else is as after reset. -/
def Apu.sequencing (a : Apu) : Apu :=
  { Apu.atReset with
    fiveStep := a.fiveStep, irqInhibit := a.irqInhibit, frameIrq := a.frameIrq, fcCycles := a.fcCycles, fcStep := a.fcStep
    pulse0 := { Pulse.atReset with length := a.pulse0.length, env := { Envelope.atReset with halt := a.pulse0.env.halt } }
    pulse1 := { Pulse.atReset with length := a.pulse1.length, env := { Envelope.atReset with halt := a.pulse1.env.halt } }
    tri := { Triangle.atReset with length := a.tri.length, control := a.tri.control }
    noise := { Noise.atReset with length := a.noise.length, env := { Envelope.atReset with halt := a.noise.env.halt } } }

@[simp] theorem envelopeClock_halt (e : Envelope) : e.clock.halt = e.halt := by
  simp only [Envelope.clock, apply_ite Envelope.halt, ite_self]

@[simp] theorem clockSweep_length (first : Bool) (p : Pulse) : (p.clockSweep first).length = p.length := by
  simp only [Pulse.clockSweep, apply_ite Pulse.length, ite_self]

@[simp] theorem clockSweep_env (first : Bool) (p : Pulse) : (p.clockSweep first).env = p.env := by
  simp only [Pulse.clockSweep, apply_ite Pulse.env, ite_self]

theorem quarter_sequencing (a : Apu) : a.quarter.sequencing = a.sequencing := by
  simp [Apu.sequencing, Apu.quarter, Triangle.clockLinear]

/-- The lengths clocked, the part of `half()` that the sweeps do not touch (R525). -/
def Apu.clockLengths (a : Apu) : Apu :=
  { a with
    pulse0 := { a.pulse0 with length := clockLength a.pulse0.env.halt a.pulse0.length }
    pulse1 := { a.pulse1 with length := clockLength a.pulse1.env.halt a.pulse1.length }
    tri := { a.tri with length := clockLength a.tri.control a.tri.length }
    noise := { a.noise with length := clockLength a.noise.env.halt a.noise.length } }

theorem half_sequencing (a : Apu) : a.half.sequencing = a.sequencing.clockLengths := by
  simp [Apu.sequencing, Apu.half, Apu.clockLengths]

section Congr
variable {a b : Apu} (h : a.sequencing = b.sequencing)
include h

theorem quarter_congr : a.quarter.sequencing = b.quarter.sequencing := by
  rw [quarter_sequencing, quarter_sequencing, h]

theorem half_congr : a.half.sequencing = b.half.sequencing := by
  rw [half_sequencing, half_sequencing b, h]

/-- A step of the sequencer depends on `Apu.sequencing` alone (R503). -/
theorem sequencerStep_congr : a.sequencerStep.sequencing = b.sequencerStep.sequencing := by
  have hfive : a.fiveStep = b.fiveStep := (congrArg Apu.fiveStep h :)
  have hstep : a.fcStep = b.fcStep := (congrArg Apu.fcStep h :)
  have hnext : Apu.sequencing { a with fiveStep := b.fiveStep, fcStep := b.fcStep + 1#8 } =
      Apu.sequencing { b with fcStep := b.fcStep + 1#8 } :=
    (congrArg (fun s : Apu => { s with fiveStep := b.fiveStep, fcStep := b.fcStep + 1#8 }) h :)
  have hclocked := half_congr (quarter_congr hnext)
  unfold Apu.sequencerStep
  dsimp only
  rw [hfive, hstep]
  split
  · exact quarter_congr hnext
  · exact hclocked
  · exact quarter_congr hnext
  · exact (congrArg (fun s : Apu => { s with fcStep := 0#8, frameIrq := s.frameIrq || !s.irqInhibit }) hclocked :)
  · exact (congrArg (fun s : Apu => { s with fcStep := 0#8 }) hclocked :)
  · exact hnext

end Congr

@[simp] theorem sequencing_sequencing (a : Apu) : a.sequencing.sequencing = a.sequencing := rfl
@[simp] theorem sequencing_fcCycles (a : Apu) : a.sequencing.fcCycles = a.fcCycles := rfl
@[simp] theorem sequencing_frameIrq (a : Apu) : a.sequencing.frameIrq = a.frameIrq := rfl

/-! ## The frame counter of one cycle -/

theorem clockTimers_sequencing (a : Apu) : a.clockTimers.sequencing = a.sequencing := by
  have hp : ∀ p : Pulse, p.clockTimer.length = p.length ∧ p.clockTimer.env = p.env := fun p => by
    simp only [Pulse.clockTimer, apply_ite Pulse.length, apply_ite Pulse.env, ite_self, and_self]
  have ht : a.tri.clockTimer.length = a.tri.length ∧ a.tri.clockTimer.control = a.tri.control := by
    simp only [Triangle.clockTimer, apply_ite Triangle.length, apply_ite Triangle.control, ite_self, and_self]
  have hn : a.noise.clockTimer.length = a.noise.length ∧ a.noise.clockTimer.env = a.noise.env := by
    simp only [Noise.clockTimer, apply_ite Noise.length, apply_ite Noise.env, ite_self, and_self]
  unfold Apu.clockTimers
  dsimp only
  split <;> simp only [Apu.sequencing, hp, ht, hn]

theorem emitSample_sequencing (alpha : F32) (a : Apu) (m : F32) : (a.emitSample alpha m).sequencing = a.sequencing := by
  unfold Apu.emitSample Apu.putSample
  split <;> simp only [Apu.sequencing]

/-- Of the parts of an APU cycle only the frame counter touches what the sequencer reads and moves (R502). -/
theorem apuStep_sequencing (alpha : F32) (a : Apu) : (a.step alpha).sequencing = a.clockFrameCounter.sequencing := by
  rw [Apu.step, emitSample_sequencing, clockTimers_sequencing]
  unfold Apu.clockFrameCounter
  dsimp only
  split
  · exact sequencerStep_congr rfl
  · rfl

/-- Short of the period the frame counter only counts (R503, D26). -/
theorem runApu_counts (alpha : F32) (k : Nat) : ∀ {a : Apu}, a.fcCycles.toNat + k < 7457 →
    (runApu alpha k a).sequencing = { a.sequencing with fcCycles := a.fcCycles + BitVec.ofNat 16 k } := by
  induction k with
  | zero => exact fun _ => by rw [runApu, BitVec.add_zero]; rfl
  | succ k ih =>
    intro a h
    have hcount : (a.step alpha).sequencing = { a.sequencing with fcCycles := a.fcCycles + 1#16 } := by
      rw [apuStep_sequencing, Apu.clockFrameCounter, if_neg]
      · rfl
      · rw [Config.frameCounterPeriod]
        bv_omega
    have hcycles : (a.step alpha).fcCycles = a.fcCycles + 1#16 := by rw [← sequencing_fcCycles, hcount]
    rw [runApu, ih (by rw [hcycles]; bv_omega), hcycles, hcount, BitVec.add_assoc, BitVec.add_comm 1#16, BitVec.ofNat_add]

theorem runApu_add (alpha : F32) (j k : Nat) : ∀ a : Apu, runApu alpha (j + k) a = runApu alpha k (runApu alpha j a) := by
  induction j with
  | zero => exact fun a => by rw [Nat.zero_add, runApu]
  | succ j ih => exact fun a => by rw [Nat.succ_add, runApu, runApu, ih]

theorem runApu_succ (alpha : F32) (k : Nat) (a : Apu) : runApu alpha (k + 1) a = (runApu alpha k a).step alpha :=
  runApu_add alpha k 1 a

/-- The cycle that reaches the period restarts the count and steps the sequencer. -/
theorem apuStep_wraps (alpha : F32) {a b : Apu} (hb : b.fcCycles + 1#16 = Config.frameCounterPeriod)
    (h : Apu.sequencing { b with fcCycles := 0#16 } = a.sequencing) :
    (b.step alpha).sequencing = a.sequencerStep.sequencing := by
  rw [apuStep_sequencing, Apu.clockFrameCounter, if_pos hb]
  exact sequencerStep_congr h

/-- A whole period ends in a step of the sequencer. -/
theorem runApu_period (alpha : F32) {a : Apu} (h : a.fcCycles = 0#16) {k : Nat} (hk : k + 1 = 7457) :
    (runApu alpha (k + 1) a).sequencing = a.sequencerStep.sequencing := by
  have hlast := runApu_counts alpha k (a := a) (by rw [h, BitVec.toNat_zero]; omega)
  rw [h, BitVec.zero_add] at hlast
  rw [runApu_succ]
  generalize runApu alpha k a = b at hlast
  have hcycles : b.fcCycles = BitVec.ofNat 16 k := by rw [← sequencing_fcCycles, hlast]
  refine apuStep_wraps alpha ?_ ?_
  · obtain rfl : k = 7456 := by omega
    rw [hcycles]
    rfl
  · have hstart : { a.sequencing with fcCycles := 0#16 } = a.sequencing := by
      cases a
      cases h
      rfl
    rw [← hstart]
    exact (congrArg (fun s : Apu => { s with fcCycles := 0#16 }) hlast :)

/-! ## A whole sequence -/

/-- `i` steps of the sequencer. -/
def Apu.sequenced (a : Apu) : Nat → Apu
  | 0 => a.sequencing
  | i + 1 => (a.sequenced i).sequencerStep.sequencing

theorem sequenced_fcCycles (a : Apu) (i : Nat) : (a.sequenced i).fcCycles = a.fcCycles := by
  induction i with
  | zero => rfl
  | succ i ih => rw [Apu.sequenced, sequencing_fcCycles, (sequencerStep_fields _).2.1, ih]

theorem runApu_periods (alpha : F32) {a : Apu} (h : a.fcCycles = 0#16) (i : Nat) :
    (runApu alpha (7457 * i) a).sequencing = a.sequenced i := by
  induction i with
  | zero => rfl
  | succ i ih =>
    have hcycles : (runApu alpha (7457 * i) a).fcCycles = 0#16 := by
      rw [← sequencing_fcCycles, ih, sequenced_fcCycles, h]
    rw [Nat.mul_succ, runApu_add, runApu_period alpha hcycles (k := 7456) rfl, Apu.sequenced]
    exact sequencerStep_congr (by rw [ih]; cases i <;> rfl)

/-- The frame IRQ flag moves at the end of a period only. -/
theorem runApu_frameIrq (alpha : F32) {a : Apu} (h : a.fcCycles = 0#16) (k : Nat) :
    (runApu alpha k a).frameIrq = (a.sequenced (k / 7457)).frameIrq := by
  have hperiods := runApu_periods alpha h (k / 7457)
  have hcycles : (runApu alpha (7457 * (k / 7457)) a).fcCycles = 0#16 := by
    rw [← sequencing_fcCycles, hperiods, sequenced_fcCycles, h]
  rw [← hperiods, sequencing_frameIrq, ← Nat.div_add_mod k 7457, runApu_add, ← sequencing_frameIrq,
    runApu_counts alpha _ (by rw [hcycles]; exact Nat.zero_add _ ▸ Nat.mod_lt k (by decide)), Nat.div_add_mod]
  rfl

section SequencerSteps
variable {a : Apu}

/-- The first and the third step (R503). -/
theorem sequencerStep_quarter {k : Byte} (hk : k = 0#8 ∨ k = 2#8) (h : a.fcStep = k) :
    a.sequencerStep.sequencing = { a.sequencing with fcStep := k + 1#8 } := by
  unfold Apu.sequencerStep
  obtain rfl | rfl := hk <;> simp only [h]
  · exact quarter_sequencing _
  · exact quarter_sequencing _

/-- The second step. -/
theorem sequencerStep_half (h : a.fcStep = 1#8) :
    a.sequencerStep.sequencing = { a.sequencing.clockLengths with fcStep := 2#8 } := by
  unfold Apu.sequencerStep
  simp only [h]
  exact (half_sequencing _).trans (congrArg Apu.clockLengths (quarter_sequencing _))

/-- What the last step of either mode clocks. -/
theorem quarter_half_sequencing (b : Apu) : b.quarter.half.sequencing = b.sequencing.clockLengths := by
  rw [half_sequencing, quarter_sequencing]

/-- The fourth step of the 4-step mode: the last one, with the IRQ. -/
theorem sequencerStep_four (h : a.fcStep = 3#8) (hmode : a.fiveStep = false) : a.sequencerStep.sequencing =
    { a.sequencing.clockLengths with fcStep := 0#8, frameIrq := a.frameIrq || !a.irqInhibit } := by
  have hlast : a.sequencerStep = { a.quarter.half with fcStep := 0#8, frameIrq := a.frameIrq || !a.irqInhibit } := by
    cases a
    cases h
    cases hmode
    rfl
  rw [hlast, ← quarter_half_sequencing]
  rfl

/-- The fourth step of the 5-step mode, which is idle (D40). -/
theorem sequencerStep_idle (h : a.fcStep = 3#8) (hmode : a.fiveStep = true) :
    a.sequencerStep.sequencing = { a.sequencing with fcStep := 4#8 } := by
  have hidle : a.sequencerStep = { a with fcStep := 4#8 } := by
    cases a
    cases h
    cases hmode
    rfl
  rw [hidle]
  rfl

/-- The fifth step. -/
theorem sequencerStep_five (h : a.fcStep = 4#8) (hmode : a.fiveStep = true) :
    a.sequencerStep.sequencing = { a.sequencing.clockLengths with fcStep := 0#8 } := by
  have hlast : a.sequencerStep = { a.quarter.half with fcStep := 0#8 } := by
    cases a
    cases h
    cases hmode
    rfl
  rw [hlast, ← quarter_half_sequencing]
  rfl

theorem sequenced_one (h : a.fcStep = 0#8) : a.sequenced 1 = { a.sequencing with fcStep := 1#8 } :=
  sequencerStep_quarter (a := a.sequencing) (.inl rfl) h

theorem sequenced_two (h : a.fcStep = 0#8) : a.sequenced 2 = { a.sequencing.clockLengths with fcStep := 2#8 } := by
  rw [Apu.sequenced, sequenced_one h, sequencerStep_half rfl]
  rfl

theorem sequenced_three (h : a.fcStep = 0#8) : a.sequenced 3 = { a.sequencing.clockLengths with fcStep := 3#8 } := by
  rw [Apu.sequenced, sequenced_two h, sequencerStep_quarter (.inr rfl) rfl]
  rfl

theorem sequenced_four_of_fourStep (h : a.fcStep = 0#8) (hmode : a.fiveStep = false) : a.sequenced 4 =
    { a.sequencing.clockLengths.clockLengths with fcStep := 0#8, frameIrq := a.frameIrq || !a.irqInhibit } := by
  rw [Apu.sequenced, sequenced_three h, sequencerStep_four rfl (by exact hmode)]
  rfl

theorem sequenced_four_of_fiveStep (h : a.fcStep = 0#8) (hmode : a.fiveStep = true) :
    a.sequenced 4 = { a.sequencing.clockLengths with fcStep := 4#8 } := by
  rw [Apu.sequenced, sequenced_three h, sequencerStep_idle rfl (by exact hmode)]
  rfl

theorem sequenced_five (h : a.fcStep = 0#8) (hmode : a.fiveStep = true) :
    a.sequenced 5 = { a.sequencing.clockLengths.clockLengths with fcStep := 0#8 } := by
  rw [Apu.sequenced, sequenced_four_of_fiveStep h hmode, sequencerStep_five rfl (by exact hmode)]
  rfl

/-- The steps in a whole sequence (R503). -/
def Apu.sequenceSteps (a : Apu) : Nat := if a.fiveStep then 5 else 4

/-- What a whole sequence does. -/
theorem sequenced_whole (h : a.fcStep = 0#8) : a.sequenced a.sequenceSteps =
    { a.sequencing.clockLengths.clockLengths with
      fcStep := 0#8, frameIrq := a.frameIrq || (!a.fiveStep && !a.irqInhibit) } := by
  cases hmode : a.fiveStep with
  | false =>
    rw [Apu.sequenceSteps, hmode, if_neg Bool.false_ne_true, sequenced_four_of_fourStep h hmode]
    rfl
  | true =>
    rw [Apu.sequenceSteps, hmode, if_pos rfl, sequenced_five h hmode, Bool.not_true, Bool.false_and, Bool.or_false]
    rfl

/-- Before its end a sequence leaves the IRQ flag. -/
theorem sequenced_frameIrq_before (h : a.fcStep = 0#8) {i : Nat} (hi : i < a.sequenceSteps) :
    (a.sequenced i).frameIrq = a.frameIrq := by
  have h5 : i < 4 ∨ i = 4 ∧ a.fiveStep = true := by
    rw [Apu.sequenceSteps] at hi
    split at hi
    · next hmode =>
      have : i < 4 ∨ i = 4 := by omega
      exact this.imp_right fun h4 => ⟨h4, hmode⟩
    · exact .inl hi
  obtain hlt | ⟨rfl, hmode⟩ := h5
  · interval_cases i
    · rfl
    · rw [sequenced_one h]
      rfl
    · rw [sequenced_two h]
      rfl
    · rw [sequenced_three h]
      rfl
  · rw [sequenced_four_of_fiveStep h hmode]
    rfl

end SequencerSteps

/-- Settles O53: whole periods of counting, each ended by a step of the sequencer, and the sequence step by step. -/
theorem frameSequencerWraps : Obligations.FrameSequencerWraps := by
  intro alpha a hcycles hstep
  have hn : (if a.fiveStep then 37285 else 29828) = 7457 * a.sequenceSteps := by
    rw [Apu.sequenceSteps]
    split <;> rfl
  have hwhole : (runApu alpha (7457 * a.sequenceSteps) a).sequencing = _ :=
    (runApu_periods alpha hcycles a.sequenceSteps).trans (sequenced_whole hstep)
  dsimp only
  rw [hn]
  generalize runApu alpha (7457 * a.sequenceSteps) a = b at hwhole
  refine ⟨⟨?_, ?_, ?_⟩, fun k hk => ?_, ?_, ?_, ?_, ?_⟩
  · exact ((congrArg Apu.fcCycles hwhole :) : b.fcCycles = a.fcCycles).trans hcycles
  · exact (congrArg Apu.fcStep hwhole :)
  · exact (congrArg Apu.frameIrq hwhole :)
  · rw [runApu_frameIrq alpha hcycles, sequenced_frameIrq_before hstep (Nat.div_lt_of_lt_mul hk)]
  · exact (congrArg (fun s : Apu => s.tri.length) hwhole :)
  · exact (congrArg (fun s : Apu => s.pulse0.length) hwhole :)
  · exact (congrArg (fun s : Apu => s.pulse1.length) hwhole :)
  · exact (congrArg (fun s : Apu => s.noise.length) hwhole :)

end Sys2Proof.Machine
end

section
/-! PROOFS. The mappers (63_cartridge_mappers.md R557, R561, R562, R570, R595, R596): banks lie inside the ROM, and what the
registers of UxROM, MMC1 and MMC3 do. -/

namespace Sys2Proof.Machine

/-! ## Banks -/

theorem bankIndex_lt {n : Nat} (h : 0 < n) (b : Bank) : b.index n < n := by
  cases b <;> exact Nat.mod_lt _ h

/-- The last bank (R557). -/
theorem bankIndex_fromEnd_one {n : Nat} (h : 0 < n) : (Bank.fromEnd 1).index n = n - 1 := by
  have hn : n * 1 + n - 1 = n - 1 + n := by omega
  rw [Bank.index, hn, Nat.add_mod_right, Nat.mod_eq_of_lt (by omega)]

theorem prgByte_eq {c : Cartridge} {p : PrgSlot} (h : c.prgSize / p.size ≠ 0) :
    c.prgByte p = c.prgRom.read (p.bank.index (c.prgSize / p.size) * p.size + p.off) := by
  rw [Cartridge.prgByte, Cartridge.prgOffset, if_neg h]

theorem cpuRead_rom (c : Cartridge) {a : Nat} (h : 0x8000 ≤ a) : c.cpuRead a = c.prgByte (c.prgSlot a) := by
  rw [Cartridge.cpuRead, if_neg (by omega), if_neg (by omega)]

/-- A slot that shows the ROM: a whole number of 8 KiB, no larger than the ROM, with the address's offset inside it. -/
structure PrgSlot.shows (p : PrgSlot) (prgSize a : Nat) : Prop where
  whole : p.size % 8192 = 0
  fits : p.size ≤ prgSize
  inside : p.off < p.size
  offset : p.off % 8192 = a % 8192

section Windows
variable {n a : Nat} (hn : 32768 ≤ n) (h : 0x8000 ≤ a) (h' : a < 0x10000)
include hn h h'

theorem slot32_shows (bank : Nat) : (slot32 bank a).shows n a := by
  constructor <;> simp only [slot32] <;> omega

theorem slot16Last_shows (bank : Nat) : (slot16Last bank a).shows n a := by
  unfold slot16Last
  split <;> constructor <;> dsimp only <;> omega

theorem slot8_shows (b0 b1 b2 b3 : Bank) : (slot8 b0 b1 b2 b3 a).shows n a := by
  unfold slot8
  repeat' split
  all_goals constructor <;> dsimp only <;> omega

theorem mmc1Slot_shows (m : Mmc1) : (m.prgSlot a).shows n a := by
  unfold Mmc1.prgSlot
  dsimp only
  split
  · split <;> constructor <;> dsimp only <;> omega
  · exact slot16Last_shows hn h h' _
  · exact slot32_shows hn h h' _

end Windows

/-- In a ROM of at least 32 KiB every window from 0x8000 on shows the ROM, whatever the registers hold (R557). -/
theorem prgSlot_shows {c : Cartridge} (hc : c.sizesOk) (hn : 32768 ≤ c.prgSize) {a : Nat} (h : 0x8000 ≤ a)
    (h' : a < 0x10000) : (c.prgSlot a).shows c.prgSize a := by
  have hwhole : PrgSlot.shows ⟨c.prgSize, .at 0, (a - 0x8000) % c.prgSize⟩ c.prgSize a := by
    have hsmall : a - 0x8000 < c.prgSize := by omega
    refine ⟨by dsimp only; omega, Nat.le_refl _, Nat.mod_lt _ (by omega), ?_⟩
    dsimp only
    rw [Nat.mod_eq_of_lt hsmall]
    omega
  unfold Cartridge.prgSlot
  split
  · exact hwhole
  · exact mmc1Slot_shows hn h h' _
  · exact slot16Last_shows hn h h' _
  · exact hwhole
  · split <;> exact slot8_shows hn h h' _ _ _ _
  · exact slot32_shows hn h h' _
  · exact slot8_shows hn h h' _ _ _ _
  · exact slot16Last_shows hn h h' _
  · exact slot32_shows hn h h' _
  · exact slot32_shows hn h h' _
  · exact slot32_shows hn h h' _
  · exact slot16Last_shows hn h h' _
  · exact slot32_shows hn h h' _
  · exact slot8_shows hn h h' _ _ _ _

/-- A slot that shows the ROM reads a byte of it. -/
theorem prgByte_of_shows {c : Cartridge} {p : PrgSlot} {a : Nat} (h : p.shows c.prgSize a) :
    ∃ k, k < c.prgSize ∧ k % 8192 = a % 8192 ∧ c.prgByte p = c.prgRom.read k := by
  obtain ⟨hwhole, hfits, hinside, hoffset⟩ := h
  have hbanks : 0 < c.prgSize / p.size := Nat.div_pos hfits (by omega)
  refine ⟨_, ?_, ?_, prgByte_eq (by omega)⟩
  · have hidx := Nat.mul_le_mul_right p.size (Nat.succ_le_of_lt (bankIndex_lt hbanks p.bank))
    have hall := Nat.div_mul_le_self c.prgSize p.size
    rw [Nat.succ_mul] at hidx
    omega
  · obtain ⟨k, hk⟩ := Nat.dvd_of_mod_eq_zero hwhole
    rw [← hoffset, hk, Nat.mul_left_comm, Nat.mul_add_mod]

theorem chrOffset_mod {n size bank off : Nat} (h : size % 1024 = 0) : chrOffset n size bank off % 1024 = off % 1024 := by
  obtain ⟨k, rfl⟩ := Nat.dvd_of_mod_eq_zero h
  rw [chrOffset, Nat.mul_left_comm, Nat.mul_add_mod]

/-- The CHR banks are whole kibibytes (R557). -/
theorem chrIndex_mod {c : Cartridge} (hc : c.sizesOk) (a : Nat) : c.chrIndex a % 1024 = a % 1024 := by
  obtain ⟨-, -, hsize, -⟩ := hc
  have hall : a % c.chrSize % 1024 = a % 1024 := Nat.mod_mod_of_dvd a (Nat.dvd_of_mod_eq_zero (by omega))
  have h8 : ∀ bank, chrOffset c.chrSize 8192 bank a % 1024 = a % 1024 := fun _ => chrOffset_mod rfl
  have hupper : ∀ bank, ¬a < 0x1000 → chrOffset c.chrSize 4096 bank (a - 0x1000) % 1024 = a % 1024 := fun bank h => by
    rw [chrOffset_mod rfl]
    omega
  have h4 : ∀ bank, chrOffset c.chrSize 4096 bank (a % 4096) % 1024 = a % 1024 := fun bank => by
    rw [chrOffset_mod rfl]
    omega
  have h1 : ∀ bank, chrOffset c.chrSize 1024 bank (a % 1024) % 1024 = a % 1024 := fun bank => by
    rw [chrOffset_mod rfl, Nat.mod_mod]
  unfold Cartridge.chrIndex
  split
  case h_9 =>
    repeat' split
    · exact chrOffset_mod rfl
    · exact hupper _ ‹_›
    · exact h8 _
  case h_10 =>
    repeat' split
    · exact hall
    · exact chrOffset_mod rfl
    · exact hupper _ ‹_›
  case h_11 | h_12 => exact h4 _
  case h_13 | h_14 => exact h1 _
  case h_5 | h_6 | h_7 | h_8 => exact h8 _
  all_goals exact hall

theorem cpuRead_nrom {c : Cartridge} (hc : c.sizesOk) (hm : c.mapper = .nrom) {a : Nat} (h : 0x8000 ≤ a) :
    c.cpuRead a = c.prgRom.read ((a - 0x8000) % c.prgSize) := by
  have hone : c.prgSize / c.prgSize = 1 := Nat.div_self hc.2.1
  have hslot : c.prgSlot a = ⟨c.prgSize, .at 0, (a - 0x8000) % c.prgSize⟩ := by rw [Cartridge.prgSlot, hm]
  rw [cpuRead_rom c h, hslot, prgByte_eq (by simp only [hone]; decide)]
  simp only [Bank.index, hone, Nat.mod_one, Nat.zero_mul, Nat.zero_add]

/-- Settles O55: every slot of every mapper shows the ROM, and every CHR index lies in the CHR. -/
theorem banksWrapIntoTheRom : Obligations.BanksWrapIntoTheRom := by
  refine fun c a hc => ⟨fun hn h h' => ?_, fun hm h _ => cpuRead_nrom hc hm h, fun h => ?_⟩
  · rw [cpuRead_rom c h]
    exact prgByte_of_shows (prgSlot_shows hc hn h h')
  · exact ⟨c.chrIndex a, chrIndex_lt hc h, chrIndex_mod hc a, rfl⟩

/-! ## UxROM -/

theorem prgSlot_uxrom {c : Cartridge} {bank : Byte} (hm : c.mapper = .uxrom bank) (a : Nat) :
    c.prgSlot a = slot16Last bank.toNat a := by
  rw [Cartridge.prgSlot, hm]

/-- Settles O56: the slot is `slot16Last`, a switched bank below 0xC000 and the last one above. -/
theorem uxromBanks : Obligations.UxromBanks := by
  refine ⟨fun _ => rfl, fun c bank v hc hm => ⟨fun a h _ => ?_, fun a h h' => ?_, fun a h h' => ?_⟩⟩
  · rw [Cartridge.cpuWrite, if_neg (by omega), if_neg (by omega), hm]
    rfl
  all_goals
    have hbanks : 0 < c.prgSize / 16384 := by omega
    rw [cpuRead_rom c (by omega), prgSlot_uxrom hm, slot16Last]
  · rw [if_pos h', prgByte_eq hbanks.ne']
    dsimp only [Bank.index]
  · rw [if_neg (by omega), prgByte_eq hbanks.ne']
    dsimp only
    have hlast : (c.prgSize / 16384 - 1) * 16384 = c.prgSize - 16384 := by omega
    rw [bankIndex_fromEnd_one hbanks, hlast]

/-! ## MMC1 -/

/-- A write with bit 7 set empties the shift register (R562). -/
theorem mmc1Write_reset (m : Mmc1) (a : Nat) {v : Byte} (h : v.getLsbD 7 = true) :
    m.write a v = { m with shift := 0, count := 0, control := m.control ||| 0x0C } := by
  rw [Mmc1.write, bitOf, if_pos h]
  rfl

/-- One of the first four writes shifts its low bit in. -/
theorem mmc1Write_shift {m : Mmc1} {k : Nat} (hm : m.count = k) (hk : k < 4) (a : Nat) {v : Byte}
    (h : v.getLsbD 7 = false) :
    m.write a v = { m with shift := m.shift ||| bit8 (v.getLsbD 0) <<< k, count := k + 1 } := by
  rw [Mmc1.write, bitOf, h, if_neg Bool.false_ne_true, if_neg (by omega), hm]
  rfl

/-- The register that the address of the fifth write selects (R562). -/
def Mmc1.load (m : Mmc1) (reg : Nat) (value : Byte) : Mmc1 :=
  match reg with
  | 0 => { m with control := value }
  | 1 => { m with chr0 := value }
  | 2 => { m with chr1 := value }
  | _ => { m with prgr := value }

/-- The fifth write loads a register and empties the shift register. -/
theorem mmc1Write_load {m : Mmc1} (hm : m.count = 4) (a : Nat) {v : Byte} (h : v.getLsbD 7 = false) :
    m.write a v = Mmc1.load { m with shift := 0, count := 0 } (a / 8192 % 4) (m.shift ||| bit8 (v.getLsbD 0) <<< 4) := by
  rw [Mmc1.write, bitOf, h, if_neg Bool.false_ne_true, hm]
  rfl

/-- Five bits shifted in, the first lowest. -/
theorem shiftedBits (b0 b1 b2 b3 b4 : Bool) :
    0#8 ||| bit8 b0 <<< 0 ||| bit8 b1 <<< 1 ||| bit8 b2 <<< 2 ||| bit8 b3 <<< 3 ||| bit8 b4 <<< 4 =
      BitVec.ofNat 8 (b0.toNat + 2 * b1.toNat + 4 * b2.toNat + 8 * b3.toNat + 16 * b4.toNat) := by
  revert b0 b1 b2 b3 b4
  decide

theorem toNat_getLsbD_zero (v : Byte) : (v.getLsbD 0).toNat = v.toNat % 2 := by
  rw [BitVec.getLsbD, Nat.testBit_zero]
  obtain h | h := Nat.mod_two_eq_zero_or_one v.toNat <;> simp [h]

theorem mmc1_fiveWrites {m : Mmc1} (a : Nat) {v : Nat → Byte} (b : Nat → Nat) (hs : m.shift = 0) (hc : m.count = 0)
    (h : ∀ k, k < 5 → (v k).getLsbD 7 = false) :
    ((((m.write (b 0) (v 0)).write (b 1) (v 1)).write (b 2) (v 2)).write (b 3) (v 3)).write a (v 4) =
      m.load (a / 8192 % 4) (BitVec.ofNat 8 ((v 0).toNat % 2 + 2 * ((v 1).toNat % 2) + 4 * ((v 2).toNat % 2)
        + 8 * ((v 3).toNat % 2) + 16 * ((v 4).toNat % 2))) := by
  simp only [← toNat_getLsbD_zero, ← shiftedBits]
  obtain ⟨shift, count, _, _, _, _⟩ := m
  obtain rfl : shift = 0#8 := hs
  obtain rfl : count = 0 := hc
  rw [mmc1Write_shift (k := 0) rfl (by decide) _ (h 0 (by decide)),
    mmc1Write_shift (k := 1) rfl (by decide) _ (h 1 (by decide)),
    mmc1Write_shift (k := 2) rfl (by decide) _ (h 2 (by decide)),
    mmc1Write_shift (k := 3) rfl (by decide) _ (h 3 (by decide)), mmc1Write_load rfl _ (h 4 (by decide))]
  rfl

/-- Settles O57: four shifts and a load, or a reset. -/
theorem mmc1LoadsInFiveWrites : Obligations.Mmc1LoadsInFiveWrites := by
  intro m a v hs hc h
  refine ⟨fun b => ?_, fun n w hw => mmc1Write_reset n a hw⟩
  dsimp only
  rw [mmc1_fiveWrites a b hs hc h]
  refine ⟨fun ha => ?_, fun ha => ?_, fun ha => ?_, fun ha => ?_⟩ <;> rw [ha] <;> rfl

/-! ## MMC3 -/

/-- What the counter takes at a clock (R596). -/
def Mmc3.nextCount (m : Mmc3) : Byte := if m.irqCounter = 0#8 ∨ m.irqReload = true then m.irqLatch else m.irqCounter - 1#8

/-- A clock: the count, no reload pending, and the flag where the count is 0 (R596). -/
theorem clockCounter_eq (m : Mmc3) (fc : Nat) : m.clockCounter fc =
    { m with
      irqCounter := m.nextCount
      irqReload := false
      irqFlag := m.irqFlag || (m.nextCount == 0#8 && m.irqEnabled)
      irqPendingAtCycle := if m.nextCount = 0#8 ∧ m.irqEnabled = true then fc else m.irqPendingAtCycle } := by
  have hset : (if m.irqCounter = 0#8 ∨ m.irqReload = true then { m with irqCounter := m.irqLatch, irqReload := false }
      else { m with irqCounter := m.irqCounter - 1#8 }) = { m with irqCounter := m.nextCount, irqReload := false } := by
    unfold Mmc3.nextCount
    split
    · rfl
    · next h =>
      have hreload : m.irqReload = false := Bool.eq_false_of_not_eq_true fun hr => h (.inr hr)
      rw [← hreload]
  rw [Mmc3.clockCounter, hset]
  dsimp only
  split
  · next h => simp [h]
  · next h =>
    have hflag : (m.nextCount == 0#8 && m.irqEnabled) = false := by simpa using h
    rw [hflag, Bool.or_false]

/-- `k` clocks at the frame cycles `fc 0`, `fc 1`, and so on. -/
def Mmc3.clocks (m : Mmc3) (fc : Nat → Nat) (k : Nat) : Mmc3 :=
  Nat.rec (motive := fun _ => Mmc3) m (fun j x => x.clockCounter (fc j)) k

theorem clocks_succ (m : Mmc3) (fc : Nat → Nat) (k : Nat) : m.clocks fc (k + 1) = (m.clocks fc k).clockCounter (fc k) := rfl

/-- From a pending reload the counter runs down from the latch, and the flag rises where it reaches 0 (R596). -/
theorem clocks_from_reload {m : Mmc3} (fc : Nat → Nat) (hreload : m.irqReload = true) (hflag : m.irqFlag = false)
    (henabled : m.irqEnabled = true) (k : Nat) (hk : k ≤ m.irqLatch.toNat) :
    let n := m.clocks fc (k + 1)
    n.irqCounter.toNat = m.irqLatch.toNat - k ∧ n.irqReload = false ∧ n.irqEnabled = true
      ∧ n.irqFlag = decide (k = m.irqLatch.toNat) := by
  dsimp only
  induction k with
  | zero =>
    have hnext : m.nextCount = m.irqLatch := if_pos (.inr hreload)
    have hfirst : m.clocks fc (0 + 1) = m.clockCounter (fc 0) := rfl
    rw [hfirst, clockCounter_eq, hnext]
    refine ⟨rfl, rfl, henabled, ?_⟩
    have hzero : (m.irqLatch == 0#8) = decide (0 = m.irqLatch.toNat) := by
      rw [beq_eq_decide]
      exact decide_eq_decide.2 ⟨fun h => by rw [h]; rfl, fun h => BitVec.eq_of_toNat_eq h.symm⟩
    simp only [hflag, henabled, hzero, Bool.false_or, Bool.and_true]
  | succ k ih =>
    obtain ⟨hcount, hreload', henabled', hflag'⟩ := ih (by omega)
    rw [clocks_succ, clockCounter_eq]
    generalize m.clocks fc (k + 1) = n at hcount hreload' henabled' hflag' ⊢
    have hrunning : ¬(n.irqCounter = 0#8 ∨ n.irqReload = true) := by
      rintro (h | h)
      · rw [h, BitVec.toNat_zero] at hcount
        omega
      · rw [h] at hreload'
        cases hreload'
    have hnext : n.nextCount.toNat = m.irqLatch.toNat - (k + 1) := by
      rw [Mmc3.nextCount, if_neg hrunning]
      bv_omega
    refine ⟨hnext, rfl, henabled', ?_⟩
    have hzero : (n.nextCount == 0#8) = decide (k + 1 = m.irqLatch.toNat) := by
      rw [beq_eq_decide]
      refine decide_eq_decide.2 ⟨fun h => ?_, fun h => BitVec.eq_of_toNat_eq ?_⟩
      · rw [h, BitVec.toNat_zero] at hnext
        omega
      · rw [hnext, BitVec.toNat_zero]
        omega
    have hbefore : decide (k = m.irqLatch.toNat) = false := decide_eq_false (by omega)
    simp only [hflag', hbefore, henabled', hzero, Bool.false_or, Bool.and_true]

/-- The A12 filter (R595): the level is the address's, a fall starts the count, and a rise after 16 low dots is a clock. -/
theorem addressBus_eq (m : Mmc3) (addr : Word) (fc : Nat) : m.addressBus addr fc =
    if m.lastA12 = false ∧ addr.getLsbD 12 = true ∧ 16 ≤ cyclesLow fc m.lastA12Cycle then
      { m.clockCounter fc with lastA12 := true }
    else { m with
      lastA12 := addr.getLsbD 12
      lastA12Cycle := if m.lastA12 = true ∧ addr.getLsbD 12 = false then fc else m.lastA12Cycle } := by
  have hrise : (!m.lastA12 && addr.getLsbD 12 && decide (Config.a12FilterDots ≤ cyclesLow fc m.lastA12Cycle)) =
      decide (m.lastA12 = false ∧ addr.getLsbD 12 = true ∧ 16 ≤ cyclesLow fc m.lastA12Cycle) := by
    rw [Bool.decide_and, Bool.decide_and, Bool.decide_eq_true, Bool.decide_eq_false, Bool.and_assoc]
    rfl
  have hfall : (m.lastA12 && !addr.getLsbD 12) = decide (m.lastA12 = true ∧ addr.getLsbD 12 = false) := by simp
  simp only [Mmc3.addressBus, hrise, hfall, decide_eq_true_eq]
  split
  · next h =>
    obtain ⟨hlast, hline, -⟩ := h
    rw [if_neg (by simp [hline]), hline]
  · split <;> rfl

/-- Settles O58: the counter by induction over its clocks, the filter by its one equation. -/
theorem mmc3CountsScanlines : Obligations.Mmc3CountsScanlines := by
  refine ⟨fun m fc hreload hflag henabled k hk => ?_, fun m addr fc => ?_, fun c m hm => ?_⟩
  · obtain ⟨hcount, -, -, hflag'⟩ := clocks_from_reload fc hreload hflag henabled k hk
    exact ⟨hcount, hflag'⟩
  · dsimp only
    rw [addressBus_eq]
    split
    · next h =>
      obtain ⟨hlast, hline, hlow⟩ := h
      refine ⟨hline.symm, ?_, fun hno => ?_, fun _ _ _ => rfl⟩
      · rw [if_neg (by simp [hline]), clockCounter_eq]
      · obtain hno | hno | hno := hno
        · exact absurd (hlast.symm.trans hno) Bool.false_ne_true
        · exact absurd (hno.symm.trans hline) Bool.false_ne_true
        · exact absurd hno (Nat.not_lt.2 hlow)
    · next h => exact ⟨rfl, rfl, fun _ => rfl, fun hlast hline hlow => absurd ⟨hlast, hline, hlow⟩ h⟩
  · rw [Cartridge.notifyFrameStart, hm]

end Sys2Proof.Machine
end

section
/-! PROOFS. Reset and load (63_cartridge_mappers.md R553, R555; 70_reset_and_hazards.md R700, R704, R715): what a reset gives, that
it keeps the good states, and how an image is parsed. -/

namespace Sys2Proof.Machine

/-! ## Reset -/

/-- The word at the reset vector in the bank mapped at power-on (R700). -/
def Cartridge.resetWord (c : Cartridge) : Word := mkWord (c.mapperReset.cpuRead 0xFFFD) (c.mapperReset.cpuRead 0xFFFC)

/-- A reset at the default parameters (R700-R703; D2, D3, D4, D29). -/
theorem resetMachine_eq (s : State) : resetMachine Config.defaults s =
    { cpu := .atReset s.cart.resetWord
      bus := s.bus.reset
      ppu := s.ppu.reset
      apu := .atReset
      cart := s.cart.mapperReset
      loop := { s.loop with nmiDelayArmed := false, cycleCount := 0#64 } } := by
  have hvector : ∀ t : State, read16 Config.resetVector t = (mkWord (t.cart.cpuRead 0xFFFD) (t.cart.cpuRead 0xFFFC), t) :=
    fun t => by
      have h : 0x4020 ≤ Config.resetVector.toNat := by decide
      have h' : 0x4020 ≤ (Config.resetVector + 1#16).toNat := by decide
      rw [read16, readPair, busRead_cart h, busRead_cart h']
      rfl
  rw [resetMachine, hvector]
  rfl

@[simp] theorem mapperReset_mapperReset (c : Cartridge) : c.mapperReset.mapperReset = c.mapperReset := by
  cases hm : c.mapper <;> simp [Cartridge.mapperReset, hm, axromPowerOn]

/-- A second reset changes nothing: the first one has set all that it sets. -/
theorem resetMachine_resetMachine (s : State) :
    resetMachine Config.defaults (resetMachine Config.defaults s) = resetMachine Config.defaults s := by
  simp only [resetMachine_eq, Cartridge.resetWord, mapperReset_mapperReset]
  rfl

theorem loadRom_loaded {p : Config.Params} {image : List Byte} {c : Console} {s : State}
    (h : loadRom p image c = (.loaded s, none)) : ∃ cart, s = resetMachine p (.fresh p cart) := by
  unfold loadRom at h
  split at h
  · next cart _ => exact ⟨cart, (Console.loaded.inj (congrArg Prod.fst h)).symm⟩
  · exact absurd (congrArg Prod.snd h) nofun

/-- Settles O34: a load ends in a reset, and a second reset changes nothing. -/
theorem resetReloadsTheVector : Obligations.ResetReloadsTheVector := by
  refine ⟨fun s => ?_, fun image c s h => ?_⟩
  · rw [resetMachine_eq]
    exact ⟨rfl, rfl, rfl, rfl, rfl, rfl, rfl, rfl⟩
  · obtain ⟨cart, rfl⟩ := loadRom_loaded h
    exact resetMachine_resetMachine _

/-! ## A reset keeps the good states -/

theorem mapperReset_number (c : Cartridge) : c.mapperReset.mapper.number = c.mapper.number := by
  cases hm : c.mapper <;> simp [Cartridge.mapperReset, hm, axromPowerOn, Mapper.number]

theorem mapperReset_ok (c : Cartridge) : c.mapperReset.mapper.ok = true := by
  cases hm : c.mapper <;> simp [Cartridge.mapperReset, hm, axromPowerOn, Mapper.ok, mmc1PowerOn]

theorem mapperReset_good {c : Cartridge} (h : c.Good) : c.mapperReset.Good :=
  ⟨h.memories, h.sizes, (mapperReset_number c).trans h.mapper.1, mapperReset_ok c⟩

theorem resetMachine_good {s : State} (h : s.good) : (resetMachine Config.defaults s).good := by
  obtain ⟨-, hdevices⟩ := (good_iff s).1 h
  obtain ⟨hcpu, ⟨⟨hgrid, hfields, hsprites, -⟩, -⟩, hapu, -⟩ := (good_iff _).1 resetStateIsGood.1
  rw [resetMachine_eq]
  exact (good_iff _).2 ⟨hcpu, ⟨⟨hgrid, hfields, hsprites, hdevices.video.ppu.memories⟩, mapperReset_good hdevices.video.cart⟩,
    hapu, hdevices.ram⟩

/-- A machine built around a good cartridge (R704). -/
theorem fresh_good {c : Cartridge} (h : c.Good) : (State.fresh Config.defaults c).good := by
  obtain ⟨⟨hrom, hchr, -⟩, hsizes, hmapper⟩ := h
  have hnil : ∀ n, Memory.wf [] ∧ Memory.below n [] := fun _ => ⟨⟨List.Pairwise.nil, nofun⟩, nofun⟩
  obtain ⟨hcpu, hdevices⟩ := (good_iff _).1 resetStateIsGood.1
  rw [fresh_defaults]
  refine (good_iff _).2 ⟨hcpu, withCart_devicesGood hdevices ⟨⟨hrom, ?_, hnil 8192⟩, hsizes, hmapper⟩⟩
  dsimp only
  split
  · exact hnil _
  · exact hchr

/-! ## Parsing -/

/-- The header's mapper number as a number (R553). -/
theorem headerMapper_toNat (f6 f7 : Byte) : (headerMapper f6 f7).toNat = f7.toNat / 16 * 16 + f6.toNat / 16 := by
  have hhigh : f7 &&& 0xF0#8 = f7 >>> 4 <<< 4 := by
    apply BitVec.eq_of_getLsbD_eq
    intro i hi
    interval_cases i <;> simp
  have hlow : f6.toNat / 16 < 2 ^ 4 := by omega
  rw [headerMapper, hhigh, BitVec.toNat_or, BitVec.toNat_shiftLeft, BitVec.toNat_ushiftRight, BitVec.toNat_ushiftRight,
    Nat.shiftRight_eq_div_pow, Nat.shiftRight_eq_div_pow]
  have hfits : (f7.toNat / 2 ^ 4) <<< 4 % 2 ^ 8 = (f7.toNat / 16) <<< 4 := by
    rw [Nat.shiftLeft_eq]
    omega
  rw [hfits, ← Nat.shiftLeft_add_eq_or_of_lt hlow, Nat.shiftLeft_eq]

/-- The factory knows the numbers of R560. -/
theorem mapperOf_some {n : Nat} (h : n ∈ [0, 1, 2, 3, 4, 7, 9, 10, 11, 34, 66, 71, 79, 206]) (prgSize : Nat) :
    ∃ m, mapperOf n prgSize = some m ∧ m.number = n ∧ m.ok = true := by
  fin_cases h <;> exact ⟨_, rfl, rfl, rfl⟩

/-- The factory knows no others. -/
theorem mapperOf_none {n : Nat} (h : n ∉ [0, 1, 2, 3, 4, 7, 9, 10, 11, 34, 66, 71, 79, 206]) (prgSize : Nat) :
    mapperOf n prgSize = none := by
  unfold mapperOf
  split <;> simp at h ⊢

/-- What the header of an image declares (R553): the lengths of PRG and CHR, where the PRG begins, and the mapper. -/
abbrev imagePrgSize (image : List Byte) : Nat := (image.getD 4 0#8).toNat * 16384
abbrev imageChrSize (image : List Byte) : Nat := (image.getD 5 0#8).toNat * 8192
abbrev imageOffset (image : List Byte) : Nat := 16 + if bitOf (image.getD 6 0#8) 2 then 512 else 0
abbrev imageMapper (image : List Byte) : Nat := (image.getD 7 0#8).toNat / 16 * 16 + (image.getD 6 0#8).toNat / 16

/-- `c` is the cartridge of an image: the header's fields, the PRG and CHR bytes, the header's mapper (R553, R555). -/
structure Cartridge.isOf (c : Cartridge) (image : List Byte) : Prop where
  prgSize : c.prgSize = imagePrgSize image
  chrSize : c.chrSize = if imageChrSize image = 0 then 8192 else imageChrSize image
  hasChrRam : c.hasChrRam = decide (imageChrSize image = 0)
  mapperNumber : c.mapperNumber.toNat = imageMapper image
  mapper : c.mapper.number = imageMapper image
  hasBattery : c.hasBattery = (image.getD 6 0#8).getLsbD 1
  initialMirror : c.initialMirror = if (image.getD 6 0#8).getLsbD 3 then .fourScreen
    else if (image.getD 6 0#8).getLsbD 0 then .vertical else .horizontal
  prgRom : ∀ k, k < imagePrgSize image → c.prgRom.read k = image.getD (imageOffset image + k) 0#8
  chr : ∀ k, k < imageChrSize image → c.chr.read k = image.getD (imageOffset image + imagePrgSize image + k) 0#8

/-- A memory made of a stretch of a list reads as that stretch. -/
theorem read_memoryFrom_stretch (image : List Byte) (off n : Nat) {k : Nat} (hk : k < n) :
    (memoryFrom 0 ((image.drop off).take n)).read k = image.getD (off + k) 0#8 := by
  rw [read_memoryFrom, if_pos (Nat.zero_le k), Nat.sub_zero, List.getD_eq_getElem?_getD, List.getD_eq_getElem?_getD,
    List.getElem?_take_of_lt hk, List.getElem?_drop]
  rfl

theorem memoryFrom_below (bs : List Byte) {n : Nat} (h : bs.length ≤ n) : Memory.below n (memoryFrom 0 bs) := fun c hc => by
  have := (memoryFrom_key bs 0 c hc).2
  omega

section Parse
variable {image : List Byte}

theorem parseRom_shortHeader (h : image.length < 16) : parseRom image = .error .shortHeader := by
  rw [parseRom, if_pos h]

theorem parseRom_badMagic (h : 16 ≤ image.length) (hmagic : image.take 4 ≠ [0x4E#8, 0x45#8, 0x53#8, 0x1A#8]) :
    parseRom image = .error .badMagic := by
  rw [parseRom, if_neg (Nat.not_lt.2 h), if_pos hmagic]

variable (h : 16 ≤ image.length) (hmagic : image.take 4 = [0x4E#8, 0x45#8, 0x53#8, 0x1A#8])
include h hmagic

theorem parseRom_noPrg (hprg : imagePrgSize image = 0) : parseRom image = .error .noPrg := by
  rw [parseRom, if_neg (Nat.not_lt.2 h), if_neg (not_not.2 hmagic), if_pos hprg]

variable (hprg : imagePrgSize image ≠ 0)
include hprg

theorem parseRom_tooFewBytes (hlen : image.length < imageOffset image + imagePrgSize image + imageChrSize image) :
    parseRom image = .error .tooFewBytes := by
  rw [parseRom, if_neg (Nat.not_lt.2 h), if_neg (not_not.2 hmagic), if_neg hprg, if_pos hlen]

variable (hlen : imageOffset image + imagePrgSize image + imageChrSize image ≤ image.length)
include hlen

theorem parseRom_unsupportedMapper (hmapper : imageMapper image ∉ [0, 1, 2, 3, 4, 7, 9, 10, 11, 34, 66, 71, 79, 206]) :
    parseRom image = .error (.unsupportedMapper (imageMapper image)) := by
  have hnone := mapperOf_none hmapper (imagePrgSize image)
  rw [imageMapper, ← headerMapper_toNat] at hnone ⊢
  rw [parseRom, if_neg (Nat.not_lt.2 h), if_neg (not_not.2 hmagic), if_neg hprg, if_neg (Nat.not_lt.2 hlen)]
  simp only [hnone]

theorem parseRom_ok (hmapper : imageMapper image ∈ [0, 1, 2, 3, 4, 7, 9, 10, 11, 34, 66, 71, 79, 206]) :
    ∃ c, parseRom image = .ok c ∧ c.Good ∧ c.isOf image := by
  obtain ⟨m, hm, hnumber, hok⟩ := mapperOf_some hmapper (imagePrgSize image)
  rw [imageMapper, ← headerMapper_toNat] at hm
  rw [parseRom, if_neg (Nat.not_lt.2 h), if_neg (not_not.2 hmagic), if_neg hprg, if_neg (Nat.not_lt.2 hlen)]
  simp only [hm]
  have hsizes : imagePrgSize image % 16384 = 0 := Nat.mul_mod_left _ _
  have hchr : imageChrSize image % 8192 = 0 := Nat.mul_mod_left _ _
  refine ⟨_, rfl, ⟨⟨⟨memoryFrom_wf _ _, memoryFrom_below _ (List.length_take_le _ _)⟩, ⟨memoryFrom_wf _ _, ?_⟩,
    ⟨List.Pairwise.nil, nofun⟩, nofun⟩, ⟨hsizes, Nat.pos_of_ne_zero hprg, ?_⟩,
    hnumber.trans (headerMapper_toNat _ _).symm, hok⟩, ?_⟩
  · refine memoryFrom_below _ ((List.length_take_le _ _).trans ?_)
    dsimp only
    split <;> omega
  · dsimp only
    split
    · decide
    · next hne => exact ⟨hchr, Nat.pos_of_ne_zero hne⟩
  · refine ⟨rfl, rfl, rfl, headerMapper_toNat _ _, hnumber, rfl, rfl, fun k hk => ?_, fun k hk => ?_⟩
    · exact read_memoryFrom_stretch image _ _ hk
    · dsimp only
      rw [List.drop_drop]
      exact read_memoryFrom_stretch image _ _ hk

end Parse

/-! ## Loading -/

theorem loadRom_error {image : List Byte} {e : LoadError} (h : parseRom image = .error e) (p : Config.Params) (c : Console) :
    loadRom p image c = (c, some e) := by
  rw [loadRom, h]

theorem loadRom_ok {image : List Byte} {cart : Cartridge} (h : parseRom image = .ok cart) (p : Config.Params) (c : Console) :
    loadRom p image c = (.loaded (resetMachine p (.fresh p cart)), none) := by
  rw [loadRom, h]

/-- The machine that a load gives has the image's cartridge: the power-on and the reset touch the memories that are RAM and the
registers of the mapper (R704). -/
theorem isOf_reset_fresh {c : Cartridge} {image : List Byte} (h : c.isOf image) :
    (resetMachine Config.defaults (.fresh Config.defaults c)).cart.isOf image := by
  rw [resetMachine_eq, fresh_defaults]
  refine ⟨h.prgSize, h.chrSize, h.hasChrRam, h.mapperNumber, (mapperReset_number _).trans h.mapper, h.hasBattery,
    h.initialMirror, h.prgRom, fun k hk => ?_⟩
  have hram : c.hasChrRam = false := by
    rw [h.hasChrRam]
    exact decide_eq_false (Nat.ne_of_gt (Nat.zero_lt_of_lt hk))
  rw [← h.chr k hk]
  simp only [Cartridge.mapperReset, hram]
  rfl

/-- Settles O59: the parser's checks in their order, and the machine that a load builds around its cartridge. -/
theorem loadsAreGoodOrRefused : Obligations.LoadsAreGoodOrRefused := by
  intro image c
  refine ⟨fun h => loadRom_error (parseRom_shortHeader h) _ c, fun h => ⟨fun hmagic => ?_, fun hmagic =>
    ⟨fun hprg => ?_, fun hprg => ⟨fun hlen => ?_, fun hlen => ⟨fun hmapper => ?_, fun hmapper => ?_⟩⟩⟩⟩⟩
  · exact loadRom_error (parseRom_badMagic h hmagic) _ c
  · exact loadRom_error (parseRom_noPrg h hmagic hprg) _ c
  · exact loadRom_error (parseRom_tooFewBytes h hmagic hprg hlen) _ c
  · exact loadRom_error (parseRom_unsupportedMapper h hmagic hprg hlen hmapper) _ c
  obtain ⟨cart, hparse, hgood, hof⟩ := parseRom_ok h hmagic hprg hlen hmapper
  have hcart := isOf_reset_fresh hof
  refine ⟨_, loadRom_ok hparse _ c, resetMachine_good (fresh_good hgood), hcart.prgSize, hcart.chrSize, hcart.hasChrRam,
    hcart.mapperNumber, hcart.mapper, hcart.hasBattery, hcart.initialMirror, hcart.prgRom, hcart.chr, ?_⟩
  rw [resetMachine_eq, fresh_defaults]
  rfl

end Sys2Proof.Machine
end

section
/-! PROOFS. The PPU's registers (61_ppu.md R410, R412, R415-R418, R440, R444, R445): the scroll registers as numbers, PPUDATA and
its buffer, and what a read of PPUSTATUS suppresses. -/

namespace Sys2Proof.Machine

/-! ## The bits of the scroll registers -/

/-- The two writes of PPUADDR leave nothing of the old `t` (R416). -/
theorem addressWrites_t (t : Word) (hi lo : Byte) :
    (t &&& 0x00FF#16 ||| (zext16 (hi &&& 0x3F#8) <<< 8)) &&& 0x7F00#16 ||| zext16 lo =
      BitVec.ofNat 16 (hi.toNat % 64 * 256 + lo.toNat) := by
  have hhigh : (hi &&& 0x3F#8).toNat = hi.toNat % 64 := by
    rw [BitVec.toNat_and]
    exact Nat.and_two_pow_sub_one_eq_mod _ 6
  rw [← hhigh, ← mkWord_eq_ofNat]
  apply BitVec.eq_of_getLsbD_eq
  intro i hi
  rw [getLsbD_mkWord]
  interval_cases i <;> simp [zext16]

theorem toNat_append_eq {m n : Nat} (x : BitVec m) (y : BitVec n) : (x ++ y).toNat = x.toNat * 2 ^ n + y.toNat := by
  rw [BitVec.toNat_append, ← Nat.shiftLeft_add_eq_or_of_lt y.isLt, Nat.shiftLeft_eq]

/-- The fields of `t` after a PPUSCROLL pair: fine Y, the old nametable bits, coarse Y, coarse X (R415). -/
def scrollFields (t : Word) (hi lo : Byte) : BitVec (3 + 2 + 5 + 5) :=
  lo.extractLsb' 0 3 ++ t.extractLsb' 10 2 ++ lo.extractLsb' 3 5 ++ hi.extractLsb' 3 5

theorem scrollFields_toNat (t : Word) (hi lo : Byte) : (scrollFields t hi lo).toNat =
    lo.toNat % 8 * 4096 + t.toNat / 1024 % 4 * 1024 + lo.toNat / 8 * 32 + hi.toNat / 8 := by
  simp only [scrollFields, toNat_append_eq, BitVec.extractLsb'_toNat, Nat.shiftRight_eq_div_pow]
  omega

/-- The two writes of PPUSCROLL leave the nametable bits of the old `t` (R415). -/
theorem scrollWrites_t (t : Word) (hi lo : Byte) :
    (t &&& 0x7FE0#16 ||| zext16 (hi >>> 3)) &&& 0x0C1F#16 ||| (zext16 (lo &&& 0x07#8) <<< 12)
        ||| (zext16 (lo &&& 0xF8#8) <<< 2) =
      BitVec.ofNat 16 (lo.toNat % 8 * 4096 + t.toNat / 1024 % 4 * 1024 + lo.toNat / 8 * 32 + hi.toNat / 8) := by
  rw [← scrollFields_toNat, BitVec.ofNat_toNat]
  apply BitVec.eq_of_getLsbD_eq
  intro i hi
  rw [BitVec.getLsbD_setWidth, scrollFields, BitVec.getLsbD_append, BitVec.getLsbD_append, BitVec.getLsbD_append]
  interval_cases i <;> simp [zext16]

/-- The nametable bits that PPUCTRL puts into `t` (R410). -/
theorem zext16_shiftLeft_ten (v : Byte) : zext16 (v &&& 0x03#8) <<< 10 = BitVec.ofNat 16 (v.toNat % 4 * 1024) := by
  have hlow : (v &&& 0x03#8).toNat = v.toNat % 4 := by
    rw [BitVec.toNat_and]
    exact Nat.and_two_pow_sub_one_eq_mod _ 2
  apply BitVec.eq_of_toNat_eq
  rw [BitVec.toNat_shiftLeft, Nat.shiftLeft_eq, zext16, BitVec.zeroExtend, BitVec.toNat_setWidth, hlow,
    BitVec.toNat_ofNat]
  omega

/-! ## The write toggle -/

section Toggle
variable {s : Video} (v : Byte)

theorem writeAddr_first (h : s.ppu.w = false) : s.writeAddr v =
    { s with ppu := { s.ppu with t := s.ppu.t &&& 0x00FF#16 ||| (zext16 (v &&& 0x3F#8) <<< 8), w := true } } := by
  rw [Video.writeAddr, if_neg (by simp [h])]

theorem writeAddr_second (h : s.ppu.w = true) : s.writeAddr v =
    { ppu := { s.ppu with t := s.ppu.t &&& 0x7F00#16 ||| zext16 v, v := s.ppu.t &&& 0x7F00#16 ||| zext16 v, w := false }
      cart := s.cart.notifyAddrChange (s.ppu.t &&& 0x7F00#16 ||| zext16 v) s.ppu.frameCycle } := by
  rw [Video.writeAddr, if_pos h]

end Toggle

theorem writeScroll_first {p : Ppu} (h : p.w = false) (v : Byte) : p.writeScroll v =
    { p with t := p.t &&& 0x7FE0#16 ||| zext16 (v >>> 3), fineX := v.truncate 3, w := true } := by
  rw [Ppu.writeScroll, if_neg (by simp [h])]

theorem writeScroll_second {p : Ppu} (h : p.w = true) (v : Byte) : p.writeScroll v = { p with
    t := p.t &&& 0x0C1F#16 ||| (zext16 (v &&& 0x07#8) <<< 12) ||| (zext16 (v &&& 0xF8#8) <<< 2), w := false } := by
  rw [Ppu.writeScroll, if_pos h]

theorem withW_false {p : Ppu} (h : p.w = false) : { p with w := false } = p := by
  rw [← h]

/-- A PPUADDR pair (R416). -/
theorem writeAddr_pair {s : Video} (h : s.ppu.w = false) (hi lo : Byte) :
    ((s.writeAddr hi).writeAddr lo).ppu = { s.ppu with
      v := BitVec.ofNat 16 (hi.toNat % 64 * 256 + lo.toNat), t := BitVec.ofNat 16 (hi.toNat % 64 * 256 + lo.toNat) } := by
  rw [writeAddr_first hi h, writeAddr_second lo rfl]
  simp only [addressWrites_t, ← h]

/-- A PPUSCROLL pair (R415). -/
theorem writeScroll_pair {p : Ppu} (h : p.w = false) (hi lo : Byte) :
    (p.writeScroll hi).writeScroll lo = { p with
      t := BitVec.ofNat 16 (lo.toNat % 8 * 4096 + p.t.toNat / 1024 % 4 * 1024 + lo.toNat / 8 * 32 + hi.toNat / 8)
      fineX := BitVec.ofNat 3 hi.toNat } := by
  rw [writeScroll_first h, writeScroll_second rfl]
  simp only [scrollWrites_t, ← h]
  rfl

/-- PPUCTRL: what it sets but for the latched NMI (R410, R444). -/
theorem writeCtrl_fields (p : Ppu) (v : Byte) :
    (p.writeCtrl v).ctrl = v ∧ (p.writeCtrl v).nmiOutput = v.getLsbD 7 ∧ (p.writeCtrl v).v = p.v
      ∧ (p.writeCtrl v).t = p.t &&& 0x73FF#16 ||| BitVec.ofNat 16 (v.toNat % 4 * 1024)
      ∧ (p.writeCtrl v).nmiTriggeredDelayed = (p.nmiTriggeredDelayed || (!p.nmiOutput && v.getLsbD 7 && p.nmiOccurred)) := by
  rw [← zext16_shiftLeft_ten]
  unfold Ppu.writeCtrl
  dsimp only
  split <;> exact ⟨rfl, rfl, rfl, rfl, rfl⟩

theorem readStatus_withW (p : Ppu) (w : Bool) : (Ppu.readStatus { p with w := w }).2 = p.readStatus.2 := by
  unfold Ppu.readStatus
  dsimp only
  split
  · rfl
  · split <;> rfl

/-- Settles O43: each pair of writes, PPUCTRL's fields, and the toggle that a PPUSTATUS read clears. -/
theorem addressAndScrollWrites : Obligations.AddressAndScrollWrites := by
  intro hi lo v hw
  refine ⟨writeAddr_pair hw hi lo, ?_, writeCtrl_fields v.ppu hi, fun w => ⟨rfl, ?_⟩⟩
  · exact congrArg (fun p => { v with ppu := p }) (writeScroll_pair hw hi lo)
  · exact congrArg (fun p => { v with ppu := p }) (readStatus_withW v.ppu w)

/-! ## PPUDATA -/

theorem toNat_and_3FFF (v : Word) : (v &&& 0x3FFF#16).toNat = v.toNat % 0x4000 := by
  rw [BitVec.toNat_and]
  exact Nat.and_two_pow_sub_one_eq_mod _ 14

/-- The address that a PPUDATA access leaves: 1 or 32 further, in 15 bits (R417, R418). -/
theorem advanceAddr_v (s : Video) :
    s.advanceAddr.ppu.v = BitVec.ofNat 16 ((s.ppu.v.toNat + if s.ppu.ctrl.getLsbD 2 then 32 else 1) % 0x8000) := by
  have hstep : (if bitOf s.ppu.ctrl 2 then 32#16 else 1#16).toNat = if s.ppu.ctrl.getLsbD 2 then 32 else 1 := by
    rw [bitOf]
    split <;> rfl
  apply BitVec.eq_of_toNat_eq
  rw [Video.advanceAddr, BitVec.toNat_and, BitVec.toNat_add, hstep]
  refine (Nat.and_two_pow_sub_one_eq_mod _ 15).trans (Eq.trans ?_ (BitVec.toNat_ofNat _ 16).symm)
  omega

@[simp] theorem busRead_ppu (s : Video) (addr : Word) : (s.busRead addr).2.ppu = s.ppu := by
  unfold Video.busRead
  dsimp only
  split
  · rfl
  · split <;> rfl

/-- Nothing but the picture of the bus: a write leaves the address and PPUCTRL. -/
theorem busWrite_ppu (s : Video) (addr : Word) (v : Byte) :
    (s.busWrite addr v).ppu.v = s.ppu.v ∧ (s.busWrite addr v).ppu.ctrl = s.ppu.ctrl := by
  unfold Video.busWrite
  dsimp only
  split
  · exact ⟨rfl, rfl⟩
  · split <;> exact ⟨rfl, rfl⟩

section Ranges
variable {s : Video} {addr : Word}

theorem busRead_pattern (h : addr.toNat % 0x4000 < 0x2000) :
    (s.busRead addr).1 = s.cart.chr.read (s.cart.chrIndex (addr.toNat % 0x4000)) := by
  rw [Video.busRead, if_pos h]
  rfl

theorem busRead_nametable (h : 0x2000 ≤ addr.toNat % 0x4000) (h' : addr.toNat % 0x4000 < 0x3F00) :
    s.busRead addr = (s.ppu.nametableRam.read (ntIndex s.cart.mirrorMode (addr.toNat % 0x4000)), s) := by
  rw [Video.busRead, if_neg (by omega), if_pos h']

theorem busRead_palette (h : 0x3F00 ≤ addr.toNat % 0x4000) :
    s.busRead addr = (s.ppu.paletteRam.read (palIndex (addr.toNat % 0x4000)), s) := by
  rw [Video.busRead, if_neg (by omega), if_neg (by omega)]

variable (v : Byte)

theorem busWrite_pattern (h : addr.toNat % 0x4000 < 0x2000) :
    s.busWrite addr v = { s with cart := s.cart.chrWrite (addr.toNat % 0x4000) v } := by
  rw [Video.busWrite, if_pos h]

theorem busWrite_nametable (h : 0x2000 ≤ addr.toNat % 0x4000) (h' : addr.toNat % 0x4000 < 0x3F00) :
    s.busWrite addr v = { s with ppu := { s.ppu with
      nametableRam := s.ppu.nametableRam.write (ntIndex s.cart.mirrorMode (addr.toNat % 0x4000)) v } } := by
  rw [Video.busWrite, if_neg (by omega), if_pos h']

theorem busWrite_palette (h : 0x3F00 ≤ addr.toNat % 0x4000) :
    s.busWrite addr v = { s with ppu := { s.ppu with
      paletteRam := s.ppu.paletteRam.write (palIndex (addr.toNat % 0x4000)) v } } := by
  rw [Video.busWrite, if_neg (by omega), if_neg (by omega)]

end Ranges

/-! What the mapper sees of an address moves no CHR bank and no mirroring. -/

theorem clockCounter_banks (m : Mmc3) (fc : Nat) : (m.clockCounter fc).chrMode = m.chrMode
    ∧ (m.clockCounter fc).r = m.r ∧ (m.clockCounter fc).mirror = m.mirror := by
  rw [clockCounter_eq]
  exact ⟨rfl, rfl, rfl⟩

theorem addressBus_banks (m : Mmc3) (addr : Word) (fc : Nat) : (m.addressBus addr fc).chrMode = m.chrMode
    ∧ (m.addressBus addr fc).r = m.r ∧ (m.addressBus addr fc).mirror = m.mirror := by
  rw [addressBus_eq]
  split
  · exact clockCounter_banks m fc
  · exact ⟨rfl, rfl, rfl⟩

section Notify
variable (c : Cartridge) (addr : Word) (fc : Nat)

theorem notifyAddressBus_chrIndex (a : Nat) : (c.notifyAddressBus addr fc).chrIndex a = c.chrIndex a := by
  unfold Cartridge.notifyAddressBus
  split
  · next m hm =>
    obtain ⟨hmode, hr, -⟩ := addressBus_banks m addr fc
    simp only [Cartridge.chrIndex, hm, hmode, hr]
  · rfl

theorem notifyAddressBus_mirrorMode : (c.notifyAddressBus addr fc).mirrorMode = c.mirrorMode := by
  unfold Cartridge.notifyAddressBus
  split
  · next m hm =>
    obtain ⟨-, -, hmirror⟩ := addressBus_banks m addr fc
    simp only [Cartridge.mirrorMode, hm, hmirror]
  · rfl

theorem notifyAddressBus_chr : (c.notifyAddressBus addr fc).chr = c.chr := by
  rw [notifyAddressBus_eq]

end Notify

/-- Moving the address changes no byte that the PPU can read. -/
theorem advanceAddr_busRead (s : Video) (addr : Word) : (s.advanceAddr.busRead addr).1 = (s.busRead addr).1 := by
  unfold Video.advanceAddr Video.busRead Cartridge.notifyAddrChange Cartridge.chrRead
  dsimp only
  rw [notifyAddressBus_chrIndex, notifyAddressBus_mirrorMode, notifyAddressBus_chr]
  split
  · rfl
  · split <;> rfl

/-- A byte stored is read back, but for CHR ROM (R405). -/
theorem busRead_busWrite_same (s : Video) (addr : Word) (v : Byte)
    (h : 0x2000 ≤ addr.toNat % 0x4000 ∨ s.cart.hasChrRam = true) :
    ((s.busWrite addr v).busRead addr).1 = v := by
  by_cases hpattern : addr.toNat % 0x4000 < 0x2000
  · have hram : s.cart.hasChrRam = true := h.resolve_left (by omega)
    have hindex : (s.cart.chrWrite (addr.toNat % 0x4000) v).chrIndex (addr.toNat % 0x4000) =
        s.cart.chrIndex (addr.toNat % 0x4000) := by
      rw [chrWrite_eq]
      rfl
    rw [busRead_pattern hpattern, busWrite_pattern v hpattern]
    dsimp only
    rw [hindex, Cartridge.chrWrite, if_pos hram]
    exact (Memory.read_write ..).trans (if_pos rfl)
  · by_cases hname : addr.toNat % 0x4000 < 0x3F00
    · rw [busRead_nametable (by omega) hname, busWrite_nametable v (by omega) hname]
      exact (Memory.read_write ..).trans (if_pos rfl)
    · rw [busRead_palette (by omega), busWrite_palette v (by omega)]
      exact (Memory.read_write ..).trans (if_pos rfl)

/-- Two palette addresses are one byte when they are equal modulo 32, or modulo 16 in the backdrop column (R407). -/
theorem palIndex_eq_iff (a c : Nat) :
    palIndex (c % 0x4000) = palIndex (a % 0x4000) ↔ c % 32 = a % 32 ∨ (a % 4 = 0 ∧ c % 16 = a % 16) := by
  unfold palIndex
  dsimp only
  split <;> split <;> omega

theorem busRead_busWrite_palette {a c : Word} (ha : 0x3F00 ≤ a.toNat) (ha' : a.toNat < 0x4000) (hc : 0x3F00 ≤ c.toNat)
    (hc' : c.toNat < 0x4000) (s : Video) (v : Byte) : ((s.busWrite a v).busRead c).1 =
      if c.toNat % 32 = a.toNat % 32 ∨ (a.toNat % 4 = 0 ∧ c.toNat % 16 = a.toNat % 16) then v else (s.busRead c).1 := by
  rw [busRead_palette (by omega), busRead_palette (by omega), busWrite_palette v (by omega)]
  dsimp only
  simp only [Memory.read_write, palIndex_eq_iff]

/-- The PPUDATA buffer filled. -/
def Video.withBuffer (s : Video) (b : Byte) : Video := { s with ppu := { s.ppu with dataBuffer := b } }

/-- A PPUDATA read of the palette: the byte at once, and the buffer from the nametable under it (R417, D37). -/
theorem readData_palette {s : Video} (h : 0x3F00 ≤ (s.ppu.v &&& 0x3FFF#16).toNat) :
    let under := s.busRead ((s.ppu.v &&& 0x3FFF#16) - 0x1000#16)
    s.readData = ((s.busRead (s.ppu.v &&& 0x3FFF#16)).1, (under.2.withBuffer under.1).advanceAddr) := by
  have hle : 0x3F00#16 ≤ s.ppu.v &&& 0x3FFF#16 := h
  have hlt : (s.ppu.v &&& 0x3FFF#16).toNat < 0x4000 := by
    rw [toNat_and_3FFF]
    exact Nat.mod_lt _ (by decide)
  rw [Video.readData, if_pos hle, busRead_palette (addr := s.ppu.v &&& 0x3FFF#16) (by omega)]
  rfl

/-- A PPUDATA read below the palette: the buffer, which is refilled (R417). -/
theorem readData_below {s : Video} (h : (s.ppu.v &&& 0x3FFF#16).toNat < 0x3F00) :
    let b := s.busRead (s.ppu.v &&& 0x3FFF#16)
    s.readData = (s.ppu.dataBuffer, (b.2.withBuffer b.1).advanceAddr) := by
  have hlt : ¬0x3F00#16 ≤ s.ppu.v &&& 0x3FFF#16 := Nat.not_le.2 h
  rw [Video.readData, if_neg hlt]
  rfl

theorem readData_v (s : Video) : s.readData.2.ppu.v =
    BitVec.ofNat 16 ((s.ppu.v.toNat + if s.ppu.ctrl.getLsbD 2 then 32 else 1) % 0x8000) := by
  obtain h | h := Nat.lt_or_ge (s.ppu.v &&& 0x3FFF#16).toNat 0x3F00
  · rw [readData_below h]
    simp only [advanceAddr_v, Video.withBuffer, busRead_ppu]
  · rw [readData_palette h]
    simp only [advanceAddr_v, Video.withBuffer, busRead_ppu]

/-- CHR ROM is not written (R405, 63_cartridge_mappers.md R550). -/
theorem writeData_chrRom {s : Video} (h : s.cart.hasChrRam = false) (v : Byte) : (s.writeData v).cart.chr = s.cart.chr := by
  have hmove : ∀ t : Video, t.advanceAddr.cart.chr = t.cart.chr := fun _ => notifyAddressBus_chr ..
  rw [Video.writeData, hmove]
  exact (busWrite_registerStep s _ v).image.2.1 h

/-- Settles O44: the two kinds of read, the store, and the palette's index. -/
theorem ppuDataIsBuffered : Obligations.PpuDataIsBuffered := by
  intro b v
  have haddr : (v.ppu.v &&& 0x3FFF#16).toNat % 0x4000 = (v.ppu.v &&& 0x3FFF#16).toNat :=
    Nat.mod_eq_of_lt (by rw [toNat_and_3FFF]; exact Nat.mod_lt _ (by decide))
  have hstored : 0x2000 ≤ (v.ppu.v &&& 0x3FFF#16).toNat ∨ v.cart.hasChrRam = true →
      ((v.regWrite 7 b).busRead (v.ppu.v &&& 0x3FFF#16)).1 = b := fun h =>
    (advanceAddr_busRead _ _).trans (busRead_busWrite_same v _ b (h.imp_left fun h => h.trans haddr.ge))
  refine ⟨readData_v v, ?_, fun h => ?_, fun h => ?_, fun h => hstored (.inl h), fun h => ?_, fun h => hstored (.inr h),
    fun a c ha ha' hc hc' => busRead_busWrite_palette ha ha' hc hc' v b⟩
  · obtain ⟨hv, hctrl⟩ := busWrite_ppu v (v.ppu.v &&& 0x3FFF#16) b
    exact (advanceAddr_v _).trans (by rw [hv, hctrl])
  · have hread := readData_below h
    exact ⟨congrArg Prod.fst hread, congrArg (fun r => r.2.ppu.dataBuffer) hread⟩
  · have hread := readData_palette h
    exact ⟨(congrArg Prod.fst hread :), (congrArg (fun r => r.2.ppu.dataBuffer) hread :)⟩
  · exact writeData_chrRom h b

/-! ## PPUSTATUS -/

/-- Between the picture and the pre-render line a dot only moves the position, the NMI's countdown and VBlank (R420, R421). -/
theorem dot_line241 {s : Video} (hline : s.ppu.scanline = 241) (hcycle : s.ppu.cycle < 340) :
    s.dot = { s with ppu := Ppu.events (Ppu.countNmi { s.ppu with cycle := s.ppu.cycle + 1 }) } := by
  have hwork : s.work = s := by
    rw [Video.work, if_neg (by rw [hline]; decide)]
  have hends : s.ppu.frameEnds = false := by
    rw [Ppu.frameEnds, hline]
    rfl
  rw [Video.dot, hwork, Video.advance, if_neg (by rw [hends]; decide), if_pos hcycle]

theorem countNmi_of_not_latched {p : Ppu} (h : p.nmiLatched = false) : p.countNmi = p := by
  rw [Ppu.countNmi, h]
  rfl

/-- A PPUSTATUS read at (241, 0) (R445). -/
theorem readStatus_before {p : Ppu} (hline : p.scanline = 241) (hcycle : p.cycle = 0) : p.readStatus.2 =
    { p with vblSuppress := true, suppressNmi := true, status := p.status &&& 0x7F#8, nmiOccurred := false, w := false } := by
  simp [Ppu.readStatus, hline, hcycle]

/-- At (241, 1) and (241, 2). -/
theorem readStatus_after {p : Ppu} (hline : p.scanline = 241) (hcycle : p.cycle = 1 ∨ p.cycle = 2) : p.readStatus.2 =
    { p with
      suppressNmi := true, nmiLatched := false, nmiDelay := 0#8, status := p.status &&& 0x7F#8, nmiOccurred := false
      w := false } := by
  obtain h | h := hcycle <;> simp [Ppu.readStatus, hline, h]

/-- Anywhere else. -/
theorem readStatus_elsewhere {p : Ppu} (h : ¬(p.scanline = 241 ∧ p.cycle ≤ 2)) :
    p.readStatus.2 = { p with status := p.status &&& 0x7F#8, nmiOccurred := false, w := false } := by
  have h0 : ¬(p.scanline == 241 && p.cycle == 0) = true := by
    simp only [Bool.and_eq_true, beq_iff_eq]
    omega
  have h1 : ¬(p.scanline == 241 && (p.cycle == 1 || p.cycle == 2)) = true := by
    simp only [Bool.and_eq_true, Bool.or_eq_true, beq_iff_eq]
    omega
  simp only [Ppu.readStatus, if_neg h0, if_neg h1]

/-- Arrival at (241, 1) without an NMI on its way (R440). -/
theorem dot_toVblank {s : Video} (hline : s.ppu.scanline = 241) (hcycle : s.ppu.cycle = 0)
    (hlatched : s.ppu.nmiLatched = false) : s.dot = { s with ppu := Ppu.startVblank { s.ppu with cycle := 1 } } := by
  rw [dot_line241 hline (by omega), hcycle, countNmi_of_not_latched (by exact hlatched), Ppu.events,
    if_pos (by exact ⟨hline, rfl⟩)]

/-- The same where VBlank is suppressed (R445). -/
theorem dot_toVblank_suppressed {s : Video} (hline : s.ppu.scanline = 241) (hcycle : s.ppu.cycle = 0)
    (hlatched : s.ppu.nmiLatched = false) (h : s.ppu.vblSuppress = true) :
    s.dot.ppu = { s.ppu with cycle := 1, frameComplete := true } := by
  rw [dot_toVblank hline hcycle hlatched]
  dsimp only
  rw [Ppu.startVblank, if_pos (by exact h)]

/-- Settles O45: the read's three cases, and the dot after the first of them. -/
theorem statusReadsSuppress : Obligations.StatusReadsSuppress := by
  intro v
  refine ⟨rfl, rfl, rfl, rfl, rfl, fun hline hcycle hlatched => ?_, fun hline hcycle => ?_, fun h => ?_⟩
  · have hread := readStatus_before hline hcycle
    have hdot : (Video.dot (v.regRead 2).2).ppu = _ := dot_toVblank_suppressed
      ((congrArg Ppu.scanline hread :).trans hline) ((congrArg Ppu.cycle hread :).trans hcycle)
      ((congrArg Ppu.nmiLatched hread :).trans hlatched) (congrArg Ppu.vblSuppress hread :)
    have hstatus : (v.ppu.status &&& 0x7F#8).getLsbD 7 = false := by
      rw [BitVec.getLsbD_and]
      exact Bool.and_false _
    rw [hdot]
    exact ⟨rfl, hstatus, rfl, (congrArg Ppu.nmiLatched hread :).trans hlatched, rfl⟩
  · have hread := readStatus_after hline hcycle
    exact ⟨(congrArg Ppu.nmiLatched hread :), (congrArg Ppu.nmiDelay hread :), (congrArg Ppu.suppressNmi hread :)⟩
  · have hread := readStatus_elsewhere h
    exact ⟨(congrArg Ppu.nmiLatched hread :), (congrArg Ppu.nmiDelay hread :), (congrArg Ppu.suppressNmi hread :),
      (congrArg Ppu.vblSuppress hread :)⟩

end Sys2Proof.Machine
end

section
/-! PROOFS. The PPU's dots (61_ppu.md R402, R403, R420, R421, R440-R442, R448): the length of a frame, VBlank and its NMI, and
what a dot leaves alone. -/

namespace Sys2Proof.Machine

/-! ## The length of a frame -/

/-- The dots of the frame that starts at (0, 0) with this parity and mask (R403, R448). -/
def Ppu.frameLength (p : Ppu) : Nat := if p.oddFrame && renderingOn p.mask then 89341 else 89342

/-- The grid of a PPU whose frame started as `p`'s did, `k` dots ago. -/
def Ppu.gridAfter (p : Ppu) (k : Nat) : Grid := { p.grid with scanline := k / 341, cycle := k % 341 }

theorem skipMask_of_maskPrev {p : Ppu} (h : p.maskPrev = p.mask) : p.skipMask = p.mask := by
  unfold Ppu.skipMask
  dsimp only
  split
  · exact h
  · rfl

/-- The frame ends at its last dot and at no dot before it. -/
theorem frameEnds_iff {p q : Ppu} (hprev : p.maskPrev = p.mask) {k : Nat} (hk : k < p.frameLength)
    (h : q.grid = p.gridAfter k) : q.frameEnds = true ↔ k + 1 = p.frameLength := by
  have hline : q.scanline = k / 341 := congrArg Grid.scanline h
  have hcycle : q.cycle = k % 341 := congrArg Grid.cycle h
  have hodd : q.oddFrame = p.oddFrame := congrArg Grid.oddFrame h
  have hmask : q.mask = p.mask := congrArg Grid.mask h
  have hskip : q.skipMask = p.mask := by
    rw [skipMask_of_maskPrev ((congrArg Grid.maskPrev h).trans (hprev.trans hmask.symm)), hmask]
  unfold Ppu.frameLength at hk ⊢
  simp only [Ppu.frameEnds, Config.preRenderLine, hline, hcycle, hodd, hskip, Bool.and_eq_true, Bool.or_eq_true,
    beq_iff_eq]
  split at hk
  · next hshort =>
    simp only [Bool.and_eq_true] at hshort
    rw [if_pos (by simp [hshort])]
    simp only [hshort, and_true]
    omega
  · next hlong =>
    simp only [Bool.and_eq_true] at hlong
    rw [if_neg (by simpa using hlong)]
    simp only [and_assoc, hlong, and_false, or_false]
    omega

/-- The start of the next frame (R403, R448, D32). -/
def Grid.nextFrame (g : Grid) : Grid :=
  { g with scanline := 0, cycle := 0, frame := g.frame + 1#64, oddFrame := !g.oddFrame, maskPrev := g.mask }

theorem advance_grid_of_end {v : Video} (h : v.ppu.frameEnds = true) : v.advance.ppu.grid = v.ppu.grid.nextFrame := by
  rw [Video.advance, if_pos h]
  rfl

theorem advance_grid_of_inside {v : Video} (h : ¬v.ppu.frameEnds = true) : v.advance.ppu.grid =
    { v.ppu.grid with
      scanline := if v.ppu.cycle < 340 then v.ppu.scanline else v.ppu.scanline + 1
      cycle := if v.ppu.cycle < 340 then v.ppu.cycle + 1 else 0 } := by
  rw [Video.advance, if_neg h]
  split <;> rfl

/-- Inside a frame the position is the count of its dots. -/
theorem dots_grid {v : Video} (hline : v.ppu.scanline = 0) (hcycle : v.ppu.cycle = 0) (hprev : v.ppu.maskPrev = v.ppu.mask)
    (k : Nat) (hk : k < v.ppu.frameLength) : (v.dots k).ppu.grid = v.ppu.gridAfter k := by
  induction k with
  | zero => simp only [Video.dots, Ppu.gridAfter, Ppu.grid, hline, hcycle, Nat.zero_div, Nat.zero_mod]
  | succ k ih =>
    have hgrid := ih (by omega)
    have hinside : ¬(v.dots k).ppu.frameEnds = true := fun h => by
      have := (frameEnds_iff hprev (by omega) hgrid).1 h
      omega
    have hat : (v.dots k).ppu.scanline = k / 341 := congrArg Grid.scanline hgrid
    have hat' : (v.dots k).ppu.cycle = k % 341 := congrArg Grid.cycle hgrid
    rw [Video.dots, dot_grid, advance_grid_of_inside hinside, hgrid, hat, hat', Ppu.gridAfter, Ppu.gridAfter]
    have hline' : (if k % 341 < 340 then k / 341 else k / 341 + 1) = (k + 1) / 341 := by
      split <;> omega
    have hcycle' : (if k % 341 < 340 then k % 341 + 1 else 0) = (k + 1) % 341 := by
      split <;> omega
    rw [hline', hcycle']

/-- The last dot of a frame leads to the start of the next one. -/
theorem dots_frameLength {v : Video} (hline : v.ppu.scanline = 0) (hcycle : v.ppu.cycle = 0)
    (hprev : v.ppu.maskPrev = v.ppu.mask) : (v.dots v.ppu.frameLength).ppu.grid = v.ppu.grid.nextFrame := by
  have hpos : v.ppu.frameLength = (v.ppu.frameLength - 1) + 1 := by
    unfold Ppu.frameLength
    split <;> rfl
  have hgrid := dots_grid hline hcycle hprev (v.ppu.frameLength - 1) (by omega)
  have hends := (frameEnds_iff hprev (by omega) hgrid).2 hpos.symm
  rw [hpos, Video.dots, dot_grid, advance_grid_of_end hends, hgrid]
  rfl

theorem frameLength_eq (p : Ppu) :
    (if p.oddFrame = true ∧ p.mask &&& 0x18#8 ≠ 0#8 then 89341 else 89342) = p.frameLength := by
  simp [Ppu.frameLength, renderingOn]

/-- Settles O47: the grid is a function of the dots since the frame's start. -/
theorem framesHaveTheirLength : Obligations.FramesHaveTheirLength := by
  intro v hline hcycle hprev n
  have hn : n = v.ppu.frameLength := frameLength_eq v.ppu
  clear_value n
  subst hn
  have hend := dots_frameLength hline hcycle hprev
  refine ⟨⟨congrArg Grid.scanline hend, congrArg Grid.cycle hend, congrArg Grid.frame hend, congrArg Grid.oddFrame hend,
    (congrArg Grid.maskPrev hend).trans (congrArg Grid.mask hend).symm⟩, fun k hk => ?_⟩
  have hgrid := dots_grid hline hcycle hprev k hk
  exact ⟨congrArg Grid.scanline hgrid, congrArg Grid.cycle hgrid, congrArg Grid.frame hgrid, congrArg Grid.oddFrame hgrid⟩

/-! ## VBlank -/

theorem countNmi_running {p : Ppu} (h : p.nmiLatched = true) (hd : 1 < p.nmiDelay.toNat) :
    p.countNmi = { p with nmiDelay := p.nmiDelay - 1#8 } := by
  have hne : ¬p.nmiDelay - 1#8 = 0#8 := by bv_omega
  rw [Ppu.countNmi, if_pos h]
  exact if_neg hne

theorem countNmi_last {p : Ppu} (h : p.nmiLatched = true) (hd : p.nmiDelay.toNat = 1) :
    p.countNmi = { p with nmiDelay := p.nmiDelay - 1#8, nmiLatched := false, nmiTriggered := true } := by
  have heq : p.nmiDelay - 1#8 = 0#8 := by bv_omega
  rw [Ppu.countNmi, if_pos h]
  exact if_pos heq

/-- On VBlank's line, after its first dot, a dot counts a latched NMI down and moves one to the right. -/
theorem dot_inVblank {s : Video} (hline : s.ppu.scanline = 241) (hcycle : 1 ≤ s.ppu.cycle) (hcycle' : s.ppu.cycle < 340) :
    s.dot.ppu = Ppu.countNmi { s.ppu with cycle := s.ppu.cycle + 1 } := by
  rw [dot_line241 hline hcycle']
  have hgrid := countNmi_grid { s.ppu with cycle := s.ppu.cycle + 1 }
  have hat : (Ppu.countNmi { s.ppu with cycle := s.ppu.cycle + 1 }).cycle = s.ppu.cycle + 1 := congrArg Grid.cycle hgrid
  have hat' : (Ppu.countNmi { s.ppu with cycle := s.ppu.cycle + 1 }).scanline = 241 :=
    (congrArg Grid.scanline hgrid).trans hline
  rw [Ppu.events, if_neg (by omega), if_neg (by rw [hat']; simp [Config.preRenderLine])]

/-- The countdown at dot `k` of VBlank's line, with NMI output on or not: an NMI is latched that arrives at dot 16
(R441, R442). -/
structure Ppu.countsDown (on : Bool) (k : Nat) (p : Ppu) : Prop where
  scanline : p.scanline = 241
  cycle : p.cycle = k
  triggered : p.nmiTriggered = false
  latched : p.nmiLatched = on
  delay : on = true → p.nmiDelay.toNat + k = 16

theorem dot_countsDown {on : Bool} {k : Nat} {s : Video} (h : s.ppu.countsDown on k) (h1 : 1 ≤ k) (hk : k < 15) :
    s.dot.ppu.countsDown on (k + 1) := by
  obtain ⟨hline, hcycle, htriggered, hlatched, hdelay⟩ := h
  rw [dot_inVblank hline (by omega) (by omega)]
  cases on with
  | false =>
    rw [countNmi_of_not_latched (by exact hlatched)]
    exact ⟨hline, congrArg (· + 1) hcycle, htriggered, hlatched, nofun⟩
  | true =>
    have hd := hdelay rfl
    rw [countNmi_running (by exact hlatched) (by dsimp only; omega)]
    exact ⟨hline, congrArg (· + 1) hcycle, htriggered, hlatched, fun _ => by dsimp only; bv_omega⟩

/-- The fifteenth dot reports it. -/
theorem dot_arrives {on : Bool} {s : Video} (h : s.ppu.countsDown on 15) :
    s.dot.ppu.scanline = 241 ∧ s.dot.ppu.cycle = 16 ∧ s.dot.ppu.nmiTriggered = on := by
  obtain ⟨hline, hcycle, htriggered, hlatched, hdelay⟩ := h
  rw [dot_inVblank hline (by omega) (by omega)]
  cases on with
  | false =>
    rw [countNmi_of_not_latched (by exact hlatched)]
    exact ⟨hline, congrArg (· + 1) hcycle, htriggered⟩
  | true =>
    have hd := hdelay rfl
    rw [countNmi_last (by exact hlatched) (by dsimp only; omega)]
    exact ⟨hline, congrArg (· + 1) hcycle, rfl⟩

section Vblank
variable {v : Video} (hline : v.ppu.scanline = 241) (hcycle : v.ppu.cycle = 0) (hvbl : v.ppu.vblSuppress = false)
  (hnmi : v.ppu.suppressNmi = false) (hlatched : v.ppu.nmiLatched = false) (htriggered : v.ppu.nmiTriggered = false)
include hline hcycle hvbl hlatched

theorem dot_startsVblank : v.dot.ppu.status.getLsbD 7 = true ∧ v.dot.ppu.nmiOccurred = true := by
  have hbit : (v.ppu.status ||| 0x80#8).getLsbD 7 = true := by
    rw [BitVec.getLsbD_or]
    exact Bool.or_true _
  rw [dot_toVblank hline hcycle hlatched]
  dsimp only
  rw [Ppu.startVblank, if_neg (by simp [hvbl])]
  dsimp only
  split <;> exact ⟨hbit, rfl⟩

include hnmi htriggered

theorem dot_startsCountdown : v.dot.ppu.countsDown v.ppu.nmiOutput 1 := by
  rw [dot_toVblank hline hcycle hlatched]
  dsimp only
  rw [Ppu.startVblank, if_neg (by simp [hvbl])]
  cases hout : v.ppu.nmiOutput with
  | true =>
    rw [if_pos (by simp [hnmi])]
    exact ⟨hline, rfl, htriggered, rfl, fun _ => rfl⟩
  | false =>
    rw [if_neg (by simp)]
    exact ⟨hline, rfl, htriggered, hlatched, nofun⟩

theorem dots_countDown (k : Nat) (hk : k < 15) : (v.dots (k + 1)).ppu.countsDown v.ppu.nmiOutput (k + 1) := by
  induction k with
  | zero => exact dot_startsCountdown hline hcycle hvbl hnmi hlatched htriggered
  | succ k ih => exact dot_countsDown (ih (by omega)) (by omega) hk

end Vblank

/-- Settles O46: the first dot starts VBlank and the countdown, fifteen more run it down. -/
theorem vblankNmiAfterFifteenDots : Obligations.VblankNmiAfterFifteenDots := by
  intro v hline hcycle hvbl hnmi hlatched htriggered
  have hcount := dots_countDown hline hcycle hvbl hnmi hlatched htriggered
  have hfirst := hcount 0 (by decide)
  obtain ⟨hstatus, hoccurred⟩ := dot_startsVblank hline hcycle hvbl hlatched
  refine ⟨⟨hstatus, hoccurred, dot_frameComplete hfirst.scanline hfirst.cycle⟩, fun k hk => ?_⟩
  obtain rfl | hpos := Nat.eq_zero_or_pos k
  · exact ⟨hline, hcycle, htriggered.trans (Bool.and_false _).symm⟩
  obtain rfl | hlt := Nat.eq_or_lt_of_le hk
  · obtain ⟨hl, hc, ht⟩ := dot_arrives (hcount 14 (by decide))
    exact ⟨hl, hc, ht.trans (Bool.and_true _).symm⟩
  · obtain ⟨j, rfl⟩ : ∃ j, k = j + 1 := ⟨k - 1, by omega⟩
    have h := hcount j (by omega)
    refine ⟨h.scanline, h.cycle, ?_⟩
    rw [h.triggered, decide_eq_false (by omega), Bool.and_false]

/-! ## The picture -/

theorem lookup_cons_eq_ite {α : Type} (c : Nat × α) (m : List (Nat × α)) (j : Nat) :
    (c :: m).lookup j = if j = c.1 then some c.2 else m.lookup j := by
  rw [List.lookup_cons]
  by_cases h : j = c.1
  · rw [beq_iff_eq.2 h, if_pos h]
  · rw [beq_eq_false_iff_ne.2 h, if_neg h]

theorem lookup_cellErase {α : Type} (m : List (Nat × α)) (j k : Nat) :
    (cellErase m k).lookup j = if j = k then none else m.lookup j := by
  induction m with
  | nil => exact (ite_self _).symm
  | cons c m ih =>
    unfold cellErase at ih ⊢
    rw [List.filter_cons, lookup_cons_eq_ite]
    by_cases hk : c.1 = k
    · rw [if_neg (by simpa using hk), ih, hk]
      split <;> rfl
    · rw [if_pos (by simpa using hk), lookup_cons_eq_ite, ih]
      grind

theorem lookup_cellInsert {α : Type} {m : List (Nat × α)} {k : Nat} (h : ∀ c ∈ m, c.1 ≠ k) (v : α) (j : Nat) :
    (cellInsert k v m).lookup j = if j = k then some v else m.lookup j := by
  induction m with
  | nil => exact lookup_cons_eq_ite (k, v) [] j
  | cons c m ih =>
    have hc : c.1 ≠ k := h c List.mem_cons_self
    rw [cellInsert]
    split
    · exact lookup_cons_eq_ite (k, v) (c :: m) j
    · rw [lookup_cons_eq_ite, ih fun d hd => h d (List.mem_cons_of_mem _ hd), lookup_cons_eq_ite]
      grind

/-- One pixel drawn, and no other. -/
theorem pixelGet_pixelSet (f : Framebuffer) (py px py' px' : Nat) (c : BitVec 6) :
    pixelGet (pixelSet f py px c) py' px' = if py' = py ∧ px' = px then some c else pixelGet f py' px' := by
  unfold pixelGet pixelSet
  dsimp only
  rw [cellGet_cellSet]
  by_cases hrow : py' = py
  · rw [if_pos hrow, lookup_cellInsert (fun c hc => ne_of_mem_cellErase hc), lookup_cellErase, hrow]
    by_cases hcol : px' = px <;> simp [hcol]
  · rw [if_neg hrow, if_neg (by simp [hrow])]

theorem advance_picture (s : Video) : s.advance.ppu.framebuffer = s.ppu.framebuffer ∧ s.advance.ppu.status = s.ppu.status := by
  unfold Video.advance
  split
  · exact ⟨rfl, rfl⟩
  · split <;> exact ⟨rfl, rfl⟩

theorem countNmi_picture (p : Ppu) : p.countNmi.framebuffer = p.framebuffer ∧ p.countNmi.status = p.status := by
  unfold Ppu.countNmi
  dsimp only
  split
  · split <;> exact ⟨rfl, rfl⟩
  · exact ⟨rfl, rfl⟩

theorem events_framebuffer (p : Ppu) : p.events.framebuffer = p.framebuffer := by
  unfold Ppu.events Ppu.startVblank Ppu.endVblank
  dsimp only
  repeat' split
  all_goals rfl

/-- Of a dot's four phases only the first draws (R420). -/
theorem dot_framebuffer (s : Video) : s.dot.ppu.framebuffer = s.work.ppu.framebuffer :=
  (events_framebuffer _).trans ((countNmi_picture _).1.trans (advance_picture _).1)

/-! ## A dot with rendering off -/

/-- `q` is `p` but for the position, VBlank and the NMI, and the picture. -/
abbrev Ppu.idleStep (p q : Ppu) : Prop :=
  q = { p with
    scanline := q.scanline, cycle := q.cycle, frame := q.frame, oddFrame := q.oddFrame, maskPrev := q.maskPrev
    status := q.status, nmiOccurred := q.nmiOccurred, nmiLatched := q.nmiLatched, nmiDelay := q.nmiDelay
    nmiTriggered := q.nmiTriggered, vblSuppress := q.vblSuppress, suppressNmi := q.suppressNmi
    frameComplete := q.frameComplete, framebuffer := q.framebuffer }

theorem Ppu.idleStep_trans {p q r : Ppu} (h : p.idleStep q) (h' : q.idleStep r) : p.idleStep r := by
  unfold Ppu.idleStep at *
  rw [h']
  congr 1 <;> rw [h]

theorem advance_idleStep (s : Video) : s.ppu.idleStep s.advance.ppu := by
  unfold Video.advance
  split
  · rfl
  · split <;> rfl

theorem countNmi_idleStep (p : Ppu) : p.idleStep p.countNmi := by
  unfold Ppu.countNmi
  dsimp only
  split
  · split <;> rfl
  · rfl

theorem events_idleStep (p : Ppu) : p.idleStep p.events := by
  unfold Ppu.events Ppu.startVblank Ppu.endVblank
  dsimp only
  repeat' split
  all_goals rfl

section Off
variable {s : Video} (hoff : renderingOn s.ppu.mask = false)
include hoff

theorem work_visible_off (hline : s.ppu.scanline ≤ 239) (hcycle : 1 ≤ s.ppu.cycle) (hcycle' : s.ppu.cycle ≤ 256) :
    s.work = { s with ppu := s.ppu.outputBackdrop (s.ppu.cycle - 1) s.ppu.scanline } := by
  rw [Video.work, if_pos (.inl hline), if_neg (by simp [hoff]), if_pos ⟨hline, hcycle, hcycle'⟩]

theorem work_blank_off (h : ¬(s.ppu.scanline ≤ 239 ∧ 1 ≤ s.ppu.cycle ∧ s.ppu.cycle ≤ 256)) : s.work = s := by
  rw [Video.work]
  split
  · rw [if_neg (by simp [hoff])]
  · rfl

theorem dot_idleStep : s.ppu.idleStep s.dot.ppu := by
  have hwork : s.ppu.idleStep s.work.ppu := by
    by_cases h : s.ppu.scanline ≤ 239 ∧ 1 ≤ s.ppu.cycle ∧ s.ppu.cycle ≤ 256
    · rw [work_visible_off hoff h.1 h.2.1 h.2.2]
      rfl
    · rw [work_blank_off hoff h]
  exact Ppu.idleStep_trans hwork (Ppu.idleStep_trans (advance_idleStep s.work)
    (Ppu.idleStep_trans (countNmi_idleStep _) (events_idleStep _)))

end Off

/-- Settles O48: the dot's frame, and its one pixel where rendering is off. -/
theorem dotsStoreNothing : Obligations.DotsStoreNothing := by
  intro v p q
  have hkeeps := dot_rendersTo v
  obtain ⟨hoam, hname, hpal, hctrl, hmask, haddr, ht, hfine, hw, hbuffer, -⟩ := hkeeps.ppu
  refine ⟨⟨hoam, hname, hpal, hctrl, hmask, haddr, ht, hfine, hw, hbuffer, hkeeps.chr, hkeeps.prgRam, hkeeps.image⟩,
    fun h => ?_⟩
  have hoff : renderingOn v.ppu.mask = false := bne_eq_false_iff_eq.2 h
  refine ⟨dot_idleStep hoff, fun hblank => ?_, fun hline hcycle hcycle' => ?_⟩
  · exact (dot_framebuffer v).trans (by rw [work_blank_off hoff hblank])
  · have hpicture : q.framebuffer =
        pixelSet p.framebuffer p.scanline (p.cycle - 1) ((p.paletteRam.read 0).truncate 6) :=
      (dot_framebuffer v).trans (by rw [work_visible_off hoff hline hcycle hcycle']; rfl)
    rw [hpicture]
    refine ⟨?_, fun py px hne => ?_⟩
    · rw [pixelGet_pixelSet, if_pos ⟨rfl, rfl⟩]
    · rw [pixelGet_pixelSet, if_neg fun h => hne (Prod.ext h.1 h.2)]

end Sys2Proof.Machine
end

section
/-! PROOFS. Sprite evaluation and the pixel of a visible dot (61_ppu.md R422, R426, R460-R463). -/

namespace Sys2Proof.Machine

/-! ## Sprite evaluation -/

/-- Is OAM sprite `n` in range of the line (R426)? -/
def Ppu.inRange (p : Ppu) (n : Nat) : Bool :=
  decide ((p.oam.read (4 * n)).toNat ≤ p.scanline ∧ p.scanline < (p.oam.read (4 * n)).toNat + p.spriteHeight)

/-- The sprites of a list put into the slots, with the overflow flag at the first that finds none. -/
def Ppu.takeAll (p : Ppu) : List Nat → Ppu
  | [] => p
  | n :: ns => if p.spriteCount < 8 then (p.takeSprite n).takeAll ns else { p with status := p.status ||| 0x20#8 }

/-- The sprite loop takes those in range, in OAM order. -/
theorem evaluateFrom_eq_takeAll (k : Nat) : ∀ (p : Ppu) (n : Nat),
    evaluateFrom p n k = p.takeAll ((List.range' n k).filter p.inRange) := by
  induction k with
  | zero => exact fun p n => rfl
  | succ k ih =>
    intro p n
    rw [evaluateFrom, List.range'_succ, List.filter_cons]
    cases h : p.inRange n with
    | true =>
      rw [if_pos (of_decide_eq_true h), if_pos rfl, Ppu.takeAll, ih]
      rfl
    | false => rw [if_neg (of_decide_eq_false h), if_neg Bool.false_ne_true, ih]

/-- A slot filled, and the others as they were. -/
theorem slot_takeSprite (p : Ppu) (n i : Nat) : (p.takeSprite n).slot i =
    if i = p.spriteCount ∧ i < 8 then { p.slot i with
      y := p.oam.read (4 * n), tile := p.oam.read (4 * n + 1), attr := p.oam.read (4 * n + 2), x := p.oam.read (4 * n + 3) }
    else p.slot i := by
  have hset (s : SpriteSlot) : (p.slots.setIfInBounds p.spriteCount s).toList.getD i .zero =
      if i = p.spriteCount ∧ i < 8 then s else p.slot i := by
    have hlen : p.slots.toList.length = 8 := Vector.length_toList
    rw [Ppu.slot, Vector.toList_setIfInBounds, List.getD_eq_getElem?_getD, List.getElem?_set, hlen]
    by_cases hi : i = p.spriteCount
    · rw [if_pos hi.symm, ← hi]
      by_cases h8 : i < 8
      · rw [if_pos h8, if_pos ⟨rfl, h8⟩, Option.getD_some]
      · rw [if_neg h8, if_neg (by omega), List.getD_eq_default _ _ (by omega), Option.getD_none]
    · rw [if_neg (Ne.symm hi), if_neg (fun h => hi h.1), List.getD_eq_getElem?_getD]
  refine (hset _).trans ?_
  split
  · next h => rw [h.1]
  · rfl

/-- A slot holds the four bytes of OAM sprite `n`. -/
structure Ppu.holds (p : Ppu) (oam : Memory) (i n : Nat) : Prop where
  y : (p.slot i).y = oam.read (4 * n)
  tile : (p.slot i).tile = oam.read (4 * n + 1)
  attr : (p.slot i).attr = oam.read (4 * n + 2)
  x : (p.slot i).x = oam.read (4 * n + 3)

theorem takeAll_spriteCount (ns : List Nat) : ∀ p : Ppu, p.spriteCount ≤ 8 →
    (p.takeAll ns).spriteCount = min 8 (p.spriteCount + ns.length) := by
  induction ns with
  | nil => exact fun p h => (Nat.min_eq_right h).symm
  | cons n ns ih =>
    intro p h
    have htake : (p.takeSprite n).spriteCount = p.spriteCount + 1 := rfl
    rw [Ppu.takeAll, List.length_cons]
    split
    · rw [ih _ (by omega), htake]
      omega
    · show p.spriteCount = _
      omega

theorem takeAll_status (ns : List Nat) : ∀ p : Ppu, p.spriteCount ≤ 8 →
    (p.takeAll ns).status = if 8 < p.spriteCount + ns.length then p.status ||| 0x20#8 else p.status := by
  induction ns with
  | nil => exact fun p h => (if_neg (by simpa using h)).symm
  | cons n ns ih =>
    intro p h
    have htake : (p.takeSprite n).spriteCount = p.spriteCount + 1 := rfl
    rw [Ppu.takeAll, List.length_cons]
    split
    · rw [ih _ (by omega), htake, Nat.add_right_comm, Nat.add_assoc]
      rfl
    · rw [if_pos (by omega)]

/-- The slots already filled stay. -/
theorem takeAll_slot_below (ns : List Nat) : ∀ (p : Ppu) (i : Nat), i < p.spriteCount → (p.takeAll ns).slot i = p.slot i := by
  induction ns with
  | nil => exact fun p i h => rfl
  | cons n ns ih =>
    intro p i h
    rw [Ppu.takeAll]
    split
    · rw [ih _ _ (Nat.lt_succ_of_lt h), slot_takeSprite, if_neg (by omega)]
    · rfl

/-- Every further slot holds the next sprite of the list. -/
theorem takeAll_holds (ns : List Nat) : ∀ (p : Ppu) (i : Nat),
    i < (p.takeAll ns).spriteCount → p.spriteCount ≤ i → i < 8 →
    (p.takeAll ns).holds p.oam i (ns.getD (i - p.spriteCount) 0) := by
  induction ns with
  | nil => exact fun p i h h' => absurd h (Nat.not_lt.2 h')
  | cons n ns ih =>
    intro p i h hi h8
    have hcount : p.spriteCount < 8 := by omega
    rw [Ppu.takeAll, if_pos hcount] at h ⊢
    obtain rfl | hlt := Nat.eq_or_lt_of_le hi
    · have hslot : ((p.takeSprite n).takeAll ns).slot p.spriteCount = (p.takeSprite n).slot p.spriteCount :=
        takeAll_slot_below ns _ _ (Nat.lt_succ_self _)
      rw [slot_takeSprite, if_pos ⟨rfl, hcount⟩] at hslot
      rw [Nat.sub_self]
      exact ⟨congrArg SpriteSlot.y hslot, congrArg SpriteSlot.tile hslot, congrArg SpriteSlot.attr hslot,
        congrArg SpriteSlot.x hslot⟩
    · have hnext := ih (p.takeSprite n) i h hlt h8
      have hindex : i - p.spriteCount = (i - (p.spriteCount + 1)) + 1 := by omega
      rw [hindex]
      exact hnext

/-- Only OAM sprite 0 moves what is kept about sprite 0. -/
theorem takeAll_spriteZero (ns : List Nat) : ∀ p : Ppu, 0 ∉ ns →
    (p.takeAll ns).spriteZeroIndex = p.spriteZeroIndex ∧ (p.takeAll ns).spriteZeroHitPossible = p.spriteZeroHitPossible := by
  induction ns with
  | nil => exact fun p h => ⟨rfl, rfl⟩
  | cons n ns ih =>
    intro p h
    obtain ⟨hn, hns⟩ := not_or.1 (mt List.mem_cons.2 h)
    rw [Ppu.takeAll]
    split
    · obtain ⟨hindex, hpossible⟩ := ih (p.takeSprite n) hns
      refine ⟨hindex.trans (if_neg (Ne.symm hn)), hpossible.trans ?_⟩
      simp [Ppu.takeSprite, Ne.symm hn]
    · exact ⟨rfl, rfl⟩

/-- The PPU before the sprite loop. -/
def Ppu.clearSprites (p : Ppu) : Ppu := { p with spriteCount := 0, spriteZeroIndex := none, spriteZeroHitPossible := false }

theorem evaluateSprites_preRender {p : Ppu} (h : p.scanline = 261) : p.evaluateSprites = p.clearSprites := by
  rw [Ppu.evaluateSprites]
  exact if_pos h

theorem evaluateSprites_line {p : Ppu} (h : p.scanline ≠ 261) :
    p.evaluateSprites = p.clearSprites.takeAll p.spritesInRange := by
  rw [Ppu.evaluateSprites, if_neg (c := p.scanline = Config.preRenderLine) h, evaluateFrom_eq_takeAll, Ppu.spritesInRange,
    List.range_eq_range']
  rfl

/-- Sprite 0 stands first among the sprites in range, or nowhere. -/
theorem spritesInRange_zero (p : Ppu) : ∃ ns, 0 ∉ ns ∧ (p.spritesInRange = ns ∨ p.spritesInRange = 0 :: ns) := by
  have hrange : List.range 64 = 0 :: List.range' 1 63 := rfl
  refine ⟨(List.range' 1 63).filter p.inRange, fun h => ?_, ?_⟩
  · have := (List.mem_range'_1.1 (List.mem_of_mem_filter h)).1
    omega
  · unfold Ppu.spritesInRange
    rw [hrange, List.filter_cons]
    split
    · exact .inr rfl
    · exact .inl rfl

theorem takeAll_spriteZero_of_spritesInRange (p : Ppu) :
    let q := p.clearSprites.takeAll p.spritesInRange
    q.spriteZeroIndex = (if 0 ∈ p.spritesInRange then some 0 else none)
      ∧ q.spriteZeroHitPossible = decide (0 ∈ p.spritesInRange) := by
  obtain ⟨ns, hns, h | h⟩ := spritesInRange_zero p
  · rw [h, if_neg hns, decide_eq_false hns]
    exact takeAll_spriteZero ns _ hns
  · have hmem : 0 ∈ 0 :: ns := List.mem_cons_self
    rw [h, if_pos hmem, decide_eq_true hmem, Ppu.takeAll, if_pos (show p.clearSprites.spriteCount < 8 from Nat.zero_lt_succ 7)]
    exact takeAll_spriteZero ns _ hns

/-- Settles O49: the sprite loop is `Ppu.takeAll` of the sprites in range. -/
theorem spritesOfALine : Obligations.SpritesOfALine := by
  intro p
  by_cases hpre : p.scanline = 261
  · rw [evaluateSprites_preRender hpre]
    simp only [if_pos hpre]
    exact ⟨rfl, rfl, rfl, rfl, fun i hi => absurd hi (Nat.not_lt_zero i)⟩
  · rw [evaluateSprites_line hpre]
    simp only [if_neg hpre]
    have hcount := takeAll_spriteCount p.spritesInRange p.clearSprites (Nat.zero_le 8)
    have hstatus := takeAll_status p.spritesInRange p.clearSprites (Nat.zero_le 8)
    have hzero : p.clearSprites.spriteCount = 0 := rfl
    rw [hzero, Nat.zero_add] at hcount hstatus
    obtain ⟨hindex, hpossible⟩ := takeAll_spriteZero_of_spritesInRange p
    refine ⟨hcount, hstatus, hindex, hpossible, fun i hi => ?_⟩
    have h8 : i < 8 := by omega
    obtain ⟨hy, htile, hattr, hx⟩ := takeAll_holds p.spritesInRange p.clearSprites i hi (Nat.zero_le i) h8
    exact ⟨hy, htile, hattr, hx⟩

/-! ## The pixel of a dot -/

/-- On a line of the picture no event moves a flag: the next position is on line 240 at most (R420, R440, R443). -/
theorem dot_status {s : Video} (hline : s.ppu.scanline ≤ 239) : s.dot.ppu.status = s.work.ppu.status := by
  have hgrid : s.work.advance.ppu.countNmi.grid = s.advance.ppu.grid :=
    (countNmi_grid _).trans (advance_grid_congr (grid_of_pipelineStep (work_workStep s).ppu))
  have hends : ¬s.ppu.frameEnds = true := by
    simp only [Ppu.frameEnds, Config.preRenderLine, Bool.and_eq_true, beq_iff_eq]
    omega
  have hnext : s.work.advance.ppu.countNmi.scanline ≤ 240 := by
    have : s.work.advance.ppu.countNmi.scanline = _ :=
      (congrArg Grid.scanline hgrid).trans (congrArg Grid.scanline (advance_grid_of_inside hends))
    rw [this]
    dsimp only
    split <;> omega
  have hevents : s.work.advance.ppu.countNmi.events = s.work.advance.ppu.countNmi := by
    rw [Ppu.events, if_neg (by omega), if_neg (by simp only [Config.preRenderLine]; omega)]
  rw [Video.dot]
  dsimp only
  rw [hevents, (countNmi_picture _).2, (advance_picture _).2]

theorem lineEndDot_visible {c : Nat} (p : Ppu) (hc : c ≤ 256) : ∃ w, p.lineEndDot c = { p with v := w } := by
  rw [Ppu.lineEndDot]
  split
  · exact ⟨_, rfl⟩
  · rw [if_neg (by omega)]
    exact ⟨p.v, rfl⟩

theorem tailDot_visible {c : Nat} (s : Video) (hc : c ≤ 256) : s.tailDot c = s := by
  rw [Video.tailDot, if_neg (by omega), if_neg (by omega), if_neg (by omega)]

theorem fetched_scanline (s : Video) (c : Nat) :
    (Video.fetchDot { s with ppu := s.ppu.shiftDot c } c).ppu.scanline = s.ppu.scanline :=
  congrArg Grid.scanline ((grid_of_pipelineStep (fetchDot_workStep { s with ppu := s.ppu.shiftDot c } c).ppu).trans
    (grid_of_pipelineStep (shiftDot_pipelineStep s.ppu c)))

/-- A visible dot's pixel is drawn from what its shifts and its fetch leave (R422, D33). -/
theorem renderDot_visible {s : Video} {c : Nat} (hline : s.ppu.scanline ≤ 239) (hc : 1 ≤ c) (hc' : c ≤ 256) :
    let drawn := (Video.fetchDot { s with ppu := s.ppu.shiftDot c } c).ppu.outputPixel (c - 1) s.ppu.scanline
    (s.renderDot c).ppu.framebuffer = drawn.framebuffer ∧ (s.renderDot c).ppu.status = drawn.status := by
  have hscan := fetched_scanline s c
  rw [← hscan] at hline ⊢
  unfold Video.renderDot
  generalize Video.fetchDot { s with ppu := s.ppu.shiftDot c } c = fetched at *
  obtain ⟨w, hw⟩ := lineEndDot_visible fetched.ppu hc'
  have hinside : ¬(fetched.ppu.scanline = Config.preRenderLine ∧ 280 ≤ c ∧ c ≤ 304) := by omega
  dsimp only
  rw [hw, tailDot_visible _ hc']
  dsimp only
  rw [if_neg hinside, if_pos ⟨hline, hc, hc'⟩]
  exact ⟨rfl, rfl⟩

/-! ## The layers -/

theorem backgroundPixel_clipped {p : Ppu} {px : Nat}
    (h : p.mask.getLsbD 3 = false ∨ (px < 8 ∧ p.mask.getLsbD 1 = false)) : (p.backgroundPixel px).value = 0 := by
  rw [Ppu.backgroundPixel, if_neg]
  · rfl
  · rw [Bool.and_eq_true, Bool.or_eq_true, decide_eq_true_eq, bitOf, bitOf]
    rintro ⟨hshow, hleft⟩
    obtain h | ⟨hpx, h⟩ := h
    · exact Bool.false_ne_true (h.symm.trans hshow)
    · exact Bool.false_ne_true (h.symm.trans (hleft.resolve_left (by omega)))

theorem spritePixel_clipped {p : Ppu} {px : Nat}
    (h : p.mask.getLsbD 4 = false ∨ (px < 8 ∧ p.mask.getLsbD 2 = false)) : (p.spritePixel px).value = 0 := by
  rw [Ppu.spritePixel, if_neg]
  · rfl
  · rw [Bool.and_eq_true, Bool.or_eq_true, decide_eq_true_eq, bitOf, bitOf]
    rintro ⟨hshow, hleft⟩
    obtain h | ⟨hpx, h⟩ := h
    · exact Bool.false_ne_true (h.symm.trans hshow)
    · exact Bool.false_ne_true (h.symm.trans (hleft.resolve_left (by omega)))

/-- The one pixel that `output_pixel` draws (R463). -/
theorem outputPixel_pixelGet (p : Ppu) (px py px' py' : Nat) : pixelGet (p.outputPixel px py).framebuffer py' px' =
    if py' = py ∧ px' = px then
      let m := mixPixels (p.backgroundPixel px) (p.spritePixel px)
      some (p.colour m.1 m.2)
    else pixelGet p.framebuffer py' px' :=
  pixelGet_pixelSet ..

/-- Sprite 0 hit (R462). -/
theorem outputPixel_status (p : Ppu) (px py : Nat) : (p.outputPixel px py).status =
    if (p.backgroundPixel px).value ≠ 0 ∧ (p.spritePixel px).value ≠ 0 ∧ p.spriteZeroHitPossible = true
        ∧ (p.spritePixel px).spriteZero = true ∧ p.mask.getLsbD 3 = true ∧ p.mask.getLsbD 4 = true
      then p.status ||| 0x40#8 else p.status := by
  simp only [Ppu.outputPixel, bitOf, Bool.and_eq_true, bne_iff_ne, and_assoc]

section Mix
variable {bg sp : Pixel}

theorem mixPixels_backdrop (hb : bg.value = 0) (hs : sp.value = 0) : mixPixels bg sp = (0, 0) := by
  rw [mixPixels, if_pos ⟨hb, hs⟩]

theorem mixPixels_sprite (hs : sp.value ≠ 0) (h : bg.value = 0 ∨ sp.front = true) :
    mixPixels bg sp = (sp.palette, sp.value) := by
  rw [mixPixels, if_neg fun h => hs h.2, if_neg hs]
  split
  · rfl
  · next hb => rw [if_pos (h.resolve_left hb)]

theorem mixPixels_background (hb : bg.value ≠ 0) (h : sp.value = 0 ∨ sp.front = false) :
    mixPixels bg sp = (bg.palette, bg.value) := by
  rw [mixPixels, if_neg fun h => hb h.1, if_neg hb]
  split
  · rfl
  · next hs => rw [if_neg (by rw [h.resolve_left hs]; exact Bool.false_ne_true)]

end Mix

/-- Settles O50: the pixel's place in the dot, then the layers case by case. -/
theorem pixelsByPriority : Obligations.PixelsByPriority := by
  refine ⟨fun v hline hcycle hcycle' hon => ?_, fun p px py => ?_⟩
  · have hshown : renderingOn v.ppu.mask = true := bne_iff_ne.2 hon
    have hwork : v.work = v.renderDot v.ppu.cycle := by
      rw [Video.work, if_pos (.inl hline), if_pos hshown]
    obtain ⟨hpicture, hstatus⟩ := renderDot_visible hline hcycle hcycle'
    exact ⟨(dot_framebuffer v).trans (hwork ▸ hpicture), (dot_status hline).trans (hwork ▸ hstatus)⟩
  · have hdrawn : pixelGet (p.outputPixel px py).framebuffer py px = _ :=
      (outputPixel_pixelGet p px py px py).trans (if_pos ⟨rfl, rfl⟩)
    refine ⟨fun hb hs => ?_, fun hs h => ?_, fun hb h => ?_, fun px' py' hne => ?_, outputPixel_status p px py,
      backgroundPixel_clipped, spritePixel_clipped⟩
    · rw [mixPixels_backdrop hb hs] at hdrawn
      exact hdrawn
    · rw [mixPixels_sprite hs h] at hdrawn
      exact hdrawn
    · rw [mixPixels_background hb h] at hdrawn
      exact hdrawn
    · rw [outputPixel_pixelGet, if_neg fun h => hne (Prod.ext h.2 h.1)]

end Sys2Proof.Machine
end
